-- ==== Sys2Proof/Word.lean ====
section
/-! DEFINITION. The widths of the block's values (00_scope.md rule R8, 20_memory.md rule R63). -/

namespace Sys2Proof

/-- A byte of any space (R60). -/
abbrev Byte := BitVec 8

/-- A 32-bit value: an upward address, a register word, a command word (R63, R100). -/
abbrev Word := BitVec 32

/-- A function index, `FN_BITS` = 3 bits (R8). -/
abbrev FnIndex := BitVec 3

/-- A bus address inside one function, `ADDR_BITS` = 17 bits (R8, R61). -/
abbrev BusAddr := BitVec 17

end Sys2Proof
end

