-- ==== Sys2Proof/Syntax.lean ====
section
/-! DEFINITION. The instructions: one constructor per row of spec/opcode_table.json (30_encoding.md rules R102, R104,
R108), and the records their operands are. -/

namespace Sys2Proof

/-- A buffer reference of a requester: `len` bytes of the space BUF from index `base` (R60, R192). -/
structure BufRef where
  base : Nat
  len : Nat
deriving DecidableEq, Repr

/-- What travels beside a `BLK` command word: the block size in bytes and the buffer reference with its offset (R100). -/
structure Side where
  bs : Nat
  buf : BufRef
  off : Nat
deriving DecidableEq, Repr

/-- The sixteen host operations (R108), in the order of their `opsel` numbers. -/
inductive OpSel where
  | init | deinit | readReg | writeReg | blockRead | blockWrite | readInterruptStatus | clearInterrupts
  | readPendingSize | syncInterrupts | enableInterrupts | disableInterrupts | reset | isInitialized | suspend | resume
deriving DecidableEq, Repr, Inhabited

/-- The operands a host operation request can carry (R108); an operation reads only its own. -/
structure Args where
  resume : Bool
  addr : Word
  word : Word
  buf : BufRef
  size : Nat
  mask : Word
  n : Nat
deriving DecidableEq, Repr

/-- The operands of a request that has none. -/
def Args.zero : Args :=
  { resume := false, addr := 0, word := 0, buf := ⟨0, 0⟩, size := 0, mask := 0, n := 0 }

/-- The result codes (R301). -/
inductive Code where
  | ok | eTransport | eNotReady | eUnsupportedChip | eTooManyLines
deriving DecidableEq, Repr, Inhabited

/-- The numbers of the result codes (R301). -/
def Code.value : Code → Int
  | .ok => 0
  | .eTransport => -1
  | .eNotReady => -2
  | .eUnsupportedChip => -3
  | .eTooManyLines => -4

/-- An instruction: one of the seven bus commands (R102, R104) or one of the sixteen host operations (R108). -/
inductive Instr where
  /-- `SB.RD`, plain read of one byte (R142). -/
  | sbRd (fn : FnIndex) (addr : BusAddr)
  /-- `SB.WR`, plain write of one byte (R143). -/
  | sbWr (fn : FnIndex) (addr : BusAddr) (data : Byte)
  /-- `SB.WRRB`, raw write: write then read back (R144). -/
  | sbWrRb (fn : FnIndex) (addr : BusAddr) (data : Byte)
  /-- `BLK.RD.BYTE` (R147). -/
  | blkRdByte (fn : FnIndex) (inc : Bool) (addr : BusAddr) (count : BitVec 9) (side : Side)
  /-- `BLK.RD.BLOCK` (R148). -/
  | blkRdBlock (fn : FnIndex) (inc : Bool) (addr : BusAddr) (count : BitVec 9) (side : Side)
  /-- `BLK.WR.BYTE` (R149). -/
  | blkWrByte (fn : FnIndex) (inc : Bool) (addr : BusAddr) (count : BitVec 9) (side : Side)
  /-- `BLK.WR.BLOCK` (R150). -/
  | blkWrBlock (fn : FnIndex) (inc : Bool) (addr : BusAddr) (count : BitVec 9) (side : Side)
  | init (resume : Bool)
  | deinit
  | readReg (addr : Word)
  | writeReg (addr : Word) (word : Word)
  | blockRead (addr : Word) (buf : BufRef) (size : Nat)
  | blockWrite (addr : Word) (buf : BufRef) (size : Nat)
  | readInterruptStatus
  | clearInterrupts (mask : Word)
  | readPendingSize
  | syncInterrupts (n : Nat)
  | enableInterrupts
  | disableInterrupts
  | reset
  | isInitialized
  | suspend
  | resume
deriving DecidableEq, Repr

end Sys2Proof
end

