-- ==== Sys2Proof/Config.lean ====
section
/-! DEFINITION. The constants the source fixes (00_scope.md rule R8), the configuration record `Cfg` of every number it
leaves open (R7, R9), the sample configuration CFG0, and the free values the spec leaves undefined. -/

namespace Sys2Proof

/-- A byte register's place: a pair `(fn, addr)` (R9, kind `loc8`). -/
structure Loc8 where
  fn : FnIndex
  addr : BusAddr
deriving DecidableEq, Repr

/-- The configuration record (R9). Field names are the spec's. A `bit` of a byte is a `Fin 8`, of a word a `Fin 32`. -/
structure Cfg where
  winEnReg : Loc8
  winEnVal : Byte
  f0BlkszLo : Loc8
  f0BlkszHi : Loc8
  ioEnReg : Loc8
  ioEnVal : Byte
  ioRdyReg : Loc8
  ioRdyMask : Byte
  f1BlkszLo : Loc8
  f1BlkszHi : Loc8
  intEnReg : Loc8
  intEnVal : Byte
  resetReg : Loc8
  resetVal : Byte
  winAddr0 : Loc8
  winData : Loc8
  dmaCntLo : Loc8
  dmaCntHi : Loc8
  irqFlagsA : Loc8
  irqFlagsB : Loc8
  intStatus : Loc8
  intClrA : Loc8
  aSel0Bit : Fin 8
  aSel1Bit : Fin 8
  aEnBit : Fin 8
  intAckB : Loc8
  vmmCtlB : Loc8
  vmmCtlBDiag : Loc8
  bSel0Bit : Fin 8
  bSel1Bit : Fin 8
  bEnBit : Fin 8
  ackMaskA : Byte
  ackMaskB : Byte
  chipIdReg : Word
  chipIdMask : Word
  chipIdPatA : Word
  chipIdPatB : Word
  miscReg : Word
  pseqDisBit : Fin 32
  pinmuxReg : Word
  pinmuxIrqBit : Fin 32
  intrEn1Reg : Word
  en1BaseBit : Fin 32
  intrEn2Reg : Word
  en2BaseBit : Fin 32
  maxIntLines : Nat
  directLo : Word
  directHi : Word
  maxCount : Nat
  initWritesRaw : Bool
  gpioIrq : Bool
deriving DecidableEq, Repr

namespace Config

/-! ### Constants the source fixes (R8) -/

/-- `FN_CTRL`: the function of the window registers and the window data port. -/
def fnCtrl : FnIndex := 0

/-- `FN_DATA`: the data function. -/
def fnData : FnIndex := 1

/-- `BLOCK_SIZE_REQ`: the block size requested for both functions. -/
def blockSizeReq : Nat := 512

/-- `READY_POLLS`: the most polls of the I/O-ready bit. -/
def readyPolls : Nat := 3

/-- `EN1_LINES`: lines allocated in the first enable register. -/
def en1Lines : Nat := 5

/-- `EN2_LINES`: lines allocated in the second enable register. -/
def en2Lines : Nat := 3

/-- `GPIO_FLAG_MASK_A`: mask on the variant-A flag register. -/
def gpioFlagMaskA : Byte := 0x1F

/-- `GPIO_FLAG_MASK_B`: mask on the variant-B flag register. -/
def gpioFlagMaskB : Byte := 0x0F

/-! ### Free values: nothing constrains them (93_implementation_defined.md U1, U30; log 5, log 8) -/

/-- A byte the device's answer leaves undefined. -/
opaque freeByte : Nat → Byte

/-- An undefined 32-bit scratch register. -/
opaque freeWord : Nat → Word

/-- An undefined scratch register without a width. -/
opaque freeNat : Nat → Nat

/-- An undefined operation register. -/
opaque freeOpSel : Nat → OpSel

/-- An undefined result register. -/
opaque freeCode : Nat → Code

end Config

/-- The sample configuration CFG0 (R9, every value `[from general knowledge, not in source]`). `GPIO_IRQ` is true here,
the mode of the spec's program P1 (log 1). -/
def Cfg.cfg0 : Cfg where
  winEnReg := ⟨0, 0x100⟩
  winEnVal := 0x80
  f0BlkszLo := ⟨0, 0x10⟩
  f0BlkszHi := ⟨0, 0x11⟩
  ioEnReg := ⟨0, 0x02⟩
  ioEnVal := 0x02
  ioRdyReg := ⟨0, 0x03⟩
  ioRdyMask := 0x02
  f1BlkszLo := ⟨0, 0x110⟩
  f1BlkszHi := ⟨0, 0x111⟩
  intEnReg := ⟨0, 0x04⟩
  intEnVal := 0x03
  resetReg := ⟨0, 0x06⟩
  resetVal := 0x08
  winAddr0 := ⟨0, 0x10C⟩
  winData := ⟨0, 0x10F⟩
  dmaCntLo := ⟨0, 0xF2⟩
  dmaCntHi := ⟨0, 0xF3⟩
  irqFlagsA := ⟨0, 0xF7⟩
  irqFlagsB := ⟨0, 0xFE⟩
  intStatus := ⟨1, 0x04⟩
  intClrA := ⟨0, 0xF8⟩
  aSel0Bit := 5
  aSel1Bit := 6
  aEnBit := 7
  intAckB := ⟨0, 0xFE⟩
  vmmCtlB := ⟨0, 0xF1⟩
  vmmCtlBDiag := ⟨0, 0xF6⟩
  bSel0Bit := 0
  bSel1Bit := 1
  bEnBit := 2
  ackMaskA := 0x1F
  ackMaskB := 0x1F
  chipIdReg := 0x1000
  chipIdMask := 0xFFFFF000
  chipIdPatA := 0x00100000
  chipIdPatB := 0x00300000
  miscReg := 0x1428
  pseqDisBit := 8
  pinmuxReg := 0x1408
  pinmuxIrqBit := 8
  intrEn1Reg := 0x1A00
  en1BaseBit := 27
  intrEn2Reg := 0x1A84
  en2BaseBit := 0
  maxIntLines := 8
  directLo := 0xF0
  directHi := 0xFF
  maxCount := 511
  initWritesRaw := false
  gpioIrq := true

end Sys2Proof
end

