-- ==== Sys2Proof/Machine/ConfigCheck.lean ====
section
/-! DEFINITION. Well-formedness of a configuration (00_scope.md rules R9, R10). -/

namespace Sys2Proof

/-- Exactly one bit of a byte is set (`IO_RDY_MASK`, R9). -/
def oneBitSet (m : Byte) : Bool := m != 0 && (m &&& (m - 1)) == 0

/-- The window registers and the data port are on function 0, their addresses fit, the four addresses differ, and the
window-enable register is on function 0 (R9, R10). -/
def Cfg.windowOk (c : Cfg) : Bool :=
  c.winEnReg.fn == 0 && c.winAddr0.fn == 0 && c.winData.fn == 0
    && decide (c.winAddr0.addr.toNat + 2 < 2 ^ 17)
    && c.winData.addr != c.winAddr0.addr && c.winData.addr != c.winAddr0.addr + 1
    && c.winData.addr != c.winAddr0.addr + 2

/-- No register the lifecycle writes is the window data port (R10). -/
def Cfg.lifecycleWritesOk (c : Cfg) : Bool :=
  [c.winEnReg, c.f0BlkszLo, c.f0BlkszHi, c.ioEnReg, c.f1BlkszLo, c.f1BlkszHi, c.intEnReg, c.resetReg].all
    (fun l => l != c.winData)

/-- The I/O-enable value has a bit set and the I/O-ready mask has exactly one (R9; for the enable value see log 23). -/
def Cfg.ioOk (c : Cfg) : Bool := c.ioEnVal != 0 && oneBitSet c.ioRdyMask

/-- The interrupt registers that must differ do (R9). -/
def Cfg.irqRegsOk (c : Cfg) : Bool :=
  c.irqFlagsA != c.irqFlagsB && c.intAckB != c.vmmCtlB && c.vmmCtlBDiag != c.vmmCtlB

/-- The variant-A bits are distinct and outside `ACK_MASK_A`; the variant-B bits are distinct; the triples differ (R9). -/
def Cfg.vmmBitsOk (c : Cfg) : Bool :=
  c.aSel0Bit != c.aSel1Bit && c.aSel0Bit != c.aEnBit && c.aSel1Bit != c.aEnBit
    && !c.ackMaskA.getLsbD c.aSel0Bit && !c.ackMaskA.getLsbD c.aSel1Bit && !c.ackMaskA.getLsbD c.aEnBit
    && c.bSel0Bit != c.bSel1Bit && c.bSel0Bit != c.bEnBit && c.bSel1Bit != c.bEnBit
    && (c.aSel0Bit, c.aSel1Bit, c.aEnBit) != (c.bSel0Bit, c.bSel1Bit, c.bEnBit)

/-- The chip patterns differ and equal themselves under the mask (R9). -/
def Cfg.chipIdOk (c : Cfg) : Bool :=
  c.chipIdPatA != c.chipIdPatB && c.chipIdPatA &&& c.chipIdMask == c.chipIdPatA
    && c.chipIdPatB &&& c.chipIdMask == c.chipIdPatB

/-- The interrupt lines fit their enable registers and the maximum line count is at least 7 (R9). -/
def Cfg.linesOk (c : Cfg) : Bool :=
  decide (c.en1BaseBit.val + 4 ≤ 31) && decide (c.en2BaseBit.val + 2 ≤ 31) && decide (7 ≤ c.maxIntLines)

/-- The direct range lies below `2^17` (R9). -/
def Cfg.directOk (c : Cfg) : Bool := decide (c.directHi.toNat < 2 ^ 17)

/-- `MAX_COUNT` is at least `BLOCK_SIZE_REQ - 1` (R9) and fits the 9-bit count field (R105; log 23). -/
def Cfg.countOk (c : Cfg) : Bool :=
  decide (Config.blockSizeReq - 1 ≤ c.maxCount) && decide (c.maxCount < 2 ^ 9)

/-- Well-formedness of a configuration (R10). That a place has `fn <= 7` and `addr < 2^17` is in its types. -/
def Cfg.wf (c : Cfg) : Bool :=
  c.windowOk && c.lifecycleWritesOk && c.ioOk && c.irqRegsOk && c.vmmBitsOk && c.chipIdOk && c.linesOk && c.directOk
    && c.countOk

end Sys2Proof
end

