-- ==== Sys2Proof/WellFormed.lean ====
section
/-! DEFINITION. Which instructions are well formed: the range checks the types do not already make (R105, R108, R111). -/

namespace Sys2Proof

/-- A block count is at least 1: a count field of 0 is reserved (R105, R111c). -/
def countOk (count : BitVec 9) : Bool := count != 0

/-- A transfer size is a natural below `2^32` (R108). -/
def sizeOk (size : Nat) : Bool := decide (size < 2 ^ 32)

/-- Well-formedness of an instruction. The widths of function, address, data and count are their types' (R8). -/
def Instr.wf : Instr → Bool
  | .blkRdByte _ _ _ count _ => countOk count
  | .blkRdBlock _ _ _ count _ => countOk count
  | .blkWrByte _ _ _ count _ => countOk count
  | .blkWrBlock _ _ _ count _ => countOk count
  | .blockRead _ _ size => sizeOk size
  | .blockWrite _ _ size => sizeOk size
  | .sbRd _ _ => true
  | .sbWr _ _ _ => true
  | .sbWrRb _ _ _ => true
  | .init _ => true
  | .deinit => true
  | .readReg _ => true
  | .writeReg _ _ => true
  | .readInterruptStatus => true
  | .clearInterrupts _ => true
  | .readPendingSize => true
  | .syncInterrupts _ => true
  | .enableInterrupts => true
  | .disableInterrupts => true
  | .reset => true
  | .isInitialized => true
  | .suspend => true
  | .resume => true

end Sys2Proof
end

