-- ==== Sys2Proof/Decode.lean ====
section
/-! DEFINITION. Encodings of the two bus command words and of the host operation request, the decoder, total, rejecting
by name, and the encoder (30_encoding.md rules R100 to R115). -/

namespace Sys2Proof

/-- The ports instructions arrive on (R15): host operations on HOST and PM, bus commands on neither (R155) but on the
BUS itself, from an agent beside the block's operations (R350). -/
inductive Port where
  | host | pm | bus
deriving DecidableEq, Repr

/-- An instruction as it arrives: a bus command `(kind, arg, side)` (R100) or a host operation record (R108). The kind is
the constructor, a tag outside the 32-bit word (R106). -/
inductive Packet where
  | sb (arg : Word)
  | blk (arg : Word) (side : Side)
  | hostop (opsel : BitVec 4) (args : Args)
deriving DecidableEq, Repr

/-- Why a packet is no instruction (R111). -/
inductive Reject where
  /-- `SB` with `rw = 0` and `raw = 1` (R111a). -/
  | readWithRaw
  /-- `SB` with a reserved bit set (R111b). -/
  | reservedBit
  /-- `BLK` with a count of 0 (R111c). -/
  | countZero
  /-- An `opsel` on the wrong port (R111e); a bus command on the HOST or the PM port, which the encoder is not reachable
  from (R155). -/
  | wrongPort
  /-- A transfer size of `2^32` or more (R108). -/
  | sizeOutOfRange
  /-- A serialised command that is not exactly one 32-bit word (R112). -/
  | notOneWord
deriving DecidableEq, Repr

/-! ### Fields of the command words (R101, R103) -/

/-- Bit 31, the direction: set for a write. -/
def fieldRw (w : Word) : Bool := w.getLsbD 31

/-- Bits 30:28, the function index. -/
def fieldFn (w : Word) : FnIndex := w.extractLsb' 28 3

/-- Bit 27: `raw` of an `SB` word, `bm` of a `BLK` word. -/
def fieldMode (w : Word) : Bool := w.getLsbD 27

/-- Bit 26: reserved `z1` of an `SB` word, `inc` of a `BLK` word. -/
def fieldInc (w : Word) : Bool := w.getLsbD 26

/-- Bits 25:9, the address inside the function. -/
def fieldAddr (w : Word) : BusAddr := w.extractLsb' 9 17

/-- Bit 8 of an `SB` word, reserved `z0`. -/
def fieldZ0 (w : Word) : Bool := w.getLsbD 8

/-- Bits 7:0 of an `SB` word, the data byte. -/
def fieldData (w : Word) : Byte := w.extractLsb' 0 8

/-- Bits 8:0 of a `BLK` word, the count. -/
def fieldCount (w : Word) : BitVec 9 := w.extractLsb' 0 9

/-- The `SB` command word of its fields, the reserved bits 0 (R101). -/
def sbWord (rw : Bool) (fn : FnIndex) (raw : Bool) (addr : BusAddr) (data : Byte) : Word :=
  BitVec.ofBool rw ++ fn ++ BitVec.ofBool raw ++ 0#1 ++ addr ++ 0#1 ++ data

/-- The `BLK` command word of its fields (R103). -/
def blkWord (rw : Bool) (fn : FnIndex) (bm inc : Bool) (addr : BusAddr) (count : BitVec 9) : Word :=
  BitVec.ofBool rw ++ fn ++ BitVec.ofBool bm ++ BitVec.ofBool inc ++ addr ++ count

/-! ### Serialisation (R107) -/

/-- A command word as bytes, little-endian: byte 0 is `arg[7:0]` (R107). -/
def wordBytes (w : Word) : List Byte :=
  [w.extractLsb' 0 8, w.extractLsb' 8 8, w.extractLsb' 16 8, w.extractLsb' 24 8]

/-- The word of four bytes, the first the least significant; any other number of bytes is no command word (R107, R112). -/
def wordOfBytes : List Byte → Except Reject Word
  | [b0, b1, b2, b3] => .ok (b3 ++ b2 ++ b1 ++ b0)
  | _ => .error .notOneWord

/-! ### Host operation numbers (R108) -/

/-- The `opsel` number of an operation (R108). -/
def OpSel.code : OpSel → BitVec 4
  | .init => 0
  | .deinit => 1
  | .readReg => 2
  | .writeReg => 3
  | .blockRead => 4
  | .blockWrite => 5
  | .readInterruptStatus => 6
  | .clearInterrupts => 7
  | .readPendingSize => 8
  | .syncInterrupts => 9
  | .enableInterrupts => 10
  | .disableInterrupts => 11
  | .reset => 12
  | .isInitialized => 13
  | .suspend => 14
  | .resume => 15

/-- The operation of an `opsel` number; every one of the sixteen values is used (R111e). -/
def OpSel.ofCode (c : BitVec 4) : OpSel :=
  match c.toNat with
  | 0 => .init
  | 1 => .deinit
  | 2 => .readReg
  | 3 => .writeReg
  | 4 => .blockRead
  | 5 => .blockWrite
  | 6 => .readInterruptStatus
  | 7 => .clearInterrupts
  | 8 => .readPendingSize
  | 9 => .syncInterrupts
  | 10 => .enableInterrupts
  | 11 => .disableInterrupts
  | 12 => .reset
  | 13 => .isInitialized
  | 14 => .suspend
  | _ => .resume

/-- The port an operation belongs to: `suspend` and `resume` are the PM port's, the others the HOST port's (R108, R15). -/
def OpSel.port : OpSel → Port
  | .suspend => .pm
  | .resume => .pm
  | _ => .host

/-! ### The decoder (R111, R115) -/

/-- Decoding an `SB` word: read with raw and set reserved bits are illegal; a read ignores `data` (R102, R111). -/
def decodeSb (w : Word) : Except Reject Instr :=
  if fieldInc w || fieldZ0 w then .error .reservedBit
  else
    match fieldRw w, fieldMode w with
    | false, false => .ok (.sbRd (fieldFn w) (fieldAddr w))
    | false, true => .error .readWithRaw
    | true, false => .ok (.sbWr (fieldFn w) (fieldAddr w) (fieldData w))
    | true, true => .ok (.sbWrRb (fieldFn w) (fieldAddr w) (fieldData w))

/-- Decoding a `BLK` word: a count of 0 is illegal (R104, R111). -/
def decodeBlk (w : Word) (side : Side) : Except Reject Instr :=
  if fieldCount w = 0 then .error .countZero
  else
    match fieldRw w, fieldMode w with
    | false, false => .ok (.blkRdByte (fieldFn w) (fieldInc w) (fieldAddr w) (fieldCount w) side)
    | false, true => .ok (.blkRdBlock (fieldFn w) (fieldInc w) (fieldAddr w) (fieldCount w) side)
    | true, false => .ok (.blkWrByte (fieldFn w) (fieldInc w) (fieldAddr w) (fieldCount w) side)
    | true, true => .ok (.blkWrBlock (fieldFn w) (fieldInc w) (fieldAddr w) (fieldCount w) side)

/-- The operation of a request record with its own operands (R108). -/
def decodeOp (op : OpSel) (a : Args) : Except Reject Instr :=
  match op with
  | .init => .ok (.init a.resume)
  | .deinit => .ok .deinit
  | .readReg => .ok (.readReg a.addr)
  | .writeReg => .ok (.writeReg a.addr a.word)
  | .blockRead => if sizeOk a.size then .ok (.blockRead a.addr a.buf a.size) else .error .sizeOutOfRange
  | .blockWrite => if sizeOk a.size then .ok (.blockWrite a.addr a.buf a.size) else .error .sizeOutOfRange
  | .readInterruptStatus => .ok .readInterruptStatus
  | .clearInterrupts => .ok (.clearInterrupts a.mask)
  | .readPendingSize => .ok .readPendingSize
  | .syncInterrupts => .ok (.syncInterrupts a.n)
  | .enableInterrupts => .ok .enableInterrupts
  | .disableInterrupts => .ok .disableInterrupts
  | .reset => .ok .reset
  | .isInitialized => .ok .isInitialized
  | .suspend => .ok .suspend
  | .resume => .ok .resume

/-- The decoder: total on every packet, rejecting by name (R111, R115). An operation on the wrong port is rejected
(R111e), and so is a bus command on the HOST or the PM port (R155). -/
def decode (port : Port) : Packet → Except Reject Instr
  | .sb arg => if port = .bus then decodeSb arg else .error .wrongPort
  | .blk arg side => if port = .bus then decodeBlk arg side else .error .wrongPort
  | .hostop opsel args =>
    if (OpSel.ofCode opsel).port = port then decodeOp (OpSel.ofCode opsel) args else .error .wrongPort

/-! ### The encoder -/

/-- The operation and operands of a host operation; `none` for a bus command. -/
def Instr.request : Instr → Option (OpSel × Args)
  | .sbRd _ _ => none
  | .sbWr _ _ _ => none
  | .sbWrRb _ _ _ => none
  | .blkRdByte _ _ _ _ _ => none
  | .blkRdBlock _ _ _ _ _ => none
  | .blkWrByte _ _ _ _ _ => none
  | .blkWrBlock _ _ _ _ _ => none
  | .init r => some (.init, { Args.zero with resume := r })
  | .deinit => some (.deinit, Args.zero)
  | .readReg a => some (.readReg, { Args.zero with addr := a })
  | .writeReg a w => some (.writeReg, { Args.zero with addr := a, word := w })
  | .blockRead a b n => some (.blockRead, { Args.zero with addr := a, buf := b, size := n })
  | .blockWrite a b n => some (.blockWrite, { Args.zero with addr := a, buf := b, size := n })
  | .readInterruptStatus => some (.readInterruptStatus, Args.zero)
  | .clearInterrupts m => some (.clearInterrupts, { Args.zero with mask := m })
  | .readPendingSize => some (.readPendingSize, Args.zero)
  | .syncInterrupts n => some (.syncInterrupts, { Args.zero with n := n })
  | .enableInterrupts => some (.enableInterrupts, Args.zero)
  | .disableInterrupts => some (.disableInterrupts, Args.zero)
  | .reset => some (.reset, Args.zero)
  | .isInitialized => some (.isInitialized, Args.zero)
  | .suspend => some (.suspend, Args.zero)
  | .resume => some (.resume, Args.zero)

/-- The port an instruction arrives on (R108, R155). -/
def Instr.port (i : Instr) : Port :=
  match i.request with
  | some (op, _) => op.port
  | none => .bus

/-- The packet of an instruction (R102, R104, R108). -/
def encode (i : Instr) : Packet :=
  match i with
  | .sbRd fn addr => .sb (sbWord false fn false addr 0)
  | .sbWr fn addr data => .sb (sbWord true fn false addr data)
  | .sbWrRb fn addr data => .sb (sbWord true fn true addr data)
  | .blkRdByte fn inc addr count side => .blk (blkWord false fn false inc addr count) side
  | .blkRdBlock fn inc addr count side => .blk (blkWord false fn true inc addr count) side
  | .blkWrByte fn inc addr count side => .blk (blkWord true fn false inc addr count) side
  | .blkWrBlock fn inc addr count side => .blk (blkWord true fn true inc addr count) side
  | .init r => .hostop OpSel.init.code { Args.zero with resume := r }
  | .deinit => .hostop OpSel.deinit.code Args.zero
  | .readReg a => .hostop OpSel.readReg.code { Args.zero with addr := a }
  | .writeReg a w => .hostop OpSel.writeReg.code { Args.zero with addr := a, word := w }
  | .blockRead a b n => .hostop OpSel.blockRead.code { Args.zero with addr := a, buf := b, size := n }
  | .blockWrite a b n => .hostop OpSel.blockWrite.code { Args.zero with addr := a, buf := b, size := n }
  | .readInterruptStatus => .hostop OpSel.readInterruptStatus.code Args.zero
  | .clearInterrupts m => .hostop OpSel.clearInterrupts.code { Args.zero with mask := m }
  | .readPendingSize => .hostop OpSel.readPendingSize.code Args.zero
  | .syncInterrupts n => .hostop OpSel.syncInterrupts.code { Args.zero with n := n }
  | .enableInterrupts => .hostop OpSel.enableInterrupts.code Args.zero
  | .disableInterrupts => .hostop OpSel.disableInterrupts.code Args.zero
  | .reset => .hostop OpSel.reset.code Args.zero
  | .isInitialized => .hostop OpSel.isInitialized.code Args.zero
  | .suspend => .hostop OpSel.suspend.code Args.zero
  | .resume => .hostop OpSel.resume.code Args.zero

/-! ### Table words (the host's numbering of an instruction's bits) -/

/-- The side part given to a `BLK` word that arrives with none: the requested block size 512 (R8) and a buffer that holds
every transfer of the 9-bit count. DESIGN CHOICE (log 19). -/
def Side.ofTable : Side := { bs := 512, buf := { base := 0, len := 262144 }, off := 0 }

/-- Whether a word is a legal `SB` word (R115). -/
def sbLegal (w : Word) : Bool :=
  match decodeSb w with
  | .ok _ => true
  | .error _ => false

/-- The packet of an instruction of the opcode table whose bits are `w`: 4 bits of `opsel` in one byte, or a 32-bit
command word laid out little-endian. The table does not carry the kind (R106): a word that is a legal `SB` word is read
as one, any other as `BLK` (DESIGN CHOICE, log 19). -/
def Packet.ofTable (nbits w : Nat) : Packet :=
  if nbits ≤ 8 then .hostop (BitVec.ofNat 4 w) Args.zero
  else
    match wordOfBytes (wordBytes (BitVec.ofNat 32 w)) with
    | .ok arg => if sbLegal arg then .sb arg else .blk arg Side.ofTable
    | .error _ => .sb 0

/-- The port an instruction of the opcode table is delivered on. -/
def Packet.tablePort : Packet → Port
  | .hostop opsel _ => (OpSel.ofCode opsel).port
  | .sb _ => .bus
  | .blk _ _ => .bus

/-- The instruction the decoder reads from the opcode table's bits. -/
def decodeTableWord (nbits w : Nat) : Option Instr :=
  match decode (Packet.ofTable nbits w).tablePort (Packet.ofTable nbits w) with
  | .ok i => some i
  | .error _ => none

end Sys2Proof
end

