-- ==== Sys2Proof/Machine/State.lean ====
section
/-! DEFINITION. The state of the block (10_state.md), of the reference device (20_memory.md rules R90 to R92), of the
ports (00_scope.md rule R15) and of the schedule and oracle (10_state.md rule R40), as plain data; reset (R39). -/

namespace Sys2Proof.Machine

/-! ### Handle (R20) -/

/-- The chip variant, `h.variant` (R20, R22). -/
inductive Variant where
  | unknown | a | b
deriving DecidableEq, Repr

/-- The life states, `h.life` (R25, R230). -/
inductive Life where
  | uninitialized | negotiating | ready | failed
deriving DecidableEq, Repr

/-- The Interrupt Delivery Lock, `h.lock` (R26, R270). -/
inductive Lock where
  | free | irqInFlight | disabled
deriving DecidableEq, Repr

/-- The BusHandle (R20). `dev` is the opaque device reference; `blockSize = none` is `unset`. -/
structure Handle where
  dev : Nat
  blockSize : Option Nat
  variant : Variant
  gpioIrq : Bool
  nint : Nat
  initialized : Bool
  life : Life
  lock : Lock
  cbRegistered : Bool
deriving DecidableEq, Repr

/-- The handle at attach (R39). -/
def Handle.attach (dev : Nat) (cfg : Cfg) : Handle :=
  { dev := dev, blockSize := none, variant := .unknown, gpioIrq := cfg.gpioIrq, nint := 0, initialized := false,
    life := .uninitialized, lock := .free, cbRegistered := false }

/-! ### Agents (R16) -/

/-- The requesters (R16 a, c, e): host threads, the upstream dispatch handler, the power-management caller. -/
inductive Requester where
  | thread (n : Nat) | handler | pm
deriving DecidableEq, Repr

/-- Who can own the bus (R29): a requester, the delivery agent, an agent outside this block. -/
inductive Agent where
  | requester (r : Requester) | irq | outside
deriving DecidableEq, Repr

/-- The port a requester's operations arrive on: the power-management caller uses the PM port (R15, R111e). -/
def Requester.port : Requester → Port
  | .thread _ => .host
  | .handler => .host
  | .pm => .pm

/-- Where the delivery agent stands in its callback (R274 to R280): idle; entered; past the gate; released, the dispatch
running; dispatch done; bus re-claimed. -/
inductive IrqPhase where
  | idle | entered | gated | dispatched | drained | reclaimed
deriving DecidableEq, Repr

/-! ### Answers (R109) -/

/-- The value returned with `OK` (R108). -/
inductive Value where
  | unit | word (w : Word) | status (w : Word) | count (c : BitVec 16) | bool (b : Bool)
deriving DecidableEq, Repr

/-- Why a request is refused with no state change (R111e, R213, R225, R257, R260). -/
inductive Refused where
  | negotiating | variantUnknown | wrongPort
deriving DecidableEq, Repr

/-- How a request is answered. A value exists only with `OK` (R109); `refused` is no result code but the model's mark
(R307). -/
inductive Answer where
  | ok (v : Value) | fail (c : Code) | refused (why : Refused)
deriving DecidableEq, Repr

/-! ### Sequencer contexts (R27, R28) -/

/-- The phases of a windowed access: three window writes, then the block command (R161, R166). -/
inductive WinStep where
  | w0 | w1 | w2 | data
deriving DecidableEq, Repr

/-- The phases of `readReg` and `writeReg`: one byte command in the direct range, or a windowed access (R165). -/
inductive RegStep where
  | direct | win (w : WinStep)
deriving DecidableEq, Repr

/-- The negotiation's single-byte writes, steps 1, 2, 3, 5 and 6 (R232). -/
inductive NegWrite where
  | winEn | f0Lo | f0Hi | ioEn | f1Lo | f1Hi | intEn
deriving DecidableEq, Repr

/-- The registers `syncInterrupts` updates by read-modify-write (R249). -/
inductive RmwReg where
  | misc | pinmux | en1 | en2
deriving DecidableEq, Repr

/-- The two halves of a read-modify-write (R252). -/
inductive RmwHalf where
  | read | write
deriving DecidableEq, Repr

/-- The two phases of a transfer (R184). -/
inductive Half where
  | a | b
deriving DecidableEq, Repr

/-- The phase index of a context, its program counter (R28): every operation starts at `start` and ends at `idle`. -/
inductive Phase where
  | idle
  | start
  | reg (r : RegStep)
  | blk (h : Half) (w : WinStep)
  | count0
  | count1
  | flags
  | clrA0
  | clrB0
  | clrB1
  | neg (n : NegWrite)
  | poll
  | ident (r : RegStep)
  | identSkip
  | resetWrite
  | syncStart
  | rmw (reg : RmwReg) (half : RmwHalf) (r : RegStep)
  | registerCb
  | unregisterCb
  | lockFree
deriving DecidableEq, Repr

/-- A sequencer context (R27): `x[0] op`, `x[1] phase`, `x[2] wa`, `x[3] cur`, `x[4] nblk`, `x[5] nleft`, `x[6] acc`,
`x[7] poll`, `x[8] rem`, `x[9] res`, the 4-byte temporary `tmp` (R166), and the operands of the request it runs. -/
structure Ctx where
  op : OpSel
  phase : Phase
  wa : Word
  cur : Nat
  nblk : Nat
  nleft : Nat
  acc : Word
  poll : Nat
  rem : Nat
  res : Code
  tmp : List Byte
  args : Args
deriving DecidableEq, Repr

/-- A context before its first request: idle, every register 0 (DESIGN CHOICE, log 3; the spec gives no value). -/
def Ctx.fresh : Ctx :=
  { op := .init, phase := .idle, wa := 0, cur := 0, nblk := 0, nleft := 0, acc := 0, poll := 0, rem := 0, res := .ok,
    tmp := [], args := Args.zero }

/-! ### Memory -/

/-- A byte memory: cells with strictly rising addresses, none equal to what an unlisted address reads as. -/
abbrev Memory := List Host.Cell

/-- What an unlisted address reads as: 0 (DESIGN CHOICE, log 2 for the device, log 20 for buffers). -/
def Memory.blank : Byte := 0

/-! ### The reference device (R90 to R92) -/

/-- The device: the byte memories of the eight functions (cell key `fn * 2^17 + addr`), the 24-bit chip space, the
function-1 queue, the pending-word count, the sticky flags, and the interrupt line `irq.asserted` (R37). -/
structure Device where
  fn : Memory
  chip : Memory
  fifo : List Byte
  dmaCnt : BitVec 16
  flags : BitVec 5
  line : Bool
deriving DecidableEq, Repr

/-- One coming answer of the oracle (R88). `reference`: the reference device's answer. `scripted ok bytes landed`: the
transport status; the bytes a read returns (free values where there are too few); how many bytes of a failed write reach
the device (R89, U2). -/
inductive Draw where
  | reference
  | scripted (ok : Bool) (bytes : List Byte) (landed : Nat)
deriving DecidableEq, Repr

/-- What the BUS port answers to a command: status, and the bytes returned (R15). -/
structure Reply where
  ok : Bool
  bytes : List Byte
deriving DecidableEq, Repr

/-! ### Ports (R15) -/

/-- The kind tag of a bus command (R106). -/
inductive Kind where
  | sb | blk
deriving DecidableEq, Repr

/-- A command on the BUS port: kind, command word, block size beside a `BLK` command, and the bytes sent (R15, R100). -/
structure BusCmd where
  kind : Kind
  arg : Word
  bs : Option Nat
  payload : List Byte
deriving DecidableEq, Repr

/-- What leaves the block, in order: bus commands; responses `(agent, answer)`; registration calls of the IRQ port; the
upstream dispatch call; the two opaque handshakes of the PM port, their order not modelled (R258). -/
inductive Output where
  | bus (c : BusCmd)
  | response (r : Requester) (a : Answer)
  | irqRegister
  | irqUnregister
  | dispatchCall
  | pmHandshakes
deriving DecidableEq, Repr

/-- The diagnostic events (R34). `transportFail` carries the phase and, for the variant-B VMM write, the address the
source's message names (R222, log 15). -/
inductive LogEvent where
  | unexpectedIrq (status : Word) (data : Byte)
  | notReady
  | unsupportedChip (id : Word)
  | tooManyLines (n : Nat)
  | spuriousIrq
  | transportFail (phase : Phase) (diag : Option Loc8)
deriving DecidableEq, Repr

/-! ### Schedule and inputs (R40) -/

/-- A change the device or its surroundings makes on their own between transactions (R37, R70, U6, U27). -/
inductive Poke where
  | fnByte (loc : Loc8) (v : Byte)
  | chipByte (addr : BitVec 24) (v : Byte)
  | fifo (bytes : List Byte)
  | dmaCnt (c : BitVec 16)
  | flags (f : BitVec 5)
  | line (b : Bool)
deriving DecidableEq, Repr

/-- What happens next, one entry a step. -/
inductive Event where
  /-- A request arrives from a requester on its port and runs as far as it can go with no other agent's step between. -/
  | deliver (r : Requester) (p : Packet)
  /-- An agent beside the block's operations issues a bus command itself (R350; log 26). No requester can: the encoder is
  not reachable from the HOST port (R155). -/
  | command (p : Packet)
  /-- A host operation request is accepted and none of its phases run yet. -/
  | accept (r : Requester) (p : Packet)
  /-- The requester's operation takes its next phase. -/
  | advance (r : Requester)
  /-- The interrupt delivery agent takes its next step. -/
  | irq
  /-- The dispatch handler is done: `DISPATCH.done` (R281). -/
  | dispatchDone
  /-- An agent outside the block takes the free bus. -/
  | claim
  /-- The agent outside the block that holds the bus releases it. -/
  | release
  /-- The device changes by itself. -/
  | poke (p : Poke)
  /-- A requester writes a byte of its own buffers. -/
  | fill (index : Nat) (v : Byte)
  /-- A device is attached: the handle is created (R39, R340). -/
  | attach (dev : Nat)
  /-- The device is detached: the handle is destroyed (R342). -/
  | detach
deriving DecidableEq, Repr

/-! ### Stops -/

/-- Why the machine stops with a fault. -/
inductive Fault where
  /-- Raised by `run` when an operation has not ended after more phases than any sequence of R28 has. Safe: the model
  stops; it is never raised (an obligation states so). -/
  | sequenceOverrun
deriving DecidableEq, Repr

/-- Why a step is refused: what arrives has no meaning in the spec. -/
inductive Refusal where
  /-- Raised by `exec` for an instruction whose meaning is not written yet. Safe: nothing can be claimed of it. -/
  | notModelled (mnemonic : String)
  /-- Raised by `step` when the configuration violates R10 ("refuses a configuration that fails"). Safe. -/
  | malformedCfg
  /-- Raised by `step` for a packet that is no instruction: an illegal command word (R111 a to c) or an operand out of
  its range (R108). Safe. -/
  | illegalPacket (why : Reject)
  /-- Raised by `blockRead`, `blockWrite` and the `BLK` commands when the buffer is shorter than the bytes moved
  (R192, U13: "a model refuses the request"). Safe. -/
  | bufferTooShort
  /-- Raised by `step` for a detach while an operation, a wait or a dispatch is in progress (R342, U28). Safe. -/
  | detachInUse
deriving DecidableEq, Repr

/-! ### State -/

/-- The state of the machine. `cfg` is the configuration, never written. `cur`, `free`, `draws`, `agenda`, `out`,
`reply` are the model's own (INVENTORY.md). -/
structure State where
  cfg : Cfg
  attached : Bool
  h : Handle
  waiters : List Requester
  ctxs : List (Requester × Ctx)
  busOwner : Option Agent
  irq : IrqPhase
  log : List LogEvent
  dev : Device
  buf : Memory
  draws : List Draw
  free : Nat
  reply : Reply
  out : List Output
  cur : Requester
  agenda : List Event
deriving DecidableEq, Repr

/-- The device at reset: all zero and empty (DESIGN CHOICE, log 2; the spec leaves it to the device). -/
def Device.blank : Device :=
  { fn := [], chip := [], fifo := [], dmaCnt := 0, flags := 0, line := false }

/-- The state right after a device is attached under a configuration (R39, R340). -/
def State.attachWith (cfg : Cfg) (dev : Nat) : State :=
  { cfg := cfg, attached := true, h := Handle.attach dev cfg, waiters := [], ctxs := [], busOwner := none, irq := .idle,
    log := [], dev := Device.blank, buf := [], draws := [], free := 0, reply := { ok := false, bytes := [] }, out := [],
    cur := .thread 0, agenda := [] }

/-- The machine right after reset, which is the creation of the handle at attach (R39, R340), under CFG0 (log 1). -/
def State.reset : State := State.attachWith Cfg.cfg0 0

end Sys2Proof.Machine
end

