-- ==== Sys2Proof/Machine/Operands.lean ====
section
/-! DEFINITION. Operand assembly (30_encoding.md rule R110): every value the block puts on the bus or takes apart. -/

namespace Sys2Proof.Machine

/-- Byte `i` of a 32-bit value, byte 0 the least significant (R65). -/
def byteOf (w : Word) (i : Nat) : Byte := w.extractLsb' (8 * i) 8

/-- A byte value with one bit set, `BIT(i)` (R11). -/
def bit8 (i : Fin 8) : Byte := 1#8 <<< i.val

/-- A word value with one bit set, `BIT(i)` (R11). -/
def bit32 (i : Nat) : Word := 1#32 <<< i

/-- The word of the bytes `[d0, d1, d2, d3]`, little-endian (R65, R110). -/
def bytesToWord (bs : List Byte) : Word := bs.getD 3 0 ++ bs.getD 2 0 ++ bs.getD 1 0 ++ bs.getD 0 0

/-- A size rounded up to a multiple of 4, without wrap-around (R11, R181). -/
def roundUp4 (n : Nat) : Nat := (n + 3) - (n + 3) % 4

/-- Whole blocks of a rounded size (R184). -/
def wholeBlocks (sz bs : Nat) : Nat := sz / bs

/-- Remainder bytes of a rounded size (R184). -/
def remainder (sz bs : Nat) : Nat := sz % bs

/-- An address lies in the direct range: `DIRECT_LO <= addr <= DIRECT_HI`, 32-bit unsigned (R165). -/
def inDirect (c : Cfg) (addr : Word) : Bool := decide (c.directLo ≤ addr) && decide (addr ≤ c.directHi)

/-- The place of window register `i` (0, 1, 2): `WIN_ADDR0.addr + i` (R160). -/
def winAddr (c : Cfg) (i : Nat) : BusAddr := c.winAddr0.addr + BitVec.ofNat 17 i

/-- A byte of `BLOCK_SIZE_REQ`: low byte 0, high byte 1 (R110). -/
def blockSizeByte (i : Nat) : Byte := byteOf (BitVec.ofNat 32 Config.blockSizeReq) i

/-- `OR over i in 0 .. k-1 of BIT(base + i)` (R110). -/
def lineBits (base k : Nat) : Word := (List.range k).foldl (fun acc i => acc ||| bit32 (base + i)) 0

/-- The enable bits of `n` lines in the first enable register (R110, R255). -/
def en1Bits (c : Cfg) (n : Nat) : Word := lineBits c.en1BaseBit (min n Config.en1Lines)

/-- The enable bits of `n` remaining lines in the second enable register (R110, R255). -/
def en2Bits (c : Cfg) (n : Nat) : Word := lineBits c.en2BaseBit (min n Config.en2Lines)

/-! ### `clearInterrupts` mask (R217) -/

/-- `M_SEL0`, mask bit 5. -/
def maskSel0 (mask : Word) : Bool := mask.getLsbD 5

/-- `M_SEL1`, mask bit 6. -/
def maskSel1 (mask : Word) : Bool := mask.getLsbD 6

/-- `M_EN`, mask bit 7. -/
def maskEn (mask : Word) : Bool := mask.getLsbD 7

/-- The byte `b` where the condition holds, else 0. -/
def byteIf (p : Bool) (b : Byte) : Byte := if p then b else 0

/-- The variant-A register value: acknowledge bits in GPIO mode only, merged with the VMM bits (R219). -/
def valueA (c : Cfg) (gpio : Bool) (mask : Word) : Byte :=
  byteIf gpio (byteOf mask 0 &&& c.ackMaskA) ||| byteIf (maskSel0 mask) (bit8 c.aSel0Bit)
    ||| byteIf (maskSel1 mask) (bit8 c.aSel1Bit) ||| byteIf (maskEn mask) (bit8 c.aEnBit)

/-- The variant-B acknowledge value (R220). -/
def ackB (c : Cfg) (mask : Word) : Byte := byteOf mask 0 &&& c.ackMaskB

/-- The variant-B VMM value (R221). -/
def vmmB (c : Cfg) (mask : Word) : Byte :=
  byteIf (maskSel0 mask) (bit8 c.bSel0Bit) ||| byteIf (maskSel1 mask) (bit8 c.bSel1Bit)
    ||| byteIf (maskEn mask) (bit8 c.bEnBit)

/-! ### Chip identification (R240, D26) -/

/-- The variant of a chip identifier, by the fixed bit-pattern match (R240). -/
def classify (c : Cfg) (id : Word) : Variant :=
  if id &&& c.chipIdMask = c.chipIdPatA then .a
  else if id &&& c.chipIdMask = c.chipIdPatB then .b
  else .unknown

end Sys2Proof.Machine
end

