-- ==== Sys2Proof/Machine/Flags.lean ====
section
/-! DEFINITION. The interrupt status value (10_state.md rule R33) and the decoding of the device's flags into it
(43_interrupt_status.md rules R200 to R212). The block has no arithmetic condition codes (R30). -/

namespace Sys2Proof.Machine

/-- The pending-DMA-word count of its two bytes: `zext_16(hi) << 8 OR zext_16(lo)` (R201). -/
def dmaCount (lo hi : Byte) : BitVec 16 := (hi.setWidth 16 <<< 8) ||| lo.setWidth 16

/-- The status in GPIO mode: the count, and the masked flag register at bit 16 (R110, R206, R207). -/
def statusGpio (acc : Word) (d m : Byte) : Word := acc ||| ((d &&& m).setWidth 32 <<< 16)

/-- `STATUS_BITPOS`: the status-register bit that becomes flag `i` (R8, R210). -/
def statusBitPos : List Nat := [0, 2, 3, 4, 5]

/-- The flag bits of a status-register byte: register bit `STATUS_BITPOS[i]` becomes status bit `16 + i` (R210). -/
def statusRegFlags (d : Byte) : Word :=
  (List.range 5).foldl (fun acc i => if d.getLsbD (statusBitPos.getD i 0) then acc ||| bit32 (16 + i) else acc) 0

/-- The status in status-register mode (R205, R210). -/
def statusReg (acc : Word) (d : Byte) : Word := acc ||| statusRegFlags d

/-- Some flag `i` with `nint <= i <= 4` is set (R212). -/
def hasUnexpected (nint : Nat) (status : Word) : Bool :=
  (List.range 5).any (fun i => decide (nint ≤ i) && status.getLsbD (16 + i))

/-- The status-register byte the reference device shows for its flags (R92). -/
def statusRegByte (flags : BitVec 5) : Byte :=
  (List.range 5).foldl
    (fun acc i => if flags.getLsbD i then acc ||| (1#8 <<< (statusBitPos.getD i 0)) else acc) 0

end Sys2Proof.Machine
end

