-- ==== Sys2Proof/Machine/Ops.lean ====
section
/-! DEFINITION. The named operations over memory, contexts, the handle and the ports; the ending of an operation with a
result or a failure (60_exceptions.md rule R304); the interrupt's delivery and return (60_exceptions.md rules R313, R314,
45_interrupt_delivery_lock.md rules R275 to R280). -/

namespace Sys2Proof.Machine

/-! ### Memory -/

/-- The byte at an address. -/
def Memory.read : Memory → Nat → Byte
  | [], _ => Memory.blank
  | (k, v) :: t, a => if k = a then v else Memory.read t a

/-- Writing one byte, keeping the canonical form. -/
def Memory.write : Memory → Nat → Byte → Memory
  | [], a, v => if v = Memory.blank then [] else [(a, v)]
  | (k, w) :: t, a, v =>
    if a < k then (if v = Memory.blank then (k, w) :: t else (a, v) :: (k, w) :: t)
    else if a = k then (if v = Memory.blank then t else (k, v) :: t)
    else (k, w) :: Memory.write t a v

/-- The canonical form from a lowest address on. -/
def Memory.wfFrom : Nat → Memory → Bool
  | _, [] => true
  | lo, (k, v) :: t => decide (lo ≤ k) && v != Memory.blank && Memory.wfFrom (k + 1) t

/-- The canonical form: addresses strictly rising, no entry equal to what an unlisted address reads as. -/
def Memory.wf (m : Memory) : Bool := Memory.wfFrom 0 m

/-- The `n` bytes from an address, ascending (R66). -/
def Memory.readBytes (m : Memory) (base n : Nat) : List Byte := (List.range n).map (fun i => m.read (base + i))

/-- Writing bytes from an address on, ascending (R66). -/
def Memory.writeBytes : Memory → Nat → List Byte → Memory
  | m, _, [] => m
  | m, base, b :: t => Memory.writeBytes (m.write base b) (base + 1) t

/-! ### Contexts -/

/-- The context of a requester in a list of contexts; one that has never run an operation is fresh. -/
def ctxGet : List (Requester × Ctx) → Requester → Ctx
  | [], _ => Ctx.fresh
  | (q, c) :: t, r => if q = r then c else ctxGet t r

/-- Replacing the context of a requester. -/
def ctxSet : List (Requester × Ctx) → Requester → Ctx → List (Requester × Ctx)
  | [], r, c => [(r, c)]
  | (q, d) :: t, r, c => if q = r then (r, c) :: t else (q, d) :: ctxSet t r c

/-- A requester's sequencer context (R27). -/
def State.ctx (s : State) (r : Requester) : Ctx := ctxGet s.ctxs r

/-- Writing a requester's sequencer context. -/
def State.setCtx (s : State) (r : Requester) (c : Ctx) : State := { s with ctxs := ctxSet s.ctxs r c }

/-- `pc <- target` in a requester's context (R12, R28). -/
def State.goto (s : State) (r : Requester) (p : Phase) : State := s.setCtx r { s.ctx r with phase := p }

/-- A requester runs no operation. -/
def State.idle (s : State) (r : Requester) : Bool := (s.ctx r).phase == .idle

/-- The scratch registers after an operation: undefined, free values drawn from `n` on (R27, R304, U30). -/
def Ctx.undefined (n : Nat) (args : Args) : Ctx :=
  { op := Config.freeOpSel n, phase := .idle, wa := Config.freeWord n, cur := Config.freeNat n,
    nblk := Config.freeNat (n + 1), nleft := Config.freeNat (n + 2), acc := Config.freeWord (n + 1),
    poll := Config.freeNat (n + 3), rem := Config.freeNat (n + 4), res := Config.freeCode n,
    tmp := (List.range 4).map (fun i => Config.freeByte (n + i)), args := args }

/-! ### Handle, ports, log -/

/-- Writing the handle. -/
def State.setH (s : State) (h : Handle) : State := { s with h := h }

/-- `log(event)` (R13, R34). -/
def State.addLog (s : State) (e : LogEvent) : State := { s with log := s.log ++ [e] }

/-- Something leaves the block on a port (R15). -/
def State.emit (s : State) (o : Output) : State := { s with out := s.out ++ [o] }

/-- Setting the bus owner (R29). -/
def State.setBus (s : State) (o : Option Agent) : State := { s with busOwner := o }

/-- Setting the delivery agent's position (R274). -/
def State.setIrq (s : State) (p : IrqPhase) : State := { s with irq := p }

/-- Setting `lock.waiters` (R26). -/
def State.setWaiters (s : State) (w : List Requester) : State := { s with waiters := w }

/-- Writing bytes to the requesters' buffers. -/
def State.setBuf (s : State) (m : Memory) : State := { s with buf := m }

/-- Setting the requester whose instruction runs. -/
def State.setCur (s : State) (r : Requester) : State := { s with cur := r }

/-- Setting the device. -/
def State.setDev (s : State) (d : Device) : State := { s with dev := d }

/-- The oracle's next answer; with none listed, the reference device's (R88, log 6). -/
def State.nextDraw (s : State) : Draw := s.draws.headD .reference

/-- Taking the oracle's next answer. -/
def State.dropDraw (s : State) : State := { s with draws := s.draws.tail }

/-- Whether the oracle's next answer is `OK` when it is no device's answer: the outcome of a registration call
(R272, R284, U25). -/
def Draw.outcome : Draw → Bool
  | .reference => true
  | .scripted ok _ _ => ok

/-! ### Ending an operation -/

/-- What one turn of an agent does: it takes a step; it is held and has no step (R29, R285); its request is refused for
want of a meaning. -/
inductive Turn where
  | moved (s : State)
  | held (s : State)
  | refused (r : Refusal)
deriving DecidableEq, Repr

/-- An operation ends: the answer goes to the requester, its context's registers become undefined (R13, R109, R304), in one
step with the transaction that ends it (DESIGN CHOICE, log 34), or with the step without one that does (log 35). -/
def State.finish (s : State) (r : Requester) (a : Answer) : State :=
  { (s.setCtx r (Ctx.undefined s.free (s.ctx r).args)).emit (.response r a) with free := s.free + 8 }

/-- `return v` (R13). -/
def State.done (s : State) (r : Requester) (v : Value) : State := s.finish r (.ok v)

/-- `raise Fail(code)`: the operation ends, every write already made stays (R304). -/
def State.raise (s : State) (r : Requester) (c : Code) : State := s.finish r (.fail c)

/-- A request the spec gives no meaning ends with the mark, and nothing else changes (R307, log 12). -/
def State.refuse (s : State) (r : Requester) (why : Refused) : State := s.finish r (.refused why)

/-- The diagnostic address a failed phase carries: the variant-B VMM write names `VMM_CTL_B_DIAG` (R222). -/
def failDiag (cfg : Cfg) : Phase → Option Loc8
  | .clrB1 => some cfg.vmmCtlBDiag
  | _ => none

/-- A transport failure ends the operation: it is logged and `E_TRANSPORT` is raised (R302, log 15). -/
def State.raiseTransport (s : State) (r : Requester) : State :=
  (s.addLog (.transportFail (s.ctx r).phase (failDiag s.cfg (s.ctx r).phase))).raise r .eTransport

/-- `fail(code)` of `init`: the life state becomes `failed` and the code is raised (R232, R245). `initialized` was cleared
when the negotiation began. -/
def State.failInit (s : State) (r : Requester) (c : Code) : State :=
  (s.setH { s.h with life := .failed, initialized := false }).raise r c

/-- A transport failure inside a negotiation (R245, R302). -/
def State.failInitTransport (s : State) (r : Requester) : State :=
  (s.addLog (.transportFail (s.ctx r).phase none)).failInit r .eTransport

/-- A turn that needs the bus: the agent is held while the bus has an owner (R29, R153). -/
def withBus (s : State) (t : Turn) : Turn := if s.busOwner = none then t else .held s

/-! ### Delivering the interrupt and returning from it (R313, R314) -/

/-- `IRQ.ENTER` (R274, R275): the callback starts with the bus claimed. -/
def irqEnter (s : State) : Turn :=
  if s.h.cbRegistered && s.dev.line then withBus s (.moved ((s.setBus (some .irq)).setIrq .entered)) else .held s

/-- `IRQ.GATE` (R276): a disabled lock makes the interrupt spurious; else the lock becomes `irq_in_flight`. -/
def irqGate (s : State) : Turn :=
  if s.h.lock = .disabled then .moved (((s.addLog .spuriousIrq).setBus none).setIrq .idle)
  else .moved ((s.setH { s.h with lock := .irqInFlight }).setIrq .gated)

/-- `IRQ.RELEASE` (R278): the bus is released and the upstream handler starts. -/
def irqRelease (s : State) : Turn :=
  if s.h.lock = .irqInFlight then .moved (((s.setBus none).emit .dispatchCall).setIrq .dispatched) else .held s

/-- `IRQ.RECLAIM` (R279): after the dispatch the bus is claimed again. -/
def irqReclaim (s : State) : Turn := withBus s (.moved ((s.setBus (some .irq)).setIrq .reclaimed))

/-- `IRQ.EXIT` (R280): the lock becomes `free`, every waiter is woken, the bus is released. -/
def irqExit (s : State) : Turn :=
  .moved ((((s.setH { s.h with lock := .free }).setWaiters []).setBus none).setIrq .idle)

/-- The next step of the interrupt delivery agent (R274 to R280). While the dispatch runs it has none. -/
def irqTurn (s : State) : Turn :=
  match s.irq with
  | .idle => irqEnter s
  | .entered => irqGate s
  | .gated => irqRelease s
  | .dispatched => .held s
  | .drained => irqReclaim s
  | .reclaimed => irqExit s

/-- `DISPATCH.done` (R281): the handler, inside no operation of its own, ends the dispatch. -/
def dispatchDone (s : State) : Turn :=
  if s.irq = .dispatched && s.idle .handler then .moved (s.setIrq .drained) else .held s

end Sys2Proof.Machine
end

