-- ==== Sys2Proof/Machine/RefDevice.lean ====
section
/-! DEFINITION. The reference device (20_memory.md rules R74, R90 to R92) and the oracle's answers to transactions
(R88, R89). -/

namespace Sys2Proof.Machine

/-! ### The records of a transaction (R32) -/

/-- A SingleByteRequest (R32): `wr` is the direction, `raw` write-then-readback. -/
structure SbReq where
  fn : FnIndex
  addr : BusAddr
  wr : Bool
  raw : Bool
  data : Byte
deriving DecidableEq, Repr

/-- A BlockRequest (R32) without its buffer: `bm` block mode, `inc` increment, `bs` the block size beside the command. -/
structure BlkReq where
  fn : FnIndex
  addr : BusAddr
  wr : Bool
  bm : Bool
  inc : Bool
  count : Nat
  bs : Option Nat
deriving DecidableEq, Repr

/-- The place a single-byte request addresses. -/
def SbReq.loc (r : SbReq) : Loc8 := ⟨r.fn, r.addr⟩

/-- The command word of a single-byte request (R101). -/
def SbReq.word (r : SbReq) : Word := sbWord r.wr r.fn r.raw r.addr r.data

/-- The command word of a block request (R103). -/
def BlkReq.word (r : BlkReq) : Word := blkWord r.wr r.fn r.bm r.inc r.addr (BitVec.ofNat 9 r.count)

/-- The bytes a block request moves: `count * block_size` if block mode, else `count` (R146). -/
def BlkReq.bytes (r : BlkReq) : Nat := if r.bm then r.count * r.bs.getD 0 else r.count

/-! ### Places -/

/-- The cell key of a function's byte. -/
def locKey (l : Loc8) : Nat := l.fn.toNat * 2 ^ 17 + l.addr.toNat

/-- The 24-bit window value `W = win[2] ++ win[1] ++ win[0]` (R74). -/
def Device.window (c : Cfg) (d : Device) : BitVec 24 :=
  d.fn.read (locKey ⟨c.winAddr0.fn, winAddr c 2⟩) ++ d.fn.read (locKey ⟨c.winAddr0.fn, winAddr c 1⟩)
    ++ d.fn.read (locKey ⟨c.winAddr0.fn, winAddr c 0⟩)

/-! ### Single bytes (R90, R92) -/

/-- The byte a single-byte read returns: count and flag registers show the device's own fields, every other place its
memory (R90, R92). Where a configuration puts two of these registers at one place, the spec gives two bytes; the first in
the order written here is answered, so a flag register before the status register (DESIGN CHOICE, log 7). -/
def Device.readSb (c : Cfg) (d : Device) (l : Loc8) : Byte :=
  if l = c.dmaCntLo then d.dmaCnt.extractLsb' 0 8
  else if l = c.dmaCntHi then d.dmaCnt.extractLsb' 8 8
  else if l = c.irqFlagsA then d.flags.setWidth 8
  else if l = c.irqFlagsB then (d.flags.extractLsb' 0 4).setWidth 8
  else if l = c.intStatus then statusRegByte d.flags
  else d.fn.read (locKey l)

/-- Acknowledging flags: `flags AND (v AND ACK_MASK)` are cleared, and the line follows the flags (R92). -/
def Device.ack (d : Device) (v m : Byte) : Device :=
  { d with flags := d.flags &&& ~~~((v &&& m).setWidth 5), line := d.flags &&& ~~~((v &&& m).setWidth 5) != 0 }

/-- A single-byte write: the memory takes the byte; an acknowledge register clears flags (R90, R92), both registers' if they
are one place (log 7). -/
def Device.writeSb (c : Cfg) (d : Device) (l : Loc8) (v : Byte) : Device :=
  let d1 := { d with fn := d.fn.write (locKey l) v }
  let d2 := if l = c.intClrA then d1.ack v c.ackMaskA else d1
  if l = c.intAckB then d2.ack v c.ackMaskB else d2

/-! ### Blocks (R74, R90, R91) -/

/-- `n` bytes of chip space from `w` on, addresses modulo `2^24` (R74). -/
def chipRead (m : Memory) (w : BitVec 24) (n : Nat) : List Byte :=
  (List.range n).map (fun i => m.read (w + BitVec.ofNat 24 i).toNat)

/-- Bytes into chip space from `w` on, addresses modulo `2^24` (R74). -/
def chipWrite : Memory → BitVec 24 → List Byte → Memory
  | m, _, [] => m
  | m, w, b :: t => chipWrite (m.write w.toNat b) (w + 1) t

/-- The place of byte `i` of a block elsewhere in a function: consecutive with the increment flag, else fixed (log 7). -/
def blkLoc (r : BlkReq) (i : Nat) : Loc8 := ⟨r.fn, if r.inc then r.addr + BitVec.ofNat 17 i else r.addr⟩

/-- A request at the window data port. -/
def BlkReq.atWindow (c : Cfg) (r : BlkReq) : Bool := (⟨r.fn, r.addr⟩ : Loc8) == c.winData

/-- A request at the function-1 data port (R91). -/
def BlkReq.atFifo (r : BlkReq) : Bool := r.fn == Config.fnData && r.addr == 0

/-- A block read: the window's bytes; the queue's first `n` bytes, `none` if fewer are queued; elsewhere the function's
bytes (R90, R91, log 7). That a read of too many bytes leaves the queue as it is, is the model's choice (DESIGN CHOICE,
log 33: R91 says only that it fails). -/
def Device.readBlk (c : Cfg) (d : Device) (r : BlkReq) : Option (List Byte × Device) :=
  if r.atWindow c then some (chipRead d.chip (d.window c) r.bytes, d)
  else if r.atFifo then
    (if r.bytes ≤ d.fifo.length then some (d.fifo.take r.bytes, { d with fifo := d.fifo.drop r.bytes }) else none)
  else some ((List.range r.bytes).map (fun i => d.readSb c (blkLoc r i)), d)

/-- Successive single bytes of a block write elsewhere in a function (log 7). -/
def Device.writeEach (c : Cfg) (r : BlkReq) : Device → Nat → List Byte → Device
  | d, _, [] => d
  | d, i, b :: t => Device.writeEach c r (d.writeSb c (blkLoc r i) b) (i + 1) t

/-- A block write: into chip space at the window; appended to the queue; elsewhere into the function (R90, R91, log 7). -/
def Device.writeBlk (c : Cfg) (d : Device) (r : BlkReq) (bs : List Byte) : Device :=
  if r.atWindow c then { d with chip := chipWrite d.chip (d.window c) bs }
  else if r.atFifo then { d with fifo := d.fifo ++ bs }
  else Device.writeEach c r d 0 bs

/-! ### Answers (R88, R89) -/

/-- `n` bytes of an answer; a byte the answer does not give is a free value (U1, U5). -/
def padded (free : Nat) (bytes : List Byte) (n : Nat) : List Byte :=
  (List.range n).map (fun i => bytes.getD i (Config.freeByte (free + i)))

/-- The answer to a single-byte command and the device after it. A plain write returns no byte (R143); a raw write to the
reference device returns the byte written (R90). A failed write may have landed (R89). -/
def sbAnswer (c : Cfg) (free : Nat) (d : Device) (r : SbReq) : Draw → Reply × Device
  | .reference =>
    if r.wr then (⟨true, if r.raw then [r.data] else []⟩, d.writeSb c r.loc r.data)
    else (⟨true, [d.readSb c r.loc]⟩, d)
  | .scripted ok bytes landed =>
    (⟨ok, if r.wr && !r.raw then [] else padded free bytes 1⟩,
      if r.wr && (ok || landed != 0) then d.writeSb c r.loc r.data else d)

/-- The answer to a block command and the device after it. Of a failed write the first `landed` bytes reach the device
(R89, R149); the bytes of a failed read are undefined (R147). A listed answer to a read leaves the device, the
function-1 queue too (DESIGN CHOICE, log 21). -/
def blkAnswer (c : Cfg) (free : Nat) (d : Device) (r : BlkReq) (payload : List Byte) : Draw → Reply × Device
  | .reference =>
    if r.wr then (⟨true, []⟩, d.writeBlk c r payload)
    else
      match d.readBlk c r with
      | some (bs, d') => (⟨true, bs⟩, d')
      | none => (⟨false, padded free [] r.bytes⟩, d)
  | .scripted ok bytes landed =>
    if r.wr then (⟨ok, []⟩, d.writeBlk c r (if ok then payload else payload.take landed))
    else (⟨ok, padded free bytes r.bytes⟩, d)

/-- The device changing by itself (R37). A change of the flags moves the line as the reference device does (R92). -/
def Device.poke (d : Device) : Poke → Device
  | .fnByte l v => { d with fn := d.fn.write (locKey l) v }
  | .chipByte a v => { d with chip := d.chip.write a.toNat v }
  | .fifo bs => { d with fifo := bs }
  | .dmaCnt n => { d with dmaCnt := n }
  | .flags f => { d with flags := f, line := f != 0 }
  | .line b => { d with line := b }

end Sys2Proof.Machine
end

