-- ==== Sys2Proof/Machine/CommandEncoder.lean ====
section
/-! DEFINITION. The Command Encoder (40_command_encoder.md): single-byte and block transactions, and the meanings of the
seven bus commands. -/

namespace Sys2Proof.Machine

/-! ### The two entry points -/

/-- One single-byte transaction (R141, R153): the command is emitted, the device answers. The claim and the release of
the bus are fused with it (R153, log 9); the caller has seen the bus free. -/
def State.sb (s : State) (r : SbReq) : Reply × State :=
  let a := sbAnswer s.cfg s.free s.dev r s.nextDraw
  (a.1, { (s.dropDraw.emit (.bus ⟨.sb, r.word, none, []⟩)) with dev := a.2, reply := a.1, free := s.free + 1 })

/-- One block transaction with the bytes to send (R146, R153). -/
def State.blk (s : State) (r : BlkReq) (payload : List Byte) : Reply × State :=
  let a := blkAnswer s.cfg s.free s.dev r payload s.nextDraw
  (a.1, { (s.dropDraw.emit (.bus ⟨.blk, r.word, r.bs, payload⟩)) with
    dev := a.2, reply := a.1, free := s.free + r.bytes })

/-- The byte a single-byte transaction returned. -/
def Reply.byte (r : Reply) : Byte := r.bytes.headD 0

/-- The count check: `1 <= count <= Cfg.MAX_COUNT` (R152). -/
def countAllowed (c : Cfg) (count : Nat) : Bool := decide (1 ≤ count) && decide (count ≤ c.maxCount)

/-- `executeBlock` (R146, R152): a count out of range fails with nothing emitted; else one block transaction. -/
def State.executeBlock (s : State) (r : BlkReq) (payload : List Byte) : Reply × State :=
  if countAllowed s.cfg r.count then s.blk r payload else (⟨false, []⟩, s)

/-- A turn that issues a block command needs the bus only if the count is allowed: the check comes before the claim
(R152). -/
def withBusFor (s : State) (count : Nat) (t : Turn) : Turn := if countAllowed s.cfg count then withBus s t else t

/-! ### Bus commands as instructions

An agent that issues a command itself (70_reset_and_hazards.md rule R350) is held while the bus has an owner: it has no
step, and nothing changes (R153). What the device answered stands in `reply`. -/

/-- What a turn means for the machine: a held agent leaves the state as its turn left it. -/
def Turn.outcome : Turn → Host.Outcome State Fault Refusal
  | .moved s => .next s
  | .held s => .next s
  | .refused r => .refused r

/-- A single-byte command (R141). -/
def sbCommand (r : SbReq) (s : State) : Turn := withBus s (.moved (s.sb r).2)

/-- A block command of a buffer (R146): a read fills `buf[off ..]` with what the device returned, and on a failure with
undefined bytes (R147); a write sends the buffer's bytes and leaves it (R149). A buffer that does not hold the bytes
moved is refused (R192). A count the encoder refuses answers `FAIL` with nothing emitted (R152). -/
def blkCommand (r : BlkReq) (side : Side) (s : State) : Turn :=
  if countAllowed s.cfg r.count then
    if side.off + r.bytes ≤ side.buf.len then
      withBus s
        (if r.wr then .moved (s.blk r (s.buf.readBytes (side.buf.base + side.off) r.bytes)).2
         else
          let a := s.blk r []
          .moved (a.2.setBuf (a.2.buf.writeBytes (side.buf.base + side.off) a.1.bytes)))
    else .refused .bufferTooShort
  else .moved { s with reply := ⟨false, []⟩ }

/-- `SB.RD` (R142). -/
def execSbRd (fn : FnIndex) (addr : BusAddr) (s : State) : Host.Outcome State Fault Refusal :=
  (sbCommand ⟨fn, addr, false, false, 0⟩ s).outcome

/-- `SB.WR` (R143). -/
def execSbWr (fn : FnIndex) (addr : BusAddr) (data : Byte) (s : State) : Host.Outcome State Fault Refusal :=
  (sbCommand ⟨fn, addr, true, false, data⟩ s).outcome

/-- `SB.WRRB` (R144): the write and the read-back are one transaction. -/
def execSbWrRb (fn : FnIndex) (addr : BusAddr) (data : Byte) (s : State) : Host.Outcome State Fault Refusal :=
  (sbCommand ⟨fn, addr, true, true, data⟩ s).outcome

/-- `BLK.RD.BYTE` (R147): `count` bytes. -/
def execBlkRdByte (fn : FnIndex) (inc : Bool) (addr : BusAddr) (count : BitVec 9) (side : Side) (s : State) :
    Host.Outcome State Fault Refusal :=
  (blkCommand ⟨fn, addr, false, false, inc, count.toNat, some side.bs⟩ side s).outcome

/-- `BLK.RD.BLOCK` (R148): `count` blocks of `bs` bytes. -/
def execBlkRdBlock (fn : FnIndex) (inc : Bool) (addr : BusAddr) (count : BitVec 9) (side : Side) (s : State) :
    Host.Outcome State Fault Refusal :=
  (blkCommand ⟨fn, addr, false, true, inc, count.toNat, some side.bs⟩ side s).outcome

/-- `BLK.WR.BYTE` (R149): `count` bytes. -/
def execBlkWrByte (fn : FnIndex) (inc : Bool) (addr : BusAddr) (count : BitVec 9) (side : Side) (s : State) :
    Host.Outcome State Fault Refusal :=
  (blkCommand ⟨fn, addr, true, false, inc, count.toNat, some side.bs⟩ side s).outcome

/-- `BLK.WR.BLOCK` (R150): `count` blocks of `bs` bytes. -/
def execBlkWrBlock (fn : FnIndex) (inc : Bool) (addr : BusAddr) (count : BitVec 9) (side : Side) (s : State) :
    Host.Outcome State Fault Refusal :=
  (blkCommand ⟨fn, addr, true, true, inc, count.toNat, some side.bs⟩ side s).outcome

end Sys2Proof.Machine
end

