-- ==== Sys2Proof/Machine/AddressWindow.lean ====
section
/-! DEFINITION. The Address Window Manager, `readReg` and `writeReg` (41_address_window.md). -/

namespace Sys2Proof.Machine

/-- Write `i` of `setWindow(a)` (R161): byte `i` of the address into window register `i` on function 0. -/
def windowReq (c : Cfg) (a : Word) (i : Nat) : SbReq := ⟨Config.fnCtrl, winAddr c i, true, false, byteOf a i⟩

/-- The 4-byte byte-mode command at the window data port (R166, R170); the block size beside it is not used. -/
def windowDataReq (c : Cfg) (wr : Bool) (bs : Option Nat) : BlkReq :=
  ⟨Config.fnCtrl, c.winData.addr, wr, false, true, 4, bs⟩

/-- The single-byte command of the direct range (R167, R171). -/
def directReq (wr : Bool) (addr word : Word) : SbReq :=
  ⟨Config.fnCtrl, addr.extractLsb' 0 17, wr, false, if wr then byteOf word 0 else 0⟩

/-- The first phase of a register access (R165). -/
def regFirst (c : Cfg) (addr : Word) : RegStep := if inDirect c addr then .direct else .win .w0

/-- The phase after one of the three window writes (R161). -/
def WinStep.next : WinStep → WinStep
  | .w0 => .w1
  | .w1 => .w2
  | .w2 => .data
  | .data => .data

/-- The number of the window write of a phase (R161). -/
def WinStep.index : WinStep → Nat
  | .w0 => 0
  | .w1 => 1
  | .w2 => 2
  | .data => 2

/-- What one transaction of a register access comes to. -/
inductive Access where
  | fail
  | more (r : RegStep)
  | value (v : Word)
deriving DecidableEq, Repr

/-- One transaction of `setWindow(a)` (R161, R162). -/
def winWrite (a : Word) (w : WinStep) (s : State) : Bool × State :=
  let t := s.sb (windowReq s.cfg a w.index)
  (t.1.ok, t.2)

/-- One transaction of `readReg(addr)` (`wr` false) or `writeReg(addr, word)` by requester `q` (R165 to R171). A read
ends with its value; a write ends with a value nobody reads. -/
def regAccess (q : Requester) (wr : Bool) (addr word : Word) (st : RegStep) (s : State) : Access × State :=
  match st with
  | .direct =>
    let t := s.sb (directReq wr addr word)
    if t.1.ok then (.value (t.1.byte.setWidth 32), t.2) else (.fail, t.2)
  | .win .data =>
    let payload := if wr then wordBytes word else []
    let t := s.executeBlock (windowDataReq s.cfg wr s.h.blockSize) payload
    let tmp := if wr then payload else t.1.bytes
    let s' := t.2.setCtx q { t.2.ctx q with tmp := tmp }
    if t.1.ok then (.value (bytesToWord tmp), s') else (.fail, s')
  | .win w =>
    let t := winWrite addr w s
    if t.1 then (.more (.win w.next), t.2) else (.fail, t.2)

/-- One step of an operation that is inside a register access: go to the access's next phase, or fail, or continue with
the value read. -/
def accessTurn (q : Requester) (wr : Bool) (addr word : Word) (st : RegStep) (more : RegStep → Phase)
    (failed : State → State) (value : Word → State → State) (s : State) : Turn :=
  withBus s
    (match regAccess q wr addr word st s with
     | (.fail, s') => .moved (failed s')
     | (.more r, s') => .moved (s'.goto q (more r))
     | (.value v, s') => .moved (value v s'))

/-- The first phase of `readReg` and `writeReg`: direct or windowed (R165). They read no handle field (R172). -/
def startReg (q : Requester) (s : State) : Turn := .moved (s.goto q (.reg (regFirst s.cfg (s.ctx q).args.addr)))

/-- Whether the operation of a context writes (`writeReg`, `blockWrite`). -/
def opWrites : OpSel → Bool
  | .writeReg => true
  | .blockWrite => true
  | _ => false

/-- The result of `readReg` and `writeReg` (R166, R170). -/
def regResult (op : OpSel) (v : Word) : Value := if opWrites op then .unit else .word v

/-- A phase of `readReg` or `writeReg` (R166, R170). -/
def regTurn (q : Requester) (st : RegStep) (s : State) : Turn :=
  accessTurn q (opWrites (s.ctx q).op) (s.ctx q).args.addr (s.ctx q).args.word st .reg (fun t => t.raiseTransport q)
    (fun v t => t.done q (regResult (s.ctx q).op v)) s

end Sys2Proof.Machine
end

