-- ==== Sys2Proof/Machine/BlockTransfer.lean ====
section
/-! DEFINITION. The Block Transfer Engine: `blockRead` and `blockWrite` (42_block_transfer.md). -/

namespace Sys2Proof.Machine

/-- The first phase of one half of a transfer: its `setWindow` if the address is not 0 (R182, R187). -/
def halfFirst (addr : Word) : WinStep := if addr = 0 then .data else .w0

/-- Entering phase (b) if a remainder exists, else ending (R184, R185). -/
def afterHalfA (q : Requester) (s : State) : State :=
  if (s.ctx q).nleft = 0 then s.done q .unit else s.goto q (.blk .b (halfFirst (s.ctx q).args.addr))

/-- The block command of one half: direct at function 1 address 0, or at the window data port (R151, R182, R188). -/
def halfReq (c : Cfg) (x : Ctx) (bs : Option Nat) : Half → BlkReq
  | .a => ⟨if x.args.addr = 0 then Config.fnData else Config.fnCtrl, if x.args.addr = 0 then 0 else c.winData.addr,
      opWrites x.op, true, true, x.nblk, bs⟩
  | .b => ⟨if x.args.addr = 0 then Config.fnData else Config.fnCtrl, if x.args.addr = 0 then 0 else c.winData.addr,
      opWrites x.op, false, true, x.nleft, bs⟩

/-- The first phase of a transfer (R181 to R188): refused with `E_TRANSPORT` while no block size is negotiated (R183);
a buffer shorter than the rounded size is a refused request (R192); the split; empty phases skipped (R185). -/
def startTransfer (q : Requester) (s : State) : Turn :=
  let x := s.ctx q
  match s.h.blockSize with
  | none => .moved (s.raiseTransport q)
  | some bs =>
    let sz := roundUp4 x.args.size
    if x.args.buf.len < sz then .refused .bufferTooShort
    else
      let s1 := s.setCtx q
        { x with nblk := wholeBlocks sz bs, nleft := remainder sz bs, wa := x.args.addr, cur := 0 }
      if wholeBlocks sz bs = 0 then .moved (afterHalfA q s1)
      else .moved (s1.goto q (.blk .a (halfFirst x.args.addr)))

/-- After a half's block command succeeded: the buffer cursor, and windowed the window cursor, advance by the bytes moved
(R187), and the transfer goes on or ends. -/
def halfDone (q : Requester) (h : Half) (moved : Nat) (s : State) : State :=
  match h with
  | .a =>
    let x := s.ctx q
    afterHalfA q (s.setCtx q
      { x with cur := x.cur + moved, wa := if x.args.addr = 0 then x.wa else x.wa + BitVec.ofNat 32 moved })
  | .b => s.done q .unit

/-- The block command of a half (R188, R189). A read fills the buffer from the cursor on, on a failure with undefined
bytes; a write sends the buffer's bytes. -/
def halfCommand (q : Requester) (h : Half) (s : State) : Turn :=
  let x := s.ctx q
  let r := halfReq s.cfg x s.h.blockSize h
  let base := x.args.buf.base + x.cur
  withBusFor s r.count
    (if r.wr then
      let t := s.executeBlock r (s.buf.readBytes base r.bytes)
      .moved (if t.1.ok then halfDone q h r.bytes t.2 else t.2.raiseTransport q)
    else
      let t := s.executeBlock r []
      let s' := t.2.setBuf (t.2.buf.writeBytes base t.1.bytes)
      .moved (if t.1.ok then halfDone q h r.bytes s' else s'.raiseTransport q))

/-- A phase of a transfer (R187, R188): a window write of the half, or its block command. -/
def blkTurn (q : Requester) (h : Half) (w : WinStep) (s : State) : Turn :=
  match w with
  | .data => halfCommand q h s
  | w =>
    let t := winWrite (s.ctx q).wa w s
    withBus s (.moved (if t.1 then t.2.goto q (.blk h w.next) else t.2.raiseTransport q))

end Sys2Proof.Machine
end

