-- ==== Sys2Proof/Machine/InterruptStatus.lean ====
section
/-! DEFINITION. The Interrupt State Machine: `readPendingSize`, `readInterruptStatus`, `clearInterrupts`
(43_interrupt_status.md). -/

namespace Sys2Proof.Machine

/-- A plain read of a byte register (R142). -/
def readReq (l : Loc8) : SbReq := ⟨l.fn, l.addr, false, false, 0⟩

/-- A write of a byte register, raw or plain (R143, R144). -/
def writeReq (l : Loc8) (raw : Bool) (v : Byte) : SbReq := ⟨l.fn, l.addr, true, raw, v⟩

/-- One single-byte transaction of an operation: on `FAIL` one continuation, on `OK` the other with the byte. -/
def sbTurn (r : SbReq) (failed : State → State) (ok : Byte → State → State) (s : State) : Turn :=
  withBus s
    (let t := s.sb r
     .moved (if t.1.ok then ok t.1.byte t.2 else failed t.2))

/-- Writing the accumulator `x[6]`. -/
def State.setAcc (s : State) (q : Requester) (v : Word) : State := s.setCtx q { s.ctx q with acc := v }

/-! ### readPendingSize and readInterruptStatus -/

/-- The first phase of `readPendingSize` (R201). -/
def startPendingSize (q : Requester) (s : State) : Turn := .moved (s.goto q .count0)

/-- The first phase of `readInterruptStatus`: refused as a whole in GPIO mode while the variant is unknown (R213). -/
def startInterruptStatus (q : Requester) (s : State) : Turn :=
  if s.h.gpioIrq && s.h.variant = .unknown then .moved (s.refuse q .variantUnknown) else .moved (s.goto q .count0)

/-- Phase C0: the low count byte (R201). -/
def count0Turn (q : Requester) (s : State) : Turn :=
  sbTurn (readReq s.cfg.dmaCntLo) (fun t => t.raiseTransport q)
    (fun d t => (t.setAcc q (d.setWidth 32)).goto q .count1) s

/-- Phase C1: the high count byte (R201); `readPendingSize` ends here, `readInterruptStatus` reads its flags next
(R205). -/
def count1Turn (q : Requester) (s : State) : Turn :=
  sbTurn (readReq s.cfg.dmaCntHi) (fun t => t.raiseTransport q)
    (fun d t =>
      let count := dmaCount ((t.ctx q).acc.extractLsb' 0 8) d
      if (t.ctx q).op = .readPendingSize then t.done q (.count count)
      else (t.setAcc q (count.setWidth 32)).goto q .flags) s

/-- The flag register and mask of a variant in GPIO mode (R206, R207); none while it is unknown. -/
def gpioFlagReg (c : Cfg) : Variant → Option (Loc8 × Byte)
  | .a => some (c.irqFlagsA, Config.gpioFlagMaskA)
  | .b => some (c.irqFlagsB, Config.gpioFlagMaskB)
  | .unknown => none

/-- The end of a status-register read: the status with its flags, and one event if any is unexpected (R210, R212). -/
def statusRegDone (q : Requester) (d : Byte) (s : State) : State :=
  let acc := statusReg (s.ctx q).acc d
  let s1 := s.setAcc q acc
  let s2 := if hasUnexpected s.h.nint acc then s1.addLog (.unexpectedIrq acc d) else s1
  s2.done q (.status acc)

/-- Phase F or S: the flag register of the variant in GPIO mode, else the status register (R205). -/
def flagsTurn (q : Requester) (s : State) : Turn :=
  if s.h.gpioIrq then
    match gpioFlagReg s.cfg s.h.variant with
    | some (l, m) =>
      sbTurn (readReq l) (fun t => t.raiseTransport q)
        (fun d t => (t.setAcc q (statusGpio (t.ctx q).acc d m)).done q (.status (statusGpio (t.ctx q).acc d m))) s
    | none => .moved (s.refuse q .variantUnknown)
  else sbTurn (readReq s.cfg.intStatus) (fun t => t.raiseTransport q) (statusRegDone q) s

/-! ### clearInterrupts -/

/-- Going on to the variant-B VMM write if its value is not 0 (R221, R223). -/
def afterAckB (q : Requester) (s : State) : State :=
  if vmmB s.cfg (s.ctx q).args.mask = 0 then s.done q .unit
  else (s.setAcc q ((vmmB s.cfg (s.ctx q).args.mask).setWidth 32)).goto q .clrB1

/-- The first phase of `clearInterrupts` (R218): refused while the variant is unknown (R225); a write whose value is 0 is
not issued (R223). The value to write is held in `x[6]`. -/
def startClear (q : Requester) (s : State) : Turn :=
  let mask := (s.ctx q).args.mask
  match s.h.variant with
  | .unknown => .moved (s.refuse q .variantUnknown)
  | .a =>
    let v := valueA s.cfg s.h.gpioIrq mask
    if v = 0 then .moved (s.done q .unit) else .moved ((s.setAcc q (v.setWidth 32)).goto q .clrA0)
  | .b =>
    if s.h.gpioIrq && ackB s.cfg mask != 0 then
      .moved ((s.setAcc q ((ackB s.cfg mask).setWidth 32)).goto q .clrB0)
    else .moved (afterAckB q s)

/-- The value a clear phase writes. -/
def clearValue (q : Requester) (s : State) : Byte := (s.ctx q).acc.extractLsb' 0 8

/-- Phase A0: the merged variant-A write (R219). -/
def clrA0Turn (q : Requester) (s : State) : Turn :=
  sbTurn (writeReq s.cfg.intClrA false (clearValue q s)) (fun t => t.raiseTransport q) (fun _ t => t.done q .unit) s

/-- Phase B0: the variant-B acknowledge write (R220). -/
def clrB0Turn (q : Requester) (s : State) : Turn :=
  sbTurn (writeReq s.cfg.intAckB false (clearValue q s)) (fun t => t.raiseTransport q) (fun _ t => afterAckB q t) s

/-- Phase B1: the variant-B VMM write, to the actual write target (R221, R222). -/
def clrB1Turn (q : Requester) (s : State) : Turn :=
  sbTurn (writeReq s.cfg.vmmCtlB false (clearValue q s)) (fun t => t.raiseTransport q) (fun _ t => t.done q .unit) s

end Sys2Proof.Machine
end

