-- ==== Sys2Proof/Machine/Lifecycle.lean ====
section
/-! DEFINITION. The Bus Lifecycle Controller: `init`, `deinit`, `reset`, `isInitialized`, `syncInterrupts`, `suspend`,
`resume` (44_lifecycle.md). -/

namespace Sys2Proof.Machine

/-! ### syncInterrupts (R249 to R257) -/

/-- The address of a register updated by read-modify-write (R249). -/
def rmwAddr (c : Cfg) : RmwReg → Word
  | .misc => c.miscReg
  | .pinmux => c.pinmuxReg
  | .en1 => c.intrEn1Reg
  | .en2 => c.intrEn2Reg

/-- The bits an update clears (R253). -/
def rmwClear (c : Cfg) : RmwReg → Word
  | .misc => bit32 c.pseqDisBit
  | _ => 0

/-- The bits an update sets, with `rem` lines still to allocate (R254, R255). -/
def rmwSet (c : Cfg) (rem : Nat) : RmwReg → Word
  | .misc => 0
  | .pinmux => bit32 c.pinmuxIrqBit
  | .en1 => en1Bits c rem
  | .en2 => en2Bits c rem

/-- Beginning the update of a register with its `readReg` (R252). -/
def beginRmw (q : Requester) (reg : RmwReg) (s : State) : State :=
  s.goto q (.rmw reg .read (regFirst s.cfg (rmwAddr s.cfg reg)))

/-- The end of `syncInterrupts`; `resume` then makes its two opaque handshakes and ends (R249, R259). -/
def syncDone (q : Requester) (s : State) : State :=
  if (s.ctx q).op = .resume then (s.emit .pmHandshakes).done q .unit else s.done q .unit

/-- What follows the update of a register (R249). -/
def afterRmw (q : Requester) (reg : RmwReg) (s : State) : State :=
  let x := s.ctx q
  match reg with
  | .misc => if s.h.gpioIrq then beginRmw q .pinmux s else syncDone q s
  | .pinmux => beginRmw q .en1 (s.setCtx q { x with rem := x.args.n })
  | .en1 =>
    let rest := x.rem - min x.rem Config.en1Lines
    let s1 := s.setCtx q { x with rem := rest }
    if rest = 0 then syncDone q s1 else beginRmw q .en2 s1
  | .en2 => syncDone q (s.setCtx q { x with rem := x.rem - min x.rem Config.en2Lines })

/-- A phase of a read-modify-write (R252): the transactions of `readReg(r)`, then those of
`writeReg(r, (v AND NOT clr) OR set)`. -/
def rmwTurn (q : Requester) (reg : RmwReg) (half : RmwHalf) (st : RegStep) (s : State) : Turn :=
  let a := rmwAddr s.cfg reg
  match half with
  | .read =>
    accessTurn q false a 0 st (.rmw reg .read) (fun t => t.raiseTransport q)
      (fun v t =>
        (t.setAcc q ((v &&& ~~~(rmwClear s.cfg reg)) ||| rmwSet s.cfg (s.ctx q).rem reg)).goto q
          (.rmw reg .write (regFirst s.cfg a))) s
  | .write =>
    accessTurn q true a (s.ctx q).acc st (.rmw reg .write) (fun t => t.raiseTransport q)
      (fun _ t => afterRmw q reg t) s

/-- The body of `syncInterrupts(n)` up to its first transaction (R249): the line count is checked before anything
(R250), an unknown variant is refused (R257), then `h.nint` is written (R251). -/
def syncBody (q : Requester) (n : Nat) (s : State) : State :=
  if s.cfg.maxIntLines < n then (s.addLog (.tooManyLines n)).raise q .eTooManyLines
  else if s.h.variant = .unknown then s.refuse q .variantUnknown
  else
    let s1 := (s.setH { s.h with nint := n }).setCtx q { s.ctx q with args := { (s.ctx q).args with n := n } }
    if s.h.variant = .b then beginRmw q .misc s1
    else if s.h.gpioIrq then beginRmw q .pinmux s1
    else syncDone q s1

/-- The first phase of `syncInterrupts` (R249). -/
def startSync (q : Requester) (s : State) : Turn := .moved (syncBody q (s.ctx q).args.n s)

/-- `resume`'s call of `syncInterrupts(h.nint)` (R259), a step of its own after the commit (DESIGN CHOICE, log 35). -/
def syncStartTurn (q : Requester) (s : State) : Turn := .moved (syncBody q s.h.nint s)

/-! ### init (R232 to R245) -/

/-- The register, raw flag and value of a negotiation write (R233, R234, R235, R237, R238). -/
def negReq (c : Cfg) : NegWrite → SbReq
  | .winEn => writeReq c.winEnReg c.initWritesRaw c.winEnVal
  | .f0Lo => writeReq c.f0BlkszLo false (blockSizeByte 0)
  | .f0Hi => writeReq c.f0BlkszHi false (blockSizeByte 1)
  | .ioEn => writeReq c.ioEnReg c.initWritesRaw c.ioEnVal
  | .f1Lo => writeReq c.f1BlkszLo false (blockSizeByte 0)
  | .f1Hi => writeReq c.f1BlkszHi false (blockSizeByte 1)
  | .intEn => writeReq c.intEnReg c.initWritesRaw c.intEnVal

/-- What follows a negotiation write (R232). -/
def afterNeg (q : Requester) (w : NegWrite) (s : State) : State :=
  match w with
  | .winEn => s.goto q (.neg .f0Lo)
  | .f0Lo => s.goto q (.neg .f0Hi)
  | .f0Hi => s.goto q (.neg .ioEn)
  | .ioEn => (s.setCtx q { s.ctx q with poll := 0 }).goto q .poll
  | .f1Lo => s.goto q (.neg .f1Hi)
  | .f1Hi => s.goto q (.neg .intEn)
  | .intEn => s.goto q (if (s.ctx q).args.resume then .identSkip else .ident (regFirst s.cfg s.cfg.chipIdReg))

/-- A negotiation write (R232). -/
def negTurn (q : Requester) (w : NegWrite) (s : State) : Turn :=
  sbTurn (negReq s.cfg w) (fun t => t.failInitTransport q) (fun _ t => afterNeg q w t) s

/-- Step 4: one poll of the I/O-ready bit, at most three (R236, R239). -/
def pollTurn (q : Requester) (s : State) : Turn :=
  sbTurn (readReq s.cfg.ioRdyReg) (fun t => t.failInitTransport q)
    (fun d t =>
      let p := (t.ctx q).poll + 1
      let t1 := t.setCtx q { t.ctx q with poll := p }
      if d &&& s.cfg.ioRdyMask = 0 then
        (if Config.readyPolls ≤ p then (t1.addLog .notReady).failInit q .eNotReady else t1)
      else t1.goto q (.neg .f1Lo)) s

/-- Commit: the block size, `initialized` and the life state are set (R244); `init` ends, `resume` goes on with its
`syncInterrupts` (R259). It is one step with what leads to it: the identifier's last transaction (DESIGN CHOICE, log 34), or
the step that skips the identification (log 35). -/
def commitInit (q : Requester) (v : Variant) (s : State) : State :=
  let s1 := s.setH
    { s.h with variant := v, blockSize := some Config.blockSizeReq, initialized := true, life := .ready }
  if (s.ctx q).op = .resume then s1.goto q .syncStart else s1.done q .unit

/-- Step 7, non-resume: the chip identifier is read and classified (R240, R242). -/
def identTurn (q : Requester) (st : RegStep) (s : State) : Turn :=
  accessTurn q false s.cfg.chipIdReg 0 st .ident (fun t => t.failInitTransport q)
    (fun id t =>
      match classify t.cfg id with
      | .unknown => (t.addLog (.unsupportedChip id)).failInit q .eUnsupportedChip
      | v => commitInit q v t) s

/-- Step 7, resume: identification is skipped; it fails while the variant is unknown (R243). With the commit or the failure
it is a step of its own, so another agent may step between the step-6 write and it (DESIGN CHOICE, log 35). -/
def identSkipTurn (q : Requester) (s : State) : Turn :=
  match s.h.variant with
  | .unknown => .moved ((s.addLog (.unsupportedChip 0)).failInit q .eUnsupportedChip)
  | v => .moved (commitInit q v s)

/-- Phase N0 of a negotiation (R232): refused while another runs (R260); else the life state becomes `negotiating` and
`initialized` is cleared. -/
def beginNegotiation (q : Requester) (resume : Bool) (s : State) : Turn :=
  if s.h.life = .negotiating then .moved (s.refuse q .negotiating)
  else
    let s1 := s.setH { s.h with life := .negotiating, initialized := false }
    .moved (s1.setCtx q
      { s.ctx q with phase := .neg .winEn, args := { (s.ctx q).args with resume := resume } })

/-- The first phase of `init(resume)` (R232). -/
def startInit (q : Requester) (s : State) : Turn := beginNegotiation q (s.ctx q).args.resume s

/-- The first phase of `resume()`, which runs `init(true)` (R259). -/
def startResume (q : Requester) (s : State) : Turn := beginNegotiation q true s

/-! ### deinit, reset, suspend, isInitialized (R246 to R248, R258) -/

/-- `initialized` cleared and the life state `uninitialized` (R246, R247). -/
def Handle.down (h : Handle) : Handle := { h with initialized := false, life := .uninitialized }

/-- `deinit()` (R246): flag clear only. -/
def startDeinit (q : Requester) (s : State) : Turn :=
  if s.h.life = .negotiating then .moved (s.refuse q .negotiating) else .moved ((s.setH s.h.down).done q .unit)

/-- The body of `reset()` (R247): one raw write; the flags are cleared whatever its status; the byte is discarded. The
check and the write are one step (log 14); so are the write, the clearing and the answer (DESIGN CHOICE, log 34). -/
def resetTurn (q : Requester) (s : State) : Turn :=
  if s.h.life = .negotiating then .moved (s.refuse q .negotiating)
  else
    sbTurn (writeReq s.cfg.resetReg true s.cfg.resetVal) (fun t => (t.setH t.h.down).raiseTransport q)
      (fun _ t => (t.setH t.h.down).done q .unit) s

/-- The first phase of `suspend()` (R258): refused during a negotiation (R260); else the two opaque handshakes, a step of
their own (DESIGN CHOICE, log 35). -/
def startSuspend (q : Requester) (s : State) : Turn :=
  if s.h.life = .negotiating then .moved (s.refuse q .negotiating)
  else .moved ((s.emit .pmHandshakes).goto q .resetWrite)

/-- `isInitialized()` (R248): accepted in every state. -/
def startIsInitialized (q : Requester) (s : State) : Turn := .moved (s.done q (.bool s.h.initialized))

end Sys2Proof.Machine
end

