-- ==== Sys2Proof/Machine/DeliveryLock.lean ====
section
/-! DEFINITION. The Interrupt Delivery Lock: `enableInterrupts` and `disableInterrupts`
(45_interrupt_delivery_lock.md). The callback's steps are in Machine/Ops.lean. -/

namespace Sys2Proof.Machine

/-- Setting `h.lock` (R271). -/
def State.setLock (s : State) (l : Lock) : State := s.setH { s.h with lock := l }

/-- Setting `h.cb_registered` (R20). -/
def State.setCb (s : State) (b : Bool) : State := s.setH { s.h with cbRegistered := b }

/-- `EN.SET` (R272): the lock becomes `free`, unconditionally (R273). -/
def startEnable (q : Requester) (s : State) : Turn := .moved ((s.setLock .free).goto q .registerCb)

/-- `EN.REG` (R272): the callback is registered; the outcome is the oracle's. -/
def registerTurn (q : Requester) (s : State) : Turn :=
  withBus s
    (let s1 := s.dropDraw.emit .irqRegister
     .moved (if s.nextDraw.outcome then (s1.setCb true).done q .unit else s1.raiseTransport q))

/-- Joining `lock.waiters` (R285). -/
def joinWaiters (q : Requester) (s : State) : State :=
  s.setWaiters (if s.waiters.contains q then s.waiters else s.waiters ++ [q])

/-- `DIS.SET` (R284, R285): while a dispatch is in flight, and until `IRQ.EXIT` has woken it, the requester waits; else
the lock becomes `disabled`, in the same step as the test. -/
def startDisable (q : Requester) (s : State) : Turn :=
  if s.h.lock = .irqInFlight || s.waiters.contains q then .held (joinWaiters q s)
  else .moved ((s.setLock .disabled).goto q .unregisterCb)

/-- `DIS.UNREG` (R284): the callback is unregistered; the outcome is the oracle's and is kept in `x[9]`. -/
def unregisterTurn (q : Requester) (s : State) : Turn :=
  withBus s
    (let s1 := s.dropDraw.emit .irqUnregister
     let ok := s.nextDraw.outcome
     let s2 := if ok then s1.setCb false else s1
     .moved (s2.setCtx q { s2.ctx q with res := if ok then .ok else .eTransport, phase := .lockFree }))

/-- `DIS.FREE` (R284): the lock becomes `free`; a failed unregistration is reported. -/
def lockFreeTurn (q : Requester) (s : State) : Turn :=
  let s1 := s.setLock .free
  .moved (if (s.ctx q).res = .ok then s1.done q .unit else s1.raiseTransport q)

end Sys2Proof.Machine
end

