-- ==== Sys2Proof/Machine/Sequencer.lean ====
section
/-! DEFINITION. The sequencer: the phase a requester's context is at (10_state.md rules R27, R28), the run of an
operation, and the meanings of the sixteen host operations (30_encoding.md rule R108). -/

namespace Sys2Proof.Machine

/-- The first phase of an operation. Apart from `reset`'s, which is its raw write, it makes no transaction and is a step of
its own before the first one (DESIGN CHOICE, log 35; the spec's own step for `enableInterrupts` and `disableInterrupts`,
R272, R284, and for phase N0 of a negotiation, R232). -/
def startTurn (q : Requester) (s : State) : Turn :=
  match (s.ctx q).op with
  | .init => startInit q s
  | .deinit => startDeinit q s
  | .readReg => startReg q s
  | .writeReg => startReg q s
  | .blockRead => startTransfer q s
  | .blockWrite => startTransfer q s
  | .readInterruptStatus => startInterruptStatus q s
  | .clearInterrupts => startClear q s
  | .readPendingSize => startPendingSize q s
  | .syncInterrupts => startSync q s
  | .enableInterrupts => startEnable q s
  | .disableInterrupts => startDisable q s
  | .reset => resetTurn q s
  | .isInitialized => startIsInitialized q s
  | .suspend => startSuspend q s
  | .resume => startResume q s

/-- One phase of the operation a requester runs: one bus transaction, lock transition or lifecycle transition (R14,
R28). An idle requester has no step. -/
def phaseTurn (q : Requester) (s : State) : Turn :=
  match (s.ctx q).phase with
  | .idle => .held s
  | .start => startTurn q s
  | .reg r => regTurn q r s
  | .blk h w => blkTurn q h w s
  | .count0 => count0Turn q s
  | .count1 => count1Turn q s
  | .flags => flagsTurn q s
  | .clrA0 => clrA0Turn q s
  | .clrB0 => clrB0Turn q s
  | .clrB1 => clrB1Turn q s
  | .neg w => negTurn q w s
  | .poll => pollTurn q s
  | .ident r => identTurn q r s
  | .identSkip => identSkipTurn q s
  | .resetWrite => resetTurn q s
  | .syncStart => syncStartTurn q s
  | .rmw reg half r => rmwTurn q reg half r s
  | .registerCb => registerTurn q s
  | .unregisterCb => unregisterTurn q s
  | .lockFree => lockFreeTurn q s

/-- More phases than any operation takes: `resume` has the most, 46 (R28; `Fault.sequenceOverrun`). -/
def phaseBound : Nat := 64

/-- Running a requester's operation, phase after phase, until it ends or is held. -/
def runPhases : Nat → Requester → State → Host.Outcome State Fault Refusal
  | 0, q, s => if s.idle q then .next s else .fault .sequenceOverrun
  | k + 1, q, s =>
    if s.idle q then .next s
    else
      match phaseTurn q s with
      | .moved s' => runPhases k q s'
      | .held s' => .next s'
      | .refused r => .refused r

/-- A request is accepted: the requester's context holds the operation and its operands, at the first phase (R28). -/
def State.load (s : State) (q : Requester) (op : OpSel) (args : Args) : State :=
  s.setCtx q { s.ctx q with op := op, phase := .start, args := args }

/-- A requester calls an operation: it is accepted and run until it ends or is held, no other agent's step falling
between (log 10). A requester inside an operation cannot call another: it has no step (R16, R27). -/
def perform (op : OpSel) (args : Args) (s : State) : Host.Outcome State Fault Refusal :=
  if s.idle s.cur then runPhases phaseBound s.cur (s.load s.cur op args) else .next s

/-- `init(resume)` (R232). -/
def execInit (resume : Bool) (s : State) : Host.Outcome State Fault Refusal :=
  perform .init { Args.zero with resume := resume } s

/-- `deinit()` (R246). -/
def execDeinit (s : State) : Host.Outcome State Fault Refusal := perform .deinit Args.zero s

/-- `readReg(addr)` (R166). -/
def execReadReg (addr : Word) (s : State) : Host.Outcome State Fault Refusal :=
  perform .readReg { Args.zero with addr := addr } s

/-- `writeReg(addr, word)` (R170). -/
def execWriteReg (addr word : Word) (s : State) : Host.Outcome State Fault Refusal :=
  perform .writeReg { Args.zero with addr := addr, word := word } s

/-- `blockRead(addr, buf, size)` (R188). -/
def execBlockRead (addr : Word) (buf : BufRef) (size : Nat) (s : State) : Host.Outcome State Fault Refusal :=
  perform .blockRead { Args.zero with addr := addr, buf := buf, size := size } s

/-- `blockWrite(addr, buf, size)` (R189). -/
def execBlockWrite (addr : Word) (buf : BufRef) (size : Nat) (s : State) : Host.Outcome State Fault Refusal :=
  perform .blockWrite { Args.zero with addr := addr, buf := buf, size := size } s

/-- `readInterruptStatus()` (R205). -/
def execReadInterruptStatus (s : State) : Host.Outcome State Fault Refusal := perform .readInterruptStatus Args.zero s

/-- `clearInterrupts(mask)` (R218). -/
def execClearInterrupts (mask : Word) (s : State) : Host.Outcome State Fault Refusal :=
  perform .clearInterrupts { Args.zero with mask := mask } s

/-- `readPendingSize()` (R201). -/
def execReadPendingSize (s : State) : Host.Outcome State Fault Refusal := perform .readPendingSize Args.zero s

/-- `syncInterrupts(n)` (R249). -/
def execSyncInterrupts (n : Nat) (s : State) : Host.Outcome State Fault Refusal :=
  perform .syncInterrupts { Args.zero with n := n } s

/-- `enableInterrupts()` (R272). -/
def execEnableInterrupts (s : State) : Host.Outcome State Fault Refusal := perform .enableInterrupts Args.zero s

/-- `disableInterrupts()` (R284). -/
def execDisableInterrupts (s : State) : Host.Outcome State Fault Refusal := perform .disableInterrupts Args.zero s

/-- `reset()` (R247). -/
def execReset (s : State) : Host.Outcome State Fault Refusal := perform .reset Args.zero s

/-- `isInitialized()` (R248). -/
def execIsInitialized (s : State) : Host.Outcome State Fault Refusal := perform .isInitialized Args.zero s

/-- `suspend()` (R258). -/
def execSuspend (s : State) : Host.Outcome State Fault Refusal := perform .suspend Args.zero s

/-- `resume()` (R259). -/
def execResume (s : State) : Host.Outcome State Fault Refusal := perform .resume Args.zero s

end Sys2Proof.Machine
end

