-- ==== Sys2Proof/Machine/Agents.lean ====
section
/-! DEFINITION. What happens next: the agenda's entries other than an instruction's meaning, and how an instruction is
taken from the agenda and decoded (00_scope.md rule R16, 30_encoding.md rules R111, R115). -/

namespace Sys2Proof.Machine

/-- What a step comes to: running an instruction, or an outcome already reached. -/
inductive Task where
  | run (i : Instr) (s : State)
  | done (o : Host.Outcome State Fault Refusal)

/-- A requester that can call: inside no operation, since calls are synchronous (R16, R27); and the dispatch handler only
while the dispatch runs (R281). -/
def canCall (s : State) (r : Requester) : Bool :=
  s.idle r && (r != .handler || s.irq == .dispatched)

/-- An operation on the wrong port is refused without any state change (R111e), and so is a bus command on the HOST or
the PM port (R155): the caller gets the mark (log 12). -/
def refusePort (s : State) (r : Requester) : State := s.emit (.response r (.refused .wrongPort))

/-- A request arrives from a requester: it is decoded for that requester's port, and run for that requester. -/
def deliverTask (s : State) (r : Requester) (p : Packet) : Task :=
  if canCall s r then
    match decode r.port p with
    | .ok i => .run i (s.setCur r)
    | .error .wrongPort => .done (.next (refusePort s r))
    | .error e => .done (.refused (.illegalPacket e))
  else .done (.next s)

/-- An agent beside the block's operations issues a bus command (R350, log 26). A host operation is no command: it has no
meaning there and is passed over (R111e, log 11). -/
def commandTask (s : State) (p : Packet) : Task :=
  match decode .bus p with
  | .ok i => .run i s
  | .error .wrongPort => .done (.next s)
  | .error e => .done (.refused (.illegalPacket e))

/-- A request is accepted and nothing of it run yet. -/
def acceptOutcome (s : State) (r : Requester) (p : Packet) : Host.Outcome State Fault Refusal :=
  if canCall s r then
    match decode r.port p with
    | .ok i =>
      match i.request with
      | some (op, args) => .next ((s.setCur r).load r op args)
      | none => .next s
    | .error .wrongPort => .next (refusePort s r)
    | .error e => .refused (.illegalPacket e)
  else .next s

/-- Nothing is in progress: no operation, no wait, no dispatch (U28). That a dispatch is in progress in every part of the
callback is the model's choice (DESIGN CHOICE, log 29); an agent outside the block may own the bus. -/
def quiet (s : State) : Bool :=
  s.ctxs.all (fun p => s.idle p.1) && s.waiters.isEmpty && s.irq == .idle

/-- Attach (R39, R340): the handle and its contexts are created, the bus is free (log 29); the device is what it is. -/
def attachHandle (s : State) (dev : Nat) : State :=
  { s with attached := true, h := Handle.attach dev s.cfg, waiters := [], ctxs := [], busOwner := none, irq := .idle,
           log := [] }

/-- An agent outside the block takes the bus if it is free (R29). -/
def outsideClaim (s : State) : State := if s.busOwner = none then s.setBus (some .outside) else s

/-- The agent outside the block releases the bus it holds. -/
def outsideRelease (s : State) : State := if s.busOwner = some .outside then s.setBus none else s

/-- One entry of the agenda. An entry that is not possible in the state is passed over, nothing changed (log 11): an
agent without a step, a caller that cannot call, everything but an attach and the surroundings' changes while no handle
exists. -/
def eventTask (s : State) (e : Event) : Task :=
  match e with
  | .poke p => .done (.next (s.setDev (s.dev.poke p)))
  | .fill i v => .done (.next (s.setBuf (s.buf.write i v)))
  | .attach dev => .done (.next (if s.attached then s else attachHandle s dev))
  | .deliver r p => if s.attached then deliverTask s r p else .done (.next s)
  | .command p => if s.attached then commandTask s p else .done (.next s)
  | .accept r p => .done (if s.attached then acceptOutcome s r p else .next s)
  | .advance r => .done (if s.attached then (phaseTurn r s).outcome else .next s)
  | .irq => .done (if s.attached then (irqTurn s).outcome else .next s)
  | .dispatchDone => .done (if s.attached then (dispatchDone s).outcome else .next s)
  | .claim => .done (.next (if s.attached then outsideClaim s else s))
  | .release => .done (.next (if s.attached then outsideRelease s else s))
  | .detach =>
    .done (if s.attached then (if quiet s then .next { s with attached := false } else .refused .detachInUse)
           else .next s)

/-- The next task: an ill-formed configuration is refused (R10); with nothing on the agenda the block is idle. -/
def nextTask (s : State) : Task :=
  match s.agenda with
  | [] => .done (if s.cfg.wf then .next s else .refused .malformedCfg)
  | e :: rest => if s.cfg.wf then eventTask { s with agenda := rest } e else .done (.refused .malformedCfg)

/-- The requester an instruction of the opcode table is delivered by: the port's own; no requester issues a bus command. -/
def portRequester : Port → Option Requester
  | .host => some (.thread 0)
  | .pm => some .pm
  | .bus => none

/-- The agenda entry that delivers an instruction given as the opcode table's bits (log 22). -/
def tableEvent (nbits w : Nat) : Event :=
  match portRequester (Packet.ofTable nbits w).tablePort with
  | some r => .deliver r (Packet.ofTable nbits w)
  | none => .command (Packet.ofTable nbits w)

end Sys2Proof.Machine
end

