-- ==== Sys2Proof/Machine/Dispatch.lean ====
section
/-! DEFINITION. Machine/Dispatch.lean: each instruction's meaning, one arm per constructor. -/

namespace Sys2Proof.Machine

def exec (i : Instr) (s : State) : Host.Outcome State Fault Refusal :=
  match i with
  | .sbRd fn addr => Sys2Proof.Machine.execSbRd fn addr s
  | .sbWr fn addr data => Sys2Proof.Machine.execSbWr fn addr data s
  | .sbWrRb fn addr data => Sys2Proof.Machine.execSbWrRb fn addr data s
  | .blkRdByte fn inc addr count side => Sys2Proof.Machine.execBlkRdByte fn inc addr count side s
  | .blkRdBlock fn inc addr count side => Sys2Proof.Machine.execBlkRdBlock fn inc addr count side s
  | .blkWrByte fn inc addr count side => Sys2Proof.Machine.execBlkWrByte fn inc addr count side s
  | .blkWrBlock fn inc addr count side => Sys2Proof.Machine.execBlkWrBlock fn inc addr count side s
  | .init r => Sys2Proof.Machine.execInit r s
  | .deinit => Sys2Proof.Machine.execDeinit s
  | .readReg addr => Sys2Proof.Machine.execReadReg addr s
  | .writeReg addr word => Sys2Proof.Machine.execWriteReg addr word s
  | .blockRead addr buf size => Sys2Proof.Machine.execBlockRead addr buf size s
  | .blockWrite addr buf size => Sys2Proof.Machine.execBlockWrite addr buf size s
  | .readInterruptStatus => Sys2Proof.Machine.execReadInterruptStatus s
  | .clearInterrupts mask => Sys2Proof.Machine.execClearInterrupts mask s
  | .readPendingSize => Sys2Proof.Machine.execReadPendingSize s
  | .syncInterrupts n => Sys2Proof.Machine.execSyncInterrupts n s
  | .enableInterrupts => Sys2Proof.Machine.execEnableInterrupts s
  | .disableInterrupts => Sys2Proof.Machine.execDisableInterrupts s
  | .reset => Sys2Proof.Machine.execReset s
  | .isInitialized => Sys2Proof.Machine.execIsInitialized s
  | .suspend => Sys2Proof.Machine.execSuspend s
  | .resume => Sys2Proof.Machine.execResume s

end Sys2Proof.Machine
end

