-- ==== Sys2Proof/Machine/Step.lean ====
section
/-! DEFINITION. The step of the machine, and how an instruction given as bits is placed where the step takes it from. -/

namespace Sys2Proof.Machine

/-- One step: the agenda's next entry (10_state.md rule R40, 00_scope.md rule R14). -/
def step (s : State) : Host.Outcome State Fault Refusal :=
  match nextTask s with
  | .run i t => exec i t
  | .done o => o

/-- The state with an instruction, given as the opcode table's bits, at the head of the agenda (log 22). -/
def State.withFetchWord (s : State) (nbits w : Nat) : State := { s with agenda := tableEvent nbits w :: s.agenda }

end Sys2Proof.Machine
end

