-- ==== Sys2Proof/Safety.lean ====
section
/-! DEFINITION. What holds of every state the block can be in (10_state.md rules R20 to R31), as an invariant. -/

namespace Sys2Proof.Machine

/-- The delivery agent owns the bus: from `IRQ.ENTER` to `IRQ.RELEASE` and from `IRQ.RECLAIM` to `IRQ.EXIT` (R277). -/
def IrqPhase.ownsBus : IrqPhase → Bool
  | .entered => true
  | .gated => true
  | .reclaimed => true
  | .idle => false
  | .dispatched => false
  | .drained => false

/-- The delivery agent is past the gate: from `IRQ.GATE` to `IRQ.EXIT` (R276, R280). -/
def IrqPhase.pastGate : IrqPhase → Bool
  | .gated => true
  | .dispatched => true
  | .drained => true
  | .reclaimed => true
  | .idle => false
  | .entered => false

/-- The phases an operation can be in (R28). -/
def opHasPhase : OpSel → Phase → Bool
  | _, .idle => false
  | _, .start => true
  | .readReg, .reg _ | .writeReg, .reg _ => true
  | .blockRead, .blk _ _ | .blockWrite, .blk _ _ => true
  | .readPendingSize, .count0 | .readPendingSize, .count1 => true
  | .readInterruptStatus, .count0 | .readInterruptStatus, .count1 | .readInterruptStatus, .flags => true
  | .clearInterrupts, .clrA0 | .clearInterrupts, .clrB0 | .clearInterrupts, .clrB1 => true
  | .init, .neg _ | .init, .poll | .init, .ident _ | .init, .identSkip => true
  | .resume, .neg _ | .resume, .poll | .resume, .ident _ | .resume, .identSkip | .resume, .syncStart => true
  | .resume, .rmw _ _ _ | .syncInterrupts, .rmw _ _ _ => true
  | .suspend, .resetWrite => true
  | .enableInterrupts, .registerCb => true
  | .disableInterrupts, .unregisterCb | .disableInterrupts, .lockFree => true
  | _, _ => false

/-- The invariant of the block. -/
structure BlockInv (s : State) : Prop where
  /-- The configuration is well formed (R10). -/
  cfg : s.cfg.wf = true
  /-- `initialized` holds exactly in `ready` (R25). -/
  life : s.h.initialized = true ↔ s.h.life = .ready
  /-- `initialized` implies the variant is known (R31 I-c). -/
  variant : s.h.initialized = true → s.h.variant ≠ .unknown
  /-- The block size is unset or the requested one (R21, R31 I-b). -/
  blockSize : s.h.blockSize = none ∨ s.h.blockSize = some Config.blockSizeReq
  /-- `initialized` implies a negotiated block size (R244). -/
  negotiated : s.h.initialized = true → s.h.blockSize = some Config.blockSizeReq
  /-- The routing flag is the configuration's (R23). -/
  routing : s.h.gpioIrq = s.cfg.gpioIrq
  /-- The line count is within its range (R20). -/
  lines : s.h.nint ≤ s.cfg.maxIntLines
  /-- The lock is in flight only while the delivery agent is past its gate (R276, R31 I-d). -/
  lock : s.h.lock = .irqInFlight → s.irq.pastGate = true
  /-- The delivery agent owns the bus exactly in the parts of the callback R277 names. -/
  bus : s.busOwner = some .irq ↔ s.irq.ownsBus = true
  /-- No requester owns the bus between steps: a transaction releases it (R29, R153). -/
  noRequester : ∀ r, s.busOwner ≠ some (.requester r)
  /-- A requester waits for the lock at most once (R26). -/
  waiters : s.waiters.Nodup
  /-- A requester is inside no operation, or at a phase of the one it runs (R27, R28). -/
  phases : ∀ r, s.idle r = true ∨ opHasPhase (s.ctx r).op (s.ctx r).phase = true
  /-- Every memory is in its canonical form. -/
  fnMem : s.dev.fn.wf = true
  chipMem : s.dev.chip.wf = true
  bufMem : s.buf.wf = true

/-! ### Terms the statements use -/

/-- The caller is inside no operation and the bus is free. -/
def Ready (s : State) : Prop := s.idle s.cur = true ∧ s.busOwner = none

/-- The oracle's answer number `k` from now (R88). -/
def State.draw (s : State) (k : Nat) : Draw := s.draws.getD k .reference

/-- The oracle's next `n` answers have the transport status `OK`. The reference device answers `OK` to all but a read of
a queue that holds too few bytes. -/
def OkNext (s : State) (n : Nat) : Prop := ∀ k, k < n → (s.draw k).outcome = true

/-- The answer to a plain read of a place, were it the next transaction but `k`. -/
def State.readAnswer (s : State) (k : Nat) (l : Loc8) : Reply :=
  (sbAnswer s.cfg (s.free + k) s.dev ⟨l.fn, l.addr, false, false, 0⟩ (s.draw k)).1

/-- A single-byte command on the BUS port (R101). -/
def sbOut (wr : Bool) (l : Loc8) (raw : Bool) (data : Byte) : Output :=
  .bus { kind := .sb, arg := sbWord wr l.fn raw l.addr data, bs := none, payload := [] }

/-- A block command on the BUS port (R103). -/
def blkOut (wr : Bool) (fn : FnIndex) (bm : Bool) (addr : BusAddr) (count : Nat) (bs : Option Nat)
    (payload : List Byte) : Output :=
  .bus { kind := .blk, arg := blkWord wr fn bm true addr (BitVec.ofNat 9 count), bs := bs, payload := payload }

/-- The three commands of `setWindow(a)`: low, middle and high byte (R161). -/
def windowOut (c : Cfg) (a : Word) : List Output :=
  [sbOut true ⟨0, c.winAddr0.addr⟩ false (a.extractLsb' 0 8),
   sbOut true ⟨0, c.winAddr0.addr + 1⟩ false (a.extractLsb' 8 8),
   sbOut true ⟨0, c.winAddr0.addr + 2⟩ false (a.extractLsb' 16 8)]

/-- The commands of a windowed `readReg` (R166). -/
def readRegOut (c : Cfg) (bs : Option Nat) (a : Word) : List Output :=
  windowOut c a ++ [blkOut false 0 false c.winData.addr 4 bs []]

/-- The commands of a windowed `writeReg` (R170): the word as four bytes, the least significant first. -/
def writeRegOut (c : Cfg) (bs : Option Nat) (a w : Word) : List Output :=
  windowOut c a ++
    [blkOut true 0 false c.winData.addr 4 bs
      [w.extractLsb' 0 8, w.extractLsb' 8 8, w.extractLsb' 16 8, w.extractLsb' 24 8]]

/-- The `setWindow` of a transfer phase at an address; none on the direct path (R182). -/
def phaseWindow (c : Cfg) (addr cursor : Word) : List Output := if addr = 0 then [] else windowOut c cursor

/-- The function and address of a transfer's block commands (R182). -/
def transferPlace (c : Cfg) (addr : Word) : FnIndex × BusAddr := if addr = 0 then (1, 0) else (0, c.winData.addr)

/-- The commands of a transfer of `sz` bytes (a rounded size) at block size `bs` (R184, R185, R187): a block-mode phase of
`sz / bs` blocks and a byte-mode phase of `sz mod bs` bytes, each left out if empty. -/
def transferOut (c : Cfg) (addr : Word) (wr : Bool) (bs sz : Nat) (payload : List Byte) : List Output :=
  (if sz / bs = 0 then []
   else phaseWindow c addr addr ++
    [blkOut wr (transferPlace c addr).1 true (transferPlace c addr).2 (sz / bs) (some bs)
      (payload.take (sz / bs * bs))]) ++
  (if sz % bs = 0 then []
   else phaseWindow c addr (addr + BitVec.ofNat 32 (sz / bs * bs)) ++
    [blkOut wr (transferPlace c addr).1 false (transferPlace c addr).2 (sz % bs) (some bs)
      (payload.drop (sz / bs * bs))])

/-- The commands of negotiation steps 1 to 6 with `polls` ready polls (R232 to R238). -/
def negotiationOut (c : Cfg) (polls : Nat) : List Output :=
  [sbOut true c.winEnReg c.initWritesRaw c.winEnVal, sbOut true c.f0BlkszLo false 0x00,
   sbOut true c.f0BlkszHi false 0x02, sbOut true c.ioEnReg c.initWritesRaw c.ioEnVal]
  ++ List.replicate polls (sbOut false c.ioRdyReg false 0)
  ++ [sbOut true c.f1BlkszLo false 0x00, sbOut true c.f1BlkszHi false 0x02,
      sbOut true c.intEnReg c.initWritesRaw c.intEnVal]

/-- The registers `syncInterrupts(n)` updates, in order (R249, R253, R254). -/
def syncPlan (s : State) (n : Nat) : List RmwReg :=
  (if s.h.variant = .b then [.misc] else []) ++
    (if s.h.gpioIrq then [.pinmux, .en1] ++ (if 5 < n then [.en2] else []) else [])

/-- The new value of a register `syncInterrupts(n)` updates, from the value read (R252 to R255). -/
def syncValue (c : Cfg) (n : Nat) (v : Word) : RmwReg → Word
  | .misc => v &&& ~~~(1#32 <<< c.pseqDisBit.val)
  | .pinmux => v ||| 1#32 <<< c.pinmuxIrqBit.val
  | .en1 => v ||| en1Bits c n
  | .en2 => v ||| en2Bits c (n - 5)

/-- The commands of `syncInterrupts(n)` when the registers of its plan read `v 0`, `v 1`, … in order (R249, R252). -/
def syncOut (s : State) (n : Nat) (v : Nat → Word) : List Output :=
  (syncPlan s n).zipIdx.flatMap (fun p =>
    readRegOut s.cfg s.h.blockSize (rmwAddr s.cfg p.1) ++
      writeRegOut s.cfg s.h.blockSize (rmwAddr s.cfg p.1) (syncValue s.cfg n (v p.2) p.1))

/-- No register `syncInterrupts` updates lies in the direct range. -/
def syncWindowed (c : Cfg) : Prop := ∀ r : RmwReg, inDirect c (rmwAddr c r) = false

/-- The commands of `readReg`: one in the direct range, else four through the window (R166, R167). -/
def readRegBus (c : Cfg) (bs : Option Nat) (a : Word) : List Output :=
  if inDirect c a then [sbOut false ⟨0, a.extractLsb' 0 17⟩ false 0] else readRegOut c bs a

/-- The commands of `writeReg`: one in the direct range, else four through the window (R170, R171). -/
def writeRegBus (c : Cfg) (bs : Option Nat) (a w : Word) : List Output :=
  if inDirect c a then [sbOut true ⟨0, a.extractLsb' 0 17⟩ false (w.extractLsb' 0 8)] else writeRegOut c bs a w

/-- The handle after `deinit` or `reset` (R246, R247). -/
def wentDown (h : Handle) : Handle := { h with initialized := false, life := .uninitialized }

/-- The device bytes a single-byte or block command to function space can store to, as cell keys. -/
def blkKeys (c : Cfg) (fn : FnIndex) (inc : Bool) (addr : BusAddr) (n : Nat) : List Nat :=
  if (⟨fn, addr⟩ : Loc8) = c.winData ∨ (fn = 1 ∧ addr = 0) then []
  else (List.range n).map (fun i => locKey ⟨fn, if inc then addr + BitVec.ofNat 17 i else addr⟩)

/-- The window registers' cell keys (R160). -/
def windowKeys (c : Cfg) : List Nat := (List.range 3).map (fun i => locKey ⟨0, winAddr c i⟩)

/-- The cell keys of chip registers a configuration puts into the direct range: stored to as bytes of function 0 (R171,
log 31). -/
def directKeys (c : Cfg) (as : List Word) : List Nat :=
  (as.filter (inDirect c)).map (fun a => locKey ⟨0, a.extractLsb' 0 17⟩)

/-- The cells of function space an instruction can store to (10_state.md rule R35). -/
def storedKeys (c : Cfg) : Instr → List Nat
  | .sbRd _ _ => []
  | .sbWr fn addr _ => [locKey ⟨fn, addr⟩]
  | .sbWrRb fn addr _ => [locKey ⟨fn, addr⟩]
  | .blkRdByte _ _ _ _ _ => []
  | .blkRdBlock _ _ _ _ _ => []
  | .blkWrByte fn inc addr count _ => blkKeys c fn inc addr count.toNat
  | .blkWrBlock fn inc addr count side => blkKeys c fn inc addr (count.toNat * side.bs)
  | .init _ =>
    [c.winEnReg, c.f0BlkszLo, c.f0BlkszHi, c.ioEnReg, c.f1BlkszLo, c.f1BlkszHi, c.intEnReg].map locKey ++ windowKeys c
  | .deinit => []
  | .readReg _ => windowKeys c
  | .writeReg addr _ => if inDirect c addr then [locKey ⟨0, addr.extractLsb' 0 17⟩] else windowKeys c
  | .blockRead addr _ _ => if addr = 0 then [] else windowKeys c
  | .blockWrite addr _ _ => if addr = 0 then [] else windowKeys c
  | .readInterruptStatus => []
  | .clearInterrupts _ => [c.intClrA, c.intAckB, c.vmmCtlB].map locKey
  | .readPendingSize => []
  | .syncInterrupts _ =>
    directKeys c [c.miscReg, c.pinmuxReg, c.intrEn1Reg, c.intrEn2Reg] ++ windowKeys c
  | .enableInterrupts => []
  | .disableInterrupts => []
  | .reset => [locKey c.resetReg]
  | .isInitialized => []
  | .suspend => [locKey c.resetReg]
  | .resume =>
    [c.winEnReg, c.f0BlkszLo, c.f0BlkszHi, c.ioEnReg, c.f1BlkszLo, c.f1BlkszHi, c.intEnReg].map locKey ++ windowKeys c
      ++ directKeys c [c.miscReg, c.pinmuxReg, c.intrEn1Reg, c.intrEn2Reg]

/-- Chip address `k` is one of the `n` from window value `w` on, modulo `2^24` (R74). -/
def inWindow (w : BitVec 24) (n k : Nat) : Prop := ∃ j, j < n ∧ k = (w + BitVec.ofNat 24 j).toNat

/-- Chip address `k` is in a register `syncInterrupts(n)` updates through the window (R249, R252). -/
def inSyncRegs (s : State) (n k : Nat) : Prop :=
  ∃ r ∈ syncPlan s n, inDirect s.cfg (rmwAddr s.cfg r) = false ∧
    inWindow ((rmwAddr s.cfg r).extractLsb' 0 24) 4 k

/-- The bytes of chip space an instruction can store to: a block command at the data port, from the window the device
holds on (R74); an operation, from the address it programs into the window on (R170, R187, R252). -/
def storesChipAt (s : State) (i : Instr) (k : Nat) : Prop :=
  match i with
  | .blkWrByte fn _ addr count _ => (⟨fn, addr⟩ : Loc8) = s.cfg.winData ∧ inWindow (s.dev.window s.cfg) count.toNat k
  | .blkWrBlock fn _ addr count side =>
    (⟨fn, addr⟩ : Loc8) = s.cfg.winData ∧ inWindow (s.dev.window s.cfg) (count.toNat * side.bs) k
  | .writeReg addr _ => inDirect s.cfg addr = false ∧ inWindow (addr.extractLsb' 0 24) 4 k
  | .blockWrite addr _ size => addr ≠ 0 ∧ inWindow (addr.extractLsb' 0 24) (roundUp4 size) k
  | .syncInterrupts n => inSyncRegs s n k
  | .resume => inSyncRegs s s.h.nint k
  | _ => False

/-- An instruction that can move bytes through the function-1 data port (R71, R91). -/
def usesQueue : Instr → Bool
  | .blkRdByte fn _ addr _ _ => fn = 1 && addr = 0
  | .blkRdBlock fn _ addr _ _ => fn = 1 && addr = 0
  | .blkWrByte fn _ addr _ _ => fn = 1 && addr = 0
  | .blkWrBlock fn _ addr _ _ => fn = 1 && addr = 0
  | .blockRead addr _ _ => addr = 0
  | .blockWrite addr _ _ => addr = 0
  | _ => false

/-- The device's flags, line and count are unchanged. -/
def SameStatus (d d' : Device) : Prop := d'.flags = d.flags ∧ d'.line = d.line ∧ d'.dmaCnt = d.dmaCnt

/-- The device after an acknowledge: `flags AND (v AND mask)` are cleared, the line follows the flags, the count is as
before (R92). -/
def Acknowledged (d : Device) (v mask : Byte) (d' : Device) : Prop :=
  d'.flags = d.flags &&& ~~~((v &&& mask).setWidth 5) ∧ d'.line = (d'.flags != 0) ∧ d'.dmaCnt = d.dmaCnt

/-- The count of a transfer's first block command, 0 if it has none (R185). -/
def firstCount (bs sz : Nat) : Nat := if sz / bs = 0 then sz % bs else sz / bs

/-- An instruction that comes to a step that claims the bus (R29, R153, R272, R284): what must hold of the state for it
not to end before. -/
def needsBus (s : State) (i : Instr) : Prop :=
  match i with
  | .sbRd _ _ => True
  | .sbWr _ _ _ => True
  | .sbWrRb _ _ _ => True
  | .blkRdByte _ _ _ count side => countAllowed s.cfg count.toNat = true ∧ side.off + count.toNat ≤ side.buf.len
  | .blkRdBlock _ _ _ count side =>
    countAllowed s.cfg count.toNat = true ∧ side.off + count.toNat * side.bs ≤ side.buf.len
  | .blkWrByte _ _ _ count side => countAllowed s.cfg count.toNat = true ∧ side.off + count.toNat ≤ side.buf.len
  | .blkWrBlock _ _ _ count side =>
    countAllowed s.cfg count.toNat = true ∧ side.off + count.toNat * side.bs ≤ side.buf.len
  | .init _ => s.h.life ≠ .negotiating
  | .deinit => False
  | .readReg _ => True
  | .writeReg _ _ => True
  | .blockRead addr buf size => ∃ bs, s.h.blockSize = some bs ∧ roundUp4 size ≤ buf.len ∧
      firstCount bs (roundUp4 size) ≠ 0 ∧ (addr = 0 → firstCount bs (roundUp4 size) ≤ s.cfg.maxCount)
  | .blockWrite addr buf size => ∃ bs, s.h.blockSize = some bs ∧ roundUp4 size ≤ buf.len ∧
      firstCount bs (roundUp4 size) ≠ 0 ∧ (addr = 0 → firstCount bs (roundUp4 size) ≤ s.cfg.maxCount)
  | .readInterruptStatus => s.h.gpioIrq = true → s.h.variant ≠ .unknown
  | .clearInterrupts mask => (s.h.variant = .a ∧ valueA s.cfg s.h.gpioIrq mask ≠ 0) ∨
      (s.h.variant = .b ∧ (s.h.gpioIrq = true ∧ ackB s.cfg mask ≠ 0 ∨ vmmB s.cfg mask ≠ 0))
  | .readPendingSize => True
  | .syncInterrupts n => n ≤ s.cfg.maxIntLines ∧ s.h.variant ≠ .unknown ∧ (s.h.variant = .b ∨ s.h.gpioIrq = true)
  | .enableInterrupts => True
  | .disableInterrupts => s.h.lock ≠ .irqInFlight ∧ s.cur ∉ s.waiters
  | .reset => s.h.life ≠ .negotiating
  | .isInitialized => False
  | .suspend => s.h.life ≠ .negotiating
  | .resume => s.h.life ≠ .negotiating

/-- The handle while an operation waits for the bus its first transaction needs: what it writes before (R232, R251, R272,
R284). -/
def handleHeld (s : State) (i : Instr) : Handle :=
  match i with
  | .init _ => { s.h with life := .negotiating, initialized := false }
  | .resume => { s.h with life := .negotiating, initialized := false }
  | .syncInterrupts n => { s.h with nint := n }
  | .enableInterrupts => { s.h with lock := .free }
  | .disableInterrupts => { s.h with lock := .disabled }
  | _ => s.h

/-- What an instruction leaves on the ports while it waits for the bus: `suspend` has made its handshakes (R258). -/
def outHeld (i : Instr) : List Output :=
  match i with
  | .suspend => [.pmHandshakes]
  | _ => []

/-- The failing answer number `k` of a run: those before it are `OK`, it is `FAIL`. -/
def FailsAt (s : State) (k : Nat) : Prop := OkNext s k ∧ (s.draw k).outcome = false

/-- The I/O-ready bit is seen at poll `p + 1` of a negotiation, of at most three, as far as the answers before number `k`
reach: the polls are answers 4, 5, 6 (R232, R236). -/
def ReadyAtPoll (s : State) (p k : Nat) : Prop :=
  p < 3 ∧ ∀ j, j ≤ p → 4 + j < k →
    ∃ b n, s.draw (4 + j) = .scripted true [b] n ∧ (b &&& s.cfg.ioRdyMask ≠ 0 ↔ j = p)

/-- The handle after a negotiation that failed (R245). -/
def negotiationFailed (h : Handle) : Handle := { h with initialized := false, life := .failed }

/-- The handle after a negotiation that kept its variant and succeeded (R244). -/
def negotiated (h : Handle) : Handle := { h with blockSize := some 512, initialized := true, life := .ready }

/-- The requesters' buffer an instruction writes into: first index and length (R188, R147, R148). -/
def filledRange : Instr → Nat × Nat
  | .blkRdByte _ _ _ count side => (side.buf.base + side.off, count.toNat)
  | .blkRdBlock _ _ _ count side => (side.buf.base + side.off, count.toNat * side.bs)
  | .blockRead _ buf size => (buf.base, roundUp4 size)
  | _ => (0, 0)

/-- The dispatch handler waits for the dispatch it is part of (R281, R357). -/
def SelfDisabled (s : State) : Prop :=
  s.attached = true ∧ s.irq = .dispatched ∧ (s.ctx .handler).op = .disableInterrupts ∧ (s.ctx .handler).phase = .start ∧
    Requester.handler ∈ s.waiters

end Sys2Proof.Machine
end

