-- ==== Sys2Proof/Certificates/Slice0/Obligations.lean ====
section
/-! DEFINITION. The statements for the provers. Each docstring names the rules of spec/ it formalises. -/

open Sys2Proof Sys2Proof.Machine

/-! ### Encoding -/

/-- Every well-formed instruction is read back from its packet (R101 to R104, R108, R115). -/
def Obligations.DecodeOfEncodeIsIdentity : Prop :=
  ∀ i : Instr, i.wf = true → decode i.port (encode i) = .ok i

/-- On the bus each of the seven bus commands is exactly the words of its kind that match its table row under the mask;
every other `SB` word and a `BLK` word with a count of 0 is illegal (R102, R104, R111, R115). On the HOST and the PM port
no command word is an instruction (R155). -/
def Obligations.CommandWordsByMask : Prop :=
  ∀ (w : Word) (side : Side),
    (∀ p : Port, p ≠ .bus → decode p (.sb w) = .error .wrongPort ∧ decode p (.blk w side) = .error .wrongPort) ∧
    (w &&& 0x8C000100#32 = 0x00000000#32 →
      decode .bus (.sb w) = .ok (.sbRd (w.extractLsb' 28 3) (w.extractLsb' 9 17))) ∧
    (w &&& 0x8C000100#32 = 0x80000000#32 →
      decode .bus (.sb w) = .ok (.sbWr (w.extractLsb' 28 3) (w.extractLsb' 9 17) (w.extractLsb' 0 8))) ∧
    (w &&& 0x8C000100#32 = 0x88000000#32 →
      decode .bus (.sb w) = .ok (.sbWrRb (w.extractLsb' 28 3) (w.extractLsb' 9 17) (w.extractLsb' 0 8))) ∧
    (w &&& 0x8C000100#32 ≠ 0x00000000#32 → w &&& 0x8C000100#32 ≠ 0x80000000#32 →
      w &&& 0x8C000100#32 ≠ 0x88000000#32 →
      decode .bus (.sb w) = .error .readWithRaw ∨ decode .bus (.sb w) = .error .reservedBit) ∧
    (w.extractLsb' 0 9 = 0#9 → decode .bus (.blk w side) = .error .countZero) ∧
    (w.extractLsb' 0 9 ≠ 0#9 →
      (w &&& 0x88000000#32 = 0x00000000#32 → decode .bus (.blk w side) =
        .ok (.blkRdByte (w.extractLsb' 28 3) (w.getLsbD 26) (w.extractLsb' 9 17) (w.extractLsb' 0 9) side)) ∧
      (w &&& 0x88000000#32 = 0x08000000#32 → decode .bus (.blk w side) =
        .ok (.blkRdBlock (w.extractLsb' 28 3) (w.getLsbD 26) (w.extractLsb' 9 17) (w.extractLsb' 0 9) side)) ∧
      (w &&& 0x88000000#32 = 0x80000000#32 → decode .bus (.blk w side) =
        .ok (.blkWrByte (w.extractLsb' 28 3) (w.getLsbD 26) (w.extractLsb' 9 17) (w.extractLsb' 0 9) side)) ∧
      (w &&& 0x88000000#32 = 0x88000000#32 → decode .bus (.blk w side) =
        .ok (.blkWrBlock (w.extractLsb' 28 3) (w.getLsbD 26) (w.extractLsb' 9 17) (w.extractLsb' 0 9) side)))

/-- Words written out in the spec's test vectors V1, V2, V3 decode to the instructions they stand for. -/
def Obligations.SpecWordsDecode : Prop :=
  decode .bus (.sb 0x88000C08#32) = .ok (.sbWrRb 0 0x06 0x08) ∧
  decode .bus (.sb 0xF3FFFEFF#32) = .ok (.sbWr 7 0x1FFFF 0xFF) ∧
  decode .bus (.sb 0x0001E400#32) = .ok (.sbRd 0 0xF2) ∧
  decode .bus (.blk 0x04021FFF#32 ⟨512, ⟨0, 511⟩, 0⟩) = .ok (.blkRdByte 0 true 0x10F 511 ⟨512, ⟨0, 511⟩, 0⟩) ∧
  decode .bus (.blk 0x9C0001FF#32 ⟨512, ⟨0, 261632⟩, 0⟩) =
    .ok (.blkWrBlock 1 true 0 511 ⟨512, ⟨0, 261632⟩, 0⟩) ∧
  decode .bus (.blk 0x90000004#32 ⟨512, ⟨0, 4⟩, 0⟩) = .ok (.blkWrByte 1 false 0 4 ⟨512, ⟨0, 4⟩, 0⟩) ∧
  decode .bus (.sb 0x08000000#32) = .error .readWithRaw

/-- An operation that arrives on the wrong port is refused without any state change (R111e), and so is a bus command that
a requester delivers on the HOST or the PM port, which the encoder is not reachable from (R155): the caller gets the mark,
nothing else differs. That the caller gets a mark is the model's (log 12). A packet that is otherwise no instruction, from
a requester or on the bus, is refused by name (R111, log 13). -/
def Obligations.WrongPortRefused : Prop :=
  ∀ (s : State) (r : Requester) (p : Packet) (rest : List Event), s.cfg.wf = true → s.attached = true →
    (canCall s r = true → s.agenda = .deliver r p :: rest ∨ s.agenda = .accept r p :: rest →
      ((∃ opsel args, p = .hostop opsel args ∧ (OpSel.ofCode opsel).port ≠ r.port) ∨ (∃ w, p = .sb w) ∨
          (∃ w side, p = .blk w side) →
        step s = .next { s with agenda := rest, out := s.out ++ [.response r (.refused .wrongPort)] }) ∧
      (∀ e, decode r.port p = .error e → e ≠ .wrongPort → step s = .refused (.illegalPacket e))) ∧
    (∀ e, s.agenda = .command p :: rest → decode .bus p = .error e → e ≠ .wrongPort →
      step s = .refused (.illegalPacket e))

/-! ### Reset, the step, the invariant -/

/-- The handle, the lock, the bus and the log at attach have the values the spec gives, under every configuration (R39).
The step that attaches gives them to a detached block; that it leaves the device, the buffers and the answers to come as
they are is the model's (log 29; the spec leaves the device unspecified). The step that detaches ends the handle (R342),
and is refused exactly while an operation, a wait or the callback is in progress (U28); that every other field is left as
it is, and that the whole callback counts, is the model's (log 29). A malformed configuration is refused at every step
(R10). -/
def Obligations.AttachValues : Prop :=
  (∀ (cfg : Cfg) (dev : Nat),
    (State.attachWith cfg dev).h.initialized = false ∧ (State.attachWith cfg dev).h.life = .uninitialized ∧
    (State.attachWith cfg dev).h.blockSize = none ∧ (State.attachWith cfg dev).h.variant = .unknown ∧
    (State.attachWith cfg dev).h.gpioIrq = cfg.gpioIrq ∧ (State.attachWith cfg dev).h.nint = 0 ∧
    (State.attachWith cfg dev).h.lock = .free ∧ (State.attachWith cfg dev).h.cbRegistered = false ∧
    (State.attachWith cfg dev).h.dev = dev ∧ (State.attachWith cfg dev).waiters = [] ∧
    (State.attachWith cfg dev).busOwner = none ∧ (State.attachWith cfg dev).log = []) ∧
  (∀ (s : State) (dev : Nat) (rest : List Event), s.cfg.wf = true → s.attached = false →
    s.agenda = .attach dev :: rest →
    step s = .next { State.attachWith s.cfg dev with
      dev := s.dev, buf := s.buf, draws := s.draws, free := s.free, reply := s.reply, out := s.out, cur := s.cur,
      agenda := rest }) ∧
  (∀ (s : State) (rest : List Event), s.cfg.wf = true → s.attached = true → s.agenda = .detach :: rest →
    ((∀ r, s.idle r = true) ∧ s.waiters = [] ∧ s.irq = .idle →
      step s = .next { s with agenda := rest, attached := false }) ∧
    ((∃ r, s.idle r = false) ∨ s.waiters ≠ [] ∨ s.irq ≠ .idle → step s = .refused .detachInUse)) ∧
  ∀ s : State, s.cfg.wf = false → step s = .refused .malformedCfg

/-- A step takes the agenda's next entry (R40; the agenda is the model's, log 22). Where it delivers a packet that decodes
to an instruction, or an agent beside the operations issues one on the bus, the step is `exec` of it with the entry taken
off; the same for an instruction placed by the opcode table's bits. Every other entry is its agent's own turn: a request
accepted, an operation's next phase, the delivery agent's next step, the end of the dispatch, an agent outside the block
that takes or releases the bus, the device or a buffer changing. -/
def Obligations.StepRunsDeliveredInstruction : Prop :=
  (∀ (s : State) (r : Requester) (p : Packet) (rest : List Event) (i : Instr),
    s.cfg.wf = true → s.attached = true → s.agenda = .deliver r p :: rest → canCall s r = true →
    decode r.port p = .ok i → step s = exec i { s with agenda := rest, cur := r }) ∧
  (∀ (s : State) (p : Packet) (rest : List Event) (i : Instr),
    s.cfg.wf = true → s.attached = true → s.agenda = .command p :: rest → decode .bus p = .ok i →
    step s = exec i { s with agenda := rest }) ∧
  (∀ (s : State) (nbits w : Nat) (i : Instr), s.cfg.wf = true → s.attached = true → decodeTableWord nbits w = some i →
    (portRequester i.port = none → step (s.withFetchWord nbits w) = exec i s) ∧
    (∀ r, portRequester i.port = some r → canCall s r = true →
      step (s.withFetchWord nbits w) = exec i { s with cur := r })) ∧
  (∀ (s : State) (r : Requester) (p : Packet) (rest : List Event) (i : Instr) (op : OpSel) (args : Args),
    s.cfg.wf = true → s.attached = true → s.agenda = .accept r p :: rest → canCall s r = true →
    decode r.port p = .ok i → i.request = some (op, args) →
    step s = .next (({ s with agenda := rest, cur := r } : State).load r op args)) ∧
  (∀ (s : State) (rest : List Event), s.cfg.wf = true → s.attached = true →
    (∀ r, s.agenda = .advance r :: rest → step s = (phaseTurn r { s with agenda := rest }).outcome) ∧
    (s.agenda = .irq :: rest → step s = (irqTurn { s with agenda := rest }).outcome) ∧
    (s.agenda = .dispatchDone :: rest → step s = (dispatchDone { s with agenda := rest }).outcome) ∧
    (s.agenda = .claim :: rest →
      step s = .next { s with agenda := rest, busOwner := s.busOwner.or (some .outside) }) ∧
    (s.agenda = .release :: rest →
      step s = .next
        { s with agenda := rest, busOwner := if s.busOwner = some .outside then none else s.busOwner })) ∧
  ∀ (s : State) (rest : List Event), s.cfg.wf = true →
    (∀ c, s.agenda = .poke c :: rest → step s = .next { s with agenda := rest, dev := s.dev.poke c }) ∧
    (∀ a v, s.agenda = .fill a v :: rest → step s = .next { s with agenda := rest, buf := s.buf.write a v }) ∧
    (s.agenda = [] → step s = .next s)

/-- The invariant holds right after reset (R31, R39; reset's configuration is the model's choice, log 1). -/
def Obligations.ResetMeetsInvariant : Prop := BlockInv State.reset

/-- Every step keeps the invariant: `initialized` exactly in `ready` and with a known variant, one block size for life,
the lock in flight only past the gate, one owner of the bus, canonical memories (R20 to R31, R277). -/
def Obligations.StepKeepsInvariant : Prop := ∀ s t : State, BlockInv s → step s = .next t → BlockInv t

/-- No operation takes more phases than the sequencer's bound: the meaning of an instruction never faults (R28: every
sequence is finite). -/
def Obligations.NoSequenceOverruns : Prop := ∀ (i : Instr) (s : State) (f : Fault), exec i s ≠ .fault f

/-- Running an operation at once is the same as accepting it and advancing it phase by phase, when no other agent's step
falls between (R28, R76; the two ways of delivering a request are the model's, log 10): if
the run ends, some number of advances reaches the state it reaches. -/
def Obligations.RunIsAcceptThenAdvances : Prop :=
  ∀ (s t : State) (r : Requester) (p : Packet) (i : Instr) (op : OpSel) (args : Args),
    s.cfg.wf = true → s.attached = true → s.agenda = [] → canCall s r = true →
    decode r.port p = .ok i → i.request = some (op, args) →
    exec i { s with cur := r } = .next t →
    ∃ k, Host.Core.run Sys2Proof.core (k + 1)
      { s with agenda := .accept r p :: List.replicate k (.advance r) } = .next t

/-! ### Frames -/

/-- Which instruction writes which handle field, and no other does (R20, R21 to R26, R30, R193): what is not listed is
unchanged. -/
def Obligations.HandleFieldWriters : Prop :=
  ∀ (i : Instr) (s t : State), exec i s = .next t →
    t.h.dev = s.h.dev ∧ t.h.gpioIrq = s.h.gpioIrq ∧
    ((∀ r, i ≠ .init r) → i ≠ .resume → t.h.blockSize = s.h.blockSize ∧ t.h.variant = s.h.variant) ∧
    ((∀ n, i ≠ .syncInterrupts n) → i ≠ .resume → t.h.nint = s.h.nint) ∧
    ((∀ r, i ≠ .init r) → i ≠ .deinit → i ≠ .reset → i ≠ .suspend → i ≠ .resume →
      t.h.initialized = s.h.initialized ∧ t.h.life = s.h.life) ∧
    (i ≠ .enableInterrupts → i ≠ .disableInterrupts →
      t.h.lock = s.h.lock ∧ t.h.cbRegistered = s.h.cbRegistered)

/-- What no instruction changes but as said: the configuration, the delivery agent, the bus owner between transactions,
the schedule, other requesters' contexts; the waiters only by `disableInterrupts`, which only adds its caller; the
requesters' buffers only in the bytes a read fills (R27, R29, R146, R188, R313). -/
def Obligations.InstructionFrame : Prop :=
  ∀ (i : Instr) (s t : State), exec i s = .next t →
    t.cfg = s.cfg ∧ t.attached = s.attached ∧ t.irq = s.irq ∧ t.busOwner = s.busOwner ∧ t.agenda = s.agenda ∧
    t.cur = s.cur ∧ (∀ r, r ≠ s.cur → t.ctx r = s.ctx r) ∧
    (i ≠ .disableInterrupts → t.waiters = s.waiters) ∧
    (∀ r, r ≠ s.cur → (r ∈ t.waiters ↔ r ∈ s.waiters)) ∧
    ∀ a, a < (filledRange i).1 ∨ (filledRange i).1 + (filledRange i).2 ≤ a → t.buf.read a = s.buf.read a

/-- What an instruction can change in the device, and that nothing else in it changes. Bytes of the function spaces: those
of `storedKeys` (R35; which bytes a block write elsewhere in function space stores, with the increment flag and addresses
modulo `2^17`, is the model's, log 7). Bytes of chip space: those from the window the device holds on for a block command, from the
address the operation programs on otherwise (R74, R170, R187, R252). The sticky flags and the line: only where an
acknowledge register is among the bytes stored (R37b, R92, R312). The pending count: never. The function-1 queue: only
through the data port (R71, R91). -/
def Obligations.DeviceMemoryFrame : Prop :=
  ∀ (i : Instr) (s t : State), s.cfg.wf = true → s.dev.fn.wf = true → exec i s = .next t →
    (∀ k, k ∉ storedKeys s.cfg i → t.dev.fn.read k = s.dev.fn.read k) ∧
    (∀ k, ¬ storesChipAt s i k → t.dev.chip.read k = s.dev.chip.read k) ∧
    (locKey s.cfg.intClrA ∉ storedKeys s.cfg i → locKey s.cfg.intAckB ∉ storedKeys s.cfg i → SameStatus s.dev t.dev) ∧
    t.dev.dmaCnt = s.dev.dmaCnt ∧
    (usesQueue i = false → t.dev.fifo = s.dev.fifo)

/-! ### Bus commands -/

/-- `SB.RD` completes whenever the bus is free: one command, the device unchanged, and the byte the device returned
(R142). The reference device returns its own count and flags at their registers, and the stored byte elsewhere (R90,
R92); that it does so at `WIN_DATA` and on functions 1 to 7 too, which R90 leaves out, is the model's (log 7). -/
def Obligations.SingleByteReadReturnsByte : Prop :=
  ∀ (fn : FnIndex) (addr : BusAddr) (s : State), s.busOwner = none →
    ∃ t, exec (.sbRd fn addr) s = .next t ∧ t.out = s.out ++ [sbOut false ⟨fn, addr⟩ false 0] ∧
      t.dev = s.dev ∧ t.h = s.h ∧ t.buf = s.buf ∧ t.ctxs = s.ctxs ∧ t.log = s.log ∧
      (∀ ok b bs l, s.draw 0 = .scripted ok (b :: bs) l → t.reply = ⟨ok, [b]⟩) ∧
      (s.draw 0 = .reference →
        [s.cfg.dmaCntLo, s.cfg.dmaCntHi, s.cfg.irqFlagsA, s.cfg.irqFlagsB, s.cfg.intStatus].Nodup →
        ∃ b, t.reply = ⟨true, [b]⟩ ∧
          ((⟨fn, addr⟩ : Loc8) = s.cfg.dmaCntLo → b = s.dev.dmaCnt.extractLsb' 0 8) ∧
          ((⟨fn, addr⟩ : Loc8) = s.cfg.dmaCntHi → b = s.dev.dmaCnt.extractLsb' 8 8) ∧
          ((⟨fn, addr⟩ : Loc8) = s.cfg.irqFlagsA → b = 0#3 ++ s.dev.flags) ∧
          ((⟨fn, addr⟩ : Loc8) = s.cfg.irqFlagsB → b = 0#4 ++ s.dev.flags.extractLsb' 0 4) ∧
          ((⟨fn, addr⟩ : Loc8) = s.cfg.intStatus → b = 0#2 ++ s.dev.flags.extractLsb' 1 4 ++ 0#1 ++
            s.dev.flags.extractLsb' 0 1) ∧
          ((⟨fn, addr⟩ : Loc8) ∉
              [s.cfg.dmaCntLo, s.cfg.dmaCntHi, s.cfg.irqFlagsA, s.cfg.irqFlagsB, s.cfg.intStatus] →
            b = s.dev.fn.read (locKey ⟨fn, addr⟩)))

/-- `SB.WR` and `SB.WRRB` complete whenever the bus is free, as one command: the byte is in the device and every other
byte as before; a failed write that did not land leaves the device. That the byte is stored at `WIN_DATA` and on functions
1 to 7 too, which R90 leaves out, is the model's (log 7). A plain write returns no byte; a raw write returns the byte the
device read back, which need not be the byte written (R143, R144, R89). A write to an acknowledge register clears
`flags AND (v AND ACK_MASK)` and the line follows the flags; any other leaves flags, line and count (R92). -/
def Obligations.SingleByteWriteStoresByte : Prop :=
  ∀ (raw : Bool) (fn : FnIndex) (addr : BusAddr) (data : Byte) (s : State), s.busOwner = none → s.dev.fn.wf = true →
    ∃ t, exec (if raw then .sbWrRb fn addr data else .sbWr fn addr data) s = .next t ∧
      t.out = s.out ++ [sbOut true ⟨fn, addr⟩ raw data] ∧
      t.h = s.h ∧ t.buf = s.buf ∧ t.ctxs = s.ctxs ∧ t.log = s.log ∧ t.dev.chip = s.dev.chip ∧
      t.dev.fifo = s.dev.fifo ∧
      (∀ k, k ≠ locKey ⟨fn, addr⟩ → t.dev.fn.read k = s.dev.fn.read k) ∧
      ((s.draw 0).outcome = true → t.dev.fn.read (locKey ⟨fn, addr⟩) = data) ∧
      (∀ bs, s.draw 0 = .scripted false bs 0 → t.dev = s.dev) ∧
      ((⟨fn, addr⟩ : Loc8) ≠ s.cfg.intClrA → (⟨fn, addr⟩ : Loc8) ≠ s.cfg.intAckB → SameStatus s.dev t.dev) ∧
      ((s.draw 0).outcome = true → s.cfg.intClrA ≠ s.cfg.intAckB →
        ((⟨fn, addr⟩ : Loc8) = s.cfg.intClrA → Acknowledged s.dev data s.cfg.ackMaskA t.dev) ∧
        ((⟨fn, addr⟩ : Loc8) = s.cfg.intAckB → Acknowledged s.dev data s.cfg.ackMaskB t.dev)) ∧
      (raw = false → t.reply = ⟨(s.draw 0).outcome, []⟩) ∧
      (raw = true → s.draw 0 = .reference → t.reply = ⟨true, [data]⟩) ∧
      (raw = true → ∀ ok b bs l, s.draw 0 = .scripted ok (b :: bs) l → t.reply = ⟨ok, [b]⟩)

/-- `BLK.RD.BYTE` and `BLK.RD.BLOCK` move exactly `n` bytes, `count` or `count * bs`, into `buf[off ..]` in ascending order
and touch no other byte, whatever is answered (R147, R148, R66). A listed answer fills that range with its bytes, on
`FAIL` too, where they are anything; that it leaves the modelled device as it is, the function-1 queue too, is the model's
(log 6, log 21). The reference device answers at the window with the chip bytes from the window value on, modulo `2^24`,
and changes nothing (R74, R90); at function 1 address 0 with the first `n` bytes of its queue, which are removed, or with
`FAIL` if fewer are queued (R91). -/
def Obligations.BlockReadFillsBuffer : Prop :=
  ∀ (fn : FnIndex) (inc bm : Bool) (addr : BusAddr) (count : BitVec 9) (side : Side) (n base : Nat) (s : State),
    n = (if bm then count.toNat * side.bs else count.toNat) → countAllowed s.cfg count.toNat = true →
    side.off + n ≤ side.buf.len → s.busOwner = none → s.buf.wf = true → base = side.buf.base + side.off →
    ∃ t, exec (if bm then .blkRdBlock fn inc addr count side else .blkRdByte fn inc addr count side) s = .next t ∧
      t.out = s.out ++ [.bus ⟨.blk, blkWord false fn bm inc addr count, some side.bs, []⟩] ∧
      t.h = s.h ∧ t.ctxs = s.ctxs ∧ t.log = s.log ∧
      (∀ a, a < base ∨ base + n ≤ a → t.buf.read a = s.buf.read a) ∧
      (∀ ok bytes l, s.draw 0 = .scripted ok bytes l → bytes.length = n →
        t.reply = ⟨ok, bytes⟩ ∧ t.dev = s.dev ∧ ∀ i (hi : i < bytes.length), t.buf.read (base + i) = bytes[i]) ∧
      (s.draw 0 = .reference → (⟨fn, addr⟩ : Loc8) = s.cfg.winData →
        t.reply.ok = true ∧ t.dev = s.dev ∧
        ∀ i, i < n → t.buf.read (base + i) = s.dev.chip.read (s.dev.window s.cfg + BitVec.ofNat 24 i).toNat) ∧
      (s.draw 0 = .reference → (⟨fn, addr⟩ : Loc8) ≠ s.cfg.winData → (⟨fn, addr⟩ : Loc8) = ⟨1, 0⟩ →
        (n ≤ s.dev.fifo.length →
          t.reply = ⟨true, s.dev.fifo.take n⟩ ∧ t.dev = { s.dev with fifo := s.dev.fifo.drop n } ∧
          ∀ i, i < n → t.buf.read (base + i) = s.dev.fifo.getD i 0) ∧
        (s.dev.fifo.length < n → t.reply.ok = false))

/-- `BLK.WR.BYTE` and `BLK.WR.BLOCK` send exactly `n` bytes of `buf[off ..]` in ascending order; the buffer is not
modified (R149, R150, R66). The reference device stores them at the window from the window value on, modulo `2^24` (R74,
R90), and at function 1 address 0 appends them to its queue (R91). -/
def Obligations.BlockWriteSendsBuffer : Prop :=
  ∀ (fn : FnIndex) (inc bm : Bool) (addr : BusAddr) (count : BitVec 9) (side : Side) (n : Nat) (s : State),
    n = (if bm then count.toNat * side.bs else count.toNat) → countAllowed s.cfg count.toNat = true →
    side.off + n ≤ side.buf.len → s.busOwner = none →
    ∃ t payload, exec (if bm then .blkWrBlock fn inc addr count side else .blkWrByte fn inc addr count side) s
        = .next t ∧
      payload.length = n ∧ (∀ i (hi : i < payload.length), payload[i] = s.buf.read (side.buf.base + side.off + i)) ∧
      t.out = s.out ++ [.bus ⟨.blk, blkWord true fn bm inc addr count, some side.bs, payload⟩] ∧
      t.reply = ⟨(s.draw 0).outcome, []⟩ ∧ t.buf = s.buf ∧ t.h = s.h ∧ t.ctxs = s.ctxs ∧ t.log = s.log ∧
      (s.draw 0 = .reference → (⟨fn, addr⟩ : Loc8) = s.cfg.winData → s.dev.chip.wf = true → n ≤ 2 ^ 24 →
        ∀ i (hi : i < payload.length),
          t.dev.chip.read (s.dev.window s.cfg + BitVec.ofNat 24 i).toNat = payload[i]) ∧
      (s.draw 0 = .reference → (⟨fn, addr⟩ : Loc8) ≠ s.cfg.winData → (⟨fn, addr⟩ : Loc8) = ⟨1, 0⟩ →
        t.dev = { s.dev with fifo := s.dev.fifo ++ payload })

/-- A block command whose count is out of `1 .. MAX_COUNT` answers `FAIL` with nothing emitted and the bus untouched,
even if another agent owns it (R152). That it does so for a buffer that is too short as well is the model's order of the
two checks (log 24). Under a well-formed configuration only a count of 0 is out of range, and no word decodes to it. -/
def Obligations.BlockCountRefused : Prop :=
  ∀ (i : Instr) (fn : FnIndex) (inc : Bool) (addr : BusAddr) (count : BitVec 9) (side : Side) (s : State),
    i ∈ [Instr.blkRdByte fn inc addr count side, .blkRdBlock fn inc addr count side, .blkWrByte fn inc addr count side,
      .blkWrBlock fn inc addr count side] →
    ¬ (1 ≤ count.toNat ∧ count.toNat ≤ s.cfg.maxCount) →
    exec i s = .next { s with reply := ⟨false, []⟩ }

/-- While an agent owns the bus no other starts a transaction: whatever instruction runs, no command and no registration
call leaves the block, and the device, the oracle's answers and the owner are unchanged. An agent that needs the bus has
no step: a bus command changes nothing; an operation that comes to a bus step is accepted and waits at its first, with
nothing emitted on the bus and nothing answered, and with what it writes before that step written (R29, R153, R277; that
`suspend` has then made its handshakes and `syncInterrupts` written its line count, as a step before the one that waits, is
the model's, log 35). -/
def Obligations.BusOwnerHoldsOthers : Prop :=
  ∀ (i : Instr) (s : State), s.busOwner ≠ none →
    (∀ t, exec i s = .next t → t.dev = s.dev ∧ t.draws = s.draws ∧ t.busOwner = s.busOwner ∧
      ∃ l, t.out = s.out ++ l ∧ ∀ o ∈ l, (∀ c, o ≠ .bus c) ∧ o ≠ .irqRegister ∧ o ≠ .irqUnregister) ∧
    (needsBus s i → i.request = none → exec i s = .next s) ∧
    (needsBus s i → i.request ≠ none → s.idle s.cur = true →
      ∃ t, exec i s = .next t ∧ t.idle s.cur = false ∧ t.out = s.out ++ outHeld i ∧ t.h = handleHeld s i ∧
        t.dev = s.dev ∧ t.buf = s.buf ∧ t.log = s.log ∧ t.waiters = s.waiters ∧ t.busOwner = s.busOwner)

/-! ### Registers through the window and in the direct range -/

/-- In the direct range `readReg` is one `SB.RD` whose byte is zero-extended, and `writeReg` one `SB.WR` of the low byte
(R167, R171). -/
def Obligations.DirectRegisterAccess : Prop :=
  ∀ (a w : Word) (s : State), Ready s → inDirect s.cfg a = true → OkNext s 1 →
    (∃ t, exec (.readReg a) s = .next t ∧ t.idle s.cur = true ∧ t.h = s.h ∧ t.buf = s.buf ∧ t.dev = s.dev ∧
      t.out = s.out ++ [sbOut false ⟨0, a.extractLsb' 0 17⟩ false 0,
        .response s.cur (.ok (.word ((s.readAnswer 0 ⟨0, a.extractLsb' 0 17⟩).byte.setWidth 32)))]) ∧
    (∃ t, exec (.writeReg a w) s = .next t ∧ t.idle s.cur = true ∧ t.h = s.h ∧ t.buf = s.buf ∧
      t.out = s.out ++ [sbOut true ⟨0, a.extractLsb' 0 17⟩ false (w.extractLsb' 0 8),
        .response s.cur (.ok .unit)])

/-- Outside the direct range `readReg` programs the window, low, middle, high byte, and reads 4 bytes at the data port;
the bytes are the word little-endian (R161, R166, R65). -/
def Obligations.WindowedReadReg : Prop :=
  ∀ (a : Word) (d0 d1 d2 d3 : Byte) (l : Nat) (s : State), Ready s → s.cfg.wf = true → inDirect s.cfg a = false →
    OkNext s 3 → s.draw 3 = .scripted true [d0, d1, d2, d3] l →
    ∃ t, exec (.readReg a) s = .next t ∧ t.idle s.cur = true ∧ t.h = s.h ∧ t.buf = s.buf ∧ t.log = s.log ∧
      t.out = s.out ++ readRegOut s.cfg s.h.blockSize a ++ [.response s.cur (.ok (.word (d3 ++ d2 ++ d1 ++ d0)))]

/-- `setWindow(A)` followed by the read targets absolute address `A`: from the reference device `readReg` answers the
four chip bytes from `A[23:0]` on, little-endian, addresses modulo `2^24` (R74, R65, R166). -/
def Obligations.ReadRegTargetsChipAddress : Prop :=
  ∀ (a : Word) (s : State), Ready s → s.cfg.wf = true → s.dev.fn.wf = true → inDirect s.cfg a = false →
    s.draws = [] →
    ∃ t, exec (.readReg a) s = .next t ∧
      t.out = s.out ++ readRegOut s.cfg s.h.blockSize a ++
        [.response s.cur (.ok (.word
          (s.dev.chip.read (a.extractLsb' 0 24 + 3).toNat ++ s.dev.chip.read (a.extractLsb' 0 24 + 2).toNat ++
            s.dev.chip.read (a.extractLsb' 0 24 + 1).toNat ++ s.dev.chip.read (a.extractLsb' 0 24).toNat)))]

/-- Outside the direct range `writeReg` programs the window and sends the word's four bytes, little-endian; they stand in
chip space from `A[23:0]` on and every other chip byte is as before (R170, R74, R65). -/
def Obligations.WindowedWriteReg : Prop :=
  ∀ (a w : Word) (s : State), Ready s → s.cfg.wf = true → s.dev.fn.wf = true → s.dev.chip.wf = true →
    inDirect s.cfg a = false → OkNext s 4 →
    ∃ t, exec (.writeReg a w) s = .next t ∧ t.idle s.cur = true ∧ t.h = s.h ∧ t.buf = s.buf ∧ t.log = s.log ∧
      t.out = s.out ++ writeRegOut s.cfg s.h.blockSize a w ++ [.response s.cur (.ok .unit)] ∧
      (∀ j, j < 4 → t.dev.chip.read (a.extractLsb' 0 24 + BitVec.ofNat 24 j).toNat = w.extractLsb' (8 * j) 8) ∧
      ∀ k, (∀ j, j < 4 → k ≠ (a.extractLsb' 0 24 + BitVec.ofNat 24 j).toNat) →
        t.dev.chip.read k = s.dev.chip.read k

/-- The first transaction of a `readReg` or `writeReg` that fails ends it with `E_TRANSPORT`, the one of the direct range
or one of the four through the window: the commands before and itself were emitted, none after; no handle field and no
buffer byte changes (R162, R166, R170, R302, R304). -/
def Obligations.RegisterAccessFailure : Prop :=
  ∀ (a w : Word) (k : Nat) (s : State), Ready s → s.cfg.wf = true → FailsAt s k →
    (k < (readRegBus s.cfg s.h.blockSize a).length →
      ∃ t, exec (.readReg a) s = .next t ∧ t.idle s.cur = true ∧ t.h = s.h ∧ t.buf = s.buf ∧
        t.out = s.out ++ (readRegBus s.cfg s.h.blockSize a).take (k + 1) ++
          [.response s.cur (.fail .eTransport)]) ∧
    (k < (writeRegBus s.cfg s.h.blockSize a w).length →
      ∃ t, exec (.writeReg a w) s = .next t ∧ t.idle s.cur = true ∧ t.h = s.h ∧ t.buf = s.buf ∧
        t.out = s.out ++ (writeRegBus s.cfg s.h.blockSize a w).take (k + 1) ++
          [.response s.cur (.fail .eTransport)])

/-! ### Transfers -/

/-- The split of a transfer: the size is rounded up to the next multiple of 4, and the blocks and the remainder make the
rounded size with the remainder below a block (R181, R184, R186). -/
def Obligations.TransferSplit : Prop :=
  ∀ size bs : Nat, 0 < bs →
    4 ∣ roundUp4 size ∧ size ≤ roundUp4 size ∧ roundUp4 size < size + 4 ∧
    wholeBlocks (roundUp4 size) bs * bs + remainder (roundUp4 size) bs = roundUp4 size ∧
    remainder (roundUp4 size) bs < bs

/-- `blockWrite` on transports that succeed: exactly the transactions of the two phases, each `setWindow` before its
block command, with `buf[0 .. sz-1]` as payload in order; `OK` (R182, R184, R185, R187, R188, R189). If one fails, the
transactions up to it and none after, and `E_TRANSPORT`; bytes a first windowed phase has stored are not undone (R190). No
handle field and no buffer byte changes in either case. -/
def Obligations.BlockWriteTransactions : Prop :=
  ∀ (addr : Word) (buf : BufRef) (size bs sz : Nat) (l : List Output) (s : State), Ready s →
    s.h.blockSize = some bs → 0 < bs → sz = roundUp4 size → sz ≤ buf.len → sz / bs ≤ s.cfg.maxCount →
    sz % bs ≤ s.cfg.maxCount → l = transferOut s.cfg addr true bs sz (s.buf.readBytes buf.base sz) →
    (OkNext s 8 →
      ∃ t, exec (.blockWrite addr buf size) s = .next t ∧ t.idle s.cur = true ∧ t.h = s.h ∧ t.buf = s.buf ∧
        t.log = s.log ∧ t.out = s.out ++ l ++ [.response s.cur (.ok .unit)]) ∧
    (∀ k, k < l.length → FailsAt s k →
      ∃ t, exec (.blockWrite addr buf size) s = .next t ∧ t.idle s.cur = true ∧ t.h = s.h ∧ t.buf = s.buf ∧
        t.out = s.out ++ l.take (k + 1) ++ [.response s.cur (.fail .eTransport)] ∧
        (addr ≠ 0 → 4 ≤ k → sz ≤ 2 ^ 24 → s.cfg.wf = true → s.dev.fn.wf = true → s.dev.chip.wf = true →
          ∀ j, j < sz / bs * bs →
            t.dev.chip.read (addr.extractLsb' 0 24 + BitVec.ofNat 24 j).toNat = s.buf.read (buf.base + j)))

/-- `blockRead` on transports that succeed: the transactions of the two phases, and the buffer filled in order with what
the device returned in phase (a), `xs`, then in phase (b), `ys`, to the rounded size (R187, R188). The data answers are
the fourth and eighth windowed, the first and second direct; a phase left out has none. If a transaction fails, those up
to it and none after, and `E_TRANSPORT`; the bytes of a first phase that succeeded stay in the buffer (R190). No other
buffer byte and no handle field changes in either case. -/
def Obligations.BlockReadTransactions : Prop :=
  ∀ (addr : Word) (buf : BufRef) (size bs sz d : Nat) (xs ys : List Byte) (l : List Output) (s : State),
    Ready s → s.h.blockSize = some bs → 0 < bs → s.buf.wf = true → sz = roundUp4 size → sz ≤ buf.len →
    sz / bs ≤ s.cfg.maxCount → sz % bs ≤ s.cfg.maxCount → l = transferOut s.cfg addr false bs sz [] →
    d = (if addr = 0 then 0 else 3) → xs.length = sz / bs * bs →
    (OkNext s 8 → ys.length = sz % bs →
      (sz / bs ≠ 0 → ∃ n, s.draw d = .scripted true xs n) →
      (sz % bs ≠ 0 → ∃ n, s.draw (if sz / bs = 0 then d else 2 * d + 1) = .scripted true ys n) →
      ∃ t, exec (.blockRead addr buf size) s = .next t ∧ t.idle s.cur = true ∧ t.h = s.h ∧ t.log = s.log ∧
        t.out = s.out ++ l ++ [.response s.cur (.ok .unit)] ∧
        (∀ i, i < sz → t.buf.read (buf.base + i) = (xs ++ ys).getD i 0) ∧
        ∀ k, k < buf.base ∨ buf.base + sz ≤ k → t.buf.read k = s.buf.read k) ∧
    (∀ k, k < l.length → FailsAt s k → (d < k → sz / bs ≠ 0 ∧ ∃ n, s.draw d = .scripted true xs n) →
      ∃ t, exec (.blockRead addr buf size) s = .next t ∧ t.idle s.cur = true ∧ t.h = s.h ∧
        t.out = s.out ++ l.take (k + 1) ++ [.response s.cur (.fail .eTransport)] ∧
        (d < k → ∀ i, i < sz / bs * bs → t.buf.read (buf.base + i) = xs.getD i 0) ∧
        ∀ k, k < buf.base ∨ buf.base + sz ≤ k → t.buf.read k = s.buf.read k)

/-- The read-back property of the source through the window: on the reference device `blockWrite` followed by
`blockRead` at the same address returns the bytes written, to the rounded size (R188, R189, R363, property 1). -/
def Obligations.WindowedReadBack : Prop :=
  ∀ (addr : Word) (b1 b2 : BufRef) (size : Nat) (s : State), Ready s → s.cfg.wf = true →
    s.h.blockSize = some 512 → addr ≠ 0 → s.draws = [] →
    s.dev.fn.wf = true → s.dev.chip.wf = true → s.buf.wf = true →
    roundUp4 size ≤ b1.len → roundUp4 size ≤ b2.len → roundUp4 size / 512 ≤ s.cfg.maxCount →
    ∃ t u, exec (.blockWrite addr b1 size) s = .next t ∧ exec (.blockRead addr b2 size) t = .next u ∧
      ∀ i, i < roundUp4 size → u.buf.read (b2.base + i) = s.buf.read (b1.base + i)

/-- The read-back property at address 0: the same on the reference device's queue, if it was empty (R91, R363). -/
def Obligations.QueueReadBack : Prop :=
  ∀ (b1 b2 : BufRef) (size : Nat) (s : State), Ready s → s.cfg.wf = true → s.h.blockSize = some 512 →
    s.cfg.winData ≠ ⟨1, 0⟩ → s.draws = [] → s.dev.fifo = [] → s.buf.wf = true →
    roundUp4 size ≤ b1.len → roundUp4 size ≤ b2.len → roundUp4 size / 512 ≤ s.cfg.maxCount →
    ∃ t u, exec (.blockWrite 0 b1 size) s = .next t ∧ exec (.blockRead 0 b2 size) t = .next u ∧
      u.dev.fifo = [] ∧ ∀ i, i < roundUp4 size → u.buf.read (b2.base + i) = s.buf.read (b1.base + i)

/-- While no block size is negotiated a transfer is refused with `E_TRANSPORT` and no bus activity (R183); that this is so
for a buffer that is too short as well is the model's order of the two checks (log 24). -/
def Obligations.TransferWithoutBlockSize : Prop :=
  ∀ (addr : Word) (buf : BufRef) (size : Nat) (s : State), s.idle s.cur = true → s.h.blockSize = none →
    ∀ i ∈ [Instr.blockRead addr buf size, .blockWrite addr buf size],
      ∃ t, exec i s = .next t ∧ t.idle s.cur = true ∧ t.h = s.h ∧ t.buf = s.buf ∧ t.dev = s.dev ∧
        t.out = s.out ++ [.response s.cur (.fail .eTransport)]

/-- A block phase of more than `MAX_COUNT` blocks is refused with `E_TRANSPORT`: nothing is emitted on the direct path;
through the window the three window writes are (R152, R191). -/
def Obligations.OversizedBlockPhaseRefused : Prop :=
  ∀ (addr : Word) (buf : BufRef) (size bs : Nat) (s : State), Ready s → s.h.blockSize = some bs →
    roundUp4 size ≤ buf.len → s.cfg.maxCount < roundUp4 size / bs → OkNext s 3 →
    ∀ i ∈ [Instr.blockRead addr buf size, .blockWrite addr buf size],
      ∃ t, exec i s = .next t ∧ t.idle s.cur = true ∧ t.h = s.h ∧ t.buf = s.buf ∧
        t.out = s.out ++ phaseWindow s.cfg addr addr ++ [.response s.cur (.fail .eTransport)]

/-- A buffer that does not hold the bytes to move is a refused request: for a transfer one shorter than the rounded size,
for a block command one that ends before the bytes of its count (R192, U13; for the block commands log 20). -/
def Obligations.ShortBufferRefused : Prop :=
  ∀ (addr : Word) (buf : BufRef) (size bs : Nat) (fn : FnIndex) (inc : Bool) (a : BusAddr) (count : BitVec 9)
    (side : Side) (s : State),
    (s.idle s.cur = true → s.h.blockSize = some bs → buf.len < roundUp4 size →
      exec (.blockRead addr buf size) s = .refused .bufferTooShort ∧
      exec (.blockWrite addr buf size) s = .refused .bufferTooShort) ∧
    (countAllowed s.cfg count.toNat = true → side.buf.len < side.off + count.toNat →
      exec (.blkRdByte fn inc a count side) s = .refused .bufferTooShort ∧
      exec (.blkWrByte fn inc a count side) s = .refused .bufferTooShort) ∧
    (countAllowed s.cfg count.toNat = true → side.buf.len < side.off + count.toNat * side.bs →
      exec (.blkRdBlock fn inc a count side) s = .refused .bufferTooShort ∧
      exec (.blkWrBlock fn inc a count side) s = .refused .bufferTooShort)

/-! ### Interrupt status -/

/-- `readPendingSize` reads the low then the high count byte and returns `hi << 8 OR lo` (R201, R65); the first read that
fails ends it with `E_TRANSPORT`, and none follows (R201, R302). -/
def Obligations.PendingSizeIsTwoBytes : Prop :=
  ∀ (l : List Output) (s : State), Ready s →
    l = [sbOut false s.cfg.dmaCntLo false 0, sbOut false s.cfg.dmaCntHi false 0] →
    (OkNext s 2 →
      ∃ t, exec .readPendingSize s = .next t ∧ t.idle s.cur = true ∧ t.h = s.h ∧ t.buf = s.buf ∧ t.dev = s.dev ∧
        t.out = s.out ++ l ++ [.response s.cur (.ok (.count
          ((s.readAnswer 1 s.cfg.dmaCntHi).byte ++ (s.readAnswer 0 s.cfg.dmaCntLo).byte)))]) ∧
    ∀ k, k < l.length → FailsAt s k →
      ∃ t, exec .readPendingSize s = .next t ∧ t.idle s.cur = true ∧ t.h = s.h ∧ t.buf = s.buf ∧ t.dev = s.dev ∧
        t.out = s.out ++ l.take (k + 1) ++ [.response s.cur (.fail .eTransport)]

/-- `readInterruptStatus` in GPIO mode: the count in bits 15:0 and the variant's flag register under its mask, `0x1F` for
A and `0x0F` for B, in bits 20:16; three reads; no event (R205, R206, R207, R33). The first read that fails ends it with
`E_TRANSPORT`, no status and no further read (R214). -/
def Obligations.GpioInterruptStatus : Prop :=
  ∀ (loc : Loc8) (m : BitVec 5) (l : List Output) (s : State), Ready s → s.h.gpioIrq = true →
    (s.h.variant = .a ∧ loc = s.cfg.irqFlagsA ∧ m = 0x1F#5 ∨ s.h.variant = .b ∧ loc = s.cfg.irqFlagsB ∧ m = 0x0F#5) →
    l = [sbOut false s.cfg.dmaCntLo false 0, sbOut false s.cfg.dmaCntHi false 0, sbOut false loc false 0] →
    (OkNext s 3 →
      ∃ t, exec .readInterruptStatus s = .next t ∧ t.idle s.cur = true ∧ t.h = s.h ∧ t.buf = s.buf ∧ t.dev = s.dev ∧
        t.log = s.log ∧
        t.out = s.out ++ l ++ [.response s.cur (.ok (.status
          (0#11 ++ ((s.readAnswer 2 loc).byte.setWidth 5 &&& m) ++ (s.readAnswer 1 s.cfg.dmaCntHi).byte ++
            (s.readAnswer 0 s.cfg.dmaCntLo).byte)))]) ∧
    ∀ k, k < l.length → FailsAt s k →
      ∃ t, exec .readInterruptStatus s = .next t ∧ t.idle s.cur = true ∧ t.h = s.h ∧ t.buf = s.buf ∧ t.dev = s.dev ∧
        t.out = s.out ++ l.take (k + 1) ++ [.response s.cur (.fail .eTransport)]

/-- `readInterruptStatus` in status-register mode: register bits 0, 2, 3, 4, 5 are flags 0 to 4 in bits 16 to 20, for any
variant; if a flag at or beyond the line count is set, one event is logged, the flag stays and the result is `OK` (R205,
R210, R212). The first read that fails ends it with `E_TRANSPORT`, no status and no further read (R214). -/
def Obligations.StatusRegisterInterruptStatus : Prop :=
  ∀ (d : Byte) (st : Word) (l : List Output) (s : State), Ready s → s.h.gpioIrq = false →
    d = (s.readAnswer 2 s.cfg.intStatus).byte →
    st = 0#11 ++ BitVec.ofBool (d.getLsbD 5) ++ BitVec.ofBool (d.getLsbD 4) ++ BitVec.ofBool (d.getLsbD 3) ++
      BitVec.ofBool (d.getLsbD 2) ++ BitVec.ofBool (d.getLsbD 0) ++ (s.readAnswer 1 s.cfg.dmaCntHi).byte ++
      (s.readAnswer 0 s.cfg.dmaCntLo).byte →
    l = [sbOut false s.cfg.dmaCntLo false 0, sbOut false s.cfg.dmaCntHi false 0, sbOut false s.cfg.intStatus false 0] →
    (OkNext s 3 →
      ∃ t, exec .readInterruptStatus s = .next t ∧ t.idle s.cur = true ∧ t.h = s.h ∧ t.buf = s.buf ∧ t.dev = s.dev ∧
        t.out = s.out ++ l ++ [.response s.cur (.ok (.status st))] ∧
        ((∃ i, s.h.nint ≤ i ∧ i ≤ 4 ∧ st.getLsbD (16 + i) = true) → t.log = s.log ++ [.unexpectedIrq st d]) ∧
        (¬ (∃ i, s.h.nint ≤ i ∧ i ≤ 4 ∧ st.getLsbD (16 + i) = true) → t.log = s.log)) ∧
    ∀ k, k < l.length → FailsAt s k →
      ∃ t, exec .readInterruptStatus s = .next t ∧ t.idle s.cur = true ∧ t.h = s.h ∧ t.buf = s.buf ∧ t.dev = s.dev ∧
        t.out = s.out ++ l.take (k + 1) ++ [.response s.cur (.fail .eTransport)]

/-- While the variant is unknown `readInterruptStatus` in GPIO mode, `clearInterrupts`, and `syncInterrupts` of an allowed
line count are refused as a whole: no transaction, no handle field, no log event (R213, R225, R257). That the caller gets
a mark is the model's (log 12). -/
def Obligations.UnknownVariantRefused : Prop :=
  ∀ (mask : Word) (n : Nat) (i : Instr) (s : State), s.idle s.cur = true → s.h.variant = .unknown →
    (i = .readInterruptStatus ∧ s.h.gpioIrq = true ∨ i = .clearInterrupts mask ∨
      i = .syncInterrupts n ∧ n ≤ s.cfg.maxIntLines) →
    ∃ t, exec i s = .next t ∧ t.idle s.cur = true ∧ t.h = s.h ∧ t.dev = s.dev ∧ t.buf = s.buf ∧ t.log = s.log ∧
      t.out = s.out ++ [.response s.cur (.refused .variantUnknown)]

/-- `clearInterrupts` for variant A: one write of the merged value, in GPIO mode with the acknowledge bits, in
status-register mode without; no write if it is 0 (R218, R219, R223). The device then has exactly the flags under the
value and `ACK_MASK_A` cleared (R92). If the write fails, `E_TRANSPORT` (R224). -/
def Obligations.ClearInterruptsVariantA : Prop :=
  ∀ (mask : Word) (v : Byte) (s : State), Ready s → s.h.variant = .a →
    v = ((if s.h.gpioIrq then mask.extractLsb' 0 8 &&& s.cfg.ackMaskA else 0) |||
      (if mask.getLsbD 5 then 1#8 <<< s.cfg.aSel0Bit.val else 0) |||
      (if mask.getLsbD 6 then 1#8 <<< s.cfg.aSel1Bit.val else 0) |||
      (if mask.getLsbD 7 then 1#8 <<< s.cfg.aEnBit.val else 0)) →
    ∃ t, exec (.clearInterrupts mask) s = .next t ∧ t.idle s.cur = true ∧ t.h = s.h ∧ t.buf = s.buf ∧
      (v = 0 → t.dev = s.dev ∧ t.log = s.log ∧ t.out = s.out ++ [.response s.cur (.ok .unit)]) ∧
      (v ≠ 0 → (s.draw 0).outcome = true → t.log = s.log ∧
        t.out = s.out ++ [sbOut true s.cfg.intClrA false v, .response s.cur (.ok .unit)] ∧
        (s.cfg.intClrA ≠ s.cfg.intAckB → Acknowledged s.dev v s.cfg.ackMaskA t.dev)) ∧
      (v ≠ 0 → (s.draw 0).outcome = false →
        t.out = s.out ++ [sbOut true s.cfg.intClrA false v, .response s.cur (.fail .eTransport)])

/-- `clearInterrupts` for variant B: in GPIO mode the acknowledge bits to one register, then the VMM bits to a second, in
their own positions; a write whose value is 0 is not issued (R218, R220, R221, R222, R223). The device then has exactly
the flags under the acknowledge value and `ACK_MASK_B` cleared, and the VMM bits clear none (R92). The first write that
fails ends it with `E_TRANSPORT` and no further write; an acknowledge that was done is not reverted (R224). -/
def Obligations.ClearInterruptsVariantB : Prop :=
  ∀ (mask : Word) (v a : Byte) (l : List Output) (s : State), Ready s → s.h.variant = .b →
    a = (if s.h.gpioIrq then mask.extractLsb' 0 8 &&& s.cfg.ackMaskB else 0) →
    v = ((if mask.getLsbD 5 then 1#8 <<< s.cfg.bSel0Bit.val else 0) |||
      (if mask.getLsbD 6 then 1#8 <<< s.cfg.bSel1Bit.val else 0) |||
      (if mask.getLsbD 7 then 1#8 <<< s.cfg.bEnBit.val else 0)) →
    l = (if a = 0 then [] else [sbOut true s.cfg.intAckB false a]) ++
      (if v = 0 then [] else [sbOut true s.cfg.vmmCtlB false v]) →
    (OkNext s 2 →
      ∃ t, exec (.clearInterrupts mask) s = .next t ∧ t.idle s.cur = true ∧ t.h = s.h ∧ t.buf = s.buf ∧
        t.log = s.log ∧ t.out = s.out ++ l ++ [.response s.cur (.ok .unit)] ∧
        (s.cfg.intClrA ∉ [s.cfg.intAckB, s.cfg.vmmCtlB] → s.cfg.vmmCtlB ≠ s.cfg.intAckB →
          (a = 0 → SameStatus s.dev t.dev) ∧ (a ≠ 0 → Acknowledged s.dev a s.cfg.ackMaskB t.dev))) ∧
    ∀ k, k < l.length → FailsAt s k →
      ∃ t, exec (.clearInterrupts mask) s = .next t ∧ t.idle s.cur = true ∧ t.h = s.h ∧ t.buf = s.buf ∧
        t.out = s.out ++ l.take (k + 1) ++ [.response s.cur (.fail .eTransport)] ∧
        (k = 1 → s.cfg.intClrA ∉ [s.cfg.intAckB, s.cfg.vmmCtlB] → s.cfg.vmmCtlB ≠ s.cfg.intAckB →
          Acknowledged s.dev a s.cfg.ackMaskB t.dev)

/-- A write of `clearInterrupts` is issued only if its value is not 0: no `SB` command it emits has a data byte of 0,
whatever the device answers. `clearInterrupts(0)` issues zero register writes and returns `OK`, for either variant and
mode; so do a mask of which only bits 31:8 are set, and in status-register mode one of which bits 7:5 are clear (R223,
R217). -/
def Obligations.ClearNothingWritesNothing : Prop :=
  ∀ (mask : Word) (s : State), s.idle s.cur = true → s.h.variant ≠ .unknown →
    (mask.extractLsb' 0 8 = 0#8 ∨ s.h.gpioIrq = false ∧ mask.extractLsb' 5 3 = 0#3 →
      ∃ t, exec (.clearInterrupts mask) s = .next t ∧ t.idle s.cur = true ∧ t.h = s.h ∧ t.dev = s.dev ∧
        t.out = s.out ++ [.response s.cur (.ok .unit)]) ∧
    (∀ t, exec (.clearInterrupts mask) s = .next t →
      ∃ l, t.out = s.out ++ l ∧ ∀ c, Output.bus c ∈ l → c.arg.extractLsb' 0 8 ≠ 0#8)

/-! ### Lifecycle -/

/-- `init(false)` on transports that succeed: steps 1 to 6 in order, the ready bit observed at poll `p + 1` of at most 3,
the identifier read; a known pattern gives the variant, block size 512, `initialized`, `ready` and `OK`; another gives
`E_UNSUPPORTED_CHIP`, a log event, `failed`, `initialized` false and the variant kept (R232 to R244). -/
def Obligations.InitIdentifiesChip : Prop :=
  ∀ (p : Nat) (b : Nat → Byte) (d0 d1 d2 d3 : Byte) (l : Nat) (id : Word) (s : State),
    Ready s → s.cfg.wf = true → s.h.life ≠ .negotiating → inDirect s.cfg s.cfg.chipIdReg = false →
    p < 3 → OkNext s (p + 11) → (∀ j, j ≤ p → s.draw (4 + j) = .scripted true [b j] 0) →
    (∀ j, j < p → b j &&& s.cfg.ioRdyMask = 0) → b p &&& s.cfg.ioRdyMask ≠ 0 →
    s.draw (p + 11) = .scripted true [d0, d1, d2, d3] l → id = d3 ++ d2 ++ d1 ++ d0 →
    ∃ t, exec (.init false) s = .next t ∧ t.idle s.cur = true ∧ t.buf = s.buf ∧
      ((id &&& s.cfg.chipIdMask = s.cfg.chipIdPatA ∨ id &&& s.cfg.chipIdMask = s.cfg.chipIdPatB) →
        t.h = { s.h with
          variant := (if id &&& s.cfg.chipIdMask = s.cfg.chipIdPatA then .a else .b)
          blockSize := some 512, initialized := true, life := .ready } ∧ t.log = s.log ∧
        t.out = s.out ++ negotiationOut s.cfg (p + 1) ++ readRegOut s.cfg s.h.blockSize s.cfg.chipIdReg ++
          [.response s.cur (.ok .unit)]) ∧
      (id &&& s.cfg.chipIdMask ≠ s.cfg.chipIdPatA → id &&& s.cfg.chipIdMask ≠ s.cfg.chipIdPatB →
        t.h = { s.h with initialized := false, life := .failed } ∧ t.log = s.log ++ [.unsupportedChip id] ∧
        t.out = s.out ++ negotiationOut s.cfg (p + 1) ++ readRegOut s.cfg s.h.blockSize s.cfg.chipIdReg ++
          [.response s.cur (.fail .eUnsupportedChip)])

/-- `init(true)`: steps 1 to 6, the ready bit observed at poll `p + 1` of at most 3, no identifier read; with a known
variant it is kept and the commit is as for `init(false)`; with none it fails with `E_UNSUPPORTED_CHIP` and no further bus
access (R236, R243, R244). -/
def Obligations.InitResumeSkipsIdentification : Prop :=
  ∀ (p : Nat) (b : Nat → Byte) (s : State), Ready s → s.h.life ≠ .negotiating →
    p < 3 → OkNext s (p + 8) → (∀ j, j ≤ p → s.draw (4 + j) = .scripted true [b j] 0) →
    (∀ j, j < p → b j &&& s.cfg.ioRdyMask = 0) → b p &&& s.cfg.ioRdyMask ≠ 0 →
    ∃ t, exec (.init true) s = .next t ∧ t.idle s.cur = true ∧
      (s.h.variant ≠ .unknown →
        t.h = { s.h with blockSize := some 512, initialized := true, life := .ready } ∧
        t.out = s.out ++ negotiationOut s.cfg (p + 1) ++ [.response s.cur (.ok .unit)]) ∧
      (s.h.variant = .unknown →
        t.h = { s.h with initialized := false, life := .failed } ∧ t.log = s.log ++ [.unsupportedChip 0] ∧
        t.out = s.out ++ negotiationOut s.cfg (p + 1) ++ [.response s.cur (.fail .eUnsupportedChip)])

/-- The ready bit not observed in three polls, in `init` or `resume`: `E_NOT_READY`, one event, `failed`, `initialized`
false, and no fourth poll (R236, R239, R259). -/
def Obligations.InitNotReadyAfterThreePolls : Prop :=
  ∀ (r : Bool) (b : Nat → Byte) (s : State), Ready s → s.h.life ≠ .negotiating → OkNext s 4 →
    (∀ j, j < 3 → s.draw (4 + j) = .scripted true [b j] 0 ∧ b j &&& s.cfg.ioRdyMask = 0) →
    ∀ i ∈ [Instr.init r, .resume],
      ∃ t, exec i s = .next t ∧ t.idle s.cur = true ∧ t.log = s.log ++ [.notReady] ∧
        t.h = negotiationFailed s.h ∧
        t.out = s.out ++ (negotiationOut s.cfg 3).take 7 ++ [.response s.cur (.fail .eNotReady)]

/-- Whatever the device answers, an `init` or a `resume` that is not turned away and finds the bus free ends. `init` ends
in one of two ways: `OK`, `initialized` true, life `ready`, a known variant, block size 512; or a failure code of its own,
`initialized` false, life `failed`, variant and block size kept (R231, R244, R245, R307). `resume` ends so too, its variant
kept, or its `syncInterrupts` fails after a negotiation that succeeded: that one's code, and the handle stays ready (R259).
A transaction `k` of `init` that fails ends it with `E_TRANSPORT`: the commands up to it are emitted, none after (R232,
R245, R302). -/
def Obligations.InitEndsReadyOrFailed : Prop :=
  ∀ (r : Bool) (s : State), Ready s → s.h.life ≠ .negotiating →
    (∃ t, exec (.init r) s = .next t ∧ t.idle s.cur = true ∧
      ((t.out.getLast? = some (.response s.cur (.ok .unit)) ∧ t.h.initialized = true ∧ t.h.life = .ready ∧
          t.h.variant ≠ .unknown ∧ t.h.blockSize = some 512) ∨
        ((∃ c ∈ [Code.eTransport, .eNotReady, .eUnsupportedChip],
            t.out.getLast? = some (.response s.cur (.fail c))) ∧ t.h = negotiationFailed s.h))) ∧
    (∃ t, exec .resume s = .next t ∧ t.idle s.cur = true ∧
      ((t.out.getLast? = some (.response s.cur (.ok .unit)) ∧ s.h.variant ≠ .unknown ∧ t.h = negotiated s.h) ∨
        ((∃ c ∈ [Code.eTransport, .eNotReady, .eUnsupportedChip],
            t.out.getLast? = some (.response s.cur (.fail c))) ∧ t.h = negotiationFailed s.h) ∨
        ((∃ c, (c = .eTransport ∨ c = .eTooManyLines ∧ s.cfg.maxIntLines < s.h.nint) ∧
            t.out.getLast? = some (.response s.cur (.fail c))) ∧ s.h.variant ≠ .unknown ∧ t.h = negotiated s.h))) ∧
    ∀ (p k : Nat) (l : List Output), s.cfg.wf = true →
      l = negotiationOut s.cfg (p + 1) ++ (if r then [] else readRegBus s.cfg s.h.blockSize s.cfg.chipIdReg) →
      k < l.length → FailsAt s k → ReadyAtPoll s p k →
      ∃ t, exec (.init r) s = .next t ∧ t.idle s.cur = true ∧ t.h = negotiationFailed s.h ∧ t.buf = s.buf ∧
        t.out = s.out ++ l.take (k + 1) ++ [.response s.cur (.fail .eTransport)]

/-- `deinit` clears the flag and touches no hardware, whoever owns the bus; while a negotiation runs it is refused, with
nothing written (R246). That the refused caller gets a mark is the model's (log 12). -/
def Obligations.DeinitClearsFlagOnly : Prop :=
  ∀ s : State, s.idle s.cur = true →
    ∃ t, exec .deinit s = .next t ∧ t.idle s.cur = true ∧ t.dev = s.dev ∧ t.buf = s.buf ∧ t.log = s.log ∧
      (s.h.life ≠ .negotiating → t.h = wentDown s.h ∧ t.out = s.out ++ [.response s.cur (.ok .unit)]) ∧
      (s.h.life = .negotiating → t.h = s.h ∧ t.out = s.out ++ [.response s.cur (.refused .negotiating)])

/-- `reset` is one raw write of the reset value; `initialized` and the life state are cleared whatever its status, which
is the result; every other handle field is kept (R247, R341). -/
def Obligations.ResetIsOneRawWrite : Prop :=
  ∀ s : State, Ready s → s.h.life ≠ .negotiating →
    ∃ t, exec .reset s = .next t ∧ t.idle s.cur = true ∧ t.h = wentDown s.h ∧ t.buf = s.buf ∧
      t.out = s.out ++ [sbOut true s.cfg.resetReg true s.cfg.resetVal,
        .response s.cur (if (s.draw 0).outcome then .ok .unit else .fail .eTransport)]

/-- `isInitialized` returns the flag in every state, with nothing else changed and whoever owns the bus; while a
negotiation runs it returns false (R248; that the flag is clear then is the invariant's). -/
def Obligations.IsInitializedReturnsFlag : Prop :=
  ∀ s : State, s.idle s.cur = true →
    ∃ t, exec .isInitialized s = .next t ∧ t.idle s.cur = true ∧ t.h = s.h ∧ t.dev = s.dev ∧ t.buf = s.buf ∧
      t.log = s.log ∧ t.out = s.out ++ [.response s.cur (.ok (.bool s.h.initialized))] ∧
      (BlockInv s → s.h.life = .negotiating →
        t.out = s.out ++ [.response s.cur (.ok (.bool false))])

/-- While a negotiation runs, the five lifecycle operations are refused with no state change and no transaction (R260).
That the caller gets a mark is the model's (log 12). -/
def Obligations.NegotiationRefusesLifecycle : Prop :=
  ∀ (r : Bool) (s : State), s.idle s.cur = true → s.h.life = .negotiating →
    ∀ i ∈ [Instr.init r, .deinit, .reset, .suspend, .resume],
      ∃ t, exec i s = .next t ∧ t.idle s.cur = true ∧ t.h = s.h ∧ t.dev = s.dev ∧ t.buf = s.buf ∧ t.log = s.log ∧
        t.out = s.out ++ [.response s.cur (.refused .negotiating)]

/-- A line count above the maximum is rejected before anything: no transaction, `nint` unchanged, one event, and that
before the variant is looked at (R250, R305, R315). -/
def Obligations.TooManyLinesRejected : Prop :=
  ∀ (n : Nat) (s : State), s.idle s.cur = true → s.cfg.maxIntLines < n →
    ∃ t, exec (.syncInterrupts n) s = .next t ∧ t.idle s.cur = true ∧ t.h = s.h ∧ t.dev = s.dev ∧
      t.log = s.log ++ [.tooManyLines n] ∧ t.out = s.out ++ [.response s.cur (.fail .eTooManyLines)]

/-- `syncInterrupts(n)` on transports that succeed: `nint` becomes `n`; variant B first clears the power-sequencer bit; in
GPIO mode the pin-mux bit and the first enable register's line bits are set, and above five lines the second's; each by
a read of the word and a write of it with only those bits changed (R249 to R255). The first transaction that fails ends it
with `E_TRANSPORT` and no further transaction, and `nint` keeps `n` (R256). -/
def Obligations.SyncInterruptsUpdates : Prop :=
  ∀ (n : Nat) (v : Nat → Word) (s : State), Ready s → s.cfg.wf = true → s.h.variant ≠ .unknown →
    n ≤ s.cfg.maxIntLines → syncWindowed s.cfg →
    (OkNext s 32 →
      (∀ j, j < (syncPlan s n).length → s.draw (8 * j + 3) = .scripted true (wordBytes (v j)) 0) →
      ∃ t, exec (.syncInterrupts n) s = .next t ∧ t.idle s.cur = true ∧ t.h = { s.h with nint := n } ∧
        t.buf = s.buf ∧ t.log = s.log ∧ t.out = s.out ++ syncOut s n v ++ [.response s.cur (.ok .unit)]) ∧
    ∀ k, k < (syncOut s n v).length → FailsAt s k →
      (∀ j, 8 * j + 3 < k → s.draw (8 * j + 3) = .scripted true (wordBytes (v j)) 0) →
      ∃ t, exec (.syncInterrupts n) s = .next t ∧ t.idle s.cur = true ∧ t.h = { s.h with nint := n } ∧
        t.buf = s.buf ∧ t.out = s.out ++ (syncOut s n v).take (k + 1) ++ [.response s.cur (.fail .eTransport)]

/-- The allocation law: of `n` lines the first `min(n, 5)` are consecutive bits of the first enable register and of `m`
remaining lines the first `min(m, 3)` consecutive bits of the second, and no other bit is set (R255, R110). -/
def Obligations.LineAllocation : Prop :=
  ∀ (c : Cfg) (n k : Nat), c.wf = true →
    (en1Bits c n).getLsbD k = decide (c.en1BaseBit.val ≤ k ∧ k < c.en1BaseBit.val + min n 5) ∧
    (en2Bits c n).getLsbD k = decide (c.en2BaseBit.val ≤ k ∧ k < c.en2BaseBit.val + min n 3)

/-- `suspend` is the handshakes and then `reset`, whose result is its own; the negotiated state stays (R258, R330; one
output stands for the two handshakes, whose order is open, log 16). -/
def Obligations.SuspendResetsDevice : Prop :=
  ∀ s : State, Ready s → s.h.life ≠ .negotiating →
    ∃ t, exec .suspend s = .next t ∧ t.idle s.cur = true ∧ t.h = wentDown s.h ∧ t.buf = s.buf ∧
      t.out = s.out ++ [.pmHandshakes, sbOut true s.cfg.resetReg true s.cfg.resetVal,
        .response s.cur (if (s.draw 0).outcome then .ok .unit else .fail .eTransport)]

/-- `resume` on transports that succeed: the negotiation with identification skipped, the ready bit observed at poll
`p + 1` of at most 3, then `syncInterrupts(h.nint)`, which programs the same lines as before, then the handshakes; the
variant, the line count, the lock and the callback are kept (R236, R259, R330; one output stands for the two handshakes,
log 16). A failure of either part is `resume`'s own, with no further transaction and no handshake (R259): of a transaction
of the negotiation, `E_TRANSPORT` and the handle failed; of the negotiation for want of a known variant,
`E_UNSUPPORTED_CHIP` after its last write (R243, U15); of a transaction of `syncInterrupts`, `E_TRANSPORT` with the handle
ready. -/
def Obligations.ResumeRestoresConfiguration : Prop :=
  ∀ (p : Nat) (v : Nat → Word) (l : List Output) (s : State), Ready s → s.cfg.wf = true → s.h.life ≠ .negotiating →
    l = syncOut { s with h := negotiated s.h } s.h.nint v →
    (s.h.variant ≠ .unknown → s.h.nint ≤ s.cfg.maxIntLines → syncWindowed s.cfg → ReadyAtPoll s p (p + 8) →
      (OkNext s (p + 40) →
        (∀ j, j < (syncPlan s s.h.nint).length →
          s.draw (p + 8 * j + 11) = .scripted true (wordBytes (v j)) 0) →
        ∃ t, exec .resume s = .next t ∧ t.idle s.cur = true ∧ t.h = negotiated s.h ∧ t.buf = s.buf ∧ t.log = s.log ∧
          t.out = s.out ++ negotiationOut s.cfg (p + 1) ++ l ++ [.pmHandshakes, .response s.cur (.ok .unit)]) ∧
      ∀ k, k < l.length → FailsAt s (p + 8 + k) →
        (∀ j, 8 * j + 3 < k → s.draw (p + 8 * j + 11) = .scripted true (wordBytes (v j)) 0) →
        ∃ t, exec .resume s = .next t ∧ t.idle s.cur = true ∧ t.h = negotiated s.h ∧ t.buf = s.buf ∧
          t.out = s.out ++ negotiationOut s.cfg (p + 1) ++ l.take (k + 1) ++
            [.response s.cur (.fail .eTransport)]) ∧
    (s.h.variant = .unknown → ReadyAtPoll s p (p + 8) → OkNext s (p + 8) →
      ∃ t, exec .resume s = .next t ∧ t.idle s.cur = true ∧ t.h = negotiationFailed s.h ∧ t.buf = s.buf ∧
        t.log = s.log ++ [.unsupportedChip 0] ∧
        t.out = s.out ++ negotiationOut s.cfg (p + 1) ++ [.response s.cur (.fail .eUnsupportedChip)]) ∧
    ∀ k, k < p + 8 → ReadyAtPoll s p k → FailsAt s k →
      ∃ t, exec .resume s = .next t ∧ t.idle s.cur = true ∧ t.h = negotiationFailed s.h ∧ t.buf = s.buf ∧
        t.out = s.out ++ (negotiationOut s.cfg (p + 1)).take (k + 1) ++ [.response s.cur (.fail .eTransport)]

/-! ### Interrupt delivery -/

/-- `enableInterrupts` sets the lock `free`, from any state, and registers the callback; a registration that fails is
reported and the lock is `free` all the same; no bus command (R272, R273). -/
def Obligations.EnableFreesLockAndRegisters : Prop :=
  ∀ s : State, Ready s →
    ∃ t, exec .enableInterrupts s = .next t ∧ t.idle s.cur = true ∧
      t.h = { s.h with lock := .free, cbRegistered := s.h.cbRegistered || (s.draw 0).outcome } ∧
      t.dev = s.dev ∧ t.buf = s.buf ∧ t.waiters = s.waiters ∧
      t.out = s.out ++ [.irqRegister,
        .response s.cur (if (s.draw 0).outcome then .ok .unit else .fail .eTransport)]

/-- `disableInterrupts` with no dispatch in flight: the callback is unregistered and the lock ends `free`; a failed
unregistration is reported; no bus command (R284, R286, R287). -/
def Obligations.DisableUnregistersAndFrees : Prop :=
  ∀ s : State, Ready s → s.h.lock ≠ .irqInFlight → s.cur ∉ s.waiters →
    ∃ t, exec .disableInterrupts s = .next t ∧ t.idle s.cur = true ∧
      t.h = { s.h with lock := .free, cbRegistered := s.h.cbRegistered && !(s.draw 0).outcome } ∧
      t.dev = s.dev ∧ t.buf = s.buf ∧ t.waiters = s.waiters ∧
      t.out = s.out ++ [.irqUnregister,
        .response s.cur (if (s.draw 0).outcome then .ok .unit else .fail .eTransport)]

/-- `disableInterrupts` during a dispatch waits: its requester joins the waiters, nothing else is written and nothing is
answered (R285). -/
def Obligations.DisableWaitsForDispatch : Prop :=
  ∀ s : State, s.idle s.cur = true → s.h.lock = .irqInFlight →
    ∃ t, exec .disableInterrupts s = .next t ∧ t.idle s.cur = false ∧ s.cur ∈ t.waiters ∧ t.h = s.h ∧ t.dev = s.dev ∧
      t.out = s.out ∧ (∀ r, r ≠ s.cur → (r ∈ t.waiters ↔ r ∈ s.waiters))

/-- Disable never preempts: no single step takes the lock from `irq_in_flight` to `disabled` (R285, property 6). -/
def Obligations.InFlightNeverBecomesDisabled : Prop :=
  ∀ s t : State, s.h.lock = .irqInFlight → step s = .next t → t.h.lock ≠ .disabled

/-- The delivery agent's steps from an idle agent, with nothing between. It enters exactly with the callback registered,
the line asserted and the bus free, whatever the lock, and then owns the bus. With a free lock its next two steps set the
lock in flight, then free the bus and call the handler; with a disabled one its next step returns as spurious, with one
event, the bus freed and no dispatch (R274 to R278, R313). -/
def Obligations.InterruptIsDelivered : Prop :=
  ∀ (s : State) (rest : List Event), s.cfg.wf = true → s.attached = true → s.irq = .idle →
    (s.agenda = .irq :: rest →
      (¬ (s.h.cbRegistered = true ∧ s.dev.line = true ∧ s.busOwner = none) →
        step s = .next { s with agenda := rest }) ∧
      (s.h.cbRegistered = true → s.dev.line = true → s.busOwner = none →
        step s = .next { s with agenda := rest, irq := .entered, busOwner := some .irq })) ∧
    (s.h.cbRegistered = true → s.dev.line = true → s.busOwner = none →
      (s.agenda = .irq :: .irq :: .irq :: rest → s.h.lock = .free →
        Host.Core.run Sys2Proof.core 3 s = .next
          { s with agenda := rest, irq := .dispatched, h := { s.h with lock := .irqInFlight },
                   out := s.out ++ [.dispatchCall] }) ∧
      (s.agenda = .irq :: .irq :: rest → s.h.lock = .disabled →
        Host.Core.run Sys2Proof.core 2 s = .next { s with agenda := rest, log := s.log ++ [.spuriousIrq] }))

/-- The gate, the release and the re-claim, as steps of the delivery agent. At the gate a free lock becomes
`irq_in_flight`, and a disabled one makes the callback return as spurious, with the bus released and one event, and no
dispatch (R276). The release frees the bus and calls the handler, and needs the lock in flight (R278; that the agent has
no step otherwise is read from its guard, log 17). The bus is re-claimed after the dispatch, and only once it is free
(R279). -/
def Obligations.DeliveryConditions : Prop :=
  ∀ (s : State) (rest : List Event), s.cfg.wf = true → s.attached = true → s.agenda = .irq :: rest →
    (s.irq = .entered → s.h.lock = .disabled →
      step s = .next { s with agenda := rest, irq := .idle, busOwner := none, log := s.log ++ [.spuriousIrq] }) ∧
    (s.irq = .entered → s.h.lock = .free →
      step s = .next { s with agenda := rest, irq := .gated, h := { s.h with lock := .irqInFlight } }) ∧
    (s.irq = .gated → s.h.lock = .irqInFlight →
      step s = .next { s with agenda := rest, irq := .dispatched, busOwner := none, out := s.out ++ [.dispatchCall] }) ∧
    (s.irq = .gated → s.h.lock ≠ .irqInFlight → step s = .next { s with agenda := rest }) ∧
    (s.irq = .dispatched → step s = .next { s with agenda := rest }) ∧
    (s.irq = .drained → s.busOwner = none →
      step s = .next { s with agenda := rest, irq := .reclaimed, busOwner := some .irq }) ∧
    (s.irq = .drained → s.busOwner ≠ none → step s = .next { s with agenda := rest })

/-- The return, with nothing between: once the handler, inside no operation, is done and the bus is free, the delivery
agent re-claims the bus, and its exit frees the lock, wakes every waiter and releases the bus (R279, R280, R314). While
the handler is inside an operation the dispatch is not done (R281, log 27). -/
def Obligations.InterruptReturns : Prop :=
  ∀ (s : State) (rest : List Event), s.cfg.wf = true → s.attached = true → s.irq = .dispatched →
    (s.idle .handler = true → s.busOwner = none → s.agenda = .dispatchDone :: .irq :: .irq :: rest →
      Host.Core.run Sys2Proof.core 3 s = .next
        { s with agenda := rest, irq := .idle, waiters := [], h := { s.h with lock := .free } }) ∧
    (s.idle .handler = true → s.agenda = .dispatchDone :: rest →
      step s = .next { s with agenda := rest, irq := .drained }) ∧
    (s.idle .handler = false → s.agenda = .dispatchDone :: rest → step s = .next { s with agenda := rest })

/-- A handler that disables interrupts waits for its own dispatch, and no step of any agent ends that (R281, R357; that
only `IRQ.EXIT` wakes a waiter is log 18). -/
def Obligations.HandlerSelfDisableIsStuck : Prop :=
  ∀ s t : State, SelfDisabled s → step s = .next t → SelfDisabled t
end

