-- ==== Sys2Proof/Laws/Memory.lean ====
section
/-! SUPPORT. Memory: reads after writes, and every operation keeps the canonical form. -/

namespace Sys2Proof.Machine

theorem Memory.wfFrom_mono {lo lo' : Nat} {m : Memory} (h : lo' ≤ lo) (hm : Memory.wfFrom lo m = true) :
    Memory.wfFrom lo' m = true := by
  cases m with
  | nil => rfl
  | cons x t =>
    obtain ⟨k, v⟩ := x
    simp only [Memory.wfFrom, Bool.and_eq_true, decide_eq_true_eq] at hm ⊢
    exact ⟨⟨by omega, hm.1.2⟩, hm.2⟩

/-- Below its lowest address a canonical memory reads as blank. -/
theorem Memory.read_below {lo a : Nat} {m : Memory} (hm : Memory.wfFrom lo m = true) (h : a < lo) :
    m.read a = Memory.blank := by
  induction m generalizing lo with
  | nil => rfl
  | cons x t ih =>
    obtain ⟨k, v⟩ := x
    simp only [Memory.wfFrom, Bool.and_eq_true, decide_eq_true_eq] at hm
    have hk : k ≠ a := by omega
    simp only [Memory.read, if_neg hk]
    exact ih hm.2 (by omega)

theorem Memory.wfFrom_write {lo a : Nat} {m : Memory} (v : Byte) (hm : Memory.wfFrom lo m = true) (h : lo ≤ a) :
    Memory.wfFrom lo (m.write a v) = true := by
  induction m generalizing lo with
  | nil =>
    by_cases hv : v = Memory.blank <;> simp [Memory.write, Memory.wfFrom, hv, h]
  | cons x t ih =>
    obtain ⟨k, w⟩ := x
    simp only [Memory.wfFrom, Bool.and_eq_true, decide_eq_true_eq] at hm
    simp only [Memory.write]
    by_cases h1 : a < k
    · by_cases hv : v = Memory.blank
      · simp [h1, hv, Memory.wfFrom, hm]
      · simp [h1, hv, Memory.wfFrom, hm, h]
    · by_cases h2 : a = k
      · subst h2
        by_cases hv : v = Memory.blank
        · simp only [hv, lt_irrefl, if_true, if_false]
          exact Memory.wfFrom_mono (by omega) hm.2
        · simp [hv, Memory.wfFrom, hm]
      · simp only [h1, h2, if_false, Memory.wfFrom, Bool.and_eq_true, decide_eq_true_eq]
        exact ⟨hm.1, ih hm.2 (by omega)⟩

/-- A write keeps the canonical form. -/
theorem Memory.wf_write (m : Memory) (a : Nat) (v : Byte) (hm : m.wf = true) : (m.write a v).wf = true :=
  Memory.wfFrom_write v hm (Nat.zero_le a)

/-- A write of several bytes keeps the canonical form. -/
theorem Memory.wf_writeBytes (m : Memory) (a : Nat) (bs : List Byte) (hm : m.wf = true) :
    (m.writeBytes a bs).wf = true := by
  induction bs generalizing m a with
  | nil => exact hm
  | cons b t ih => exact ih _ _ (Memory.wf_write m a b hm)

/-- A write through the wrapping window keeps the canonical form. -/
theorem wf_chipWrite (m : Memory) (w : BitVec 24) (bs : List Byte) (hm : m.wf = true) :
    (chipWrite m w bs).wf = true := by
  induction bs generalizing m w with
  | nil => exact hm
  | cons b t ih => exact ih _ _ (Memory.wf_write m _ b hm)

/-- A byte written is the byte read. -/
theorem Memory.read_write_same (m : Memory) (a : Nat) (v : Byte) (hm : m.wf = true) : (m.write a v).read a = v := by
  have key : ∀ (m : Memory) (lo : Nat), Memory.wfFrom lo m = true → (m.write a v).read a = v := by
    intro m
    induction m with
    | nil =>
      intro lo _
      by_cases hv : v = Memory.blank <;> simp [Memory.write, Memory.read, hv]
    | cons x t ih =>
      intro lo hm
      obtain ⟨k, w⟩ := x
      simp only [Memory.wfFrom, Bool.and_eq_true, decide_eq_true_eq] at hm
      simp only [Memory.write]
      by_cases h1 : a < k
      · by_cases hv : v = Memory.blank
        · have hk : k ≠ a := by omega
          simp only [h1, hv, if_true, Memory.read, if_neg hk]
          exact Memory.read_below hm.2 (by omega)
        · simp [h1, hv, Memory.read]
      · by_cases h2 : a = k
        · subst h2
          by_cases hv : v = Memory.blank
          · simp only [hv, lt_irrefl, if_true, if_false]
            exact Memory.read_below hm.2 (by omega)
          · simp [hv, Memory.read]
        · have hk : k ≠ a := fun h => h2 h.symm
          simp only [h1, h2, if_false, Memory.read, if_neg hk]
          exact ih _ hm.2
  exact key m 0 hm

/-- A write leaves every other byte alone. -/
theorem Memory.read_write_ne (m : Memory) (a b : Nat) (v : Byte) (h : b ≠ a) : (m.write a v).read b = m.read b := by
  induction m with
  | nil =>
    by_cases hv : v = Memory.blank <;> simp [Memory.write, Memory.read, hv, Ne.symm h]
  | cons x t ih =>
    obtain ⟨k, w⟩ := x
    simp only [Memory.write]
    by_cases h1 : a < k
    · by_cases hv : v = Memory.blank <;> simp [h1, hv, Memory.read, Ne.symm h]
    · by_cases h2 : a = k
      · subst h2
        by_cases hv : v = Memory.blank <;> simp [hv, Memory.read, Ne.symm h]
      · simp only [h1, h2, if_false, Memory.read, ih]

/-- Bytes outside the written range are left alone. -/
theorem Memory.read_writeBytes_out (m : Memory) (base a : Nat) (bs : List Byte)
    (h : a < base ∨ base + bs.length ≤ a) : (m.writeBytes base bs).read a = m.read a := by
  induction bs generalizing m base with
  | nil => rfl
  | cons b t ih =>
    simp only [List.length_cons] at h
    simp only [Memory.writeBytes]
    rw [ih _ _ (by omega), Memory.read_write_ne _ _ _ _ (by omega)]

/-- Byte `i` of the written range is byte `i` of what was written. -/
theorem Memory.read_writeBytes_in (m : Memory) (base i : Nat) (bs : List Byte) (hm : m.wf = true)
    (h : i < bs.length) : (m.writeBytes base bs).read (base + i) = bs[i] := by
  induction bs generalizing m base i with
  | nil => simp at h
  | cons b t ih =>
    simp only [Memory.writeBytes]
    cases i with
    | zero =>
      rw [Memory.read_writeBytes_out _ _ _ _ (by omega)]
      simpa using Memory.read_write_same m base b hm
    | succ i =>
      have := ih (m.write base b) (base + 1) i (Memory.wf_write _ _ _ hm) (by simpa using h)
      simpa [Nat.add_assoc, Nat.add_comm 1 i] using this

@[simp] theorem Memory.readBytes_length (m : Memory) (base n : Nat) : (m.readBytes base n).length = n := by
  simp [Memory.readBytes]

@[simp] theorem chipRead_length (m : Memory) (w : BitVec 24) (n : Nat) : (chipRead m w n).length = n := by
  simp [chipRead]

@[simp] theorem padded_length (free : Nat) (bs : List Byte) (n : Nat) : (padded free bs n).length = n := by
  simp [padded]

end Sys2Proof.Machine
end

