-- ==== Sys2Proof/Laws/State.lean ====
section
/-! SUPPORT. One lemma per field per named update of the state, true by definition; contexts read after writing. -/

namespace Sys2Proof.Machine

/-! ### Contexts -/

@[simp] theorem ctxGet_ctxSet_same (l : List (Requester × Ctx)) (q : Requester) (c : Ctx) :
    ctxGet (ctxSet l q c) q = c := by
  induction l with
  | nil => simp [ctxSet, ctxGet]
  | cons x t ih =>
    obtain ⟨r, d⟩ := x
    by_cases h : r = q <;> simp [ctxSet, ctxGet, h, ih]

theorem ctxGet_ctxSet_ne (l : List (Requester × Ctx)) (q r : Requester) (c : Ctx) (h : r ≠ q) :
    ctxGet (ctxSet l q c) r = ctxGet l r := by
  induction l with
  | nil => simp [ctxSet, ctxGet, Ne.symm h]
  | cons x t ih =>
    obtain ⟨p, d⟩ := x
    by_cases hp : p = q
    · subst hp; simp [ctxSet, ctxGet, Ne.symm h]
    · simp [ctxSet, ctxGet, hp, ih]

@[simp] theorem ctxSet_ctxSet (l : List (Requester × Ctx)) (q : Requester) (c d : Ctx) :
    ctxSet (ctxSet l q c) q d = ctxSet l q d := by
  induction l with
  | nil => simp [ctxSet]
  | cons x t ih =>
    obtain ⟨p, e⟩ := x
    by_cases hp : p = q <;> simp [ctxSet, hp, ih]

@[simp] theorem ctx_setCtx_same (s : State) (q : Requester) (c : Ctx) : (s.setCtx q c).ctx q = c :=
  ctxGet_ctxSet_same s.ctxs q c

theorem ctx_setCtx_ne (s : State) (q r : Requester) (c : Ctx) (h : r ≠ q) : (s.setCtx q c).ctx r = s.ctx r :=
  ctxGet_ctxSet_ne s.ctxs q r c h

@[simp] theorem setCtx_setCtx (s : State) (q : Requester) (c d : Ctx) :
    (s.setCtx q c).setCtx q d = s.setCtx q d := by
  simp [State.setCtx]

@[simp] theorem ctx_goto_same (s : State) (q : Requester) (p : Phase) :
    (s.goto q p).ctx q = { s.ctx q with phase := p } := by
  simp [State.goto]

theorem ctx_goto_ne (s : State) (q r : Requester) (p : Phase) (h : r ≠ q) : (s.goto q p).ctx r = s.ctx r :=
  ctx_setCtx_ne s q r _ h

@[simp] theorem ctx_setAcc_same (s : State) (q : Requester) (v : Word) :
    (s.setAcc q v).ctx q = { s.ctx q with acc := v } := by
  simp [State.setAcc]

theorem ctx_setAcc_ne (s : State) (q r : Requester) (v : Word) (h : r ≠ q) : (s.setAcc q v).ctx r = s.ctx r :=
  ctx_setCtx_ne s q r _ h

@[simp] theorem ctx_load_same (s : State) (q : Requester) (op : OpSel) (args : Args) :
    (s.load q op args).ctx q = { s.ctx q with op := op, phase := .start, args := args } := by
  simp [State.load]

theorem ctx_load_ne (s : State) (q r : Requester) (op : OpSel) (args : Args) (h : r ≠ q) :
    (s.load q op args).ctx r = s.ctx r :=
  ctx_setCtx_ne s q r _ h

@[simp] theorem ctx_finish_same (s : State) (q : Requester) (a : Answer) :
    (s.finish q a).ctx q = Ctx.undefined s.free (s.ctx q).args :=
  ctx_setCtx_same s q _

theorem ctx_finish_ne (s : State) (q r : Requester) (a : Answer) (h : r ≠ q) : (s.finish q a).ctx r = s.ctx r :=
  ctx_setCtx_ne s q r _ h

@[simp] theorem phase_undefined (n : Nat) (args : Args) : (Ctx.undefined n args).phase = .idle := rfl

@[simp] theorem args_undefined (n : Nat) (args : Args) : (Ctx.undefined n args).args = args := rfl

/-- An operation that ended leaves its requester idle. -/
@[simp] theorem idle_finish (s : State) (q : Requester) (a : Answer) : (s.finish q a).idle q = true := by
  simp [State.idle]

@[simp] theorem ctx_raiseTransport_same (s : State) (q : Requester) :
    (s.raiseTransport q).ctx q = Ctx.undefined s.free (s.ctx q).args := ctx_finish_same _ q _

@[simp] theorem ctx_failInit_same (s : State) (q : Requester) (c : Code) :
    (s.failInit q c).ctx q = Ctx.undefined s.free (s.ctx q).args := ctx_finish_same _ q _

@[simp] theorem ctx_failInitTransport_same (s : State) (q : Requester) :
    (s.failInitTransport q).ctx q = Ctx.undefined s.free (s.ctx q).args := ctx_finish_same _ q _

@[simp] theorem idle_raiseTransport (s : State) (q : Requester) : (s.raiseTransport q).idle q = true :=
  idle_finish _ q _

@[simp] theorem idle_failInit (s : State) (q : Requester) (c : Code) : (s.failInit q c).idle q = true :=
  idle_finish _ q _

@[simp] theorem idle_failInitTransport (s : State) (q : Requester) : (s.failInitTransport q).idle q = true :=
  idle_finish _ q _

/-! ### The three endings are one update -/

@[simp] theorem done_eq_finish (s : State) (q : Requester) (v : Value) : s.done q v = s.finish q (.ok v) := rfl

@[simp] theorem raise_eq_finish (s : State) (q : Requester) (c : Code) : s.raise q c = s.finish q (.fail c) := rfl

@[simp] theorem refuse_eq_finish (s : State) (q : Requester) (w : Refused) :
    s.refuse q w = s.finish q (.refused w) := rfl

/-! ### `setH` -/

@[simp] theorem setH_cfg (s : State) (h : Handle) : (s.setH h).cfg = s.cfg := rfl
@[simp] theorem setH_attached (s : State) (h : Handle) : (s.setH h).attached = s.attached := rfl
@[simp] theorem setH_h (s : State) (h : Handle) : (s.setH h).h = h := rfl
@[simp] theorem setH_waiters (s : State) (h : Handle) : (s.setH h).waiters = s.waiters := rfl
@[simp] theorem setH_ctxs (s : State) (h : Handle) : (s.setH h).ctxs = s.ctxs := rfl
@[simp] theorem setH_busOwner (s : State) (h : Handle) : (s.setH h).busOwner = s.busOwner := rfl
@[simp] theorem setH_irq (s : State) (h : Handle) : (s.setH h).irq = s.irq := rfl
@[simp] theorem setH_log (s : State) (h : Handle) : (s.setH h).log = s.log := rfl
@[simp] theorem setH_dev (s : State) (h : Handle) : (s.setH h).dev = s.dev := rfl
@[simp] theorem setH_buf (s : State) (h : Handle) : (s.setH h).buf = s.buf := rfl
@[simp] theorem setH_draws (s : State) (h : Handle) : (s.setH h).draws = s.draws := rfl
@[simp] theorem setH_free (s : State) (h : Handle) : (s.setH h).free = s.free := rfl
@[simp] theorem setH_reply (s : State) (h : Handle) : (s.setH h).reply = s.reply := rfl
@[simp] theorem setH_out (s : State) (h : Handle) : (s.setH h).out = s.out := rfl
@[simp] theorem setH_cur (s : State) (h : Handle) : (s.setH h).cur = s.cur := rfl
@[simp] theorem setH_agenda (s : State) (h : Handle) : (s.setH h).agenda = s.agenda := rfl
@[simp] theorem setH_ctx (s : State) (h : Handle) (r : Requester) : (s.setH h).ctx r = s.ctx r := rfl

/-! ### `addLog` -/

@[simp] theorem addLog_cfg (s : State) (e : LogEvent) : (s.addLog e).cfg = s.cfg := rfl
@[simp] theorem addLog_attached (s : State) (e : LogEvent) : (s.addLog e).attached = s.attached := rfl
@[simp] theorem addLog_h (s : State) (e : LogEvent) : (s.addLog e).h = s.h := rfl
@[simp] theorem addLog_waiters (s : State) (e : LogEvent) : (s.addLog e).waiters = s.waiters := rfl
@[simp] theorem addLog_ctxs (s : State) (e : LogEvent) : (s.addLog e).ctxs = s.ctxs := rfl
@[simp] theorem addLog_busOwner (s : State) (e : LogEvent) : (s.addLog e).busOwner = s.busOwner := rfl
@[simp] theorem addLog_irq (s : State) (e : LogEvent) : (s.addLog e).irq = s.irq := rfl
@[simp] theorem addLog_log (s : State) (e : LogEvent) : (s.addLog e).log = s.log ++ [e] := rfl
@[simp] theorem addLog_dev (s : State) (e : LogEvent) : (s.addLog e).dev = s.dev := rfl
@[simp] theorem addLog_buf (s : State) (e : LogEvent) : (s.addLog e).buf = s.buf := rfl
@[simp] theorem addLog_draws (s : State) (e : LogEvent) : (s.addLog e).draws = s.draws := rfl
@[simp] theorem addLog_free (s : State) (e : LogEvent) : (s.addLog e).free = s.free := rfl
@[simp] theorem addLog_reply (s : State) (e : LogEvent) : (s.addLog e).reply = s.reply := rfl
@[simp] theorem addLog_out (s : State) (e : LogEvent) : (s.addLog e).out = s.out := rfl
@[simp] theorem addLog_cur (s : State) (e : LogEvent) : (s.addLog e).cur = s.cur := rfl
@[simp] theorem addLog_agenda (s : State) (e : LogEvent) : (s.addLog e).agenda = s.agenda := rfl
@[simp] theorem addLog_ctx (s : State) (e : LogEvent) (r : Requester) : (s.addLog e).ctx r = s.ctx r := rfl

/-! ### `emit` -/

@[simp] theorem emit_cfg (s : State) (o : Output) : (s.emit o).cfg = s.cfg := rfl
@[simp] theorem emit_attached (s : State) (o : Output) : (s.emit o).attached = s.attached := rfl
@[simp] theorem emit_h (s : State) (o : Output) : (s.emit o).h = s.h := rfl
@[simp] theorem emit_waiters (s : State) (o : Output) : (s.emit o).waiters = s.waiters := rfl
@[simp] theorem emit_ctxs (s : State) (o : Output) : (s.emit o).ctxs = s.ctxs := rfl
@[simp] theorem emit_busOwner (s : State) (o : Output) : (s.emit o).busOwner = s.busOwner := rfl
@[simp] theorem emit_irq (s : State) (o : Output) : (s.emit o).irq = s.irq := rfl
@[simp] theorem emit_log (s : State) (o : Output) : (s.emit o).log = s.log := rfl
@[simp] theorem emit_dev (s : State) (o : Output) : (s.emit o).dev = s.dev := rfl
@[simp] theorem emit_buf (s : State) (o : Output) : (s.emit o).buf = s.buf := rfl
@[simp] theorem emit_draws (s : State) (o : Output) : (s.emit o).draws = s.draws := rfl
@[simp] theorem emit_free (s : State) (o : Output) : (s.emit o).free = s.free := rfl
@[simp] theorem emit_reply (s : State) (o : Output) : (s.emit o).reply = s.reply := rfl
@[simp] theorem emit_out (s : State) (o : Output) : (s.emit o).out = s.out ++ [o] := rfl
@[simp] theorem emit_cur (s : State) (o : Output) : (s.emit o).cur = s.cur := rfl
@[simp] theorem emit_agenda (s : State) (o : Output) : (s.emit o).agenda = s.agenda := rfl
@[simp] theorem emit_ctx (s : State) (o : Output) (r : Requester) : (s.emit o).ctx r = s.ctx r := rfl

/-! ### `setBus` -/

@[simp] theorem setBus_cfg (s : State) (o : Option Agent) : (s.setBus o).cfg = s.cfg := rfl
@[simp] theorem setBus_attached (s : State) (o : Option Agent) : (s.setBus o).attached = s.attached := rfl
@[simp] theorem setBus_h (s : State) (o : Option Agent) : (s.setBus o).h = s.h := rfl
@[simp] theorem setBus_waiters (s : State) (o : Option Agent) : (s.setBus o).waiters = s.waiters := rfl
@[simp] theorem setBus_ctxs (s : State) (o : Option Agent) : (s.setBus o).ctxs = s.ctxs := rfl
@[simp] theorem setBus_busOwner (s : State) (o : Option Agent) : (s.setBus o).busOwner = o := rfl
@[simp] theorem setBus_irq (s : State) (o : Option Agent) : (s.setBus o).irq = s.irq := rfl
@[simp] theorem setBus_log (s : State) (o : Option Agent) : (s.setBus o).log = s.log := rfl
@[simp] theorem setBus_dev (s : State) (o : Option Agent) : (s.setBus o).dev = s.dev := rfl
@[simp] theorem setBus_buf (s : State) (o : Option Agent) : (s.setBus o).buf = s.buf := rfl
@[simp] theorem setBus_draws (s : State) (o : Option Agent) : (s.setBus o).draws = s.draws := rfl
@[simp] theorem setBus_free (s : State) (o : Option Agent) : (s.setBus o).free = s.free := rfl
@[simp] theorem setBus_reply (s : State) (o : Option Agent) : (s.setBus o).reply = s.reply := rfl
@[simp] theorem setBus_out (s : State) (o : Option Agent) : (s.setBus o).out = s.out := rfl
@[simp] theorem setBus_cur (s : State) (o : Option Agent) : (s.setBus o).cur = s.cur := rfl
@[simp] theorem setBus_agenda (s : State) (o : Option Agent) : (s.setBus o).agenda = s.agenda := rfl
@[simp] theorem setBus_ctx (s : State) (o : Option Agent) (r : Requester) : (s.setBus o).ctx r = s.ctx r := rfl

/-! ### `setIrq` -/

@[simp] theorem setIrq_cfg (s : State) (p : IrqPhase) : (s.setIrq p).cfg = s.cfg := rfl
@[simp] theorem setIrq_attached (s : State) (p : IrqPhase) : (s.setIrq p).attached = s.attached := rfl
@[simp] theorem setIrq_h (s : State) (p : IrqPhase) : (s.setIrq p).h = s.h := rfl
@[simp] theorem setIrq_waiters (s : State) (p : IrqPhase) : (s.setIrq p).waiters = s.waiters := rfl
@[simp] theorem setIrq_ctxs (s : State) (p : IrqPhase) : (s.setIrq p).ctxs = s.ctxs := rfl
@[simp] theorem setIrq_busOwner (s : State) (p : IrqPhase) : (s.setIrq p).busOwner = s.busOwner := rfl
@[simp] theorem setIrq_irq (s : State) (p : IrqPhase) : (s.setIrq p).irq = p := rfl
@[simp] theorem setIrq_log (s : State) (p : IrqPhase) : (s.setIrq p).log = s.log := rfl
@[simp] theorem setIrq_dev (s : State) (p : IrqPhase) : (s.setIrq p).dev = s.dev := rfl
@[simp] theorem setIrq_buf (s : State) (p : IrqPhase) : (s.setIrq p).buf = s.buf := rfl
@[simp] theorem setIrq_draws (s : State) (p : IrqPhase) : (s.setIrq p).draws = s.draws := rfl
@[simp] theorem setIrq_free (s : State) (p : IrqPhase) : (s.setIrq p).free = s.free := rfl
@[simp] theorem setIrq_reply (s : State) (p : IrqPhase) : (s.setIrq p).reply = s.reply := rfl
@[simp] theorem setIrq_out (s : State) (p : IrqPhase) : (s.setIrq p).out = s.out := rfl
@[simp] theorem setIrq_cur (s : State) (p : IrqPhase) : (s.setIrq p).cur = s.cur := rfl
@[simp] theorem setIrq_agenda (s : State) (p : IrqPhase) : (s.setIrq p).agenda = s.agenda := rfl
@[simp] theorem setIrq_ctx (s : State) (p : IrqPhase) (r : Requester) : (s.setIrq p).ctx r = s.ctx r := rfl

/-! ### `setWaiters` -/

@[simp] theorem setWaiters_cfg (s : State) (w : List Requester) : (s.setWaiters w).cfg = s.cfg := rfl
@[simp] theorem setWaiters_attached (s : State) (w : List Requester) : (s.setWaiters w).attached = s.attached := rfl
@[simp] theorem setWaiters_h (s : State) (w : List Requester) : (s.setWaiters w).h = s.h := rfl
@[simp] theorem setWaiters_waiters (s : State) (w : List Requester) : (s.setWaiters w).waiters = w := rfl
@[simp] theorem setWaiters_ctxs (s : State) (w : List Requester) : (s.setWaiters w).ctxs = s.ctxs := rfl
@[simp] theorem setWaiters_busOwner (s : State) (w : List Requester) : (s.setWaiters w).busOwner = s.busOwner := rfl
@[simp] theorem setWaiters_irq (s : State) (w : List Requester) : (s.setWaiters w).irq = s.irq := rfl
@[simp] theorem setWaiters_log (s : State) (w : List Requester) : (s.setWaiters w).log = s.log := rfl
@[simp] theorem setWaiters_dev (s : State) (w : List Requester) : (s.setWaiters w).dev = s.dev := rfl
@[simp] theorem setWaiters_buf (s : State) (w : List Requester) : (s.setWaiters w).buf = s.buf := rfl
@[simp] theorem setWaiters_draws (s : State) (w : List Requester) : (s.setWaiters w).draws = s.draws := rfl
@[simp] theorem setWaiters_free (s : State) (w : List Requester) : (s.setWaiters w).free = s.free := rfl
@[simp] theorem setWaiters_reply (s : State) (w : List Requester) : (s.setWaiters w).reply = s.reply := rfl
@[simp] theorem setWaiters_out (s : State) (w : List Requester) : (s.setWaiters w).out = s.out := rfl
@[simp] theorem setWaiters_cur (s : State) (w : List Requester) : (s.setWaiters w).cur = s.cur := rfl
@[simp] theorem setWaiters_agenda (s : State) (w : List Requester) : (s.setWaiters w).agenda = s.agenda := rfl
@[simp] theorem setWaiters_ctx (s : State) (w : List Requester) (r : Requester) : (s.setWaiters w).ctx r = s.ctx r := rfl

/-! ### `setBuf` -/

@[simp] theorem setBuf_cfg (s : State) (m : Memory) : (s.setBuf m).cfg = s.cfg := rfl
@[simp] theorem setBuf_attached (s : State) (m : Memory) : (s.setBuf m).attached = s.attached := rfl
@[simp] theorem setBuf_h (s : State) (m : Memory) : (s.setBuf m).h = s.h := rfl
@[simp] theorem setBuf_waiters (s : State) (m : Memory) : (s.setBuf m).waiters = s.waiters := rfl
@[simp] theorem setBuf_ctxs (s : State) (m : Memory) : (s.setBuf m).ctxs = s.ctxs := rfl
@[simp] theorem setBuf_busOwner (s : State) (m : Memory) : (s.setBuf m).busOwner = s.busOwner := rfl
@[simp] theorem setBuf_irq (s : State) (m : Memory) : (s.setBuf m).irq = s.irq := rfl
@[simp] theorem setBuf_log (s : State) (m : Memory) : (s.setBuf m).log = s.log := rfl
@[simp] theorem setBuf_dev (s : State) (m : Memory) : (s.setBuf m).dev = s.dev := rfl
@[simp] theorem setBuf_buf (s : State) (m : Memory) : (s.setBuf m).buf = m := rfl
@[simp] theorem setBuf_draws (s : State) (m : Memory) : (s.setBuf m).draws = s.draws := rfl
@[simp] theorem setBuf_free (s : State) (m : Memory) : (s.setBuf m).free = s.free := rfl
@[simp] theorem setBuf_reply (s : State) (m : Memory) : (s.setBuf m).reply = s.reply := rfl
@[simp] theorem setBuf_out (s : State) (m : Memory) : (s.setBuf m).out = s.out := rfl
@[simp] theorem setBuf_cur (s : State) (m : Memory) : (s.setBuf m).cur = s.cur := rfl
@[simp] theorem setBuf_agenda (s : State) (m : Memory) : (s.setBuf m).agenda = s.agenda := rfl
@[simp] theorem setBuf_ctx (s : State) (m : Memory) (r : Requester) : (s.setBuf m).ctx r = s.ctx r := rfl

/-! ### `setCur` -/

@[simp] theorem setCur_cfg (s : State) (r : Requester) : (s.setCur r).cfg = s.cfg := rfl
@[simp] theorem setCur_attached (s : State) (r : Requester) : (s.setCur r).attached = s.attached := rfl
@[simp] theorem setCur_h (s : State) (r : Requester) : (s.setCur r).h = s.h := rfl
@[simp] theorem setCur_waiters (s : State) (r : Requester) : (s.setCur r).waiters = s.waiters := rfl
@[simp] theorem setCur_ctxs (s : State) (r : Requester) : (s.setCur r).ctxs = s.ctxs := rfl
@[simp] theorem setCur_busOwner (s : State) (r : Requester) : (s.setCur r).busOwner = s.busOwner := rfl
@[simp] theorem setCur_irq (s : State) (r : Requester) : (s.setCur r).irq = s.irq := rfl
@[simp] theorem setCur_log (s : State) (r : Requester) : (s.setCur r).log = s.log := rfl
@[simp] theorem setCur_dev (s : State) (r : Requester) : (s.setCur r).dev = s.dev := rfl
@[simp] theorem setCur_buf (s : State) (r : Requester) : (s.setCur r).buf = s.buf := rfl
@[simp] theorem setCur_draws (s : State) (r : Requester) : (s.setCur r).draws = s.draws := rfl
@[simp] theorem setCur_free (s : State) (r : Requester) : (s.setCur r).free = s.free := rfl
@[simp] theorem setCur_reply (s : State) (r : Requester) : (s.setCur r).reply = s.reply := rfl
@[simp] theorem setCur_out (s : State) (r : Requester) : (s.setCur r).out = s.out := rfl
@[simp] theorem setCur_cur (s : State) (r : Requester) : (s.setCur r).cur = r := rfl
@[simp] theorem setCur_agenda (s : State) (r : Requester) : (s.setCur r).agenda = s.agenda := rfl
@[simp] theorem setCur_ctx (s : State) (q r : Requester) : (s.setCur q).ctx r = s.ctx r := rfl

/-! ### `setDev` -/

@[simp] theorem setDev_cfg (s : State) (d : Device) : (s.setDev d).cfg = s.cfg := rfl
@[simp] theorem setDev_attached (s : State) (d : Device) : (s.setDev d).attached = s.attached := rfl
@[simp] theorem setDev_h (s : State) (d : Device) : (s.setDev d).h = s.h := rfl
@[simp] theorem setDev_waiters (s : State) (d : Device) : (s.setDev d).waiters = s.waiters := rfl
@[simp] theorem setDev_ctxs (s : State) (d : Device) : (s.setDev d).ctxs = s.ctxs := rfl
@[simp] theorem setDev_busOwner (s : State) (d : Device) : (s.setDev d).busOwner = s.busOwner := rfl
@[simp] theorem setDev_irq (s : State) (d : Device) : (s.setDev d).irq = s.irq := rfl
@[simp] theorem setDev_log (s : State) (d : Device) : (s.setDev d).log = s.log := rfl
@[simp] theorem setDev_dev (s : State) (d : Device) : (s.setDev d).dev = d := rfl
@[simp] theorem setDev_buf (s : State) (d : Device) : (s.setDev d).buf = s.buf := rfl
@[simp] theorem setDev_draws (s : State) (d : Device) : (s.setDev d).draws = s.draws := rfl
@[simp] theorem setDev_free (s : State) (d : Device) : (s.setDev d).free = s.free := rfl
@[simp] theorem setDev_reply (s : State) (d : Device) : (s.setDev d).reply = s.reply := rfl
@[simp] theorem setDev_out (s : State) (d : Device) : (s.setDev d).out = s.out := rfl
@[simp] theorem setDev_cur (s : State) (d : Device) : (s.setDev d).cur = s.cur := rfl
@[simp] theorem setDev_agenda (s : State) (d : Device) : (s.setDev d).agenda = s.agenda := rfl
@[simp] theorem setDev_ctx (s : State) (d : Device) (r : Requester) : (s.setDev d).ctx r = s.ctx r := rfl

/-! ### `dropDraw` -/

@[simp] theorem dropDraw_cfg (s : State) : s.dropDraw.cfg = s.cfg := rfl
@[simp] theorem dropDraw_attached (s : State) : s.dropDraw.attached = s.attached := rfl
@[simp] theorem dropDraw_h (s : State) : s.dropDraw.h = s.h := rfl
@[simp] theorem dropDraw_waiters (s : State) : s.dropDraw.waiters = s.waiters := rfl
@[simp] theorem dropDraw_ctxs (s : State) : s.dropDraw.ctxs = s.ctxs := rfl
@[simp] theorem dropDraw_busOwner (s : State) : s.dropDraw.busOwner = s.busOwner := rfl
@[simp] theorem dropDraw_irq (s : State) : s.dropDraw.irq = s.irq := rfl
@[simp] theorem dropDraw_log (s : State) : s.dropDraw.log = s.log := rfl
@[simp] theorem dropDraw_dev (s : State) : s.dropDraw.dev = s.dev := rfl
@[simp] theorem dropDraw_buf (s : State) : s.dropDraw.buf = s.buf := rfl
@[simp] theorem dropDraw_draws (s : State) : s.dropDraw.draws = s.draws.tail := rfl
@[simp] theorem dropDraw_free (s : State) : s.dropDraw.free = s.free := rfl
@[simp] theorem dropDraw_reply (s : State) : s.dropDraw.reply = s.reply := rfl
@[simp] theorem dropDraw_out (s : State) : s.dropDraw.out = s.out := rfl
@[simp] theorem dropDraw_cur (s : State) : s.dropDraw.cur = s.cur := rfl
@[simp] theorem dropDraw_agenda (s : State) : s.dropDraw.agenda = s.agenda := rfl
@[simp] theorem dropDraw_ctx (s : State) (r : Requester) : s.dropDraw.ctx r = s.ctx r := rfl

/-! ### `setCtx` -/

@[simp] theorem setCtx_cfg (s : State) (q : Requester) (c : Ctx) : (s.setCtx q c).cfg = s.cfg := rfl
@[simp] theorem setCtx_attached (s : State) (q : Requester) (c : Ctx) : (s.setCtx q c).attached = s.attached := rfl
@[simp] theorem setCtx_h (s : State) (q : Requester) (c : Ctx) : (s.setCtx q c).h = s.h := rfl
@[simp] theorem setCtx_waiters (s : State) (q : Requester) (c : Ctx) : (s.setCtx q c).waiters = s.waiters := rfl
@[simp] theorem setCtx_ctxs (s : State) (q : Requester) (c : Ctx) : (s.setCtx q c).ctxs = ctxSet s.ctxs q c := rfl
@[simp] theorem setCtx_busOwner (s : State) (q : Requester) (c : Ctx) : (s.setCtx q c).busOwner = s.busOwner := rfl
@[simp] theorem setCtx_irq (s : State) (q : Requester) (c : Ctx) : (s.setCtx q c).irq = s.irq := rfl
@[simp] theorem setCtx_log (s : State) (q : Requester) (c : Ctx) : (s.setCtx q c).log = s.log := rfl
@[simp] theorem setCtx_dev (s : State) (q : Requester) (c : Ctx) : (s.setCtx q c).dev = s.dev := rfl
@[simp] theorem setCtx_buf (s : State) (q : Requester) (c : Ctx) : (s.setCtx q c).buf = s.buf := rfl
@[simp] theorem setCtx_draws (s : State) (q : Requester) (c : Ctx) : (s.setCtx q c).draws = s.draws := rfl
@[simp] theorem setCtx_free (s : State) (q : Requester) (c : Ctx) : (s.setCtx q c).free = s.free := rfl
@[simp] theorem setCtx_reply (s : State) (q : Requester) (c : Ctx) : (s.setCtx q c).reply = s.reply := rfl
@[simp] theorem setCtx_out (s : State) (q : Requester) (c : Ctx) : (s.setCtx q c).out = s.out := rfl
@[simp] theorem setCtx_cur (s : State) (q : Requester) (c : Ctx) : (s.setCtx q c).cur = s.cur := rfl
@[simp] theorem setCtx_agenda (s : State) (q : Requester) (c : Ctx) : (s.setCtx q c).agenda = s.agenda := rfl

/-! ### `goto` -/

@[simp] theorem goto_cfg (s : State) (q : Requester) (p : Phase) : (s.goto q p).cfg = s.cfg := rfl
@[simp] theorem goto_attached (s : State) (q : Requester) (p : Phase) : (s.goto q p).attached = s.attached := rfl
@[simp] theorem goto_h (s : State) (q : Requester) (p : Phase) : (s.goto q p).h = s.h := rfl
@[simp] theorem goto_waiters (s : State) (q : Requester) (p : Phase) : (s.goto q p).waiters = s.waiters := rfl
@[simp] theorem goto_ctxs (s : State) (q : Requester) (p : Phase) :
    (s.goto q p).ctxs = ctxSet s.ctxs q { s.ctx q with phase := p } := rfl
@[simp] theorem goto_busOwner (s : State) (q : Requester) (p : Phase) : (s.goto q p).busOwner = s.busOwner := rfl
@[simp] theorem goto_irq (s : State) (q : Requester) (p : Phase) : (s.goto q p).irq = s.irq := rfl
@[simp] theorem goto_log (s : State) (q : Requester) (p : Phase) : (s.goto q p).log = s.log := rfl
@[simp] theorem goto_dev (s : State) (q : Requester) (p : Phase) : (s.goto q p).dev = s.dev := rfl
@[simp] theorem goto_buf (s : State) (q : Requester) (p : Phase) : (s.goto q p).buf = s.buf := rfl
@[simp] theorem goto_draws (s : State) (q : Requester) (p : Phase) : (s.goto q p).draws = s.draws := rfl
@[simp] theorem goto_free (s : State) (q : Requester) (p : Phase) : (s.goto q p).free = s.free := rfl
@[simp] theorem goto_reply (s : State) (q : Requester) (p : Phase) : (s.goto q p).reply = s.reply := rfl
@[simp] theorem goto_out (s : State) (q : Requester) (p : Phase) : (s.goto q p).out = s.out := rfl
@[simp] theorem goto_cur (s : State) (q : Requester) (p : Phase) : (s.goto q p).cur = s.cur := rfl
@[simp] theorem goto_agenda (s : State) (q : Requester) (p : Phase) : (s.goto q p).agenda = s.agenda := rfl

/-! ### `setAcc` -/

@[simp] theorem setAcc_cfg (s : State) (q : Requester) (v : Word) : (s.setAcc q v).cfg = s.cfg := rfl
@[simp] theorem setAcc_attached (s : State) (q : Requester) (v : Word) : (s.setAcc q v).attached = s.attached := rfl
@[simp] theorem setAcc_h (s : State) (q : Requester) (v : Word) : (s.setAcc q v).h = s.h := rfl
@[simp] theorem setAcc_waiters (s : State) (q : Requester) (v : Word) : (s.setAcc q v).waiters = s.waiters := rfl
@[simp] theorem setAcc_ctxs (s : State) (q : Requester) (v : Word) :
    (s.setAcc q v).ctxs = ctxSet s.ctxs q { s.ctx q with acc := v } := rfl
@[simp] theorem setAcc_busOwner (s : State) (q : Requester) (v : Word) : (s.setAcc q v).busOwner = s.busOwner := rfl
@[simp] theorem setAcc_irq (s : State) (q : Requester) (v : Word) : (s.setAcc q v).irq = s.irq := rfl
@[simp] theorem setAcc_log (s : State) (q : Requester) (v : Word) : (s.setAcc q v).log = s.log := rfl
@[simp] theorem setAcc_dev (s : State) (q : Requester) (v : Word) : (s.setAcc q v).dev = s.dev := rfl
@[simp] theorem setAcc_buf (s : State) (q : Requester) (v : Word) : (s.setAcc q v).buf = s.buf := rfl
@[simp] theorem setAcc_draws (s : State) (q : Requester) (v : Word) : (s.setAcc q v).draws = s.draws := rfl
@[simp] theorem setAcc_free (s : State) (q : Requester) (v : Word) : (s.setAcc q v).free = s.free := rfl
@[simp] theorem setAcc_reply (s : State) (q : Requester) (v : Word) : (s.setAcc q v).reply = s.reply := rfl
@[simp] theorem setAcc_out (s : State) (q : Requester) (v : Word) : (s.setAcc q v).out = s.out := rfl
@[simp] theorem setAcc_cur (s : State) (q : Requester) (v : Word) : (s.setAcc q v).cur = s.cur := rfl
@[simp] theorem setAcc_agenda (s : State) (q : Requester) (v : Word) : (s.setAcc q v).agenda = s.agenda := rfl

/-! ### `load` -/

@[simp] theorem load_cfg (s : State) (q : Requester) (op : OpSel) (args : Args) :
    (s.load q op args).cfg = s.cfg := rfl
@[simp] theorem load_attached (s : State) (q : Requester) (op : OpSel) (args : Args) :
    (s.load q op args).attached = s.attached := rfl
@[simp] theorem load_h (s : State) (q : Requester) (op : OpSel) (args : Args) : (s.load q op args).h = s.h := rfl
@[simp] theorem load_waiters (s : State) (q : Requester) (op : OpSel) (args : Args) :
    (s.load q op args).waiters = s.waiters := rfl
@[simp] theorem load_ctxs (s : State) (q : Requester) (op : OpSel) (args : Args) :
    (s.load q op args).ctxs = ctxSet s.ctxs q { s.ctx q with op := op, phase := .start, args := args } := rfl
@[simp] theorem load_busOwner (s : State) (q : Requester) (op : OpSel) (args : Args) :
    (s.load q op args).busOwner = s.busOwner := rfl
@[simp] theorem load_irq (s : State) (q : Requester) (op : OpSel) (args : Args) :
    (s.load q op args).irq = s.irq := rfl
@[simp] theorem load_log (s : State) (q : Requester) (op : OpSel) (args : Args) :
    (s.load q op args).log = s.log := rfl
@[simp] theorem load_dev (s : State) (q : Requester) (op : OpSel) (args : Args) :
    (s.load q op args).dev = s.dev := rfl
@[simp] theorem load_buf (s : State) (q : Requester) (op : OpSel) (args : Args) :
    (s.load q op args).buf = s.buf := rfl
@[simp] theorem load_draws (s : State) (q : Requester) (op : OpSel) (args : Args) :
    (s.load q op args).draws = s.draws := rfl
@[simp] theorem load_free (s : State) (q : Requester) (op : OpSel) (args : Args) :
    (s.load q op args).free = s.free := rfl
@[simp] theorem load_reply (s : State) (q : Requester) (op : OpSel) (args : Args) :
    (s.load q op args).reply = s.reply := rfl
@[simp] theorem load_out (s : State) (q : Requester) (op : OpSel) (args : Args) :
    (s.load q op args).out = s.out := rfl
@[simp] theorem load_cur (s : State) (q : Requester) (op : OpSel) (args : Args) :
    (s.load q op args).cur = s.cur := rfl
@[simp] theorem load_agenda (s : State) (q : Requester) (op : OpSel) (args : Args) :
    (s.load q op args).agenda = s.agenda := rfl

/-! ### `setLock` -/

@[simp] theorem setLock_cfg (s : State) (l : Lock) : (s.setLock l).cfg = s.cfg := rfl
@[simp] theorem setLock_attached (s : State) (l : Lock) : (s.setLock l).attached = s.attached := rfl
@[simp] theorem setLock_h (s : State) (l : Lock) : (s.setLock l).h = { s.h with lock := l } := rfl
@[simp] theorem setLock_waiters (s : State) (l : Lock) : (s.setLock l).waiters = s.waiters := rfl
@[simp] theorem setLock_ctxs (s : State) (l : Lock) : (s.setLock l).ctxs = s.ctxs := rfl
@[simp] theorem setLock_busOwner (s : State) (l : Lock) : (s.setLock l).busOwner = s.busOwner := rfl
@[simp] theorem setLock_irq (s : State) (l : Lock) : (s.setLock l).irq = s.irq := rfl
@[simp] theorem setLock_log (s : State) (l : Lock) : (s.setLock l).log = s.log := rfl
@[simp] theorem setLock_dev (s : State) (l : Lock) : (s.setLock l).dev = s.dev := rfl
@[simp] theorem setLock_buf (s : State) (l : Lock) : (s.setLock l).buf = s.buf := rfl
@[simp] theorem setLock_draws (s : State) (l : Lock) : (s.setLock l).draws = s.draws := rfl
@[simp] theorem setLock_free (s : State) (l : Lock) : (s.setLock l).free = s.free := rfl
@[simp] theorem setLock_reply (s : State) (l : Lock) : (s.setLock l).reply = s.reply := rfl
@[simp] theorem setLock_out (s : State) (l : Lock) : (s.setLock l).out = s.out := rfl
@[simp] theorem setLock_cur (s : State) (l : Lock) : (s.setLock l).cur = s.cur := rfl
@[simp] theorem setLock_agenda (s : State) (l : Lock) : (s.setLock l).agenda = s.agenda := rfl
@[simp] theorem setLock_ctx (s : State) (l : Lock) (r : Requester) : (s.setLock l).ctx r = s.ctx r := rfl

/-! ### `setCb` -/

@[simp] theorem setCb_cfg (s : State) (b : Bool) : (s.setCb b).cfg = s.cfg := rfl
@[simp] theorem setCb_attached (s : State) (b : Bool) : (s.setCb b).attached = s.attached := rfl
@[simp] theorem setCb_h (s : State) (b : Bool) : (s.setCb b).h = { s.h with cbRegistered := b } := rfl
@[simp] theorem setCb_waiters (s : State) (b : Bool) : (s.setCb b).waiters = s.waiters := rfl
@[simp] theorem setCb_ctxs (s : State) (b : Bool) : (s.setCb b).ctxs = s.ctxs := rfl
@[simp] theorem setCb_busOwner (s : State) (b : Bool) : (s.setCb b).busOwner = s.busOwner := rfl
@[simp] theorem setCb_irq (s : State) (b : Bool) : (s.setCb b).irq = s.irq := rfl
@[simp] theorem setCb_log (s : State) (b : Bool) : (s.setCb b).log = s.log := rfl
@[simp] theorem setCb_dev (s : State) (b : Bool) : (s.setCb b).dev = s.dev := rfl
@[simp] theorem setCb_buf (s : State) (b : Bool) : (s.setCb b).buf = s.buf := rfl
@[simp] theorem setCb_draws (s : State) (b : Bool) : (s.setCb b).draws = s.draws := rfl
@[simp] theorem setCb_free (s : State) (b : Bool) : (s.setCb b).free = s.free := rfl
@[simp] theorem setCb_reply (s : State) (b : Bool) : (s.setCb b).reply = s.reply := rfl
@[simp] theorem setCb_out (s : State) (b : Bool) : (s.setCb b).out = s.out := rfl
@[simp] theorem setCb_cur (s : State) (b : Bool) : (s.setCb b).cur = s.cur := rfl
@[simp] theorem setCb_agenda (s : State) (b : Bool) : (s.setCb b).agenda = s.agenda := rfl
@[simp] theorem setCb_ctx (s : State) (b : Bool) (r : Requester) : (s.setCb b).ctx r = s.ctx r := rfl

/-! ### `finish` -/

@[simp] theorem finish_cfg (s : State) (q : Requester) (a : Answer) : (s.finish q a).cfg = s.cfg := rfl
@[simp] theorem finish_attached (s : State) (q : Requester) (a : Answer) : (s.finish q a).attached = s.attached := rfl
@[simp] theorem finish_h (s : State) (q : Requester) (a : Answer) : (s.finish q a).h = s.h := rfl
@[simp] theorem finish_waiters (s : State) (q : Requester) (a : Answer) : (s.finish q a).waiters = s.waiters := rfl
@[simp] theorem finish_ctxs (s : State) (q : Requester) (a : Answer) :
    (s.finish q a).ctxs = ctxSet s.ctxs q (Ctx.undefined s.free (s.ctx q).args) := rfl
@[simp] theorem finish_busOwner (s : State) (q : Requester) (a : Answer) : (s.finish q a).busOwner = s.busOwner := rfl
@[simp] theorem finish_irq (s : State) (q : Requester) (a : Answer) : (s.finish q a).irq = s.irq := rfl
@[simp] theorem finish_log (s : State) (q : Requester) (a : Answer) : (s.finish q a).log = s.log := rfl
@[simp] theorem finish_dev (s : State) (q : Requester) (a : Answer) : (s.finish q a).dev = s.dev := rfl
@[simp] theorem finish_buf (s : State) (q : Requester) (a : Answer) : (s.finish q a).buf = s.buf := rfl
@[simp] theorem finish_draws (s : State) (q : Requester) (a : Answer) : (s.finish q a).draws = s.draws := rfl
@[simp] theorem finish_free (s : State) (q : Requester) (a : Answer) : (s.finish q a).free = s.free + 8 := rfl
@[simp] theorem finish_reply (s : State) (q : Requester) (a : Answer) : (s.finish q a).reply = s.reply := rfl
@[simp] theorem finish_out (s : State) (q : Requester) (a : Answer) :
    (s.finish q a).out = s.out ++ [.response q a] := rfl
@[simp] theorem finish_cur (s : State) (q : Requester) (a : Answer) : (s.finish q a).cur = s.cur := rfl
@[simp] theorem finish_agenda (s : State) (q : Requester) (a : Answer) : (s.finish q a).agenda = s.agenda := rfl

/-! ### `raiseTransport` -/

@[simp] theorem raiseTransport_cfg (s : State) (q : Requester) : (s.raiseTransport q).cfg = s.cfg := rfl
@[simp] theorem raiseTransport_attached (s : State) (q : Requester) :
    (s.raiseTransport q).attached = s.attached := rfl
@[simp] theorem raiseTransport_h (s : State) (q : Requester) : (s.raiseTransport q).h = s.h := rfl
@[simp] theorem raiseTransport_waiters (s : State) (q : Requester) : (s.raiseTransport q).waiters = s.waiters := rfl
@[simp] theorem raiseTransport_ctxs (s : State) (q : Requester) :
    (s.raiseTransport q).ctxs = ctxSet s.ctxs q (Ctx.undefined s.free (s.ctx q).args) := rfl
@[simp] theorem raiseTransport_busOwner (s : State) (q : Requester) :
    (s.raiseTransport q).busOwner = s.busOwner := rfl
@[simp] theorem raiseTransport_irq (s : State) (q : Requester) : (s.raiseTransport q).irq = s.irq := rfl
@[simp] theorem raiseTransport_log (s : State) (q : Requester) :
    (s.raiseTransport q).log = s.log ++ [.transportFail (s.ctx q).phase (failDiag s.cfg (s.ctx q).phase)] := rfl
@[simp] theorem raiseTransport_dev (s : State) (q : Requester) : (s.raiseTransport q).dev = s.dev := rfl
@[simp] theorem raiseTransport_buf (s : State) (q : Requester) : (s.raiseTransport q).buf = s.buf := rfl
@[simp] theorem raiseTransport_draws (s : State) (q : Requester) : (s.raiseTransport q).draws = s.draws := rfl
@[simp] theorem raiseTransport_free (s : State) (q : Requester) : (s.raiseTransport q).free = s.free + 8 := rfl
@[simp] theorem raiseTransport_reply (s : State) (q : Requester) : (s.raiseTransport q).reply = s.reply := rfl
@[simp] theorem raiseTransport_out (s : State) (q : Requester) :
    (s.raiseTransport q).out = s.out ++ [.response q (.fail .eTransport)] := rfl
@[simp] theorem raiseTransport_cur (s : State) (q : Requester) : (s.raiseTransport q).cur = s.cur := rfl
@[simp] theorem raiseTransport_agenda (s : State) (q : Requester) : (s.raiseTransport q).agenda = s.agenda := rfl

/-! ### `failInit` -/

@[simp] theorem failInit_cfg (s : State) (q : Requester) (c : Code) : (s.failInit q c).cfg = s.cfg := rfl
@[simp] theorem failInit_attached (s : State) (q : Requester) (c : Code) :
    (s.failInit q c).attached = s.attached := rfl
@[simp] theorem failInit_h (s : State) (q : Requester) (c : Code) :
    (s.failInit q c).h = { s.h with life := .failed, initialized := false } := rfl
@[simp] theorem failInit_waiters (s : State) (q : Requester) (c : Code) : (s.failInit q c).waiters = s.waiters := rfl
@[simp] theorem failInit_ctxs (s : State) (q : Requester) (c : Code) :
    (s.failInit q c).ctxs = ctxSet s.ctxs q (Ctx.undefined s.free (s.ctx q).args) := rfl
@[simp] theorem failInit_busOwner (s : State) (q : Requester) (c : Code) :
    (s.failInit q c).busOwner = s.busOwner := rfl
@[simp] theorem failInit_irq (s : State) (q : Requester) (c : Code) : (s.failInit q c).irq = s.irq := rfl
@[simp] theorem failInit_log (s : State) (q : Requester) (c : Code) : (s.failInit q c).log = s.log := rfl
@[simp] theorem failInit_dev (s : State) (q : Requester) (c : Code) : (s.failInit q c).dev = s.dev := rfl
@[simp] theorem failInit_buf (s : State) (q : Requester) (c : Code) : (s.failInit q c).buf = s.buf := rfl
@[simp] theorem failInit_draws (s : State) (q : Requester) (c : Code) : (s.failInit q c).draws = s.draws := rfl
@[simp] theorem failInit_free (s : State) (q : Requester) (c : Code) : (s.failInit q c).free = s.free + 8 := rfl
@[simp] theorem failInit_reply (s : State) (q : Requester) (c : Code) : (s.failInit q c).reply = s.reply := rfl
@[simp] theorem failInit_out (s : State) (q : Requester) (c : Code) :
    (s.failInit q c).out = s.out ++ [.response q (.fail c)] := rfl
@[simp] theorem failInit_cur (s : State) (q : Requester) (c : Code) : (s.failInit q c).cur = s.cur := rfl
@[simp] theorem failInit_agenda (s : State) (q : Requester) (c : Code) : (s.failInit q c).agenda = s.agenda := rfl

/-! ### `failInitTransport` -/

@[simp] theorem failInitTransport_cfg (s : State) (q : Requester) : (s.failInitTransport q).cfg = s.cfg := rfl
@[simp] theorem failInitTransport_attached (s : State) (q : Requester) :
    (s.failInitTransport q).attached = s.attached := rfl
@[simp] theorem failInitTransport_h (s : State) (q : Requester) :
    (s.failInitTransport q).h = { s.h with life := .failed, initialized := false } := rfl
@[simp] theorem failInitTransport_waiters (s : State) (q : Requester) :
    (s.failInitTransport q).waiters = s.waiters := rfl
@[simp] theorem failInitTransport_ctxs (s : State) (q : Requester) :
    (s.failInitTransport q).ctxs = ctxSet s.ctxs q (Ctx.undefined s.free (s.ctx q).args) := rfl
@[simp] theorem failInitTransport_busOwner (s : State) (q : Requester) :
    (s.failInitTransport q).busOwner = s.busOwner := rfl
@[simp] theorem failInitTransport_irq (s : State) (q : Requester) : (s.failInitTransport q).irq = s.irq := rfl
@[simp] theorem failInitTransport_log (s : State) (q : Requester) :
    (s.failInitTransport q).log = s.log ++ [.transportFail (s.ctx q).phase none] := rfl
@[simp] theorem failInitTransport_dev (s : State) (q : Requester) : (s.failInitTransport q).dev = s.dev := rfl
@[simp] theorem failInitTransport_buf (s : State) (q : Requester) : (s.failInitTransport q).buf = s.buf := rfl
@[simp] theorem failInitTransport_draws (s : State) (q : Requester) : (s.failInitTransport q).draws = s.draws := rfl
@[simp] theorem failInitTransport_free (s : State) (q : Requester) : (s.failInitTransport q).free = s.free + 8 := rfl
@[simp] theorem failInitTransport_reply (s : State) (q : Requester) : (s.failInitTransport q).reply = s.reply := rfl
@[simp] theorem failInitTransport_out (s : State) (q : Requester) :
    (s.failInitTransport q).out = s.out ++ [.response q (.fail .eTransport)] := rfl
@[simp] theorem failInitTransport_cur (s : State) (q : Requester) : (s.failInitTransport q).cur = s.cur := rfl
@[simp] theorem failInitTransport_agenda (s : State) (q : Requester) :
    (s.failInitTransport q).agenda = s.agenda := rfl

/-! ### Transactions -/

@[simp] theorem sb_cfg (s : State) (r : SbReq) : (s.sb r).2.cfg = s.cfg := rfl
@[simp] theorem sb_attached (s : State) (r : SbReq) : (s.sb r).2.attached = s.attached := rfl
@[simp] theorem sb_h (s : State) (r : SbReq) : (s.sb r).2.h = s.h := rfl
@[simp] theorem sb_waiters (s : State) (r : SbReq) : (s.sb r).2.waiters = s.waiters := rfl
@[simp] theorem sb_ctxs (s : State) (r : SbReq) : (s.sb r).2.ctxs = s.ctxs := rfl
@[simp] theorem sb_busOwner (s : State) (r : SbReq) : (s.sb r).2.busOwner = s.busOwner := rfl
@[simp] theorem sb_irq (s : State) (r : SbReq) : (s.sb r).2.irq = s.irq := rfl
@[simp] theorem sb_log (s : State) (r : SbReq) : (s.sb r).2.log = s.log := rfl
@[simp] theorem sb_dev (s : State) (r : SbReq) : (s.sb r).2.dev = (sbAnswer s.cfg s.free s.dev r s.nextDraw).2 := rfl
@[simp] theorem sb_buf (s : State) (r : SbReq) : (s.sb r).2.buf = s.buf := rfl
@[simp] theorem sb_draws (s : State) (r : SbReq) : (s.sb r).2.draws = s.draws.tail := rfl
@[simp] theorem sb_free (s : State) (r : SbReq) : (s.sb r).2.free = s.free + 1 := rfl
@[simp] theorem sb_reply (s : State) (r : SbReq) :
    (s.sb r).2.reply = (sbAnswer s.cfg s.free s.dev r s.nextDraw).1 := rfl
@[simp] theorem sb_out (s : State) (r : SbReq) : (s.sb r).2.out = s.out ++ [.bus ⟨.sb, r.word, none, []⟩] := rfl
@[simp] theorem sb_cur (s : State) (r : SbReq) : (s.sb r).2.cur = s.cur := rfl
@[simp] theorem sb_agenda (s : State) (r : SbReq) : (s.sb r).2.agenda = s.agenda := rfl
@[simp] theorem sb_ctx (s : State) (r : SbReq) (q : Requester) : (s.sb r).2.ctx q = s.ctx q := rfl
theorem sb_reply_eq (s : State) (r : SbReq) :
    (s.sb r).1 = (sbAnswer s.cfg s.free s.dev r s.nextDraw).1 := rfl

@[simp] theorem blk_cfg (s : State) (r : BlkReq) (p : List Byte) : (s.blk r p).2.cfg = s.cfg := rfl
@[simp] theorem blk_attached (s : State) (r : BlkReq) (p : List Byte) : (s.blk r p).2.attached = s.attached := rfl
@[simp] theorem blk_h (s : State) (r : BlkReq) (p : List Byte) : (s.blk r p).2.h = s.h := rfl
@[simp] theorem blk_waiters (s : State) (r : BlkReq) (p : List Byte) : (s.blk r p).2.waiters = s.waiters := rfl
@[simp] theorem blk_ctxs (s : State) (r : BlkReq) (p : List Byte) : (s.blk r p).2.ctxs = s.ctxs := rfl
@[simp] theorem blk_busOwner (s : State) (r : BlkReq) (p : List Byte) : (s.blk r p).2.busOwner = s.busOwner := rfl
@[simp] theorem blk_irq (s : State) (r : BlkReq) (p : List Byte) : (s.blk r p).2.irq = s.irq := rfl
@[simp] theorem blk_log (s : State) (r : BlkReq) (p : List Byte) : (s.blk r p).2.log = s.log := rfl
@[simp] theorem blk_dev (s : State) (r : BlkReq) (p : List Byte) :
    (s.blk r p).2.dev = (blkAnswer s.cfg s.free s.dev r p s.nextDraw).2 := rfl
@[simp] theorem blk_buf (s : State) (r : BlkReq) (p : List Byte) : (s.blk r p).2.buf = s.buf := rfl
@[simp] theorem blk_draws (s : State) (r : BlkReq) (p : List Byte) : (s.blk r p).2.draws = s.draws.tail := rfl
@[simp] theorem blk_free (s : State) (r : BlkReq) (p : List Byte) : (s.blk r p).2.free = s.free + r.bytes := rfl
@[simp] theorem blk_reply (s : State) (r : BlkReq) (p : List Byte) :
    (s.blk r p).2.reply = (blkAnswer s.cfg s.free s.dev r p s.nextDraw).1 := rfl
@[simp] theorem blk_out (s : State) (r : BlkReq) (p : List Byte) :
    (s.blk r p).2.out = s.out ++ [.bus ⟨.blk, r.word, r.bs, p⟩] := rfl
@[simp] theorem blk_cur (s : State) (r : BlkReq) (p : List Byte) : (s.blk r p).2.cur = s.cur := rfl
@[simp] theorem blk_agenda (s : State) (r : BlkReq) (p : List Byte) : (s.blk r p).2.agenda = s.agenda := rfl
@[simp] theorem blk_ctx (s : State) (r : BlkReq) (p : List Byte) (q : Requester) : (s.blk r p).2.ctx q = s.ctx q := rfl
theorem blk_reply_eq (s : State) (r : BlkReq) (p : List Byte) :
    (s.blk r p).1 = (blkAnswer s.cfg s.free s.dev r p s.nextDraw).1 := rfl

end Sys2Proof.Machine
end

