-- ==== Sys2Proof/Laws/Ops.lean ====
section
/-! SUPPORT. What the shared operations do: the oracle's answers as transactions take them, the bus, one transaction, the
run of an operation. -/

namespace Sys2Proof.Machine

/-! ### The oracle's answers (R88) -/

theorem nextDraw_eq_draw (s : State) : s.nextDraw = s.draw 0 := by
  unfold State.nextDraw State.draw
  cases s.draws <;> rfl

theorem draw_of_tail {s t : State} (h : t.draws = s.draws.tail) (k : Nat) : t.draw k = s.draw (k + 1) := by
  unfold State.draw
  rw [h]
  cases s.draws <;> simp

theorem draw_of_eq {s t : State} (h : t.draws = s.draws) (k : Nat) : t.draw k = s.draw k := by
  unfold State.draw
  rw [h]

@[simp] theorem draw_sb (s : State) (r : SbReq) (k : Nat) : (s.sb r).2.draw k = s.draw (k + 1) := draw_of_tail rfl k
@[simp] theorem draw_blk (s : State) (r : BlkReq) (p : List Byte) (k : Nat) :
    (s.blk r p).2.draw k = s.draw (k + 1) := draw_of_tail rfl k
@[simp] theorem draw_dropDraw (s : State) (k : Nat) : s.dropDraw.draw k = s.draw (k + 1) := draw_of_tail rfl k
@[simp] theorem draw_setH (s : State) (h : Handle) (k : Nat) : (s.setH h).draw k = s.draw k := rfl
@[simp] theorem draw_addLog (s : State) (e : LogEvent) (k : Nat) : (s.addLog e).draw k = s.draw k := rfl
@[simp] theorem draw_emit (s : State) (o : Output) (k : Nat) : (s.emit o).draw k = s.draw k := rfl
@[simp] theorem draw_setBuf (s : State) (m : Memory) (k : Nat) : (s.setBuf m).draw k = s.draw k := rfl
@[simp] theorem draw_setCtx (s : State) (q : Requester) (c : Ctx) (k : Nat) : (s.setCtx q c).draw k = s.draw k := rfl
@[simp] theorem draw_goto (s : State) (q : Requester) (p : Phase) (k : Nat) : (s.goto q p).draw k = s.draw k := rfl
@[simp] theorem draw_setAcc (s : State) (q : Requester) (v : Word) (k : Nat) : (s.setAcc q v).draw k = s.draw k := rfl
@[simp] theorem draw_load (s : State) (q : Requester) (op : OpSel) (a : Args) (k : Nat) :
    (s.load q op a).draw k = s.draw k := rfl
@[simp] theorem draw_setLock (s : State) (l : Lock) (k : Nat) : (s.setLock l).draw k = s.draw k := rfl
@[simp] theorem draw_setCb (s : State) (b : Bool) (k : Nat) : (s.setCb b).draw k = s.draw k := rfl

/-- The next answer and those after it. -/
theorem okNext_succ (s : State) (n : Nat) :
    OkNext s (n + 1) ↔ (s.draw 0).outcome = true ∧ ∀ k, k < n → (s.draw (k + 1)).outcome = true := by
  unfold OkNext
  constructor
  · intro h
    exact ⟨h 0 (by omega), fun k hk => h (k + 1) (by omega)⟩
  · rintro ⟨h0, h1⟩ k hk
    cases k with
    | zero => exact h0
    | succ k => exact h1 k (by omega)

/-- Fewer answers that are all `OK`. -/
theorem OkNext.mono {s : State} {n m : Nat} (h : OkNext s n) (hm : m ≤ n) : OkNext s m := fun k hk => h k (by omega)

/-! ### One transaction (R141, R146, R152) -/

/-- The status of a single-byte transaction is the oracle's. -/
@[simp] theorem sb_ok (s : State) (r : SbReq) : (s.sb r).1.ok = (s.draw 0).outcome := by
  rw [sb_reply_eq, nextDraw_eq_draw]
  cases s.draw 0 <;> simp only [sbAnswer, Draw.outcome]
  split <;> rfl

/-- The status of a block write is the oracle's. -/
theorem blk_ok_write (s : State) (r : BlkReq) (p : List Byte) (h : r.wr = true) :
    (s.blk r p).1.ok = (s.draw 0).outcome := by
  rw [blk_reply_eq, nextDraw_eq_draw]
  cases s.draw 0 <;> simp [blkAnswer, Draw.outcome, h]

/-- A block read answered by a script. -/
theorem blk_read_scripted (s : State) (r : BlkReq) (p : List Byte) (h : r.wr = false) {ok : Bool} {bs : List Byte}
    {l : Nat} (hd : s.draw 0 = .scripted ok bs l) : (s.blk r p).1 = ⟨ok, padded s.free bs r.bytes⟩ := by
  rw [blk_reply_eq, nextDraw_eq_draw, hd]
  simp [blkAnswer, h]

/-- A block read answered by a script leaves the device alone. -/
theorem blk_read_scripted_dev (s : State) (r : BlkReq) (p : List Byte) (h : r.wr = false) {ok : Bool} {bs : List Byte}
    {l : Nat} (hd : s.draw 0 = .scripted ok bs l) : (s.blk r p).2.dev = s.dev := by
  rw [blk_dev, nextDraw_eq_draw, hd]
  simp [blkAnswer, h]

/-- A single-byte read leaves the device alone. -/
theorem sb_read_dev (s : State) (r : SbReq) (h : r.wr = false) : (s.sb r).2.dev = s.dev := by
  rw [sb_dev]
  cases s.nextDraw <;> simp [sbAnswer, h]

/-- Bytes the answer gives are not padded. -/
theorem padded_self (f n : Nat) (bs : List Byte) (h : bs.length = n) : padded f bs n = bs := by
  apply List.ext_getElem
  · simp [h]
  · intro i h1 h2
    simp [padded, List.getD_eq_getElem?_getD, List.getElem?_eq_getElem h2]

/-- A count that is allowed makes `executeBlock` one transaction. -/
theorem executeBlock_allowed (s : State) (r : BlkReq) (p : List Byte) (h : countAllowed s.cfg r.count = true) :
    s.executeBlock r p = s.blk r p := by
  simp [State.executeBlock, h]

/-- A count that is not allowed makes `executeBlock` fail with nothing emitted. -/
theorem executeBlock_refused (s : State) (r : BlkReq) (p : List Byte) (h : countAllowed s.cfg r.count = false) :
    s.executeBlock r p = (⟨false, []⟩, s) := by
  simp [State.executeBlock, h]

/-- `executeBlock` changes what a transaction changes and nothing else. -/
theorem executeBlock_cases (s : State) (r : BlkReq) (p : List Byte) :
    s.executeBlock r p = s.blk r p ∨ s.executeBlock r p = (⟨false, []⟩, s) := by
  unfold State.executeBlock
  split
  · exact .inl rfl
  · exact .inr rfl

/-! ### The bus (R29, R153) -/

theorem withBus_free {s : State} (t : Turn) (h : s.busOwner = none) : withBus s t = t := if_pos h

theorem withBus_busy {s : State} (t : Turn) (h : s.busOwner ≠ none) : withBus s t = .held s := if_neg h

/-- A turn that needs the bus moves only with the bus free. -/
theorem withBus_moved {s s' : State} {t : Turn} (h : withBus s t = .moved s') : s.busOwner = none ∧ t = .moved s' := by
  unfold withBus at h
  split at h
  · exact ⟨‹_›, h⟩
  · cases h

/-! ### The run of an operation (R28) -/

theorem runPhases_idle (n : Nat) (q : Requester) (s : State) (h : s.idle q = true) : runPhases n q s = .next s := by
  cases n <;> simp [runPhases, h]

theorem runPhases_moved {n : Nat} {q : Requester} {s s' : State} (h : s.idle q = false)
    (ht : phaseTurn q s = .moved s') : runPhases (n + 1) q s = runPhases n q s' := by
  simp [runPhases, h, ht]

theorem runPhases_held {n : Nat} {q : Requester} {s s' : State} (h : s.idle q = false)
    (ht : phaseTurn q s = .held s') : runPhases (n + 1) q s = .next s' := by
  simp [runPhases, h, ht]

theorem runPhases_refused {n : Nat} {q : Requester} {s : State} {r : Refusal} (h : s.idle q = false)
    (ht : phaseTurn q s = .refused r) : runPhases (n + 1) q s = .refused r := by
  simp [runPhases, h, ht]

/-- What every phase keeps, and every wait, holds where a run ends. -/
theorem runPhases_induct {P : State → Prop} {q : Requester}
    (moved : ∀ s s', P s → s.idle q = false → phaseTurn q s = .moved s' → P s')
    (held : ∀ s s', P s → s.idle q = false → phaseTurn q s = .held s' → P s') (n : Nat) {s t : State} (hs : P s)
    (h : runPhases n q s = .next t) : P t := by
  induction n generalizing s with
  | zero =>
    simp only [runPhases] at h
    split at h <;> cases h
    exact hs
  | succ n ih =>
    simp only [runPhases] at h
    split at h
    · cases h; exact hs
    · rename_i hi
      have hi' : s.idle q = false := by simpa using hi
      cases ht : phaseTurn q s with
      | moved s' => rw [ht] at h; exact ih (moved s s' hs hi' ht) h
      | held s' => rw [ht] at h; cases h; exact held s _ hs hi' ht
      | refused r => rw [ht] at h; cases h

/-- What an operation's phases keep holds where its call ends. -/
theorem perform_induct {P : State → Prop} {op : OpSel} {args : Args} {s t : State}
    (moved : ∀ u u', P u → u.idle s.cur = false → phaseTurn s.cur u = .moved u' → P u')
    (held : ∀ u u', P u → u.idle s.cur = false → phaseTurn s.cur u = .held u' → P u')
    (h0 : s.idle s.cur = false → P s) (h1 : s.idle s.cur = true → P (s.load s.cur op args))
    (h : perform op args s = .next t) : P t := by
  unfold perform at h
  split at h
  · exact runPhases_induct moved held _ (h1 ‹_›) h
  · cases h
    exact h0 (by simpa using ‹¬ s.idle s.cur = true›)

theorem idle_eq (s : State) (q : Requester) : s.idle q = ((s.ctx q).phase == .idle) := rfl

end Sys2Proof.Machine
end

