-- ==== Sys2Proof/Laws/Sequencer.lean ====
section
/-! SUPPORT. What one phase of an operation can do: a register access, the phases an operation has, how many are left, and
what no phase changes. -/

namespace Sys2Proof.Machine

/-! ### Fields a block command or a register access keeps -/

@[simp] theorem executeBlock_cfg (s : State) (r : BlkReq) (p : List Byte) :
    (s.executeBlock r p).2.cfg = s.cfg := by
  unfold State.executeBlock
  split <;> rfl

@[simp] theorem executeBlock_attached (s : State) (r : BlkReq) (p : List Byte) :
    (s.executeBlock r p).2.attached = s.attached := by
  unfold State.executeBlock
  split <;> rfl

@[simp] theorem executeBlock_h (s : State) (r : BlkReq) (p : List Byte) :
    (s.executeBlock r p).2.h = s.h := by
  unfold State.executeBlock
  split <;> rfl

@[simp] theorem executeBlock_waiters (s : State) (r : BlkReq) (p : List Byte) :
    (s.executeBlock r p).2.waiters = s.waiters := by
  unfold State.executeBlock
  split <;> rfl

@[simp] theorem executeBlock_busOwner (s : State) (r : BlkReq) (p : List Byte) :
    (s.executeBlock r p).2.busOwner = s.busOwner := by
  unfold State.executeBlock
  split <;> rfl

@[simp] theorem executeBlock_irq (s : State) (r : BlkReq) (p : List Byte) :
    (s.executeBlock r p).2.irq = s.irq := by
  unfold State.executeBlock
  split <;> rfl

@[simp] theorem executeBlock_log (s : State) (r : BlkReq) (p : List Byte) :
    (s.executeBlock r p).2.log = s.log := by
  unfold State.executeBlock
  split <;> rfl

@[simp] theorem executeBlock_buf (s : State) (r : BlkReq) (p : List Byte) :
    (s.executeBlock r p).2.buf = s.buf := by
  unfold State.executeBlock
  split <;> rfl

@[simp] theorem executeBlock_cur (s : State) (r : BlkReq) (p : List Byte) :
    (s.executeBlock r p).2.cur = s.cur := by
  unfold State.executeBlock
  split <;> rfl

@[simp] theorem executeBlock_agenda (s : State) (r : BlkReq) (p : List Byte) :
    (s.executeBlock r p).2.agenda = s.agenda := by
  unfold State.executeBlock
  split <;> rfl

@[simp] theorem executeBlock_ctx (s : State) (r : BlkReq) (p : List Byte) (q : Requester) :
    (s.executeBlock r p).2.ctx q = s.ctx q := by
  unfold State.executeBlock
  split <;> rfl

/-- The state after the one command of the direct range. -/
theorem regAccess_direct_state (q : Requester) (wr : Bool) (a w : Word) (s : State) :
    (regAccess q wr a w .direct s).2 = (s.sb (directReq wr a w)).2 := by
  simp only [regAccess]
  split <;> rfl

/-- The bytes a register access sends at the data port. -/
def regPayload (wr : Bool) (w : Word) : List Byte := if wr then wordBytes w else []

/-- The state after the block command of a windowed access. -/
theorem regAccess_data_state (q : Requester) (wr : Bool) (a w : Word) (s : State) :
    (regAccess q wr a w (.win .data) s).2 =
      (s.executeBlock (windowDataReq s.cfg wr s.h.blockSize) (regPayload wr w)).2.setCtx q
        { s.ctx q with
          tmp := if wr then regPayload wr w
                 else (s.executeBlock (windowDataReq s.cfg wr s.h.blockSize) (regPayload wr w)).1.bytes } := by
  cases wr <;> simp [regAccess, regPayload, apply_ite Prod.snd]

/-- The state after a window write. -/
theorem regAccess_win_state (q : Requester) (wr : Bool) (a w : Word) (x : WinStep) (hx : x ≠ .data) (s : State) :
    (regAccess q wr a w (.win x) s).2 = (s.sb (windowReq s.cfg a x.index)).2 := by
  cases x <;> first | exact absurd rfl hx | (unfold regAccess winWrite; dsimp only; cases (s.sb _).1.ok <;> rfl)

/-- Every step of a register access is a state after one of its three commands. -/
theorem regAccess_state_cases {P : State → Prop} (q : Requester) (wr : Bool) (a w : Word) (st : RegStep) (s : State)
    (sb : ∀ r : SbReq, P (s.sb r).2)
    (blk : ∀ (r : BlkReq) (p tmp : List Byte), P ((s.executeBlock r p).2.setCtx q { s.ctx q with tmp := tmp })) :
    P (regAccess q wr a w st s).2 := by
  match st with
  | .direct => rw [regAccess_direct_state]; exact sb _
  | .win .data => rw [regAccess_data_state]; exact blk _ _ _
  | .win .w0 => rw [regAccess_win_state _ _ _ _ _ (by decide)]; exact sb _
  | .win .w1 => rw [regAccess_win_state _ _ _ _ _ (by decide)]; exact sb _
  | .win .w2 => rw [regAccess_win_state _ _ _ _ _ (by decide)]; exact sb _

@[simp] theorem regAccess_cfg (q : Requester) (wr : Bool) (a w : Word) (st : RegStep) (s : State) :
    (regAccess q wr a w st s).2.cfg = s.cfg :=
  regAccess_state_cases (P := fun t => t.cfg = s.cfg) q wr a w st s (fun _ => rfl) (fun _ _ _ => by simp)

@[simp] theorem regAccess_attached (q : Requester) (wr : Bool) (a w : Word) (st : RegStep) (s : State) :
    (regAccess q wr a w st s).2.attached = s.attached :=
  regAccess_state_cases (P := fun t => t.attached = s.attached) q wr a w st s (fun _ => rfl) (fun _ _ _ => by simp)

@[simp] theorem regAccess_h (q : Requester) (wr : Bool) (a w : Word) (st : RegStep) (s : State) :
    (regAccess q wr a w st s).2.h = s.h :=
  regAccess_state_cases (P := fun t => t.h = s.h) q wr a w st s (fun _ => rfl) (fun _ _ _ => by simp)

@[simp] theorem regAccess_waiters (q : Requester) (wr : Bool) (a w : Word) (st : RegStep) (s : State) :
    (regAccess q wr a w st s).2.waiters = s.waiters :=
  regAccess_state_cases (P := fun t => t.waiters = s.waiters) q wr a w st s (fun _ => rfl) (fun _ _ _ => by simp)

@[simp] theorem regAccess_busOwner (q : Requester) (wr : Bool) (a w : Word) (st : RegStep) (s : State) :
    (regAccess q wr a w st s).2.busOwner = s.busOwner :=
  regAccess_state_cases (P := fun t => t.busOwner = s.busOwner) q wr a w st s (fun _ => rfl) (fun _ _ _ => by simp)

@[simp] theorem regAccess_irq (q : Requester) (wr : Bool) (a w : Word) (st : RegStep) (s : State) :
    (regAccess q wr a w st s).2.irq = s.irq :=
  regAccess_state_cases (P := fun t => t.irq = s.irq) q wr a w st s (fun _ => rfl) (fun _ _ _ => by simp)

@[simp] theorem regAccess_log (q : Requester) (wr : Bool) (a w : Word) (st : RegStep) (s : State) :
    (regAccess q wr a w st s).2.log = s.log :=
  regAccess_state_cases (P := fun t => t.log = s.log) q wr a w st s (fun _ => rfl) (fun _ _ _ => by simp)

@[simp] theorem regAccess_buf (q : Requester) (wr : Bool) (a w : Word) (st : RegStep) (s : State) :
    (regAccess q wr a w st s).2.buf = s.buf :=
  regAccess_state_cases (P := fun t => t.buf = s.buf) q wr a w st s (fun _ => rfl) (fun _ _ _ => by simp)

@[simp] theorem regAccess_cur (q : Requester) (wr : Bool) (a w : Word) (st : RegStep) (s : State) :
    (regAccess q wr a w st s).2.cur = s.cur :=
  regAccess_state_cases (P := fun t => t.cur = s.cur) q wr a w st s (fun _ => rfl) (fun _ _ _ => by simp)

@[simp] theorem regAccess_agenda (q : Requester) (wr : Bool) (a w : Word) (st : RegStep) (s : State) :
    (regAccess q wr a w st s).2.agenda = s.agenda :=
  regAccess_state_cases (P := fun t => t.agenda = s.agenda) q wr a w st s (fun _ => rfl) (fun _ _ _ => by simp)

/-- A register access writes no context but its requester's. -/
theorem regAccess_ctx_ne (q r : Requester) (wr : Bool) (a w : Word) (st : RegStep) (s : State) (h : r ≠ q) :
    (regAccess q wr a w st s).2.ctx r = s.ctx r :=
  regAccess_state_cases (P := fun t => t.ctx r = s.ctx r) q wr a w st s (fun _ => by simp)
    (fun _ _ _ => by simp [ctx_setCtx_ne _ _ _ _ h])

/-- A register access writes nothing but the temporary of its requester's context (R166). -/
theorem regAccess_ctx_same (q : Requester) (wr : Bool) (a w : Word) (st : RegStep) (s : State) :
    ∃ tmp, (regAccess q wr a w st s).2.ctx q = { s.ctx q with tmp := tmp } :=
  regAccess_state_cases (P := fun t => ∃ tmp, t.ctx q = { s.ctx q with tmp := tmp }) q wr a w st s
    (fun _ => ⟨(s.ctx q).tmp, by simp⟩) (fun _ _ tmp => ⟨tmp, by simp⟩)

/-- The number of transactions a register access still takes, this one counted. -/
def RegStep.left : RegStep → Nat
  | .direct => 1
  | .win .w0 => 4
  | .win .w1 => 3
  | .win .w2 => 2
  | .win .data => 1

/-- A register access that is not over has fewer transactions left. -/
theorem regAccess_more {q : Requester} {wr : Bool} {a w : Word} {st r : RegStep} {s : State}
    (h : (regAccess q wr a w st s).1 = .more r) : r.left < st.left := by
  unfold regAccess at h
  split at h
  · simp only [] at h
    repeat' split at h
    all_goals cases h
  · simp only [] at h
    repeat' split at h
    all_goals cases h
  · rename_i w' hw
    simp only [] at h
    split at h
    · cases h
      cases w' <;> simp_all [RegStep.left, WinStep.next]
    · cases h

/-- What a step inside a register access comes to. -/
theorem accessTurn_moved {q : Requester} {wr : Bool} {a w : Word} {st : RegStep} {more : RegStep → Phase}
    {failed : State → State} {value : Word → State → State} {s s' : State}
    (h : accessTurn q wr a w st more failed value s = .moved s') :
    s.busOwner = none ∧
      (s' = failed (regAccess q wr a w st s).2 ∨
        (∃ r, r.left < st.left ∧ s' = (regAccess q wr a w st s).2.goto q (more r)) ∨
        ∃ v, s' = value v (regAccess q wr a w st s).2) := by
  obtain ⟨hb, h⟩ := withBus_moved h
  refine ⟨hb, ?_⟩
  have hm := @regAccess_more q wr a w st
  split at h
  · rename_i t ht
    cases h
    exact .inl (by rw [ht])
  · rename_i r t ht
    cases h
    exact .inr (.inl ⟨r, hm (by rw [ht]), by rw [ht]⟩)
  · rename_i v t ht
    cases h
    exact .inr (.inr ⟨v, by rw [ht]⟩)

/-- What a single-byte transaction of an operation comes to. -/
theorem sbTurn_moved {r : SbReq} {failed : State → State} {ok : Byte → State → State} {s s' : State}
    (h : sbTurn r failed ok s = .moved s') :
    s.busOwner = none ∧ (s' = failed (s.sb r).2 ∨ ∃ d, s' = ok d (s.sb r).2) := by
  obtain ⟨hb, h⟩ := withBus_moved h
  refine ⟨hb, ?_⟩
  simp only [Turn.moved.injEq] at h
  split at h
  · exact .inr ⟨_, h.symm⟩
  · exact .inl h.symm

/-! ### The block command of a transfer (R188) -/

/-- The bytes a half's block command sends: the buffer's from the cursor on, for a write (R189). -/
def halfPayload (q : Requester) (h : Half) (s : State) : List Byte :=
  if (halfReq s.cfg (s.ctx q) s.h.blockSize h).wr then
    s.buf.readBytes ((s.ctx q).args.buf.base + (s.ctx q).cur) (halfReq s.cfg (s.ctx q) s.h.blockSize h).bytes
  else []

/-- The state after a half's block command: for a read the buffer holds, from the cursor on, what came back (R188). -/
def halfState (q : Requester) (h : Half) (s : State) : State :=
  let t := s.executeBlock (halfReq s.cfg (s.ctx q) s.h.blockSize h) (halfPayload q h s)
  t.2.setBuf
    (if (halfReq s.cfg (s.ctx q) s.h.blockSize h).wr then s.buf
     else s.buf.writeBytes ((s.ctx q).args.buf.base + (s.ctx q).cur) t.1.bytes)

/-- Whether a half's block command succeeds. -/
def halfOk (q : Requester) (h : Half) (s : State) : Bool :=
  (s.executeBlock (halfReq s.cfg (s.ctx q) s.h.blockSize h) (halfPayload q h s)).1.ok

theorem setBuf_self (t : State) (m : Memory) (h : t.buf = m) : t.setBuf m = t := by
  subst h; rfl

/-- A half's block command: the transfer goes on with its state, or the operation fails with it (R188, R190). -/
theorem halfCommand_eq (q : Requester) (h : Half) (s : State) :
    halfCommand q h s = withBusFor s (halfReq s.cfg (s.ctx q) s.h.blockSize h).count
      (.moved (if halfOk q h s then halfDone q h (halfReq s.cfg (s.ctx q) s.h.blockSize h).bytes (halfState q h s)
        else (halfState q h s).raiseTransport q)) := by
  unfold halfCommand halfOk halfState halfPayload
  dsimp only
  congr 1
  cases hw : (halfReq s.cfg (s.ctx q) s.h.blockSize h).wr
  · simp only [Bool.false_eq_true, if_false, executeBlock_buf]
  · simp only [if_true]
    rw [setBuf_self _ _ (executeBlock_buf _ _ _)]

theorem withBusFor_cases {s : State} {n : Nat} {t u : Turn} (h : withBusFor s n t = u) : u = t ∨ u = .held s := by
  unfold withBusFor withBus at h
  repeat' split at h
  all_goals simp [← h]

end Sys2Proof.Machine
end

