-- ==== Sys2Proof/Laws/Phases.lean ====
section
/-! SUPPORT. What no phase of any operation changes; the phases an operation has; how many it has left. -/

namespace Sys2Proof.Machine

/-! ### What no phase changes -/

/-- What no phase of an operation of `q` changes: the configuration, the delivery agent, the bus owner between transactions,
the waiters, the schedule, and every other requester's context. -/
structure Frame (q : Requester) (s t : State) : Prop where
  cfg : t.cfg = s.cfg
  attached : t.attached = s.attached
  waiters : t.waiters = s.waiters
  busOwner : t.busOwner = s.busOwner
  irq : t.irq = s.irq
  cur : t.cur = s.cur
  agenda : t.agenda = s.agenda
  others : ∀ r, r ≠ q → t.ctx r = s.ctx r

theorem Frame.refl (q : Requester) (s : State) : Frame q s s := ⟨rfl, rfl, rfl, rfl, rfl, rfl, rfl, fun _ _ => rfl⟩

theorem Frame.trans {q : Requester} {s t u : State} (h : Frame q s t) (g : Frame q t u) : Frame q s u :=
  ⟨g.cfg.trans h.cfg, g.attached.trans h.attached, g.waiters.trans h.waiters, g.busOwner.trans h.busOwner,
    g.irq.trans h.irq, g.cur.trans h.cur, g.agenda.trans h.agenda, fun r hr => (g.others r hr).trans (h.others r hr)⟩

/-- A framed update may be left out of the right side. -/
theorem Frame.iff_of {q : Requester} {s t u : State} (h : Frame q t u) : Frame q s u ↔ Frame q s t :=
  ⟨fun g => ⟨h.cfg ▸ g.cfg, h.attached ▸ g.attached, h.waiters ▸ g.waiters, h.busOwner ▸ g.busOwner, h.irq ▸ g.irq,
    h.cur ▸ g.cur, h.agenda ▸ g.agenda, fun r hr => (h.others r hr) ▸ g.others r hr⟩, fun g => g.trans h⟩

@[simp] theorem frame_refl (q : Requester) (s : State) : Frame q s s ↔ True := iff_true_intro (Frame.refl q s)
@[simp] theorem frame_setCtx (q : Requester) (s t : State) (c : Ctx) : Frame q s (t.setCtx q c) ↔ Frame q s t :=
  Frame.iff_of ⟨rfl, rfl, rfl, rfl, rfl, rfl, rfl, fun r hr => ctx_setCtx_ne t q r c hr⟩
@[simp] theorem frame_goto (q : Requester) (s t : State) (p : Phase) : Frame q s (t.goto q p) ↔ Frame q s t :=
  frame_setCtx q s t _
@[simp] theorem frame_setAcc (q : Requester) (s t : State) (v : Word) : Frame q s (t.setAcc q v) ↔ Frame q s t :=
  frame_setCtx q s t _
@[simp] theorem frame_load (q : Requester) (s t : State) (op : OpSel) (a : Args) :
    Frame q s (t.load q op a) ↔ Frame q s t := frame_setCtx q s t _
@[simp] theorem frame_setH (q : Requester) (s t : State) (h : Handle) : Frame q s (t.setH h) ↔ Frame q s t :=
  Frame.iff_of ⟨rfl, rfl, rfl, rfl, rfl, rfl, rfl, fun _ _ => rfl⟩
@[simp] theorem frame_setLock (q : Requester) (s t : State) (l : Lock) : Frame q s (t.setLock l) ↔ Frame q s t :=
  frame_setH q s t _
@[simp] theorem frame_setCb (q : Requester) (s t : State) (b : Bool) : Frame q s (t.setCb b) ↔ Frame q s t :=
  frame_setH q s t _
@[simp] theorem frame_addLog (q : Requester) (s t : State) (e : LogEvent) : Frame q s (t.addLog e) ↔ Frame q s t :=
  Frame.iff_of ⟨rfl, rfl, rfl, rfl, rfl, rfl, rfl, fun _ _ => rfl⟩
@[simp] theorem frame_emit (q : Requester) (s t : State) (o : Output) : Frame q s (t.emit o) ↔ Frame q s t :=
  Frame.iff_of ⟨rfl, rfl, rfl, rfl, rfl, rfl, rfl, fun _ _ => rfl⟩
@[simp] theorem frame_setBuf (q : Requester) (s t : State) (m : Memory) : Frame q s (t.setBuf m) ↔ Frame q s t :=
  Frame.iff_of ⟨rfl, rfl, rfl, rfl, rfl, rfl, rfl, fun _ _ => rfl⟩
@[simp] theorem frame_dropDraw (q : Requester) (s t : State) : Frame q s t.dropDraw ↔ Frame q s t :=
  Frame.iff_of ⟨rfl, rfl, rfl, rfl, rfl, rfl, rfl, fun _ _ => rfl⟩
@[simp] theorem frame_sb (q : Requester) (s t : State) (r : SbReq) : Frame q s (t.sb r).2 ↔ Frame q s t :=
  Frame.iff_of ⟨rfl, rfl, rfl, rfl, rfl, rfl, rfl, fun _ _ => rfl⟩
@[simp] theorem frame_executeBlock (q : Requester) (s t : State) (r : BlkReq) (p : List Byte) :
    Frame q s (t.executeBlock r p).2 ↔ Frame q s t := by
  apply Frame.iff_of
  constructor <;> simp
@[simp] theorem frame_regAccess (q : Requester) (s t : State) (wr : Bool) (a w : Word) (st : RegStep) :
    Frame q s (regAccess q wr a w st t).2 ↔ Frame q s t := by
  apply Frame.iff_of
  constructor <;> simp +contextual [regAccess_ctx_ne]
@[simp] theorem frame_finish (q : Requester) (s t : State) (a : Answer) : Frame q s (t.finish q a) ↔ Frame q s t :=
  Frame.iff_of ⟨rfl, rfl, rfl, rfl, rfl, rfl, rfl, fun r hr => ctx_finish_ne t q r a hr⟩
@[simp] theorem frame_raiseTransport (q : Requester) (s t : State) : Frame q s (t.raiseTransport q) ↔ Frame q s t :=
  Frame.iff_of ⟨rfl, rfl, rfl, rfl, rfl, rfl, rfl, fun r hr => ctx_finish_ne _ q r _ hr⟩
@[simp] theorem frame_failInit (q : Requester) (s t : State) (c : Code) : Frame q s (t.failInit q c) ↔ Frame q s t :=
  Frame.iff_of ⟨rfl, rfl, rfl, rfl, rfl, rfl, rfl, fun r hr => ctx_finish_ne _ q r _ hr⟩
@[simp] theorem frame_failInitTransport (q : Requester) (s t : State) :
    Frame q s (t.failInitTransport q) ↔ Frame q s t :=
  Frame.iff_of ⟨rfl, rfl, rfl, rfl, rfl, rfl, rfl, fun r hr => ctx_finish_ne _ q r _ hr⟩

theorem frame_afterHalfA (q : Requester) (s t : State) : Frame q s (afterHalfA q t) ↔ Frame q s t := by
  unfold afterHalfA; split <;> simp
theorem frame_halfDone (q : Requester) (h : Half) (n : Nat) (s t : State) :
    Frame q s (halfDone q h n t) ↔ Frame q s t := by
  cases h <;> simp [halfDone, frame_afterHalfA]
theorem frame_halfState (q : Requester) (h : Half) (s t : State) : Frame q s (halfState q h t) ↔ Frame q s t := by
  simp [halfState]
theorem frame_afterAckB (q : Requester) (s t : State) : Frame q s (afterAckB q t) ↔ Frame q s t := by
  unfold afterAckB; split <;> simp
theorem frame_statusRegDone (q : Requester) (d : Byte) (s t : State) :
    Frame q s (statusRegDone q d t) ↔ Frame q s t := by
  unfold statusRegDone; dsimp only; split <;> simp
theorem frame_syncDone (q : Requester) (s t : State) : Frame q s (syncDone q t) ↔ Frame q s t := by
  unfold syncDone; split <;> simp
theorem frame_beginRmw (q : Requester) (g : RmwReg) (s t : State) : Frame q s (beginRmw q g t) ↔ Frame q s t :=
  frame_goto q s t _
theorem frame_afterRmw (q : Requester) (g : RmwReg) (s t : State) : Frame q s (afterRmw q g t) ↔ Frame q s t := by
  cases g <;> simp only [afterRmw] <;> (try split) <;> simp [frame_beginRmw, frame_syncDone]
theorem frame_syncBody (q : Requester) (n : Nat) (s t : State) : Frame q s (syncBody q n t) ↔ Frame q s t := by
  unfold syncBody; dsimp only
  repeat' split
  all_goals simp [frame_beginRmw, frame_syncDone]
theorem frame_afterNeg (q : Requester) (w : NegWrite) (s t : State) : Frame q s (afterNeg q w t) ↔ Frame q s t := by
  cases w <;> simp [afterNeg]
theorem frame_commitInit (q : Requester) (v : Variant) (s t : State) :
    Frame q s (commitInit q v t) ↔ Frame q s t := by
  unfold commitInit; dsimp only; split <;> simp

/-- A phase that moves keeps the frame. -/
theorem phaseTurn_frame {q : Requester} {s s' : State} (h : phaseTurn q s = .moved s') : Frame q s s' := by
  unfold phaseTurn at h
  split at h
  case h_1 => cases h
  case h_2 =>
    unfold startTurn at h
    split at h
    case h_1 | h_16 =>
      simp only [startInit, startResume, beginNegotiation] at h
      split at h <;> cases h <;> simp
    case h_2 => simp only [startDeinit] at h; split at h <;> cases h <;> simp
    case h_3 | h_4 => cases h; simp
    case h_5 | h_6 =>
      simp only [startTransfer] at h
      repeat' split at h
      all_goals cases h
      all_goals simp [frame_afterHalfA]
    case h_7 => simp only [startInterruptStatus] at h; split at h <;> cases h <;> simp
    case h_8 =>
      simp only [startClear] at h
      repeat' split at h
      all_goals cases h
      all_goals simp [frame_afterAckB]
    case h_9 => cases h; simp
    case h_10 => cases h; simp [frame_syncBody]
    case h_11 => cases h; simp
    case h_12 => simp only [startDisable] at h; split at h <;> cases h; simp
    case h_13 =>
      simp only [resetTurn] at h
      split at h
      · cases h; simp
      · obtain ⟨-, rfl | ⟨d, rfl⟩⟩ := sbTurn_moved h <;> simp
    case h_14 => cases h; simp
    case h_15 => simp only [startSuspend] at h; split at h <;> cases h <;> simp
  case h_3 => obtain ⟨-, rfl | ⟨r, -, rfl⟩ | ⟨v, rfl⟩⟩ := accessTurn_moved h <;> simp
  case h_4 =>
    unfold blkTurn at h
    split at h
    · rw [halfCommand_eq] at h
      obtain h | h := withBusFor_cases h <;> cases h
      split <;> simp [frame_halfDone, frame_halfState]
    · obtain ⟨-, h⟩ := withBus_moved h
      simp only [Turn.moved.injEq] at h
      subst h
      split <;> simp [winWrite]
  case h_5 | h_6 | h_8 | h_10 =>
    obtain ⟨-, rfl | ⟨d, rfl⟩⟩ := sbTurn_moved h <;> (try split) <;> simp
  case h_7 =>
    simp only [flagsTurn] at h
    repeat' split at h
    · obtain ⟨-, rfl | ⟨d, rfl⟩⟩ := sbTurn_moved h <;> simp
    · cases h; simp
    · obtain ⟨-, rfl | ⟨d, rfl⟩⟩ := sbTurn_moved h <;> simp [frame_statusRegDone]
  case h_9 => obtain ⟨-, rfl | ⟨d, rfl⟩⟩ := sbTurn_moved h <;> simp [frame_afterAckB]
  case h_11 => obtain ⟨-, rfl | ⟨d, rfl⟩⟩ := sbTurn_moved h <;> simp [frame_afterNeg]
  case h_12 =>
    obtain ⟨-, rfl | ⟨d, rfl⟩⟩ := sbTurn_moved h
    · simp
    · dsimp only
      repeat' split
      all_goals simp
  case h_13 =>
    obtain ⟨-, rfl | ⟨r, -, rfl⟩ | ⟨v, rfl⟩⟩ := accessTurn_moved h
    · simp
    · simp
    · split <;> simp [frame_commitInit]
  case h_14 => simp only [identSkipTurn] at h; split at h <;> cases h <;> simp [frame_commitInit]
  case h_15 =>
    simp only [resetTurn] at h
    split at h
    · cases h; simp
    · obtain ⟨-, rfl | ⟨d, rfl⟩⟩ := sbTurn_moved h <;> simp
  case h_16 => cases h; simp [frame_syncBody]
  case h_17 =>
    unfold rmwTurn at h
    dsimp only at h
    split at h <;> obtain ⟨-, rfl | ⟨r, -, rfl⟩ | ⟨v, rfl⟩⟩ := accessTurn_moved h <;> simp [frame_afterRmw]
  case h_18 =>
    obtain ⟨-, h⟩ := withBus_moved h
    simp only [Turn.moved.injEq] at h
    subst h
    split <;> simp
  case h_19 =>
    obtain ⟨-, h⟩ := withBus_moved h
    simp only [Turn.moved.injEq] at h
    subst h
    split <;> simp
  case h_20 => cases h; split <;> simp

theorem withBus_held {s s' : State} {t : Turn} (h : withBus s t = .held s') : s' = s ∨ t = .held s' := by
  unfold withBus at h
  split at h
  · exact .inr h
  · cases h; exact .inl rfl

theorem sbTurn_held {r : SbReq} {failed : State → State} {ok : Byte → State → State} {s s' : State}
    (h : sbTurn r failed ok s = .held s') : s' = s := by
  obtain h | h := withBus_held h
  · exact h
  · cases h

theorem accessTurn_held {q : Requester} {wr : Bool} {a w : Word} {st : RegStep} {more : RegStep → Phase}
    {failed : State → State} {value : Word → State → State} {s s' : State}
    (h : accessTurn q wr a w st more failed value s = .held s') : s' = s := by
  obtain h | h := withBus_held h
  · exact h
  · split at h <;> cases h

/-- A requester that is held is left as it is, but for a `disableInterrupts` that joins the waiters (R29, R285). -/
theorem phaseTurn_held {q : Requester} {s s' : State} (h : phaseTurn q s = .held s') :
    s' = s ∨ ((s.ctx q).phase = .start ∧ (s.ctx q).op = .disableInterrupts ∧ s' = joinWaiters q s) := by
  unfold phaseTurn at h
  split at h
  case h_1 => cases h; exact .inl rfl
  case h_2 =>
    unfold startTurn at h
    split at h
    case h_12 =>
      simp only [startDisable] at h
      split at h <;> cases h
      exact .inr ⟨‹_›, ‹_›, rfl⟩
    case h_13 =>
      simp only [resetTurn] at h
      split at h
      · cases h
      · exact .inl (sbTurn_held h)
    all_goals
      simp only [startInit, startResume, beginNegotiation, startDeinit, startReg, startTransfer, startInterruptStatus,
        startClear, startPendingSize, startSync, startEnable, startIsInitialized, startSuspend] at h
      repeat' split at h
      all_goals cases h
  case h_3 => exact .inl (accessTurn_held h)
  case h_4 =>
    unfold blkTurn at h
    split at h
    · rw [halfCommand_eq] at h
      obtain h | h := withBusFor_cases h <;> cases h
      exact .inl rfl
    · obtain h | h := withBus_held h
      · exact .inl h
      · cases h
  case h_7 =>
    simp only [flagsTurn] at h
    repeat' split at h
    · exact .inl (sbTurn_held h)
    · cases h
    · exact .inl (sbTurn_held h)
  case h_13 => exact .inl (accessTurn_held h)
  case h_14 => simp only [identSkipTurn] at h; split at h <;> cases h
  case h_15 =>
    simp only [resetTurn] at h
    split at h
    · cases h
    · exact .inl (sbTurn_held h)
  case h_16 => cases h
  case h_17 =>
    unfold rmwTurn at h
    dsimp only at h
    split at h <;> exact .inl (accessTurn_held h)
  case h_18 | h_19 =>
    obtain h | h := withBus_held h
    · exact .inl h
    · cases h
  case h_20 => cases h
  all_goals exact .inl (sbTurn_held h)

/-- The waiters after joining: the requester among them, the others as before (R285). -/
theorem joinWaiters_mem (q r : Requester) (s : State) :
    r ∈ (joinWaiters q s).waiters ↔ r = q ∨ r ∈ s.waiters := by
  unfold joinWaiters
  split
  · rename_i h
    have hq : q ∈ s.waiters := by simpa using h
    simp only [setWaiters_waiters]
    exact ⟨.inr, fun h => h.elim (fun e => e ▸ hq) id⟩
  · simp [or_comm]

theorem sbTurn_refused {r : SbReq} {failed : State → State} {ok : Byte → State → State} {s : State} {e : Refusal} :
    sbTurn r failed ok s ≠ .refused e := by
  unfold sbTurn withBus
  split <;> nofun

theorem accessTurn_refused {q : Requester} {wr : Bool} {a w : Word} {st : RegStep} {more : RegStep → Phase}
    {failed : State → State} {value : Word → State → State} {s : State} {e : Refusal} :
    accessTurn q wr a w st more failed value s ≠ .refused e := by
  unfold accessTurn withBus
  repeat' split
  all_goals nofun

/-- A refused turn is the first phase of a transfer without a buffer for it (R192). -/
theorem phaseTurn_refused {q : Requester} {s : State} {e : Refusal} (h : phaseTurn q s = .refused e) :
    e = .bufferTooShort ∧ (s.ctx q).phase = .start ∧ ((s.ctx q).op = .blockRead ∨ (s.ctx q).op = .blockWrite) ∧
      ∃ bs, s.h.blockSize = some bs ∧ (s.ctx q).args.buf.len < roundUp4 (s.ctx q).args.size := by
  unfold phaseTurn at h
  split at h
  case h_2 =>
    unfold startTurn at h
    split at h
    case h_5 | h_6 =>
      simp only [startTransfer] at h
      repeat' split at h
      all_goals cases h
      exact ⟨rfl, by assumption, by simp [*], _, by assumption, by assumption⟩
    case h_13 =>
      simp only [resetTurn] at h
      split at h
      · cases h
      · exact absurd h sbTurn_refused
    all_goals
      simp only [startInit, startResume, beginNegotiation, startDeinit, startReg, startInterruptStatus,
        startClear, startPendingSize, startSync, startEnable, startDisable, startIsInitialized, startSuspend] at h
      repeat' split at h
      all_goals cases h
  case h_3 | h_13 => exact absurd h accessTurn_refused
  case h_4 =>
    unfold blkTurn at h
    split at h
    · rw [halfCommand_eq] at h
      obtain h | h := withBusFor_cases h <;> cases h
    · unfold withBus at h
      dsimp only at h
      split at h <;> cases h
  case h_7 =>
    simp only [flagsTurn] at h
    repeat' split at h
    · exact absurd h sbTurn_refused
    · cases h
    · exact absurd h sbTurn_refused
  case h_14 => simp only [identSkipTurn] at h; split at h <;> cases h
  case h_15 =>
    simp only [resetTurn] at h
    split at h
    · cases h
    · exact absurd h sbTurn_refused
  case h_17 =>
    unfold rmwTurn at h
    dsimp only at h
    split at h <;> exact absurd h accessTurn_refused
  case h_18 =>
    unfold registerTurn withBus at h
    dsimp only at h
    split at h <;> cases h
  case h_19 =>
    unfold unregisterTurn withBus at h
    dsimp only at h
    split at h <;> cases h
  case h_1 | h_16 | h_20 => cases h
  all_goals exact absurd h sbTurn_refused

/-! ### The phases of an operation (R28) -/

/-- The most phases an operation can still take, its present one counted. -/
def Ctx.left (c : Ctx) : Nat :=
  match c.phase with
  | .idle => 0
  | .start => 48
  | .reg r => r.left
  | .blk .a w => 4 + (RegStep.win w).left
  | .blk .b w => (RegStep.win w).left
  | .count0 => 3
  | .count1 => 2
  | .flags => 1
  | .clrA0 => 1
  | .clrB0 => 2
  | .clrB1 => 1
  | .neg .winEn => 47
  | .neg .f0Lo => 46
  | .neg .f0Hi => 45
  | .neg .ioEn => 44
  | .poll => 41 + (2 - c.poll)
  | .neg .f1Lo => 40
  | .neg .f1Hi => 39
  | .neg .intEn => 38
  | .ident r => 33 + r.left
  | .identSkip => 34
  | .resetWrite => 1
  | .syncStart => 33
  | .rmw .misc .read r => 28 + r.left
  | .rmw .misc .write r => 24 + r.left
  | .rmw .pinmux .read r => 20 + r.left
  | .rmw .pinmux .write r => 16 + r.left
  | .rmw .en1 .read r => 12 + r.left
  | .rmw .en1 .write r => 8 + r.left
  | .rmw .en2 .read r => 4 + r.left
  | .rmw .en2 .write r => r.left
  | .registerCb => 1
  | .unregisterCb => 2
  | .lockFree => 1

/-- What a context keeps from one phase of an operation to the next: the operation, and the operands but for the two that
`resume` sets itself. -/
structure Ctx.Goes (c d : Ctx) : Prop where
  op : d.op = c.op
  phase : opHasPhase c.op d.phase = true
  left : d.left < c.left
  addr : d.args.addr = c.args.addr
  word : d.args.word = c.args.word
  buf : d.args.buf = c.args.buf
  size : d.args.size = c.args.size
  mask : d.args.mask = c.args.mask

/-- A requester's operation has ended or has fewer phases left. -/
def Went (q : Requester) (s s' : State) : Prop := s'.idle q = true ∨ (s.ctx q).Goes (s'.ctx q)

theorem RegStep.left_pos (r : RegStep) : 0 < r.left := by
  cases r with
  | direct => decide
  | win w => cases w <;> decide

theorem regFirst_left (c : Cfg) (a : Word) : (regFirst c a).left ≤ 4 := by
  unfold regFirst; split <;> decide

theorem halfFirst_left (a : Word) : (RegStep.win (halfFirst a)).left ≤ 4 := by
  unfold halfFirst; split <;> decide

theorem went_finish (q : Requester) (s t : State) (a : Answer) : Went q s (t.finish q a) := .inl (idle_finish t q a)

theorem went_raiseTransport (q : Requester) (s t : State) : Went q s (t.raiseTransport q) := .inl (idle_finish _ q _)

theorem went_failInit (q : Requester) (s t : State) (c : Code) : Went q s (t.failInit q c) := .inl (idle_finish _ q _)

theorem went_failInitTransport (q : Requester) (s t : State) : Went q s (t.failInitTransport q) :=
  .inl (idle_finish _ q _)

/-- Two contexts hold the same operation and the same operands, but for the two that `resume` sets itself. -/
def Ctx.same (c d : Ctx) : Prop :=
  d.op = c.op ∧ d.args.addr = c.args.addr ∧ d.args.word = c.args.word ∧ d.args.buf = c.args.buf ∧
    d.args.size = c.args.size ∧ d.args.mask = c.args.mask

/-- An operation that goes on: its context at a later phase of the same operation. -/
theorem went_of {q : Requester} {s t : State} (h : (s.ctx q).same (t.ctx q))
    (hp : opHasPhase (s.ctx q).op (t.ctx q).phase = true) (hl : (t.ctx q).left < (s.ctx q).left) : Went q s t :=
  .inr ⟨h.1, hp, hl, h.2.1, h.2.2.1, h.2.2.2.1, h.2.2.2.2.1, h.2.2.2.2.2⟩

/-- A register access keeps everything of a context but the temporary. -/
theorem regAccess_ctx_fields (q : Requester) (wr : Bool) (a w : Word) (st : RegStep) (s : State) :
    ((regAccess q wr a w st s).2.ctx q).op = (s.ctx q).op ∧ ((regAccess q wr a w st s).2.ctx q).phase = (s.ctx q).phase ∧
    ((regAccess q wr a w st s).2.ctx q).args = (s.ctx q).args ∧
    ((regAccess q wr a w st s).2.ctx q).poll = (s.ctx q).poll := by
  obtain ⟨tmp, h⟩ := regAccess_ctx_same q wr a w st s
  simp [h]

theorem went_goto {q : Requester} {s t : State} {p : Phase} (h : (s.ctx q).same (t.ctx q))
    (hp : opHasPhase (s.ctx q).op p = true) (hl : ({ t.ctx q with phase := p } : Ctx).left < (s.ctx q).left) :
    Went q s (t.goto q p) :=
  went_of (by simpa [Ctx.same] using h) (by simpa using hp) (by simpa using hl)

theorem same_regAccess (q : Requester) (wr : Bool) (a w : Word) (st : RegStep) (s : State) :
    (s.ctx q).same ((regAccess q wr a w st s).2.ctx q) := by
  obtain ⟨h1, -, h3, -⟩ := regAccess_ctx_fields q wr a w st s
  simp [Ctx.same, h1, h3]

/-- The most phases left when the update of a register begins. -/
def RmwReg.left : RmwReg → Nat
  | .misc => 32
  | .pinmux => 24
  | .en1 => 16
  | .en2 => 8

theorem went_beginRmw {q : Requester} {s t : State} {g : RmwReg} (h : (s.ctx q).same (t.ctx q))
    (ho : (s.ctx q).op = .syncInterrupts ∨ (s.ctx q).op = .resume) (hl : g.left < (s.ctx q).left) :
    Went q s (beginRmw q g t) := by
  refine went_goto h (by rcases ho with ho | ho <;> rw [ho] <;> rfl) (lt_of_le_of_lt ?_ hl)
  have := regFirst_left t.cfg (rmwAddr t.cfg g)
  cases g <;> simp only [Ctx.left, RmwReg.left] <;> omega

theorem went_syncDone (q : Requester) (s t : State) : Went q s (syncDone q t) := by
  unfold syncDone
  split
  · exact went_finish _ _ _ _
  · exact went_finish _ _ _ _

theorem went_syncBody {q : Requester} {s : State} (n : Nat)
    (ho : (s.ctx q).op = .syncInterrupts ∨ (s.ctx q).op = .resume) (hl : 32 < (s.ctx q).left) :
    Went q s (syncBody q n s) := by
  unfold syncBody
  dsimp only
  repeat' split
  · exact went_finish _ _ _ _
  · exact went_finish _ _ _ _
  · exact went_beginRmw (by simp [Ctx.same]) ho hl
  · exact went_beginRmw (by simp [Ctx.same]) ho (lt_trans (by decide) hl)
  · exact went_syncDone _ _ _

theorem went_afterHalfA {q : Requester} {s t : State} (h : (s.ctx q).same (t.ctx q))
    (ho : ∀ y, opHasPhase (s.ctx q).op (.blk .b y) = true) (hl : 4 < (s.ctx q).left) : Went q s (afterHalfA q t) := by
  unfold afterHalfA
  split
  · exact went_finish _ _ _ _
  · exact went_goto h (ho _) (lt_of_le_of_lt (halfFirst_left (t.ctx q).args.addr) hl)

theorem went_halfDone {q : Requester} {s t : State} {f : Half} {n : Nat} (h : (s.ctx q).same (t.ctx q))
    (ho : ∀ y, opHasPhase (s.ctx q).op (.blk f y) = true)
    (hl : (match f with | .a => 4 | .b => 0) < (s.ctx q).left) : Went q s (halfDone q f n t) := by
  cases f
  · refine went_afterHalfA (by simpa [Ctx.same] using h) ?_ hl
    have := ho .w0
    revert this
    cases (s.ctx q).op <;> simp [opHasPhase]
  · exact went_finish _ _ _ _

theorem went_commitInit {q : Requester} {s t : State} {v : Variant} (h : (s.ctx q).same (t.ctx q))
    (hl : 33 < (s.ctx q).left) : Went q s (commitInit q v t) := by
  unfold commitInit
  dsimp only
  split
  · rename_i ho
    exact went_goto (by simpa [Ctx.same] using h) (by rw [← h.1, ho]; rfl) (by simpa [Ctx.left] using hl)
  · exact went_finish _ _ _ _

theorem went_afterRmw {q : Requester} {s t : State} {g : RmwReg} (h : (s.ctx q).same (t.ctx q))
    (ho : (s.ctx q).op = .syncInterrupts ∨ (s.ctx q).op = .resume)
    (hl : (match g with | .misc => 24 | .pinmux => 16 | .en1 => 8 | .en2 => 0) < (s.ctx q).left) :
    Went q s (afterRmw q g t) := by
  cases g <;> simp only [afterRmw]
  · split
    · exact went_beginRmw h ho hl
    · exact went_syncDone _ _ _
  · exact went_beginRmw (by simpa [Ctx.same] using h) ho hl
  · split
    · exact went_syncDone _ _ _
    · exact went_beginRmw (by simpa [Ctx.same] using h) ho hl
  · exact went_syncDone _ _ _

theorem went_blkTurn {q : Requester} {s s' : State} {hf : Half} {w : WinStep} (h : blkTurn q hf w s = .moved s')
    (hs : (s.ctx q).phase = .blk hf w) (hp : opHasPhase (s.ctx q).op (s.ctx q).phase = true) : Went q s s' := by
  rw [hs] at hp
  have hop : ∀ x y, opHasPhase (s.ctx q).op (.blk x y) = true := by
    revert hp
    cases (s.ctx q).op <;> simp [opHasPhase]
  unfold blkTurn at h
  split at h
  · rw [halfCommand_eq] at h
    obtain h | h := withBusFor_cases h <;> cases h
    split
    · exact went_halfDone (by simp [halfState, Ctx.same]) (hop _) (by cases hf <;> simp [Ctx.left, hs, RegStep.left])
    · exact went_raiseTransport _ _ _
  · rename_i w' hw
    obtain ⟨-, h⟩ := withBus_moved h
    simp only [Turn.moved.injEq] at h
    subst h
    split
    · refine went_goto (by simp [Ctx.same, winWrite]) (hop _ _) ?_
      cases hf <;> cases w <;> simp_all [Ctx.left, RegStep.left, WinStep.next]
    · exact went_raiseTransport _ _ _

/-- A phase that moves ends the operation or goes on to a phase of the same operation, with fewer left (R28). -/
theorem phaseTurn_went {q : Requester} {s s' : State} (h : phaseTurn q s = .moved s')
    (hp : opHasPhase (s.ctx q).op (s.ctx q).phase = true) : Went q s s' := by
  unfold phaseTurn at h
  split at h
  case h_1 => cases h
  case h_2 hs =>
    have hl : (s.ctx q).left = 48 := by simp [Ctx.left, hs]
    unfold startTurn at h
    split at h
    case h_1 ho | h_16 ho =>
      simp only [startInit, startResume, beginNegotiation] at h
      split at h <;> cases h
      · exact went_finish _ _ _ _
      · exact went_of (by simp [Ctx.same]) (by simp [ho, opHasPhase]) (by simp [Ctx.left, hs])
    case h_2 => simp only [startDeinit] at h; split at h <;> cases h <;> exact went_finish _ _ _ _
    case h_3 ho | h_4 ho =>
      cases h
      have := regFirst_left s.cfg (s.ctx q).args.addr
      exact went_goto (by simp [Ctx.same]) (by simp [ho, opHasPhase]) (by simp only [hl]; simp only [Ctx.left]; omega)
    case h_5 ho | h_6 ho =>
      have hf := halfFirst_left (s.ctx q).args.addr
      simp only [startTransfer] at h
      repeat' split at h
      · cases h; exact went_raiseTransport _ _ _
      · cases h
      · cases h
        exact went_afterHalfA (by simp [Ctx.same]) (by simp [ho, opHasPhase]) (by omega)
      · cases h
        exact went_goto (by simp [Ctx.same]) (by simp [ho, opHasPhase])
          (by simp only [hl]; simp only [Ctx.left]; omega)
    case h_7 ho =>
      simp only [startInterruptStatus] at h
      split at h <;> cases h
      · exact went_finish _ _ _ _
      · exact went_goto (by simp [Ctx.same]) (by simp [ho, opHasPhase]) (by simp [Ctx.left, hs])
    case h_8 ho =>
      simp only [startClear] at h
      repeat' split at h
      all_goals cases h
      · exact went_finish _ _ _ _
      · exact went_finish _ _ _ _
      · exact went_goto (by simp [Ctx.same]) (by simp [ho, opHasPhase]) (by simp [Ctx.left, hs])
      · exact went_goto (by simp [Ctx.same]) (by simp [ho, opHasPhase]) (by simp [Ctx.left, hs])
      · unfold afterAckB
        split
        · exact went_finish _ _ _ _
        · exact went_goto (by simp [Ctx.same]) (by simp [ho, opHasPhase]) (by simp [Ctx.left, hs])
    case h_9 ho =>
      cases h
      exact went_goto (by simp [Ctx.same]) (by simp [ho, opHasPhase]) (by simp [Ctx.left, hs])
    case h_10 ho => cases h; exact went_syncBody _ (.inl ho) (by omega)
    case h_11 ho =>
      cases h
      exact went_goto (by simp [Ctx.same]) (by simp [ho, opHasPhase]) (by simp [Ctx.left, hs])
    case h_12 ho =>
      simp only [startDisable] at h
      split at h <;> cases h
      exact went_goto (by simp [Ctx.same]) (by simp [ho, opHasPhase]) (by simp [Ctx.left, hs])
    case h_13 =>
      simp only [resetTurn] at h
      split at h
      · cases h; exact went_finish _ _ _ _
      · obtain ⟨-, rfl | ⟨d, rfl⟩⟩ := sbTurn_moved h
        · exact went_raiseTransport _ _ _
        · exact went_finish _ _ _ _
    case h_14 => cases h; exact went_finish _ _ _ _
    case h_15 ho =>
      simp only [startSuspend] at h
      split at h <;> cases h
      · exact went_finish _ _ _ _
      · exact went_goto (by simp [Ctx.same]) (by simp [ho, opHasPhase]) (by simp [Ctx.left, hs])
  case h_3 r hs =>
    obtain ⟨-, rfl | ⟨r', hr, rfl⟩ | ⟨v, rfl⟩⟩ := accessTurn_moved h
    · exact went_raiseTransport _ _ _
    · refine went_goto (same_regAccess _ _ _ _ _ _) ?_ (by simp only [Ctx.left, hs]; omega)
      rw [hs] at hp
      revert hp
      cases (s.ctx q).op <;> simp [opHasPhase]
    · exact went_finish _ _ _ _
  case h_4 hf w hs => exact went_blkTurn h hs hp
  case h_5 hs =>
    obtain ⟨-, rfl | ⟨d, rfl⟩⟩ := sbTurn_moved h
    · exact went_raiseTransport _ _ _
    · refine went_goto (by simp [Ctx.same]) ?_ (by simp [Ctx.left, hs])
      rw [hs] at hp
      revert hp
      cases (s.ctx q).op <;> simp [opHasPhase]
  case h_6 hs =>
    obtain ⟨-, rfl | ⟨d, rfl⟩⟩ := sbTurn_moved h
    · exact went_raiseTransport _ _ _
    · dsimp only
      split
      · exact went_finish _ _ _ _
      · rename_i ho
        refine went_goto (by simp [Ctx.same]) ?_ (by simp [Ctx.left, hs])
        rw [hs] at hp
        revert hp ho
        simp only [sb_ctx]
        cases (s.ctx q).op <;> simp [opHasPhase]
  case h_7 =>
    simp only [flagsTurn] at h
    repeat' split at h
    · obtain ⟨-, rfl | ⟨d, rfl⟩⟩ := sbTurn_moved h
      · exact went_raiseTransport _ _ _
      · exact went_finish _ _ _ _
    · cases h; exact went_finish _ _ _ _
    · obtain ⟨-, rfl | ⟨d, rfl⟩⟩ := sbTurn_moved h
      · exact went_raiseTransport _ _ _
      · exact went_finish _ _ _ _
  case h_8 | h_10 =>
    obtain ⟨-, rfl | ⟨d, rfl⟩⟩ := sbTurn_moved h
    · exact went_raiseTransport _ _ _
    · exact went_finish _ _ _ _
  case h_9 hs =>
    obtain ⟨-, rfl | ⟨d, rfl⟩⟩ := sbTurn_moved h
    · exact went_raiseTransport _ _ _
    · unfold afterAckB
      split
      · exact went_finish _ _ _ _
      · refine went_goto (by simp [Ctx.same]) ?_ (by simp [Ctx.left, hs])
        rw [hs] at hp
        revert hp
        cases (s.ctx q).op <;> simp [opHasPhase]
  case h_11 w hs =>
    rw [hs] at hp
    have hop : opHasPhase (s.ctx q).op .poll = true ∧ opHasPhase (s.ctx q).op .identSkip = true ∧
        (∀ x, opHasPhase (s.ctx q).op (.neg x) = true) ∧ ∀ x, opHasPhase (s.ctx q).op (.ident x) = true := by
      revert hp
      cases (s.ctx q).op <;> simp [opHasPhase]
    obtain ⟨-, rfl | ⟨d, rfl⟩⟩ := sbTurn_moved h
    · exact went_failInitTransport _ _ _
    · cases w <;> simp only [afterNeg]
      case ioEn => exact went_goto (by simp [Ctx.same]) hop.1 (by simp [Ctx.left, hs])
      case intEn =>
        split
        · exact went_goto (by simp [Ctx.same]) hop.2.1 (by simp [Ctx.left, hs])
        · refine went_goto (by simp [Ctx.same]) (hop.2.2.2 _) ?_
          have := regFirst_left (s.sb (negReq s.cfg .intEn)).2.cfg (s.sb (negReq s.cfg .intEn)).2.cfg.chipIdReg
          simp only [Ctx.left, hs]
          omega
      all_goals exact went_goto (by simp [Ctx.same]) (hop.2.2.1 _) (by simp [Ctx.left, hs])
  case h_12 hs =>
    have hop : ∀ x, opHasPhase (s.ctx q).op (.neg x) = true := by
      rw [hs] at hp
      revert hp
      cases (s.ctx q).op <;> simp [opHasPhase]
    obtain ⟨-, rfl | ⟨d, rfl⟩⟩ := sbTurn_moved h
    · exact went_failInitTransport _ _ _
    · dsimp only
      repeat' split
      · exact went_failInit _ _ _ _
      · rename_i hpoll
        refine went_of (by simp [Ctx.same]) (by simpa [hs] using hp) ?_
        simp only [Config.readyPolls, sb_ctx] at hpoll
        simp [Ctx.left, hs]
        omega
      · exact went_goto (by simp [Ctx.same]) (hop _) (by simp [Ctx.left, hs]; omega)
  case h_13 r hs =>
    rw [hs] at hp
    have hop : (∀ x, opHasPhase (s.ctx q).op (.ident x) = true) := by
      revert hp
      cases (s.ctx q).op <;> simp [opHasPhase]
    obtain ⟨-, rfl | ⟨r', hr, rfl⟩ | ⟨v, rfl⟩⟩ := accessTurn_moved h
    · exact went_failInitTransport _ _ _
    · exact went_goto (same_regAccess _ _ _ _ _ _) (hop _) (by simp only [Ctx.left, hs]; omega)
    · split
      · exact went_failInit _ _ _ _
      · exact went_commitInit (same_regAccess _ _ _ _ _ _) (by have := r.left_pos; simp only [Ctx.left, hs]; omega)
  case h_14 hs =>
    simp only [identSkipTurn] at h
    split at h <;> cases h
    · exact went_failInit _ _ _ _
    · exact went_commitInit (by simp [Ctx.same]) (by simp [Ctx.left, hs])
  case h_15 =>
    simp only [resetTurn] at h
    split at h
    · cases h; exact went_finish _ _ _ _
    · obtain ⟨-, rfl | ⟨d, rfl⟩⟩ := sbTurn_moved h
      · exact went_raiseTransport _ _ _
      · exact went_finish _ _ _ _
  case h_16 hs =>
    cases h
    refine went_syncBody _ ?_ (by simp [Ctx.left, hs])
    rw [hs] at hp
    revert hp
    cases (s.ctx q).op <;> simp [opHasPhase]
  case h_17 g hf r hs =>
    rw [hs] at hp
    have ho : (s.ctx q).op = .syncInterrupts ∨ (s.ctx q).op = .resume := by
      revert hp
      cases (s.ctx q).op <;> simp [opHasPhase]
    have hop : ∀ x y z, opHasPhase (s.ctx q).op (.rmw x y z) = true := by
      rcases ho with ho | ho <;> simp [ho, opHasPhase]
    have hr0 := r.left_pos
    unfold rmwTurn at h
    dsimp only at h
    split at h
    · obtain ⟨-, rfl | ⟨r', hr, rfl⟩ | ⟨v, rfl⟩⟩ := accessTurn_moved h
      · exact went_raiseTransport _ _ _
      · exact went_goto (same_regAccess _ _ _ _ _ _) (hop _ _ _) (by cases g <;> simp only [Ctx.left, hs] <;> omega)
      · refine went_goto (by simpa [Ctx.same] using same_regAccess _ _ _ _ _ _) (hop _ _ _) ?_
        have := regFirst_left s.cfg (rmwAddr s.cfg g)
        cases g <;> simp only [Ctx.left, hs] <;> omega
    · obtain ⟨-, rfl | ⟨r', hr, rfl⟩ | ⟨v, rfl⟩⟩ := accessTurn_moved h
      · exact went_raiseTransport _ _ _
      · exact went_goto (same_regAccess _ _ _ _ _ _) (hop _ _ _) (by cases g <;> simp only [Ctx.left, hs] <;> omega)
      · exact went_afterRmw (same_regAccess _ _ _ _ _ _) ho (by cases g <;> simp only [Ctx.left, hs] <;> omega)
  case h_18 =>
    obtain ⟨-, h⟩ := withBus_moved h
    simp only [Turn.moved.injEq] at h
    subst h
    split
    · exact went_finish _ _ _ _
    · exact went_raiseTransport _ _ _
  case h_19 hs =>
    obtain ⟨-, h⟩ := withBus_moved h
    simp only [Turn.moved.injEq] at h
    subst h
    refine went_of (by split <;> simp [Ctx.same]) ?_ (by simp [Ctx.left, hs])
    rw [hs] at hp
    revert hp
    simp only [ctx_setCtx_same]
    cases (s.ctx q).op <;> simp [opHasPhase]
  case h_20 =>
    cases h
    split
    · exact went_finish _ _ _ _
    · exact went_raiseTransport _ _ _

end Sys2Proof.Machine
end

