-- ==== Sys2Proof/Laws/Agents.lean ====
section
/-! SUPPORT. What a step is, by the agenda's next entry; what each step of the delivery agent can do. -/

namespace Sys2Proof.Machine

/-! ### The step (R10, R14, R40) -/

/-- The agenda does not decide who can call. -/
@[simp] theorem canCall_agenda (s : State) (l : List Event) (r : Requester) :
    canCall { s with agenda := l } r = canCall s r := rfl

theorem nextTask_nil {s : State} (hc : s.cfg.wf = true) (h : s.agenda = []) : nextTask s = .done (.next s) := by
  unfold nextTask
  rw [hc, h]
  rfl

theorem nextTask_cons {s : State} {e : Event} {rest : List Event} (hc : s.cfg.wf = true) (h : s.agenda = e :: rest) :
    nextTask s = eventTask { s with agenda := rest } e := by
  unfold nextTask
  rw [hc, h]
  rfl

theorem nextTask_malformed {s : State} (hc : s.cfg.wf = false) : nextTask s = .done (.refused .malformedCfg) := by
  unfold nextTask
  rw [hc]
  cases s.agenda <;> rfl

theorem step_of_run {s t : State} {i : Instr} (h : nextTask s = .run i t) : step s = exec i t := by
  unfold step
  rw [h]

theorem step_of_done {s : State} {o : Host.Outcome State Fault Refusal} (h : nextTask s = .done o) : step s = o := by
  unfold step
  rw [h]

/-- With nothing on the agenda the block is idle. -/
theorem step_nil {s : State} (hc : s.cfg.wf = true) (h : s.agenda = []) : step s = .next s :=
  step_of_done (nextTask_nil hc h)

/-- An entry that runs an instruction. -/
theorem step_run {s : State} {e : Event} {rest : List Event} {i : Instr} {t : State} (hc : s.cfg.wf = true)
    (h : s.agenda = e :: rest) (ht : eventTask { s with agenda := rest } e = .run i t) : step s = exec i t :=
  step_of_run ((nextTask_cons hc h).trans ht)

/-- An entry that does not. -/
theorem step_done {s : State} {e : Event} {rest : List Event} {o : Host.Outcome State Fault Refusal}
    (hc : s.cfg.wf = true) (h : s.agenda = e :: rest) (ht : eventTask { s with agenda := rest } e = .done o) :
    step s = o :=
  step_of_done ((nextTask_cons hc h).trans ht)

/-- An ill-formed configuration is refused at every step (R10). -/
theorem step_malformed {s : State} (hc : s.cfg.wf = false) : step s = .refused .malformedCfg :=
  step_of_done (nextTask_malformed hc)

/-- A packet that decodes, from a caller that can call. -/
theorem eventTask_deliver_ok {s : State} {r : Requester} {p : Packet} {i : Instr} (ha : s.attached = true)
    (hc : canCall s r = true) (hd : decode r.port p = .ok i) : eventTask s (.deliver r p) = .run i (s.setCur r) := by
  simp [eventTask, ha, deliverTask, hc, hd]

/-- An operation on the wrong port (R111e). -/
theorem eventTask_deliver_wrongPort {s : State} {r : Requester} {p : Packet} (ha : s.attached = true)
    (hc : canCall s r = true) (hd : decode r.port p = .error .wrongPort) :
    eventTask s (.deliver r p) = .done (.next (refusePort s r)) := by
  simp [eventTask, ha, deliverTask, hc, hd]

/-- A bus command of an agent beside the operations (R350). -/
theorem eventTask_command_ok {s : State} {p : Packet} {i : Instr} (ha : s.attached = true)
    (hd : decode .bus p = .ok i) : eventTask s (.command p) = .run i s := by
  simp [eventTask, ha, commandTask, hd]

/-- A delivered entry while a handle exists. -/
theorem eventTask_advance {s : State} {r : Requester} (ha : s.attached = true) :
    eventTask s (.advance r) = .done (phaseTurn r s).outcome := by
  simp [eventTask, ha]

/-! ### Attach and detach (R39, R342) -/

/-- A requester that is inside an operation has a context of its own in the list. -/
theorem ctxGet_busy {l : List (Requester × Ctx)} {r : Requester} (h : (ctxGet l r).phase ≠ .idle) :
    ∃ c, (r, c) ∈ l := by
  induction l with
  | nil => simp [ctxGet, Ctx.fresh] at h
  | cons x t ih =>
    obtain ⟨q, c⟩ := x
    by_cases hq : q = r
    · exact ⟨c, by simp [hq]⟩
    · rw [ctxGet, if_neg hq] at h
      obtain ⟨d, hd⟩ := ih h
      exact ⟨d, by simp [hd]⟩

/-- When nothing is in progress (U28). -/
theorem quiet_iff (s : State) : quiet s = true ↔ (∀ r, s.idle r = true) ∧ s.waiters = [] ∧ s.irq = .idle := by
  have hall : s.ctxs.all (fun p => s.idle p.1) = true ↔ ∀ r, s.idle r = true := by
    rw [List.all_eq_true]
    refine ⟨fun h r => ?_, fun h x _ => h _⟩
    by_contra hr
    obtain ⟨c, hc⟩ := ctxGet_busy (l := s.ctxs) (r := r) (by simpa [State.idle, State.ctx] using hr)
    exact hr (h _ hc)
  simp only [quiet, Bool.and_eq_true, hall, List.isEmpty_iff, beq_iff_eq, and_assoc]

/-! ### The delivery agent (R274 to R281) -/

/-- What a moving step of the delivery agent is: one of its five steps, from its own position. -/
theorem irqTurn_moved {s s' : State} (h : irqTurn s = .moved s') :
    (s.irq = .idle ∧ s.h.cbRegistered = true ∧ s.dev.line = true ∧ s.busOwner = none ∧
      s' = (s.setBus (some .irq)).setIrq .entered) ∨
    (s.irq = .entered ∧ s.h.lock = .disabled ∧ s' = ((s.addLog .spuriousIrq).setBus none).setIrq .idle) ∨
    (s.irq = .entered ∧ s.h.lock ≠ .disabled ∧ s' = (s.setH { s.h with lock := .irqInFlight }).setIrq .gated) ∨
    (s.irq = .gated ∧ s.h.lock = .irqInFlight ∧ s' = ((s.setBus none).emit .dispatchCall).setIrq .dispatched) ∨
    (s.irq = .drained ∧ s.busOwner = none ∧ s' = (s.setBus (some .irq)).setIrq .reclaimed) ∨
    (s.irq = .reclaimed ∧
      s' = (((s.setH { s.h with lock := .free }).setWaiters []).setBus none).setIrq .idle) := by
  unfold irqTurn at h
  cases hi : s.irq <;> rw [hi] at h <;> simp only [] at h
  · unfold irqEnter at h
    split at h
    · rename_i hcb
      obtain ⟨hb, h⟩ := withBus_moved h
      cases h
      simp_all
    · cases h
  · unfold irqGate at h
    split at h <;> cases h <;> simp_all
  · unfold irqRelease at h
    split at h <;> cases h
    simp_all
  · cases h
  · obtain ⟨hb, h⟩ := withBus_moved h
    cases h
    simp_all
  · cases h
    simp

/-- A delivery agent that is held changes nothing. -/
theorem irqTurn_held {s s' : State} (h : irqTurn s = .held s') : s' = s := by
  unfold irqTurn irqEnter irqGate irqRelease irqReclaim irqExit withBus at h
  repeat' split at h
  all_goals cases h
  all_goals rfl

end Sys2Proof.Machine
end

