-- ==== Sys2Proof/Laws/Handle.lean ====
section
/-! SUPPORT. What one phase of an operation can write of the handle, and of the memories. -/

namespace Sys2Proof.Machine

/-! ### The handle (R20, R231, R271) -/

/-- The ways one phase of an operation can write the handle, each with the operations that do. -/
inductive HandleStep (c : Cfg) (op : OpSel) (h : Handle) : Handle → Prop where
  | same : HandleStep c op h h
  | negotiating (ho : op = .init ∨ op = .resume) (hl : h.life ≠ .negotiating) :
    HandleStep c op h { h with life := .negotiating, initialized := false }
  | failed (ho : op = .init ∨ op = .resume) : HandleStep c op h { h with life := .failed, initialized := false }
  | commit (ho : op = .init ∨ op = .resume) (v : Variant) (hv : v ≠ .unknown) :
    HandleStep c op h
      { h with variant := v, blockSize := some Config.blockSizeReq, initialized := true, life := .ready }
  | down (ho : op = .deinit ∨ op = .reset ∨ op = .suspend) : HandleStep c op h h.down
  | lines (ho : op = .syncInterrupts ∨ op = .resume) (n : Nat) (hn : n ≤ c.maxIntLines) :
    HandleStep c op h { h with nint := n }
  | lock (l : Lock) (ho : op = .enableInterrupts ∧ l = .free ∨ op = .disableInterrupts ∧ l ≠ .irqInFlight) :
    HandleStep c op h { h with lock := l }
  | callback (ho : op = .enableInterrupts ∨ op = .disableInterrupts) (b : Bool) :
    HandleStep c op h { h with cbRegistered := b }

theorem HandleStep.of_eq {c : Cfg} {op : OpSel} {h h' : Handle} (e : h' = h) : HandleStep c op h h' := e ▸ .same

@[simp] theorem afterHalfA_h (q : Requester) (t : State) : (afterHalfA q t).h = t.h := by
  unfold afterHalfA; split <;> rfl
@[simp] theorem halfState_h (q : Requester) (f : Half) (t : State) : (halfState q f t).h = t.h := by simp [halfState]
@[simp] theorem halfDone_h (q : Requester) (f : Half) (n : Nat) (t : State) : (halfDone q f n t).h = t.h := by
  cases f <;> simp [halfDone]
@[simp] theorem afterAckB_h (q : Requester) (t : State) : (afterAckB q t).h = t.h := by
  unfold afterAckB; split <;> rfl
@[simp] theorem statusRegDone_h (q : Requester) (d : Byte) (t : State) : (statusRegDone q d t).h = t.h := by
  unfold statusRegDone; dsimp only; split <;> rfl
@[simp] theorem syncDone_h (q : Requester) (t : State) : (syncDone q t).h = t.h := by
  unfold syncDone; split <;> rfl
@[simp] theorem beginRmw_h (q : Requester) (g : RmwReg) (t : State) : (beginRmw q g t).h = t.h := rfl
@[simp] theorem afterRmw_h (q : Requester) (g : RmwReg) (t : State) : (afterRmw q g t).h = t.h := by
  cases g <;> simp only [afterRmw] <;> (try split) <;> simp
@[simp] theorem afterNeg_h (q : Requester) (w : NegWrite) (t : State) : (afterNeg q w t).h = t.h := by
  cases w <;> rfl
theorem commitInit_h (q : Requester) (v : Variant) (t : State) : (commitInit q v t).h =
    { t.h with variant := v, blockSize := some Config.blockSizeReq, initialized := true, life := .ready } := by
  unfold commitInit; dsimp only; split <;> rfl

/-- The line count is written after its check (R250, R251). -/
theorem syncBody_handleStep {q : Requester} {n : Nat} {s : State} {op : OpSel}
    (ho : op = .syncInterrupts ∨ op = .resume) : HandleStep s.cfg op s.h (syncBody q n s).h := by
  unfold syncBody
  dsimp only
  repeat' split
  · exact .same
  · exact .same
  · exact .lines ho n (by omega)
  · exact .lines ho n (by omega)
  · simp only [syncDone_h]; exact .lines ho n (by omega)

/-- The reset write and what it clears (R247). -/
theorem resetTurn_handleStep {q : Requester} {s s' : State} {op : OpSel} (h : resetTurn q s = .moved s')
    (ho : op = .deinit ∨ op = .reset ∨ op = .suspend) : HandleStep s.cfg op s.h s'.h := by
  simp only [resetTurn] at h
  split at h
  · cases h; exact .same
  · obtain ⟨-, rfl | ⟨d, rfl⟩⟩ := sbTurn_moved h <;> exact .down ho

/-- What a phase of an operation writes of the handle. -/
theorem phaseTurn_handleStep {q : Requester} {s s' : State} (h : phaseTurn q s = .moved s')
    (hp : opHasPhase (s.ctx q).op (s.ctx q).phase = true) : HandleStep s.cfg (s.ctx q).op s.h s'.h := by
  unfold phaseTurn at h
  split at h
  case h_1 => cases h
  case h_2 hs =>
    unfold startTurn at h
    split at h
    case h_1 ho | h_16 ho =>
      simp only [startInit, startResume, beginNegotiation] at h
      split at h <;> cases h
      · exact .same
      · exact .negotiating (by simp [ho]) ‹_›
    case h_2 ho =>
      simp only [startDeinit] at h
      split at h <;> cases h
      · exact .same
      · exact .down (.inl ho)
    case h_3 | h_4 => cases h; exact .same
    case h_5 | h_6 =>
      simp only [startTransfer] at h
      repeat' split at h
      all_goals cases h
      all_goals exact .of_eq (by simp)
    case h_7 => simp only [startInterruptStatus] at h; split at h <;> cases h <;> exact .same
    case h_8 =>
      simp only [startClear] at h
      repeat' split at h
      all_goals cases h
      all_goals exact .of_eq (by simp)
    case h_9 => cases h; exact .same
    case h_10 ho => cases h; exact syncBody_handleStep (.inl ho)
    case h_11 ho => cases h; exact .lock .free (.inl ⟨ho, rfl⟩)
    case h_12 ho =>
      simp only [startDisable] at h
      split at h <;> cases h
      exact .lock .disabled (.inr ⟨ho, by simp⟩)
    case h_13 ho => exact resetTurn_handleStep h (.inr (.inl ho))
    case h_14 => cases h; exact .same
    case h_15 => simp only [startSuspend] at h; split at h <;> cases h <;> exact .same
  case h_3 => obtain ⟨-, rfl | ⟨r, -, rfl⟩ | ⟨v, rfl⟩⟩ := accessTurn_moved h <;> exact .of_eq (by simp)
  case h_4 =>
    unfold blkTurn at h
    split at h
    · rw [halfCommand_eq] at h
      obtain h | h := withBusFor_cases h <;> cases h
      split <;> exact .of_eq (by simp)
    · obtain ⟨-, h⟩ := withBus_moved h
      simp only [Turn.moved.injEq] at h
      subst h
      split <;> exact .of_eq (by simp [winWrite])
  case h_5 | h_6 | h_8 | h_10 =>
    obtain ⟨-, rfl | ⟨d, rfl⟩⟩ := sbTurn_moved h <;> (try split) <;> exact .of_eq (by simp)
  case h_7 =>
    simp only [flagsTurn] at h
    repeat' split at h
    · obtain ⟨-, rfl | ⟨d, rfl⟩⟩ := sbTurn_moved h <;> exact .of_eq (by simp)
    · cases h; exact .same
    · obtain ⟨-, rfl | ⟨d, rfl⟩⟩ := sbTurn_moved h <;> exact .of_eq (by simp)
  case h_9 => obtain ⟨-, rfl | ⟨d, rfl⟩⟩ := sbTurn_moved h <;> exact .of_eq (by simp)
  case h_11 hs =>
    have ho : (s.ctx q).op = .init ∨ (s.ctx q).op = .resume := by
      rw [hs] at hp; revert hp; cases (s.ctx q).op <;> simp [opHasPhase]
    obtain ⟨-, rfl | ⟨d, rfl⟩⟩ := sbTurn_moved h
    · exact .failed ho
    · exact .of_eq (by simp)
  case h_12 hs =>
    have ho : (s.ctx q).op = .init ∨ (s.ctx q).op = .resume := by
      rw [hs] at hp; revert hp; cases (s.ctx q).op <;> simp [opHasPhase]
    obtain ⟨-, rfl | ⟨d, rfl⟩⟩ := sbTurn_moved h
    · exact .failed ho
    · dsimp only
      repeat' split
      · exact .failed ho
      · exact .same
      · exact .same
  case h_13 hs =>
    have ho : (s.ctx q).op = .init ∨ (s.ctx q).op = .resume := by
      rw [hs] at hp; revert hp; cases (s.ctx q).op <;> simp [opHasPhase]
    obtain ⟨-, rfl | ⟨r, -, rfl⟩ | ⟨v, rfl⟩⟩ := accessTurn_moved h
    · simp only [failInitTransport_h, regAccess_h]; exact .failed ho
    · exact .of_eq (by simp)
    · split
      · simp only [failInit_h, addLog_h, regAccess_h]; exact .failed ho
      · rename_i hv
        simp only [commitInit_h, regAccess_h]
        exact .commit ho _ (by simpa using hv)
  case h_14 hs =>
    have ho : (s.ctx q).op = .init ∨ (s.ctx q).op = .resume := by
      rw [hs] at hp; revert hp; cases (s.ctx q).op <;> simp [opHasPhase]
    simp only [identSkipTurn] at h
    split at h <;> cases h
    · exact .failed ho
    · rename_i hv
      simp only [commitInit_h]
      exact .commit ho _ (by simpa using hv)
  case h_15 hs =>
    have ho : (s.ctx q).op = .suspend := by
      rw [hs] at hp; revert hp; cases (s.ctx q).op <;> simp [opHasPhase]
    exact resetTurn_handleStep h (.inr (.inr ho))
  case h_16 hs =>
    have ho : (s.ctx q).op = .resume := by
      rw [hs] at hp; revert hp; cases (s.ctx q).op <;> simp [opHasPhase]
    cases h; exact syncBody_handleStep (.inr ho)
  case h_17 =>
    unfold rmwTurn at h
    dsimp only at h
    split at h <;> obtain ⟨-, rfl | ⟨r, -, rfl⟩ | ⟨v, rfl⟩⟩ := accessTurn_moved h <;> exact .of_eq (by simp)
  case h_18 hs =>
    have ho : (s.ctx q).op = .enableInterrupts := by
      rw [hs] at hp; revert hp; cases (s.ctx q).op <;> simp [opHasPhase]
    obtain ⟨-, h⟩ := withBus_moved h
    simp only [Turn.moved.injEq] at h
    subst h
    split
    · exact .callback (.inl ho) true
    · exact .same
  case h_19 hs =>
    have ho : (s.ctx q).op = .disableInterrupts := by
      rw [hs] at hp; revert hp; cases (s.ctx q).op <;> simp [opHasPhase]
    obtain ⟨-, h⟩ := withBus_moved h
    simp only [Turn.moved.injEq] at h
    subst h
    simp only [setCtx_h]
    split
    · exact .callback (.inr ho) false
    · exact .same
  case h_20 hs =>
    have ho : (s.ctx q).op = .disableInterrupts := by
      rw [hs] at hp; revert hp; cases (s.ctx q).op <;> simp [opHasPhase]
    cases h
    split <;> exact .lock .free (.inr ⟨ho, by simp⟩)

end Sys2Proof.Machine
end

