-- ==== Sys2Proof/Laws/MemoryOps.lean ====
section
/-! SUPPORT. Every transaction and every phase keeps the memories in their canonical form. -/

namespace Sys2Proof.Machine

/-- A device whose memories are canonical. -/
def Device.ok (d : Device) : Prop := d.fn.wf = true ∧ d.chip.wf = true

theorem Device.ok_writeSb {c : Cfg} {d : Device} (l : Loc8) (v : Byte) (h : d.ok) : (d.writeSb c l v).ok := by
  have h1 := Memory.wf_write d.fn (locKey l) v h.1
  unfold Device.writeSb Device.ok
  dsimp only
  repeat' split
  all_goals exact ⟨h1, h.2⟩

theorem Device.ok_writeEach {c : Cfg} (r : BlkReq) (bs : List Byte) {d : Device} {i : Nat} (h : d.ok) :
    (Device.writeEach c r d i bs).ok := by
  induction bs generalizing d i with
  | nil => exact h
  | cons b t ih => exact ih (Device.ok_writeSb _ _ h)

theorem Device.ok_writeBlk {c : Cfg} {d : Device} (r : BlkReq) (bs : List Byte) (h : d.ok) : (d.writeBlk c r bs).ok := by
  unfold Device.writeBlk
  repeat' split
  · exact ⟨h.1, wf_chipWrite _ _ _ h.2⟩
  · exact h
  · exact Device.ok_writeEach r bs h

theorem Device.ok_sbAnswer {c : Cfg} {f : Nat} {d : Device} (r : SbReq) (w : Draw) (h : d.ok) :
    (sbAnswer c f d r w).2.ok := by
  cases w <;> simp only [sbAnswer]
  all_goals split
  all_goals first | exact Device.ok_writeSb _ _ h | exact h

theorem Device.ok_readBlk {c : Cfg} {d d' : Device} {r : BlkReq} {bs : List Byte} (h : d.ok)
    (e : d.readBlk c r = some (bs, d')) : d'.ok := by
  unfold Device.readBlk at e
  repeat' split at e
  all_goals cases e
  all_goals exact h

theorem Device.ok_blkAnswer {c : Cfg} {f : Nat} {d : Device} (r : BlkReq) (p : List Byte) (w : Draw) (h : d.ok) :
    (blkAnswer c f d r p w).2.ok := by
  cases w <;> simp only [blkAnswer]
  all_goals split
  · exact Device.ok_writeBlk _ _ h
  · split
    · exact Device.ok_readBlk h ‹_›
    · exact h
  · exact Device.ok_writeBlk _ _ h
  · exact h

theorem Device.ok_poke {d : Device} (p : Poke) (h : d.ok) : (d.poke p).ok := by
  cases p <;> first | exact ⟨Memory.wf_write _ _ _ h.1, h.2⟩ | exact ⟨h.1, Memory.wf_write _ _ _ h.2⟩ | exact h

/-- Every memory of a state is canonical. -/
def MemOk (s : State) : Prop := s.dev.ok ∧ s.buf.wf = true

@[simp] theorem memOk_setCtx (s : State) (q : Requester) (c : Ctx) : MemOk (s.setCtx q c) ↔ MemOk s := Iff.rfl
@[simp] theorem memOk_goto (s : State) (q : Requester) (p : Phase) : MemOk (s.goto q p) ↔ MemOk s := Iff.rfl
@[simp] theorem memOk_setAcc (s : State) (q : Requester) (v : Word) : MemOk (s.setAcc q v) ↔ MemOk s := Iff.rfl
@[simp] theorem memOk_load (s : State) (q : Requester) (op : OpSel) (a : Args) : MemOk (s.load q op a) ↔ MemOk s :=
  Iff.rfl
@[simp] theorem memOk_setH (s : State) (h : Handle) : MemOk (s.setH h) ↔ MemOk s := Iff.rfl
@[simp] theorem memOk_setLock (s : State) (l : Lock) : MemOk (s.setLock l) ↔ MemOk s := Iff.rfl
@[simp] theorem memOk_setCb (s : State) (b : Bool) : MemOk (s.setCb b) ↔ MemOk s := Iff.rfl
@[simp] theorem memOk_addLog (s : State) (e : LogEvent) : MemOk (s.addLog e) ↔ MemOk s := Iff.rfl
@[simp] theorem memOk_emit (s : State) (o : Output) : MemOk (s.emit o) ↔ MemOk s := Iff.rfl
@[simp] theorem memOk_dropDraw (s : State) : MemOk s.dropDraw ↔ MemOk s := Iff.rfl
@[simp] theorem memOk_finish (s : State) (q : Requester) (a : Answer) : MemOk (s.finish q a) ↔ MemOk s := Iff.rfl
@[simp] theorem memOk_raiseTransport (s : State) (q : Requester) : MemOk (s.raiseTransport q) ↔ MemOk s := Iff.rfl
@[simp] theorem memOk_failInit (s : State) (q : Requester) (c : Code) : MemOk (s.failInit q c) ↔ MemOk s := Iff.rfl
@[simp] theorem memOk_failInitTransport (s : State) (q : Requester) : MemOk (s.failInitTransport q) ↔ MemOk s :=
  Iff.rfl

theorem memOk_sb {s : State} (r : SbReq) (h : MemOk s) : MemOk (s.sb r).2 := ⟨Device.ok_sbAnswer r _ h.1, h.2⟩

theorem memOk_executeBlock {s : State} (r : BlkReq) (p : List Byte) (h : MemOk s) : MemOk (s.executeBlock r p).2 := by
  unfold State.executeBlock
  split
  · exact ⟨Device.ok_blkAnswer r p _ h.1, h.2⟩
  · exact h

theorem memOk_regAccess {s : State} (q : Requester) (wr : Bool) (a w : Word) (st : RegStep) (h : MemOk s) :
    MemOk (regAccess q wr a w st s).2 :=
  regAccess_state_cases q wr a w st s (fun r => memOk_sb r h) (fun r p _ => memOk_executeBlock r p h)

theorem memOk_halfState {s : State} (q : Requester) (f : Half) (h : MemOk s) : MemOk (halfState q f s) := by
  refine ⟨(memOk_executeBlock _ _ h).1, ?_⟩
  simp only [halfState, setBuf_buf]
  split
  · exact h.2
  · exact Memory.wf_writeBytes _ _ _ h.2

theorem memOk_afterHalfA (q : Requester) (t : State) : MemOk (afterHalfA q t) ↔ MemOk t := by
  unfold afterHalfA; split <;> exact Iff.rfl
theorem memOk_halfDone (q : Requester) (f : Half) (n : Nat) (t : State) : MemOk (halfDone q f n t) ↔ MemOk t := by
  cases f <;> simp [halfDone, memOk_afterHalfA]
theorem memOk_afterAckB (q : Requester) (t : State) : MemOk (afterAckB q t) ↔ MemOk t := by
  unfold afterAckB; split <;> exact Iff.rfl
theorem memOk_statusRegDone (q : Requester) (d : Byte) (t : State) : MemOk (statusRegDone q d t) ↔ MemOk t := by
  unfold statusRegDone; dsimp only; split <;> exact Iff.rfl
theorem memOk_syncDone (q : Requester) (t : State) : MemOk (syncDone q t) ↔ MemOk t := by
  unfold syncDone; split <;> exact Iff.rfl
theorem memOk_afterRmw (q : Requester) (g : RmwReg) (t : State) : MemOk (afterRmw q g t) ↔ MemOk t := by
  cases g <;> simp only [afterRmw] <;> (try split) <;> simp [beginRmw, memOk_syncDone]
theorem memOk_syncBody (q : Requester) (n : Nat) (t : State) : MemOk (syncBody q n t) ↔ MemOk t := by
  unfold syncBody; dsimp only
  repeat' split
  all_goals simp [beginRmw, memOk_syncDone]
theorem memOk_afterNeg (q : Requester) (w : NegWrite) (t : State) : MemOk (afterNeg q w t) ↔ MemOk t := by
  cases w <;> exact Iff.rfl
theorem memOk_commitInit (q : Requester) (v : Variant) (t : State) : MemOk (commitInit q v t) ↔ MemOk t := by
  unfold commitInit; dsimp only; split <;> exact Iff.rfl

theorem memOk_sbTurn {r : SbReq} {failed : State → State} {ok : Byte → State → State} {s s' : State}
    (h : sbTurn r failed ok s = .moved s') (hf : ∀ t, MemOk t → MemOk (failed t))
    (hk : ∀ d t, MemOk t → MemOk (ok d t)) (hs : MemOk s) : MemOk s' := by
  obtain ⟨-, rfl | ⟨d, rfl⟩⟩ := sbTurn_moved h
  · exact hf _ (memOk_sb r hs)
  · exact hk _ _ (memOk_sb r hs)

theorem memOk_accessTurn {q : Requester} {wr : Bool} {a w : Word} {st : RegStep} {more : RegStep → Phase}
    {failed : State → State} {value : Word → State → State} {s s' : State}
    (h : accessTurn q wr a w st more failed value s = .moved s') (hf : ∀ t, MemOk t → MemOk (failed t))
    (hk : ∀ v t, MemOk t → MemOk (value v t)) (hs : MemOk s) : MemOk s' := by
  obtain ⟨-, rfl | ⟨r, -, rfl⟩ | ⟨v, rfl⟩⟩ := accessTurn_moved h
  · exact hf _ (memOk_regAccess q wr a w st hs)
  · exact memOk_regAccess q wr a w st hs
  · exact hk _ _ (memOk_regAccess q wr a w st hs)

/-- A phase keeps every memory canonical. -/
theorem phaseTurn_memOk {q : Requester} {s s' : State} (h : phaseTurn q s = .moved s') (hs : MemOk s) : MemOk s' := by
  unfold phaseTurn at h
  split at h
  case h_1 => cases h
  case h_2 =>
    unfold startTurn at h
    split at h
    case h_13 =>
      simp only [resetTurn] at h
      split at h
      · cases h; exact hs
      · exact memOk_sbTurn h (fun t ht => by simpa using ht) (fun _ t ht => by simpa using ht) hs
    case h_10 => cases h; simpa [memOk_syncBody] using hs
    all_goals
      simp only [startInit, startResume, beginNegotiation, startDeinit, startReg, startTransfer, startInterruptStatus,
        startClear, startPendingSize, startEnable, startDisable, startIsInitialized, startSuspend] at h
      repeat' split at h
      all_goals cases h
      all_goals simpa [memOk_afterHalfA, memOk_afterAckB] using hs
  case h_3 => exact memOk_accessTurn h (fun t ht => by simpa using ht) (fun _ t ht => by simpa using ht) hs
  case h_4 =>
    unfold blkTurn at h
    split at h
    · rw [halfCommand_eq] at h
      obtain h | h := withBusFor_cases h <;> cases h
      split <;> simpa [memOk_halfDone] using memOk_halfState q _ hs
    · obtain ⟨-, h⟩ := withBus_moved h
      simp only [Turn.moved.injEq] at h
      subst h
      split <;> simpa [winWrite] using memOk_sb (windowReq s.cfg (s.ctx q).wa _) hs
  case h_6 =>
    refine memOk_sbTurn h (fun t ht => by simpa using ht) (fun _ t ht => ?_) hs
    dsimp only
    split <;> simpa using ht
  case h_7 =>
    simp only [flagsTurn] at h
    repeat' split at h
    · exact memOk_sbTurn h (fun t ht => by simpa using ht) (fun _ t ht => by simpa using ht) hs
    · cases h; exact hs
    · exact memOk_sbTurn h (fun t ht => by simpa using ht) (fun _ t ht => by simpa [memOk_statusRegDone] using ht) hs
  case h_9 =>
    exact memOk_sbTurn h (fun t ht => by simpa using ht) (fun _ t ht => by simpa [memOk_afterAckB] using ht) hs
  case h_11 =>
    exact memOk_sbTurn h (fun t ht => by simpa using ht) (fun _ t ht => by simpa [memOk_afterNeg] using ht) hs
  case h_12 =>
    refine memOk_sbTurn h (fun t ht => by simpa using ht) (fun _ t ht => ?_) hs
    dsimp only
    repeat' split
    all_goals simpa using ht
  case h_13 =>
    refine memOk_accessTurn h (fun t ht => by simpa using ht) (fun _ t ht => ?_) hs
    split <;> simpa [memOk_commitInit] using ht
  case h_14 => simp only [identSkipTurn] at h; split at h <;> cases h <;> simpa [memOk_commitInit] using hs
  case h_15 =>
    simp only [resetTurn] at h
    split at h
    · cases h; exact hs
    · exact memOk_sbTurn h (fun t ht => by simpa using ht) (fun _ t ht => by simpa using ht) hs
  case h_16 => cases h; simpa [memOk_syncBody] using hs
  case h_17 =>
    unfold rmwTurn at h
    dsimp only at h
    split at h
    · exact memOk_accessTurn h (fun t ht => by simpa using ht) (fun _ t ht => by simpa using ht) hs
    · exact memOk_accessTurn h (fun t ht => by simpa using ht) (fun _ t ht => by simpa [memOk_afterRmw] using ht) hs
  case h_18 =>
    obtain ⟨-, h⟩ := withBus_moved h
    simp only [Turn.moved.injEq] at h
    subst h
    split <;> simpa using hs
  case h_19 =>
    obtain ⟨-, h⟩ := withBus_moved h
    simp only [Turn.moved.injEq] at h
    subst h
    simp only [memOk_setCtx]
    split <;> simpa using hs
  case h_20 => cases h; split <;> simpa using hs
  case h_5 | h_8 | h_10 =>
    exact memOk_sbTurn h (fun t ht => by simpa using ht) (fun _ t ht => by simpa using ht) hs

end Sys2Proof.Machine
end

