-- ==== Sys2Proof/Laws/Runs.lean ====
section
/-! SUPPORT. How a run of an operation goes on transports that succeed: one phase at a time, and a whole windowed access
(three window writes, then the data command) at once. -/

namespace Sys2Proof.Machine

/-! ### One phase -/

/-- A call by an idle requester runs from its first phase. -/
theorem perform_run {op : OpSel} {args : Args} {s : State} (h : s.idle s.cur = true) :
    perform op args s = runPhases 64 s.cur (s.load s.cur op args) := by
  simp [perform, h, phaseBound]

/-- A call by a requester inside an operation changes nothing. -/
theorem perform_busy {op : OpSel} {args : Args} {s : State} (h : s.idle s.cur = false) :
    perform op args s = .next s := by
  simp [perform, h]

/-- One phase of a run, by the phase the context is at. -/
theorem phase_moved {n : Nat} {q : Requester} {s s' : State} (hi : (s.ctx q).phase ≠ .idle)
    (ht : phaseTurn q s = .moved s') : runPhases (n + 1) q s = runPhases n q s' :=
  runPhases_moved (by simpa [idle_eq] using hi) ht

/-- A single-byte transaction of an operation, the bus free: on `OK` it goes on with the byte, else it fails. -/
theorem sbTurn_free {r : SbReq} {failed : State → State} {ok : Byte → State → State} {s : State}
    (hb : s.busOwner = none) :
    sbTurn r failed ok s = .moved (if (s.draw 0).outcome then ok (s.sb r).1.byte (s.sb r).2 else failed (s.sb r).2) := by
  simp [sbTurn, withBus_free _ hb]

theorem sbTurn_ok {r : SbReq} {failed : State → State} {ok : Byte → State → State} {s : State} (hb : s.busOwner = none)
    (ho : (s.draw 0).outcome = true) : sbTurn r failed ok s = .moved (ok (s.sb r).1.byte (s.sb r).2) := by
  simp [sbTurn_free hb, ho]

theorem sbTurn_fail {r : SbReq} {failed : State → State} {ok : Byte → State → State} {s : State}
    (hb : s.busOwner = none) (ho : (s.draw 0).outcome = false) : sbTurn r failed ok s = .moved (failed (s.sb r).2) := by
  simp [sbTurn_free hb, ho]

section Access
variable {q : Requester} {wr : Bool} {a w : Word} {more : RegStep → Phase} {failed : State → State}
  {value : Word → State → State} {s : State}

/-- The one command of the direct range (R167, R171). -/
theorem accessTurn_direct (hb : s.busOwner = none) (ho : (s.draw 0).outcome = true) :
    accessTurn q wr a w .direct more failed value s =
      .moved (value ((s.sb (directReq wr a w)).1.byte.setWidth 32) (s.sb (directReq wr a w)).2) := by
  simp [accessTurn, withBus_free _ hb, ho, regAccess]

theorem accessTurn_direct_fail (hb : s.busOwner = none) (ho : (s.draw 0).outcome = false) :
    accessTurn q wr a w .direct more failed value s = .moved (failed (s.sb (directReq wr a w)).2) := by
  simp [accessTurn, withBus_free _ hb, ho, regAccess]

/-- A window write (R161). -/
theorem accessTurn_win {x : WinStep} (hx : x ≠ .data) (hb : s.busOwner = none) (ho : (s.draw 0).outcome = true) :
    accessTurn q wr a w (.win x) more failed value s =
      .moved ((s.sb (windowReq s.cfg a x.index)).2.goto q (more (.win x.next))) := by
  cases x <;> first | exact absurd rfl hx | simp [accessTurn, withBus_free _ hb, ho, regAccess, winWrite]

/-- A window write that fails ends the access (R162). -/
theorem accessTurn_win_fail {x : WinStep} (hx : x ≠ .data) (hb : s.busOwner = none)
    (ho : (s.draw 0).outcome = false) :
    accessTurn q wr a w (.win x) more failed value s = .moved (failed (s.sb (windowReq s.cfg a x.index)).2) := by
  cases x <;> first | exact absurd rfl hx | simp [accessTurn, withBus_free _ hb, ho, regAccess, winWrite]

/-- The data command of a windowed access, of 4 bytes: an allowed count under every well-formed configuration. -/
theorem windowData_allowed (c : Cfg) (wr : Bool) (bs : Option Nat) (h : c.wf = true) :
    countAllowed c (windowDataReq c wr bs).count = true := by
  have hc : c.countOk = true := by
    simp only [Cfg.wf, Bool.and_eq_true] at h
    exact h.2
  simp only [Cfg.countOk, Bool.and_eq_true, decide_eq_true_eq] at hc
  have h1 : 511 ≤ c.maxCount := hc.1
  have h2 : 4 ≤ c.maxCount := le_trans (by decide) h1
  exact (Bool.and_eq_true _ _).mpr ⟨rfl, decide_eq_true h2⟩

/-- The data command of a windowed access (R166, R170). -/
theorem accessTurn_data (hc : s.cfg.wf = true) (hb : s.busOwner = none) :
    accessTurn q wr a w (.win .data) more failed value s =
      .moved
        (let t := s.blk (windowDataReq s.cfg wr s.h.blockSize) (regPayload wr w)
         let tmp := if wr then regPayload wr w else t.1.bytes
         let u := t.2.setCtx q { s.ctx q with tmp := tmp }
         if t.1.ok then value (bytesToWord tmp) u else failed u) := by
  rw [accessTurn, withBus_free _ hb]
  cases wr
  · simp only [regAccess, executeBlock_allowed _ _ _ (windowData_allowed s.cfg _ s.h.blockSize hc), regPayload,
      Bool.false_eq_true, if_false, blk_ctx]
    split <;> rename_i h <;> split at h <;> simp_all
  · simp only [regAccess, executeBlock_allowed _ _ _ (windowData_allowed s.cfg _ s.h.blockSize hc), regPayload,
      if_true, blk_ctx]
    split <;> rename_i h <;> split at h <;> simp_all

end Access

/-! ### Three window writes at once (R161) -/

/-- The state after the three window writes of an access whose phases are `more`. -/
def afterWindow (q : Requester) (a : Word) (more : WinStep → Phase) (s : State) : State :=
  let s1 := (s.sb (windowReq s.cfg a 0)).2.goto q (more .w1)
  let s2 := (s1.sb (windowReq s.cfg a 1)).2.goto q (more .w2)
  (s2.sb (windowReq s.cfg a 2)).2.goto q (more .data)

section Window
variable (q : Requester) (a : Word) (more : WinStep → Phase) (s : State)

@[simp] theorem afterWindow_cfg : (afterWindow q a more s).cfg = s.cfg := by simp [afterWindow]
@[simp] theorem afterWindow_attached : (afterWindow q a more s).attached = s.attached := by simp [afterWindow]
@[simp] theorem afterWindow_h : (afterWindow q a more s).h = s.h := by simp [afterWindow]
@[simp] theorem afterWindow_waiters : (afterWindow q a more s).waiters = s.waiters := by simp [afterWindow]
@[simp] theorem afterWindow_busOwner : (afterWindow q a more s).busOwner = s.busOwner := by simp [afterWindow]
@[simp] theorem afterWindow_irq : (afterWindow q a more s).irq = s.irq := by simp [afterWindow]
@[simp] theorem afterWindow_log : (afterWindow q a more s).log = s.log := by simp [afterWindow]
@[simp] theorem afterWindow_buf : (afterWindow q a more s).buf = s.buf := by simp [afterWindow]
@[simp] theorem afterWindow_free : (afterWindow q a more s).free = s.free + 3 := by simp [afterWindow]
@[simp] theorem afterWindow_cur : (afterWindow q a more s).cur = s.cur := by simp [afterWindow]
@[simp] theorem afterWindow_agenda : (afterWindow q a more s).agenda = s.agenda := by simp [afterWindow]
@[simp] theorem afterWindow_draw (k : Nat) : (afterWindow q a more s).draw k = s.draw (k + 3) := by
  simp [afterWindow, Nat.add_assoc]
@[simp] theorem afterWindow_ctx : (afterWindow q a more s).ctx q = { s.ctx q with phase := more .data } := by
  simp [afterWindow]
@[simp] theorem afterWindow_out : (afterWindow q a more s).out = s.out ++ windowOut s.cfg a := by
  simp [afterWindow, windowOut, sbOut, SbReq.word, windowReq, winAddr, byteOf, Config.fnCtrl]

end Window

/-- Three phases that are the window writes of an access, the bus free and the oracle answering `OK` to each. -/
theorem run_window {n : Nat} {q : Requester} {a : Word} {more : WinStep → Phase} {s : State}
    (hp : (s.ctx q).phase = more .w0) (hm : ∀ x, more x ≠ .idle) (hb : s.busOwner = none) (ho : OkNext s 3)
    (ht : ∀ (u : State) (x : WinStep), x ≠ .data → u.cfg = s.cfg → u.h = s.h →
      u.ctx q = { s.ctx q with phase := more x } → u.busOwner = none → (u.draw 0).outcome = true →
      phaseTurn q u = .moved ((u.sb (windowReq s.cfg a x.index)).2.goto q (more x.next))) :
    runPhases (n + 3) q s = runPhases n q (afterWindow q a more s) := by
  have h0 : (s.draw 0).outcome = true := ho 0 (by omega)
  have h1 : (s.draw 1).outcome = true := ho 1 (by omega)
  have h2 : (s.draw 2).outcome = true := ho 2 (by omega)
  rw [phase_moved (n := n + 2) (by rw [hp]; exact hm _) (ht s .w0 (by decide) rfl rfl (by rw [← hp]) hb h0)]
  rw [phase_moved (n := n + 1) (by simpa using hm _)
    (ht _ .w1 (by decide) (by simp) (by simp) (by simp [WinStep.next]) (by simpa using hb) (by simpa using h1))]
  rw [phase_moved (n := n) (by simpa using hm _)
    (ht _ .w2 (by decide) (by simp) (by simp) (by simp [WinStep.next]) (by simpa using hb) (by simpa using h2))]
  rfl

/-! ### One half of a transfer up to its block command (R182, R187) -/

/-- The state in which a half's block command is issued: after its window writes, if the address is not 0. -/
def halfReady (q : Requester) (f : Half) (s : State) : State :=
  if (s.ctx q).args.addr = 0 then s else afterWindow q (s.ctx q).wa (.blk f) s

/-- How many answers the window writes of a half take. -/
def halfDraws (q : Requester) (s : State) : Nat := if (s.ctx q).args.addr = 0 then 0 else 3

/-- A half's phases up to its block command, for each of its window writes an answer `OK`. -/
theorem run_half {n : Nat} {q : Requester} {f : Half} {s : State}
    (hp : (s.ctx q).phase = .blk f (halfFirst (s.ctx q).args.addr)) (hb : s.busOwner = none)
    (ho : OkNext s (halfDraws q s)) :
    ∃ m, runPhases (n + 4) q s = runPhases (n + m + 1) q (halfReady q f s) := by
  unfold halfReady
  unfold halfDraws at ho
  by_cases h : (s.ctx q).args.addr = 0
  · exact ⟨3, by rw [if_pos h]⟩
  · rw [if_neg h] at ho ⊢
    rw [halfFirst, if_neg h] at hp
    refine ⟨0, ?_⟩
    rw [show n + 4 = (n + 1) + 3 by omega]
    refine run_window (more := .blk f) hp (by simp) hb ho ?_
    intro u x hx hc _ hctx hbu hou
    simp only [phaseTurn, hctx, blkTurn]
    cases x <;> first | exact absurd rfl hx | simp [hbu, withBus_free, winWrite, hou, hc]

section HalfReady
variable (q : Requester) (f : Half) (s : State)

@[simp] theorem halfReady_cfg : (halfReady q f s).cfg = s.cfg := by unfold halfReady; split <;> simp
@[simp] theorem halfReady_h : (halfReady q f s).h = s.h := by unfold halfReady; split <;> simp
@[simp] theorem halfReady_busOwner : (halfReady q f s).busOwner = s.busOwner := by unfold halfReady; split <;> simp
@[simp] theorem halfReady_log : (halfReady q f s).log = s.log := by unfold halfReady; split <;> simp
@[simp] theorem halfReady_buf : (halfReady q f s).buf = s.buf := by unfold halfReady; split <;> simp
@[simp] theorem halfReady_cur : (halfReady q f s).cur = s.cur := by unfold halfReady; split <;> simp
@[simp] theorem halfReady_draw (k : Nat) : (halfReady q f s).draw k = s.draw (k + halfDraws q s) := by
  unfold halfReady halfDraws; split <;> simp
@[simp] theorem halfReady_out :
    (halfReady q f s).out = s.out ++ phaseWindow s.cfg (s.ctx q).args.addr (s.ctx q).wa := by
  unfold halfReady phaseWindow; split <;> simp

/-- The context at a half's block command. -/
theorem halfReady_ctx (hp : (s.ctx q).phase = .blk f (halfFirst (s.ctx q).args.addr)) :
    (halfReady q f s).ctx q = { s.ctx q with phase := .blk f .data } := by
  unfold halfReady
  unfold halfFirst at hp
  split at hp <;> rename_i h
  · rw [if_pos h, ← hp]
  · rw [if_neg h, afterWindow_ctx]

end HalfReady

/-- A half's block command, the bus free. -/
theorem blkTurn_data {q : Requester} {f : Half} {s : State} (hb : s.busOwner = none) :
    blkTurn q f .data s =
      .moved (if halfOk q f s then halfDone q f (halfReq s.cfg (s.ctx q) s.h.blockSize f).bytes (halfState q f s)
        else (halfState q f s).raiseTransport q) := by
  unfold blkTurn
  rw [halfCommand_eq, withBusFor, withBus_free _ hb]
  simp

/-! ### The device after the window writes (R74, R90) -/

@[simp] theorem writeSb_fn (c : Cfg) (d : Device) (l : Loc8) (v : Byte) :
    (d.writeSb c l v).fn = d.fn.write (locKey l) v := by
  unfold Device.writeSb Device.ack
  dsimp only
  repeat' split
  all_goals rfl

@[simp] theorem writeSb_chip (c : Cfg) (d : Device) (l : Loc8) (v : Byte) : (d.writeSb c l v).chip = d.chip := by
  unfold Device.writeSb Device.ack
  dsimp only
  repeat' split
  all_goals rfl

@[simp] theorem writeSb_fifo (c : Cfg) (d : Device) (l : Loc8) (v : Byte) : (d.writeSb c l v).fifo = d.fifo := by
  unfold Device.writeSb Device.ack
  dsimp only
  repeat' split
  all_goals rfl

/-- A read changes nothing in the device. -/
theorem sbAnswer_read (c : Cfg) (f : Nat) (d : Device) (r : SbReq) (w : Draw) (h : r.wr = false) :
    (sbAnswer c f d r w).2 = d := by
  cases w <;> simp [sbAnswer, h]

/-- A write that succeeds stores its byte. -/
theorem sbAnswer_write (c : Cfg) (f : Nat) (d : Device) (r : SbReq) (w : Draw) (h : r.wr = true)
    (ho : w.outcome = true) : (sbAnswer c f d r w).2 = d.writeSb c r.loc r.data := by
  cases w with
  | reference => simp [sbAnswer, h]
  | scripted ok bs l =>
    have : ok = true := ho
    simp [sbAnswer, h, this]

/-- A single-byte command leaves chip space and the queue alone. -/
theorem sbAnswer_chip (c : Cfg) (f : Nat) (d : Device) (r : SbReq) (w : Draw) :
    (sbAnswer c f d r w).2.chip = d.chip ∧ (sbAnswer c f d r w).2.fifo = d.fifo := by
  cases w <;> simp only [sbAnswer] <;> split <;> simp

@[simp] theorem afterWindow_chip (q : Requester) (a : Word) (more : WinStep → Phase) (s : State) :
    (afterWindow q a more s).dev.chip = s.dev.chip := by
  simp [afterWindow, sbAnswer_chip]

@[simp] theorem afterWindow_fifo (q : Requester) (a : Word) (more : WinStep → Phase) (s : State) :
    (afterWindow q a more s).dev.fifo = s.dev.fifo := by
  simp [afterWindow, sbAnswer_chip]

/-- Every memory stays canonical over the window writes. -/
theorem memOk_afterWindow (q : Requester) (a : Word) (more : WinStep → Phase) (s : State) (h : MemOk s) :
    MemOk (afterWindow q a more s) := by
  simp only [afterWindow, memOk_goto]
  exact memOk_sb _ ((memOk_goto _ _ _).mpr (memOk_sb _ ((memOk_goto _ _ _).mpr (memOk_sb _ h))))

/-- The function spaces after the three window writes: three bytes written (R161). -/
theorem afterWindow_fn (q : Requester) (a : Word) (more : WinStep → Phase) (s : State) (ho : OkNext s 3) :
    (afterWindow q a more s).dev.fn =
      ((s.dev.fn.write (locKey ⟨0, winAddr s.cfg 0⟩) (byteOf a 0)).write (locKey ⟨0, winAddr s.cfg 1⟩)
        (byteOf a 1)).write (locKey ⟨0, winAddr s.cfg 2⟩) (byteOf a 2) := by
  have h0 : (s.draw 0).outcome = true := ho 0 (by omega)
  have h1 : (s.draw 1).outcome = true := ho 1 (by omega)
  have h2 : (s.draw 2).outcome = true := ho 2 (by omega)
  have e (t : State) (i : Nat) (h : (t.draw 0).outcome = true) : (t.sb (windowReq s.cfg a i)).2.dev =
      t.dev.writeSb t.cfg ⟨0, winAddr s.cfg i⟩ (byteOf a i) := by
    rw [sb_dev, nextDraw_eq_draw]
    exact sbAnswer_write _ _ _ _ _ rfl h
  simp only [afterWindow, goto_dev]
  rw [e _ 2 (by simpa using h2), goto_dev, e _ 1 (by simpa using h1), goto_dev, e _ 0 h0]
  simp

/-- The three window registers are three neighbouring bytes of function 0 (R9, R160). -/
theorem window_keys {c : Cfg} (hc : c.wf = true) (i : Nat) (hi : i < 3) :
    locKey ⟨c.winAddr0.fn, winAddr c i⟩ = c.winAddr0.addr.toNat + i ∧
      locKey ⟨0, winAddr c i⟩ = c.winAddr0.addr.toNat + i := by
  have hw : c.windowOk = true := by
    simp only [Cfg.wf, Bool.and_eq_true] at hc
    exact hc.1.1.1.1.1.1.1.1
  simp only [Cfg.windowOk, Bool.and_eq_true, beq_iff_eq, decide_eq_true_eq] at hw
  have h1 : c.winAddr0.addr.toNat + 2 < 131072 := hw.1.1.1.2
  have h2 : c.winAddr0.fn = 0 := hw.1.1.1.1.1.2
  have h3 : (winAddr c i).toNat = c.winAddr0.addr.toNat + i := by
    simp only [winAddr, BitVec.toNat_add, BitVec.toNat_ofNat]
    omega
  simp [locKey, h2, h3]

/-- After `setWindow(A)` the window value is `A[23:0]` (R74, R161). -/
theorem afterWindow_window (q : Requester) (a : Word) (more : WinStep → Phase) (s : State) (hc : s.cfg.wf = true)
    (hm : s.dev.fn.wf = true) (ho : OkNext s 3) :
    (afterWindow q a more s).dev.window s.cfg = a.extractLsb' 0 24 := by
  have w1 := Memory.wf_write s.dev.fn (locKey ⟨0, winAddr s.cfg 0⟩) (byteOf a 0) hm
  have w2 := Memory.wf_write _ (locKey ⟨0, winAddr s.cfg 1⟩) (byteOf a 1) w1
  rw [Device.window, afterWindow_fn q a more s ho]
  rw [(window_keys hc 0 (by omega)).1, (window_keys hc 1 (by omega)).1, (window_keys hc 2 (by omega)).1]
  rw [(window_keys hc 1 (by omega)).2, (window_keys hc 0 (by omega)).2] at w2
  rw [(window_keys hc 0 (by omega)).2, (window_keys hc 1 (by omega)).2, (window_keys hc 2 (by omega)).2]
  rw [(window_keys hc 0 (by omega)).2] at w1
  rw [Memory.read_write_same _ _ _ w2, Memory.read_write_ne _ _ _ _ (by omega), Memory.read_write_same _ _ _ w1,
    Memory.read_write_ne _ _ _ _ (by omega), Memory.read_write_ne _ _ _ _ (by omega),
    Memory.read_write_same _ _ _ hm]
  apply BitVec.eq_of_getLsbD_eq
  intro i hi
  simp only [BitVec.getLsbD_append, byteOf, BitVec.getLsbD_extractLsb']
  by_cases h1 : i < 8
  · simp [h1, hi]
  · by_cases h2 : i - 8 < 8
    · simp [h1, h2, hi, show 8 + (i - 8) = i by omega]
    · simp [h1, h2, hi, show 16 + (i - 8 - 8) = i by omega, show i - 8 - 8 < 8 by omega]

/-! ### Commands at the window data port (R74, R90) -/

/-- The window data port is on function 0 (R10). -/
theorem winData_fn {c : Cfg} (hc : c.wf = true) : (⟨0, c.winData.addr⟩ : Loc8) = c.winData := by
  have hw : c.windowOk = true := by
    simp only [Cfg.wf, Bool.and_eq_true] at hc
    exact hc.1.1.1.1.1.1.1.1
  simp only [Cfg.windowOk, Bool.and_eq_true, beq_iff_eq, decide_eq_true_eq] at hw
  have h : c.winData.fn = 0 := hw.1.1.1.1.2
  rw [← h]

/-- A successful write at the data port goes into chip space, at the window value on. -/
theorem blk_window_write {s : State} {r : BlkReq} {p : List Byte} (hw : r.wr = true) (ha : r.atWindow s.cfg = true)
    (ho : (s.draw 0).outcome = true) :
    (s.blk r p).2.dev = { s.dev with chip := chipWrite s.dev.chip (s.dev.window s.cfg) p } := by
  rw [blk_dev, nextDraw_eq_draw]
  cases hd : s.draw 0 with
  | reference => simp [blkAnswer, hw, Device.writeBlk, ha]
  | scripted ok bs l =>
    have h : ok = true := by simpa [hd, Draw.outcome] using ho
    simp [blkAnswer, hw, Device.writeBlk, ha, h]

/-- The reference device answers a read at the data port with chip space, from the window value on. -/
theorem blk_window_read {s : State} {r : BlkReq} {p : List Byte} (hw : r.wr = false) (ha : r.atWindow s.cfg = true)
    (hd : s.draw 0 = .reference) :
    (s.blk r p).1 = ⟨true, chipRead s.dev.chip (s.dev.window s.cfg) r.bytes⟩ ∧ (s.blk r p).2.dev = s.dev := by
  rw [blk_reply_eq, blk_dev, nextDraw_eq_draw, hd]
  simp [blkAnswer, hw, Device.readBlk, ha]

/-- The data command of a windowed access is at the data port. -/
theorem windowData_at {c : Cfg} (hc : c.wf = true) (wr : Bool) (bs : Option Nat) :
    (windowDataReq c wr bs).atWindow c = true := by
  unfold BlkReq.atWindow windowDataReq
  exact beq_iff_eq.mpr (winData_fn hc)

/-! ### Bytes written through the wrapping window (R74) -/

/-- The position after the next. -/
theorem window_succ (w : BitVec 24) (j : Nat) : w + 1 + BitVec.ofNat 24 j = w + BitVec.ofNat 24 (j + 1) := by
  rw [BitVec.add_assoc]
  congr 1
  rw [Nat.add_comm j 1, BitVec.ofNat_add]
  rfl

/-- Two window positions less than `2^24` apart differ. -/
theorem window_ne (w : BitVec 24) (j : Nat) (h0 : 0 < j) (h1 : j < 2 ^ 24) :
    w.toNat ≠ (w + BitVec.ofNat 24 j).toNat := by
  simp only [BitVec.toNat_add, BitVec.toNat_ofNat]
  have := w.isLt
  omega

/-- A byte no window position reaches is as before. -/
theorem read_chipWrite_out (m : Memory) (w : BitVec 24) (bs : List Byte) (k : Nat)
    (h : ∀ j, j < bs.length → k ≠ (w + BitVec.ofNat 24 j).toNat) : (chipWrite m w bs).read k = m.read k := by
  induction bs generalizing m w with
  | nil => rfl
  | cons b t ih =>
    simp only [chipWrite]
    rw [ih, Memory.read_write_ne]
    · simpa using h 0 (by simp)
    · intro j hj
      rw [window_succ]
      exact h (j + 1) (by simpa using hj)

/-- Byte `j` of what was written stands at window position `j`, for no more bytes than chip space has. -/
theorem read_chipWrite_in (m : Memory) (w : BitVec 24) (bs : List Byte) (hm : m.wf = true) (hl : bs.length ≤ 2 ^ 24)
    (j : Nat) (hj : j < bs.length) : (chipWrite m w bs).read (w + BitVec.ofNat 24 j).toNat = bs[j] := by
  induction bs generalizing m w j with
  | nil => simp at hj
  | cons b t ih =>
    simp only [List.length_cons] at hl hj
    simp only [chipWrite]
    cases j with
    | zero =>
      rw [read_chipWrite_out]
      · simpa using Memory.read_write_same m w.toNat b hm
      · intro i hi
        rw [window_succ]
        simpa using window_ne w (i + 1) (by omega) (by omega)
    | succ j =>
      rw [← window_succ]
      simpa using ih (m.write w.toNat b) (w + 1) (Memory.wf_write _ _ _ hm) (by omega) j (by omega)

/-! ### A windowed `readReg` or `writeReg` up to its data command (R161, R166, R170) -/

/-- A register access outside the direct range, its three window writes answered `OK`. -/
theorem perform_window {op : OpSel} {args : Args} {s : State} (hop : op = .readReg ∨ op = .writeReg)
    (hi : s.idle s.cur = true) (hb : s.busOwner = none) (hd : inDirect s.cfg args.addr = false) (ho : OkNext s 3) :
    perform op args s = runPhases 60 s.cur
      (afterWindow s.cur args.addr (fun x => .reg (.win x))
        ((s.load s.cur op args).goto s.cur (.reg (.win .w0)))) := by
  rw [perform_run hi]
  have h : phaseTurn s.cur (s.load s.cur op args) = .moved ((s.load s.cur op args).goto s.cur (.reg (.win .w0))) := by
    rcases hop with rfl | rfl <;> simp [phaseTurn, startTurn, startReg, regFirst, hd]
  rw [phase_moved (by simp) h, run_window (n := 60) (more := fun x => .reg (.win x)) (a := args.addr)]
  · simp
  · simp
  · simpa using hb
  · intro k hk; simpa using ho k hk
  · intro u x hx hc _ hctx hbu hou
    simp only [phaseTurn, hctx, regTurn, ctx_goto_same, ctx_load_same]
    rw [accessTurn_win hx hbu hou, hc]

/-! ### The terms the failure statements use -/

theorem readRegBus_direct {c : Cfg} {a : Word} (bs : Option Nat) (h : inDirect c a = true) :
    readRegBus c bs a = [sbOut false ⟨0, a.extractLsb' 0 17⟩ false 0] := by
  simp [readRegBus, h]

theorem readRegBus_windowed {c : Cfg} {a : Word} (bs : Option Nat) (h : inDirect c a = false) :
    readRegBus c bs a = readRegOut c bs a := by
  simp [readRegBus, h]

theorem writeRegBus_direct {c : Cfg} {a : Word} (bs : Option Nat) (w : Word) (h : inDirect c a = true) :
    writeRegBus c bs a w = [sbOut true ⟨0, a.extractLsb' 0 17⟩ false (w.extractLsb' 0 8)] := by
  simp [writeRegBus, h]

theorem writeRegBus_windowed {c : Cfg} {a : Word} (bs : Option Nat) (w : Word) (h : inDirect c a = false) :
    writeRegBus c bs a w = writeRegOut c bs a w := by
  simp [writeRegBus, h]

@[simp] theorem readRegOut_length (c : Cfg) (bs : Option Nat) (a : Word) : (readRegOut c bs a).length = 4 := rfl

@[simp] theorem writeRegOut_length (c : Cfg) (bs : Option Nat) (a w : Word) : (writeRegOut c bs a w).length = 4 := rfl

@[simp] theorem negotiationOut_length (c : Cfg) (n : Nat) : (negotiationOut c n).length = n + 7 := by
  simp [negotiationOut]

@[simp] theorem negotiated_initialized (h : Handle) : (negotiated h).initialized = true := rfl
@[simp] theorem negotiated_life (h : Handle) : (negotiated h).life = .ready := rfl
@[simp] theorem negotiated_blockSize (h : Handle) : (negotiated h).blockSize = some 512 := rfl
@[simp] theorem negotiated_variant (h : Handle) : (negotiated h).variant = h.variant := rfl
@[simp] theorem negotiated_gpioIrq (h : Handle) : (negotiated h).gpioIrq = h.gpioIrq := rfl
@[simp] theorem negotiated_nint (h : Handle) : (negotiated h).nint = h.nint := rfl

@[simp] theorem negotiationFailed_initialized (h : Handle) : (negotiationFailed h).initialized = false := rfl
@[simp] theorem negotiationFailed_life (h : Handle) : (negotiationFailed h).life = .failed := rfl
@[simp] theorem negotiationFailed_blockSize (h : Handle) : (negotiationFailed h).blockSize = h.blockSize := rfl
@[simp] theorem negotiationFailed_variant (h : Handle) : (negotiationFailed h).variant = h.variant := rfl
@[simp] theorem negotiationFailed_nint (h : Handle) : (negotiationFailed h).nint = h.nint := rfl

/-- What is known of the polls by answer `k` is known by an earlier one. -/
theorem readyAtPoll_le {s : State} {p k m : Nat} (h : ReadyAtPoll s p k) (hm : m ≤ k) : ReadyAtPoll s p m :=
  ⟨h.1, fun j hj hk => h.2 j hj (lt_of_lt_of_le hk hm)⟩

end Sys2Proof.Machine
end

