-- ==== Sys2Proof/Laws/Agenda.lean ====
section
/-! SUPPORT. No phase of an operation looks at the agenda: a phase with another agenda is the same phase. -/

namespace Sys2Proof.Machine

/-- The state with another agenda. -/
def State.setAgenda (s : State) (l : List Event) : State := { s with agenda := l }

/-- A turn's state with another agenda. -/
def Turn.setAgenda (l : List Event) : Turn → Turn
  | .moved s => .moved (s.setAgenda l)
  | .held s => .held (s.setAgenda l)
  | .refused r => .refused r

theorem setAgenda_setAgenda (s : State) (l m : List Event) : (s.setAgenda l).setAgenda m = s.setAgenda m := rfl

theorem setAgenda_self (s : State) : s.setAgenda s.agenda = s := rfl

theorem ite_setAgenda (c : Prop) [Decidable c] (s t : State) (l : List Event) :
    (if c then s else t).setAgenda l = if c then s.setAgenda l else t.setAgenda l := by
  split <;> rfl

theorem Turn.ite_setAgenda (c : Prop) [Decidable c] (t u : Turn) (l : List Event) :
    (if c then t else u).setAgenda l = if c then t.setAgenda l else u.setAgenda l := by
  split <;> rfl

theorem Turn.moved_setAgenda (s : State) (l : List Event) : (Turn.moved s).setAgenda l = .moved (s.setAgenda l) := rfl

section
variable (s : State) (l : List Event)

@[simp] theorem setAgenda_cfg : (s.setAgenda l).cfg = s.cfg := rfl
@[simp] theorem setAgenda_attached : (s.setAgenda l).attached = s.attached := rfl
@[simp] theorem setAgenda_h : (s.setAgenda l).h = s.h := rfl
@[simp] theorem setAgenda_ctx (q : Requester) : (s.setAgenda l).ctx q = s.ctx q := rfl
@[simp] theorem setAgenda_idle (q : Requester) : (s.setAgenda l).idle q = s.idle q := rfl
@[simp] theorem setAgenda_agenda : (s.setAgenda l).agenda = l := rfl

theorem executeBlock_setAgenda (r : BlkReq) (p : List Byte) : (s.setAgenda l).executeBlock r p =
    ((s.executeBlock r p).1, (s.executeBlock r p).2.setAgenda l) := by
  unfold State.executeBlock
  rw [setAgenda_cfg]
  split <;> rfl

theorem withBus_setAgenda (t : Turn) : (withBus s t).setAgenda l = withBus (s.setAgenda l) (t.setAgenda l) :=
  Turn.ite_setAgenda _ _ _ _

theorem withBusFor_setAgenda (n : Nat) (t : Turn) :
    (withBusFor s n t).setAgenda l = withBusFor (s.setAgenda l) n (t.setAgenda l) := by
  unfold withBusFor
  rw [Turn.ite_setAgenda, withBus_setAgenda]
  rfl

theorem sbTurn_setAgenda {r : SbReq} {f : State → State} {k : Byte → State → State}
    (hf : ∀ t : State, (f t).setAgenda l = f (t.setAgenda l))
    (hk : ∀ d (t : State), (k d t).setAgenda l = k d (t.setAgenda l)) :
    (sbTurn r f k s).setAgenda l = sbTurn r f k (s.setAgenda l) := by
  unfold sbTurn
  rw [withBus_setAgenda, Turn.moved_setAgenda, ite_setAgenda, hf, hk]
  rfl

theorem regAccess_setAgenda (q : Requester) (wr : Bool) (a w : Word) (st : RegStep) :
    regAccess q wr a w st (s.setAgenda l) =
      ((regAccess q wr a w st s).1, (regAccess q wr a w st s).2.setAgenda l) := by
  have e (r : SbReq) : (s.setAgenda l).sb r = ((s.sb r).1, (s.sb r).2.setAgenda l) := rfl
  unfold regAccess winWrite
  simp only [e, executeBlock_setAgenda, setAgenda_cfg, setAgenda_h]
  have p (c : Prop) [Decidable c] (x y : Access × State) :
      ((if c then x else y).1, (if c then x else y).2.setAgenda l) =
        if c then (x.1, x.2.setAgenda l) else (y.1, y.2.setAgenda l) := by split <;> rfl
  cases st with
  | direct => dsimp only; rw [p]
  | win w => cases w <;> dsimp only <;> rw [p]; rfl

theorem accessTurn_setAgenda {q : Requester} {wr : Bool} {a w : Word} {st : RegStep} {more : RegStep → Phase}
    {f : State → State} {k : Word → State → State} (hf : ∀ t : State, (f t).setAgenda l = f (t.setAgenda l))
    (hk : ∀ v (t : State), (k v t).setAgenda l = k v (t.setAgenda l)) :
    (accessTurn q wr a w st more f k s).setAgenda l = accessTurn q wr a w st more f k (s.setAgenda l) := by
  unfold accessTurn
  rw [withBus_setAgenda, regAccess_setAgenda]
  rcases regAccess q wr a w st s with ⟨x, t⟩
  cases x <;> simp only [Turn.moved_setAgenda, hf, hk]
  rfl

theorem syncDone_setAgenda (q : Requester) : (syncDone q s).setAgenda l = syncDone q (s.setAgenda l) := by
  unfold syncDone
  rw [ite_setAgenda]
  rfl

theorem afterRmw_setAgenda (q : Requester) (g : RmwReg) :
    (afterRmw q g s).setAgenda l = afterRmw q g (s.setAgenda l) := by
  cases g <;> simp only [afterRmw, ite_setAgenda, syncDone_setAgenda] <;> rfl

theorem syncBody_setAgenda (q : Requester) (n : Nat) :
    (syncBody q n s).setAgenda l = syncBody q n (s.setAgenda l) := by
  simp only [syncBody, ite_setAgenda, syncDone_setAgenda]
  rfl

theorem afterAckB_setAgenda (q : Requester) : (afterAckB q s).setAgenda l = afterAckB q (s.setAgenda l) := by
  simp only [afterAckB, ite_setAgenda]
  rfl

theorem afterHalfA_setAgenda (q : Requester) : (afterHalfA q s).setAgenda l = afterHalfA q (s.setAgenda l) := by
  simp only [afterHalfA, ite_setAgenda]
  rfl

theorem halfDone_setAgenda (q : Requester) (f : Half) (n : Nat) :
    (halfDone q f n s).setAgenda l = halfDone q f n (s.setAgenda l) := by
  cases f
  · exact afterHalfA_setAgenda _ l q
  · rfl

theorem halfState_setAgenda (q : Requester) (f : Half) :
    halfState q f (s.setAgenda l) = (halfState q f s).setAgenda l ∧ halfOk q f (s.setAgenda l) = halfOk q f s := by
  have hp : halfPayload q f (s.setAgenda l) = halfPayload q f s := rfl
  unfold halfState halfOk
  rw [hp, executeBlock_setAgenda]
  exact ⟨rfl, rfl⟩

theorem commitInit_setAgenda (q : Requester) (v : Variant) :
    (commitInit q v s).setAgenda l = commitInit q v (s.setAgenda l) := by
  simp only [commitInit, ite_setAgenda]
  rfl

theorem statusRegDone_setAgenda (q : Requester) (d : Byte) :
    (statusRegDone q d s).setAgenda l = statusRegDone q d (s.setAgenda l) := by
  have h (c : Prop) [Decidable c] (t u : State) (v : Value) : ((if c then t else u).done q v).setAgenda l =
      (if c then t.setAgenda l else u.setAgenda l).done q v := by split <;> rfl
  simp only [statusRegDone, h]
  rfl

theorem resetTurn_setAgenda (q : Requester) : (resetTurn q s).setAgenda l = resetTurn q (s.setAgenda l) := by
  unfold resetTurn
  rw [Turn.ite_setAgenda, sbTurn_setAgenda s l (fun _ => rfl) (fun _ _ => rfl)]
  rfl

theorem startTransfer_setAgenda (q : Requester) :
    (startTransfer q s).setAgenda l = startTransfer q (s.setAgenda l) := by
  unfold startTransfer
  rw [setAgenda_h]
  cases s.h.blockSize
  · rfl
  · simp only [Turn.ite_setAgenda, Turn.moved_setAgenda, afterHalfA_setAgenda]
    rfl

theorem startClear_setAgenda (q : Requester) : (startClear q s).setAgenda l = startClear q (s.setAgenda l) := by
  simp only [startClear, setAgenda_h]
  cases s.h.variant
  · rfl
  · simp only [Turn.ite_setAgenda]; rfl
  · simp only [Turn.ite_setAgenda, Turn.moved_setAgenda, afterAckB_setAgenda]; rfl

theorem startTurn_setAgenda (q : Requester) : (startTurn q s).setAgenda l = startTurn q (s.setAgenda l) := by
  unfold startTurn
  rw [setAgenda_ctx]
  cases (s.ctx q).op <;> dsimp only
  case blockRead | blockWrite => exact startTransfer_setAgenda s l q
  case clearInterrupts => exact startClear_setAgenda s l q
  case syncInterrupts => exact congrArg Turn.moved (syncBody_setAgenda s l q _)
  case reset => exact resetTurn_setAgenda s l q
  case readReg | writeReg | readPendingSize | enableInterrupts | isInitialized => rfl
  all_goals exact Turn.ite_setAgenda _ _ _ _

/-- A phase with another agenda is the same phase. -/
theorem phaseTurn_setAgenda (q : Requester) : phaseTurn q (s.setAgenda l) = (phaseTurn q s).setAgenda l := by
  symm
  unfold phaseTurn
  rw [setAgenda_ctx]
  cases (s.ctx q).phase <;> dsimp only
  case idle => rfl
  case start => exact startTurn_setAgenda s l q
  case reg => exact accessTurn_setAgenda s l (fun _ => rfl) (fun _ _ => rfl)
  case blk f w =>
    cases w <;> simp only [blkTurn]
    case data =>
      rw [halfCommand_eq, halfCommand_eq, withBusFor_setAgenda, Turn.moved_setAgenda, ite_setAgenda,
        halfDone_setAgenda, (halfState_setAgenda s l q f).1, (halfState_setAgenda s l q f).2]
      rfl
    all_goals
      rw [withBus_setAgenda, Turn.moved_setAgenda, ite_setAgenda]
      rfl
  case count1 =>
    refine sbTurn_setAgenda s l (fun _ => rfl) (fun _ t => ?_)
    exact ite_setAgenda _ _ _ _
  case flags =>
    unfold flagsTurn
    rw [Turn.ite_setAgenda, sbTurn_setAgenda s l (fun _ => rfl) (fun d t => statusRegDone_setAgenda t l q d)]
    rw [setAgenda_cfg, setAgenda_h]
    cases gpioFlagReg s.cfg s.h.variant with
    | none => rfl
    | some x => dsimp only; rw [sbTurn_setAgenda s l (fun _ => rfl) (fun _ _ => rfl)]
  case clrB0 => exact sbTurn_setAgenda s l (fun _ => rfl) (fun _ t => afterAckB_setAgenda t l q)
  case neg w => exact sbTurn_setAgenda s l (fun _ => rfl) (fun _ t => by cases w <;> rfl)
  case poll =>
    refine sbTurn_setAgenda s l (fun _ => rfl) (fun _ t => ?_)
    simp only [ite_setAgenda]
    rfl
  case ident =>
    refine accessTurn_setAgenda s l (fun _ => rfl) (fun v t => ?_)
    rw [setAgenda_cfg]
    cases classify t.cfg v <;> first | rfl | exact commitInit_setAgenda t l q _
  case identSkip =>
    unfold identSkipTurn
    rw [setAgenda_h]
    cases s.h.variant <;> first | rfl | exact congrArg Turn.moved (commitInit_setAgenda s l q _)
  case resetWrite => exact resetTurn_setAgenda s l q
  case syncStart => exact congrArg Turn.moved (syncBody_setAgenda s l q _)
  case rmw g f st =>
    unfold rmwTurn
    cases f
    · exact accessTurn_setAgenda s l (fun _ => rfl) (fun _ _ => rfl)
    · exact accessTurn_setAgenda s l (fun _ => rfl) (fun _ t => afterRmw_setAgenda t l q g)
  case registerCb =>
    unfold registerTurn
    rw [withBus_setAgenda, Turn.moved_setAgenda, ite_setAgenda]
    rfl
  case unregisterCb =>
    unfold unregisterTurn
    rw [withBus_setAgenda, Turn.moved_setAgenda]
    have e : s.nextDraw = (s.setAgenda l).nextDraw := rfl
    cases h : (s.setAgenda l).nextDraw.outcome <;> simp only [e, h] <;> rfl
  case lockFree =>
    unfold lockFreeTurn
    rw [Turn.moved_setAgenda, ite_setAgenda]
    rfl
  all_goals exact sbTurn_setAgenda s l (fun _ => rfl) (fun _ _ => rfl)

end

end Sys2Proof.Machine
end

