-- ==== Sys2Proof/Laws/PerInstr.lean ====
section
/-! SUPPORT. Laws of every instruction as syntax, one lemma per constructor. -/

namespace Sys2Proof.Laws.Packets

/-- The packet of an instruction: a host operation's holds its `opsel` number and exactly its operands, and it is on
its operation's port (R108, R115); a bus command's is an `SB` or a `BLK` word (R100), on the BUS (R155). -/
def Statement (i : Instr) : Prop :=
  match i.request with
  | some (op, args) => encode i = .hostop op.code args ∧ i.port = op.port
  | none => i.port = .bus ∧ ((∃ w, encode i = .sb w) ∨ ∃ w side, encode i = .blk w side)

theorem sbRd (fn : FnIndex) (addr : BusAddr) : Statement (.sbRd fn addr) := ⟨rfl, .inl ⟨_, rfl⟩⟩
theorem sbWr (fn : FnIndex) (addr : BusAddr) (data : Byte) : Statement (.sbWr fn addr data) := ⟨rfl, .inl ⟨_, rfl⟩⟩
theorem sbWrRb (fn : FnIndex) (addr : BusAddr) (data : Byte) : Statement (.sbWrRb fn addr data) := ⟨rfl, .inl ⟨_, rfl⟩⟩
theorem blkRdByte (fn : FnIndex) (inc : Bool) (addr : BusAddr) (count : BitVec 9) (side : Side) :
    Statement (.blkRdByte fn inc addr count side) := ⟨rfl, .inr ⟨_, _, rfl⟩⟩
theorem blkRdBlock (fn : FnIndex) (inc : Bool) (addr : BusAddr) (count : BitVec 9) (side : Side) :
    Statement (.blkRdBlock fn inc addr count side) := ⟨rfl, .inr ⟨_, _, rfl⟩⟩
theorem blkWrByte (fn : FnIndex) (inc : Bool) (addr : BusAddr) (count : BitVec 9) (side : Side) :
    Statement (.blkWrByte fn inc addr count side) := ⟨rfl, .inr ⟨_, _, rfl⟩⟩
theorem blkWrBlock (fn : FnIndex) (inc : Bool) (addr : BusAddr) (count : BitVec 9) (side : Side) :
    Statement (.blkWrBlock fn inc addr count side) := ⟨rfl, .inr ⟨_, _, rfl⟩⟩
theorem init (r : Bool) : Statement (.init r) := ⟨rfl, rfl⟩
theorem deinit : Statement .deinit := ⟨rfl, rfl⟩
theorem readReg (a : Word) : Statement (.readReg a) := ⟨rfl, rfl⟩
theorem writeReg (a w : Word) : Statement (.writeReg a w) := ⟨rfl, rfl⟩
theorem blockRead (a : Word) (b : BufRef) (n : Nat) : Statement (.blockRead a b n) := ⟨rfl, rfl⟩
theorem blockWrite (a : Word) (b : BufRef) (n : Nat) : Statement (.blockWrite a b n) := ⟨rfl, rfl⟩
theorem readInterruptStatus : Statement .readInterruptStatus := ⟨rfl, rfl⟩
theorem clearInterrupts (m : Word) : Statement (.clearInterrupts m) := ⟨rfl, rfl⟩
theorem readPendingSize : Statement .readPendingSize := ⟨rfl, rfl⟩
theorem syncInterrupts (n : Nat) : Statement (.syncInterrupts n) := ⟨rfl, rfl⟩
theorem enableInterrupts : Statement .enableInterrupts := ⟨rfl, rfl⟩
theorem disableInterrupts : Statement .disableInterrupts := ⟨rfl, rfl⟩
theorem reset : Statement .reset := ⟨rfl, rfl⟩
theorem isInitialized : Statement .isInitialized := ⟨rfl, rfl⟩
theorem suspend : Statement .suspend := ⟨rfl, rfl⟩
theorem resume : Statement .resume := ⟨rfl, rfl⟩

end Sys2Proof.Laws.Packets
end

