-- ==== Sys2Proof/Laws/Status.lean ====
section
/-! SUPPORT. What a transaction does to the device's flags, interrupt line and count (20_memory.md rule R92): nothing, but
for a write to an acknowledge register. -/

namespace Sys2Proof.Machine

theorem SameStatus.refl (d : Device) : SameStatus d d := ⟨rfl, rfl, rfl⟩

theorem SameStatus.trans {d e f : Device} (h : SameStatus d e) (g : SameStatus e f) : SameStatus d f :=
  ⟨g.1.trans h.1, g.2.1.trans h.2.1, g.2.2.trans h.2.2⟩

/-- An acknowledge is not undone by what leaves the status alone. -/
theorem Acknowledged.same {d e f : Device} {v m : Byte} (h : Acknowledged d v m e) (g : SameStatus e f) :
    Acknowledged d v m f := by
  obtain ⟨h1, h2, h3⟩ := h
  obtain ⟨g1, g2, g3⟩ := g
  exact ⟨g1.trans h1, by rw [g2, h2, g1], g3.trans h3⟩

/-! ### Single bytes -/

@[simp] theorem writeSb_dmaCnt (c : Cfg) (d : Device) (l : Loc8) (v : Byte) : (d.writeSb c l v).dmaCnt = d.dmaCnt := by
  unfold Device.writeSb Device.ack
  dsimp only
  repeat' split
  all_goals rfl

/-- A byte stored elsewhere than at an acknowledge register. -/
theorem writeSb_same {c : Cfg} {l : Loc8} (d : Device) (v : Byte) (ha : l ≠ c.intClrA) (hb : l ≠ c.intAckB) :
    SameStatus d (d.writeSb c l v) := by
  simp [SameStatus, Device.writeSb, ha, hb]

/-- The variant-A acknowledge (R92). -/
theorem writeSb_ackA {c : Cfg} (d : Device) (v : Byte) (h : c.intClrA ≠ c.intAckB) :
    Acknowledged d v c.ackMaskA (d.writeSb c c.intClrA v) := by
  simp [Acknowledged, Device.writeSb, h, Device.ack]

/-- The variant-B acknowledge (R92). -/
theorem writeSb_ackB {c : Cfg} (d : Device) (v : Byte) (h : c.intClrA ≠ c.intAckB) :
    Acknowledged d v c.ackMaskB (d.writeSb c c.intAckB v) := by
  simp [Acknowledged, Device.writeSb, h.symm, Device.ack]

/-- The device after the answer to a single-byte command: as before, or with the byte stored (R89, R90). -/
theorem sbAnswer_cases (c : Cfg) (f : Nat) (d : Device) (r : SbReq) (w : Draw) :
    (sbAnswer c f d r w).2 = d ∨ r.wr = true ∧ (sbAnswer c f d r w).2 = d.writeSb c r.loc r.data := by
  cases hw : r.wr
  · exact .inl (sbAnswer_read c f d r w hw)
  · cases w with
    | reference => simp [sbAnswer, hw]
    | scripted ok bs l =>
      simp only [sbAnswer, hw, Bool.true_and]
      split <;> simp

/-- A single-byte command elsewhere than at an acknowledge register leaves the status, whatever is answered. -/
theorem sbAnswer_same {c : Cfg} {r : SbReq} (f : Nat) (d : Device) (w : Draw) (ha : r.loc ≠ c.intClrA)
    (hb : r.loc ≠ c.intAckB) : SameStatus d (sbAnswer c f d r w).2 := by
  rcases sbAnswer_cases c f d r w with h | ⟨-, h⟩ <;> rw [h]
  · exact .refl d
  · exact writeSb_same d _ ha hb

@[simp] theorem sbAnswer_dmaCnt (c : Cfg) (f : Nat) (d : Device) (r : SbReq) (w : Draw) :
    (sbAnswer c f d r w).2.dmaCnt = d.dmaCnt := by
  rcases sbAnswer_cases c f d r w with h | ⟨-, h⟩ <;> simp [h]

/-! ### Blocks -/

@[simp] theorem writeEach_dmaCnt (c : Cfg) (r : BlkReq) (bs : List Byte) (d : Device) (i : Nat) :
    (Device.writeEach c r d i bs).dmaCnt = d.dmaCnt := by
  induction bs generalizing d i with
  | nil => rfl
  | cons b t ih => simp [Device.writeEach, ih]

@[simp] theorem writeBlk_dmaCnt (c : Cfg) (d : Device) (r : BlkReq) (bs : List Byte) :
    (d.writeBlk c r bs).dmaCnt = d.dmaCnt := by
  unfold Device.writeBlk
  repeat' split
  all_goals simp

/-- Bytes stored one by one, none of them at an acknowledge register. -/
theorem writeEach_same {c : Cfg} {r : BlkReq} (bs : List Byte) (d : Device) (i : Nat)
    (h : ∀ j, j < bs.length → blkLoc r (i + j) ≠ c.intClrA ∧ blkLoc r (i + j) ≠ c.intAckB) :
    SameStatus d (Device.writeEach c r d i bs) := by
  induction bs generalizing d i with
  | nil => exact .refl d
  | cons b t ih =>
    have h0 := h 0 (by simp)
    refine (writeSb_same d b h0.1 h0.2).trans (ih _ _ fun j hj => ?_)
    have hj' := h (j + 1) (by simpa using hj)
    rwa [Nat.add_comm j 1, ← Nat.add_assoc] at hj'

/-- A block written to the window or the queue, or to bytes none of which is an acknowledge register. -/
theorem writeBlk_same {c : Cfg} {r : BlkReq} (d : Device) (bs : List Byte)
    (h : r.atWindow c = true ∨ r.atFifo = true ∨
      ∀ j, j < bs.length → blkLoc r j ≠ c.intClrA ∧ blkLoc r j ≠ c.intAckB) :
    SameStatus d (d.writeBlk c r bs) := by
  unfold Device.writeBlk
  split
  · exact ⟨rfl, rfl, rfl⟩
  · split
    · exact ⟨rfl, rfl, rfl⟩
    · rename_i h1 h2
      refine writeEach_same bs d 0 fun j hj => ?_
      rcases h with h | h | h
      · exact absurd h h1
      · exact absurd h h2
      · simpa using h j hj

/-- The device after the answer to a block read: as before, or with bytes off the queue (R91). -/
theorem blkAnswer_read_cases (c : Cfg) (f : Nat) (d : Device) (r : BlkReq) (p : List Byte) (w : Draw) (h : r.wr = false) :
    (blkAnswer c f d r p w).2 = d ∨
      r.atFifo = true ∧ (blkAnswer c f d r p w).2 = { d with fifo := d.fifo.drop r.bytes } := by
  cases w with
  | scripted ok bs l => simp [blkAnswer, h]
  | reference =>
    simp only [blkAnswer, h, Bool.false_eq_true, if_false]
    cases hr : d.readBlk c r with
    | none => exact .inl rfl
    | some x =>
      unfold Device.readBlk at hr
      repeat' split at hr
      all_goals cases hr
      all_goals simp_all

/-- The device after the answer to a block write: some of the payload's first bytes are stored (R89, R149). -/
theorem blkAnswer_write_cases (c : Cfg) (f : Nat) (d : Device) (r : BlkReq) (p : List Byte) (w : Draw)
    (h : r.wr = true) : ∃ n, (blkAnswer c f d r p w).2 = d.writeBlk c r (p.take n) := by
  cases w with
  | reference => exact ⟨p.length, by simp [blkAnswer, h]⟩
  | scripted ok bs l =>
    cases ok
    · exact ⟨l, by simp [blkAnswer, h]⟩
    · exact ⟨p.length, by simp [blkAnswer, h]⟩

end Sys2Proof.Machine
end

