-- ==== Sys2Proof/Tests/Slice0.lean ====
section
/-! SUPPORT. Tests. Expected values are the spec's own (95_test_vectors.md, vector numbers V…, and the encodings of
30_encoding.md R101 to R108), under CFG0. The witnesses at the end show states that meet a statement's hypotheses. -/

namespace Sys2Proof.Tests

open Sys2Proof.Machine

/-! ### Well-formedness: one ill-formed term for each check (R10, R105, R108) -/

theorem test_wf_count_zero (fn : FnIndex) (inc : Bool) (addr : BusAddr) (side : Side) :
    (Instr.blkRdByte fn inc addr 0 side).wf = false ∧ (Instr.blkRdBlock fn inc addr 0 side).wf = false ∧
    (Instr.blkWrByte fn inc addr 0 side).wf = false ∧ (Instr.blkWrBlock fn inc addr 0 side).wf = false :=
  ⟨rfl, rfl, rfl, rfl⟩

theorem test_wf_size : (Instr.blockRead 0 ⟨0, 0⟩ (2 ^ 32)).wf = false ∧ (Instr.blockWrite 0 ⟨0, 0⟩ (2 ^ 32)).wf = false ∧
    (Instr.blockRead 0 ⟨0, 0⟩ (2 ^ 32 - 1)).wf = true := by decide

theorem test_cfg0_wf : Cfg.cfg0.wf = true := by decide

theorem test_cfg_window : ({ Cfg.cfg0 with winData := ⟨0, 0x10E⟩ } : Cfg).wf = false ∧
    ({ Cfg.cfg0 with winAddr0 := ⟨0, 0x1FFFE⟩ } : Cfg).wf = false ∧
    ({ Cfg.cfg0 with winData := ⟨1, 0x10F⟩ } : Cfg).wf = false := by decide

theorem test_cfg_lifecycle : ({ Cfg.cfg0 with resetReg := ⟨0, 0x10F⟩ } : Cfg).wf = false := by decide

theorem test_cfg_io : ({ Cfg.cfg0 with ioRdyMask := 0x03 } : Cfg).wf = false ∧
    ({ Cfg.cfg0 with ioRdyMask := 0 } : Cfg).wf = false ∧ ({ Cfg.cfg0 with ioEnVal := 0 } : Cfg).wf = false := by decide

theorem test_cfg_irqRegs : ({ Cfg.cfg0 with irqFlagsB := ⟨0, 0xF7⟩ } : Cfg).wf = false ∧
    ({ Cfg.cfg0 with vmmCtlB := ⟨0, 0xFE⟩ } : Cfg).wf = false ∧
    ({ Cfg.cfg0 with vmmCtlBDiag := ⟨0, 0xF1⟩ } : Cfg).wf = false := by decide

theorem test_cfg_vmmBits : ({ Cfg.cfg0 with aSel1Bit := 5 } : Cfg).wf = false ∧
    ({ Cfg.cfg0 with aSel0Bit := 4 } : Cfg).wf = false ∧ ({ Cfg.cfg0 with bEnBit := 0 } : Cfg).wf = false ∧
    ({ Cfg.cfg0 with bSel0Bit := 5, bSel1Bit := 6, bEnBit := 7 } : Cfg).wf = false := by decide

theorem test_cfg_chipId : ({ Cfg.cfg0 with chipIdPatB := 0x00100000 } : Cfg).wf = false ∧
    ({ Cfg.cfg0 with chipIdPatA := 0x00100001 } : Cfg).wf = false := by decide

theorem test_cfg_lines : ({ Cfg.cfg0 with en1BaseBit := 28 } : Cfg).wf = false ∧
    ({ Cfg.cfg0 with en2BaseBit := 30 } : Cfg).wf = false ∧ ({ Cfg.cfg0 with maxIntLines := 6 } : Cfg).wf = false := by
  decide

theorem test_cfg_direct : ({ Cfg.cfg0 with directHi := 0x20000 } : Cfg).wf = false := by decide

theorem test_cfg_count : ({ Cfg.cfg0 with maxCount := 510 } : Cfg).wf = false ∧
    ({ Cfg.cfg0 with maxCount := 512 } : Cfg).wf = false := by decide

/-! ### Decoding: words of V1, V2 and V3 -/

theorem test_decode_sbRd : decode .bus (.sb 0x03FFFE00) = .ok (.sbRd 0 0x1FFFF) := by decide
theorem test_decode_sbRd_fn : decode .bus (.sb 0x10000800) = .ok (.sbRd 1 0x04) := by decide
theorem test_decode_sbWr : decode .bus (.sb 0xF3FFFEFF) = .ok (.sbWr 7 0x1FFFF 0xFF) := by decide
theorem test_decode_sbWrRb : decode .bus (.sb 0x88000C08) = .ok (.sbWrRb 0 0x06 0x08) := by decide
theorem test_decode_blkRdByte : decode .bus (.blk 0x04021FFF ⟨512, ⟨0, 511⟩, 0⟩) =
    .ok (.blkRdByte 0 true 0x10F 511 ⟨512, ⟨0, 511⟩, 0⟩) := by decide
theorem test_decode_blkRdBlock : decode .bus (.blk 0x7FFFFFFF ⟨512, ⟨0, 9⟩, 0⟩) =
    .ok (.blkRdBlock 7 true 0x1FFFF 511 ⟨512, ⟨0, 9⟩, 0⟩) := by decide
theorem test_decode_blkWrByte : decode .bus (.blk 0x90000004 ⟨512, ⟨0, 4⟩, 0⟩) =
    .ok (.blkWrByte 1 false 0 4 ⟨512, ⟨0, 4⟩, 0⟩) := by decide
theorem test_decode_blkWrBlock : decode .bus (.blk 0x8C021E02 ⟨512, ⟨0, 1024⟩, 0⟩) =
    .ok (.blkWrBlock 0 true 0x10F 2 ⟨512, ⟨0, 1024⟩, 0⟩) := by decide
theorem test_decode_readWithRaw : decode .bus (.sb 0x08000000) = .error .readWithRaw := by decide
theorem test_decode_z0 : decode .bus (.sb 0x80000100) = .error .reservedBit := by decide
theorem test_decode_z1 : decode .bus (.sb 0x84000000) = .error .reservedBit := by decide
theorem test_decode_count_zero : decode .bus (.blk 0x94000000 ⟨512, ⟨0, 4⟩, 0⟩) = .error .countZero := by decide

/-- Serialisation of `0x88000C08` (V1, R107), and a serialised command that is no word (R112). -/
theorem test_serialise : wordBytes 0x88000C08 = [0x08, 0x0C, 0x00, 0x88] ∧
    wordOfBytes [0x08, 0x0C, 0x00, 0x88] = .ok 0x88000C08 ∧ wordOfBytes [0x08, 0x0C, 0x00] = .error .notOneWord := by
  decide

/-- The operands of the requests that carry any (R108). -/
def args : Args := { resume := true, addr := 0x30000, word := 0xA1, buf := ⟨5, 12⟩, size := 10, mask := 0xE3, n := 7 }

/-- The `opsel` numbers of R108. -/
theorem test_decode_opsel : decode .host (.hostop 0 args) = .ok (.init true) ∧ decode .host (.hostop 1 args) = .ok .deinit ∧
    decode .host (.hostop 2 args) = .ok (.readReg 0x30000) ∧ decode .host (.hostop 3 args) = .ok (.writeReg 0x30000 0xA1) ∧
    decode .host (.hostop 4 args) = .ok (.blockRead 0x30000 ⟨5, 12⟩ 10) ∧
    decode .host (.hostop 5 args) = .ok (.blockWrite 0x30000 ⟨5, 12⟩ 10) ∧
    decode .host (.hostop 6 args) = .ok .readInterruptStatus ∧
    decode .host (.hostop 7 args) = .ok (.clearInterrupts 0xE3) ∧ decode .host (.hostop 8 args) = .ok .readPendingSize ∧
    decode .host (.hostop 9 args) = .ok (.syncInterrupts 7) ∧ decode .host (.hostop 10 args) = .ok .enableInterrupts ∧
    decode .host (.hostop 11 args) = .ok .disableInterrupts ∧ decode .host (.hostop 12 args) = .ok .reset ∧
    decode .host (.hostop 13 args) = .ok .isInitialized ∧ decode .pm (.hostop 14 args) = .ok .suspend ∧
    decode .pm (.hostop 15 args) = .ok .resume := by decide

/-- No command word is an instruction on the HOST or the PM port: the encoder is not reachable from there (R155). -/
theorem test_decode_command_port : decode .host (.sb 0x88000C08) = .error .wrongPort ∧
    decode .pm (.blk 0x04021FFF ⟨512, ⟨0, 511⟩, 0⟩) = .error .wrongPort ∧
    decode .bus (.hostop 13 args) = .error .wrongPort := by decide

/-- The wrong port (R111e) and a size of `2^32` (R108). -/
theorem test_decode_rejects : decode .pm (.hostop 0 args) = .error .wrongPort ∧
    decode .host (.hostop 14 args) = .error .wrongPort ∧
    decode .host (.hostop 4 { args with size := 2 ^ 32 }) = .error .sizeOutOfRange := by decide

/-- Instructions from the opcode table's bits (R101, R103, R108). -/
theorem test_decode_table : decodeTableWord 32 0x88000C08 = some (.sbWrRb 0 0x06 0x08) ∧
    decodeTableWord 32 0x9C000001 = some (.blkWrBlock 1 true 0 1 Side.ofTable) ∧
    decodeTableWord 8 13 = some .isInitialized ∧ decodeTableWord 8 15 = some .resume := by decide

/-! ### One step each -/

/-- What left the block. -/
def outs : Host.Outcome State Fault Refusal → List Output
  | .next t => t.out
  | _ => []

/-- The command words on the bus. -/
def words (o : Host.Outcome State Fault Refusal) : List Word :=
  (outs o).filterMap (fun x => match x with | .bus c => some c.arg | _ => none)

/-- The answer given last. -/
def answer (o : Host.Outcome State Fault Refusal) : Option Answer :=
  (outs o).foldl (fun a x => match x with | .response _ b => some b | _ => a) none

/-- A value of the next state. -/
def read {α : Type} (f : State → α) : Host.Outcome State Fault Refusal → Option α
  | .next t => some (f t)
  | _ => none

/-- A handle after `init` found a variant, with a routing mode and a line count. -/
def ready (v : Variant) (gpio : Bool) (n : Nat) : State :=
  { State.reset with
    cfg := { Cfg.cfg0 with gpioIrq := gpio }
    h := { State.reset.h with
      variant := v, gpioIrq := gpio, nint := n, blockSize := some 512, initialized := true, life := .ready } }

/-- A state over a device. -/
def on (s : State) (d : Device) : State := { s with dev := d }

/-- The device ready for `init`, with four bytes at `CHIP[0x1000]`; every one of them not 0 is a cell. -/
def chipDev (id : List Byte) : Device :=
  { Device.blank with fn := [(3, 0x02)], chip := Memory.writeBytes [] 0x1000 id }

theorem test_sbRd : (words (exec (.sbRd 0 0xF2) (on State.reset { Device.blank with dmaCnt := 0x0010 })),
    read (fun t => t.reply.bytes) (exec (.sbRd 0 0xF2) (on State.reset { Device.blank with dmaCnt := 0x0010 }))) =
    ([0x0001E400], some [0x10]) := by decide

theorem test_sbWr : (words (exec (.sbWr 0 0x100 0x80) State.reset),
    read (fun t => (t.dev.fn.read 0x100, t.reply.bytes)) (exec (.sbWr 0 0x100 0x80) State.reset)) =
    ([0x80020080], some (0x80, [])) := by decide

theorem test_sbWrRb : (words (exec (.sbWrRb 0 0x06 0x08) State.reset),
    read (fun t => t.reply) (exec (.sbWrRb 0 0x06 0x08) State.reset)) = ([0x88000C08], some ⟨true, [0x08]⟩) := by decide

/-- Four bytes of the queue into the buffer (V2, R91). -/
theorem test_blkRdByte : read (fun t => (t.out, t.buf, t.dev.fifo))
    (exec (.blkRdByte 1 true 0 4 ⟨512, ⟨8, 6⟩, 2⟩) (on State.reset { Device.blank with fifo := [1, 2, 3, 4, 5] })) =
    some ([.bus ⟨.blk, 0x14000004, some 512, []⟩], [(10, 1), (11, 2), (12, 3), (13, 4)], [5]) := by decide

/-- One block of two bytes (V2 with a smaller block size). -/
theorem test_blkRdBlock : read (fun t => (t.out, t.buf, t.dev.fifo))
    (exec (.blkRdBlock 1 true 0 1 ⟨2, ⟨0, 2⟩, 0⟩) (on State.reset { Device.blank with fifo := [1, 2, 3] })) =
    some ([.bus ⟨.blk, 0x1C000001, some 2, []⟩], [(0, 1), (1, 2)], [3]) := by decide

theorem test_blkWrByte : read (fun t => (t.out, t.dev.fifo))
    (exec (.blkWrByte 1 true 0 4 ⟨512, ⟨0, 4⟩, 0⟩) { State.reset with buf := [(0, 7), (3, 9)] }) =
    some ([.bus ⟨.blk, 0x94000004, some 512, [7, 0, 0, 9]⟩], [7, 0, 0, 9]) := by decide

theorem test_blkWrBlock : read (fun t => (t.out, t.dev.fifo))
    (exec (.blkWrBlock 1 true 0 1 ⟨3, ⟨0, 4⟩, 1⟩) { State.reset with buf := [(0, 7), (3, 9)] }) =
    some ([.bus ⟨.blk, 0x9C000001, some 3, [0, 0, 9]⟩], [0, 0, 9]) := by decide

/-- V70. -/
theorem test_init_variantA : (words (exec (.init false) (on State.reset (chipDev [0xA0, 0x02, 0x10, 0x00]))),
    answer (exec (.init false) (on State.reset (chipDev [0xA0, 0x02, 0x10, 0x00]))),
    read (fun t => t.h) (exec (.init false) (on State.reset (chipDev [0xA0, 0x02, 0x10, 0x00])))) =
    ([0x80020080, 0x80002000, 0x80002202, 0x80000402, 0x00000600, 0x80022000, 0x80022202, 0x80000803, 0x80021800,
      0x80021A10, 0x80021C00, 0x04021E04], some (.ok .unit), some (ready .a true 0).h) := by decide

/-- V73. -/
theorem test_init_resume_unknown :
    (words (exec (.init true) { State.reset with draws := [.reference, .reference, .reference, .reference,
      .scripted true [0] 0, .scripted true [0] 0, .scripted true [2] 0] }),
     answer (exec (.init true) { State.reset with draws := [.reference, .reference, .reference, .reference,
      .scripted true [0] 0, .scripted true [0] 0, .scripted true [2] 0] })) =
    ([0x80020080, 0x80002000, 0x80002202, 0x80000402, 0x00000600, 0x00000600, 0x00000600, 0x80022000, 0x80022202,
      0x80000803], some (.fail .eUnsupportedChip)) := by decide

/-- V76. -/
theorem test_deinit : (words (exec .deinit (ready .a true 7)), read (fun t => t.h) (exec .deinit (ready .a true 7))) =
    ([], some { (ready .a true 7).h with initialized := false, life := .uninitialized }) := by decide

/-- V13. -/
theorem test_readReg_windowed :
    (words (exec (.readReg 0x1408) (on State.reset { Device.blank with chip := [(0x1409, 1)] })),
     answer (exec (.readReg 0x1408) (on State.reset { Device.blank with chip := [(0x1409, 1)] }))) =
    ([0x80021808, 0x80021A14, 0x80021C00, 0x04021E04], some (.ok (.word 0x00000100))) := by decide

/-- V15. -/
theorem test_readReg_direct : (words (exec (.readReg 0xF2) (on State.reset { Device.blank with dmaCnt := 0x10 })),
    answer (exec (.readReg 0xF2) (on State.reset { Device.blank with dmaCnt := 0x10 }))) =
    ([0x0001E400], some (.ok (.word 0x00000010))) := by decide

/-- V14: address bits 31:24 are dropped. -/
theorem test_writeReg_windowed : (words (exec (.writeReg 0x01001408 0xDEADBEEF) State.reset),
    read (fun t => t.dev.chip) (exec (.writeReg 0x01001408 0xDEADBEEF) State.reset)) =
    ([0x80021808, 0x80021A14, 0x80021C00, 0x84021E04],
      some [(0x1408, 0xEF), (0x1409, 0xBE), (0x140A, 0xAD), (0x140B, 0xDE)]) := by decide

/-- V15. -/
theorem test_writeReg_direct : (words (exec (.writeReg 0xF8 0x123456A1) State.reset),
    answer (exec (.writeReg 0xF8 0x123456A1) State.reset)) = ([0x8001F0A1], some (.ok .unit)) := by decide

/-- V30: the read half, twelve bytes for a size of 10. -/
theorem test_blockRead : (words (exec (.blockRead 0x30000 ⟨0, 12⟩ 10)
      (on (ready .a true 0) { Device.blank with chip := [(0x30001, 7), (0x3000B, 0x4D)] })),
    read (fun t => t.buf) (exec (.blockRead 0x30000 ⟨0, 12⟩ 10)
      (on (ready .a true 0) { Device.blank with chip := [(0x30001, 7), (0x3000B, 0x4D)] }))) =
    ([0x80021800, 0x80021A00, 0x80021C03, 0x04021E0C], some [(1, 7), (11, 0x4D)]) := by decide

/-- V28. -/
theorem test_blockRead_unset : (words (exec (.blockRead 0 ⟨0, 4⟩ 4) State.reset),
    answer (exec (.blockRead 0 ⟨0, 4⟩ 4) State.reset)) = ([], some (.fail .eTransport)) := by decide

/-- V22. -/
theorem test_blockWrite : (words (exec (.blockWrite 0x30000 ⟨0, 12⟩ 10) { ready .a true 0 with buf := [(11, 0x4D)] }),
    read (fun t => t.dev.chip) (exec (.blockWrite 0x30000 ⟨0, 12⟩ 10) { ready .a true 0 with buf := [(11, 0x4D)] })) =
    ([0x80021800, 0x80021A00, 0x80021C03, 0x84021E0C], some [(0x3000B, 0x4D)]) := by decide

/-- V25, over a buffer of zeros: two phases, the window advanced. -/
theorem test_blockWrite_phases : words (exec (.blockWrite 0x30000 ⟨0, 1032⟩ 1030) (ready .a true 0)) =
    [0x80021800, 0x80021A00, 0x80021C03, 0x8C021E02, 0x80021800, 0x80021A04, 0x80021C03, 0x84021E08] := by decide

/-- V41. -/
theorem test_readInterruptStatus_gpio : (words (exec .readInterruptStatus { ready .a true 5 with
      draws := [.scripted true [0x10] 0, .scripted true [0x00] 0, .scripted true [0xE5] 0] }),
    answer (exec .readInterruptStatus { ready .a true 5 with
      draws := [.scripted true [0x10] 0, .scripted true [0x00] 0, .scripted true [0xE5] 0] })) =
    ([0x0001E400, 0x0001E600, 0x0001EE00], some (.ok (.status 0x00050010))) := by decide

/-- V47. -/
theorem test_readInterruptStatus_register : (answer (exec .readInterruptStatus { ready .a false 1 with
      draws := [.scripted true [0x34] 0, .scripted true [0x12] 0, .scripted true [0x04] 0] }),
    read (fun t => t.log) (exec .readInterruptStatus { ready .a false 1 with
      draws := [.scripted true [0x34] 0, .scripted true [0x12] 0, .scripted true [0x04] 0] })) =
    (some (.ok (.status 0x00021234)), some [.unexpectedIrq 0x00021234 0x04]) := by decide

/-- V51. -/
theorem test_clearInterrupts_a : words (exec (.clearInterrupts 0xA1) (ready .a false 5)) = [0x8001F0A0] := by decide

/-- V58. -/
theorem test_clearInterrupts_b : words (exec (.clearInterrupts 0xE3) (ready .b true 5)) = [0x8001FC03, 0x8001E207] := by
  decide

/-- V47's count. -/
theorem test_readPendingSize : (words (exec .readPendingSize (on State.reset { Device.blank with dmaCnt := 0x1234 })),
    answer (exec .readPendingSize (on State.reset { Device.blank with dmaCnt := 0x1234 }))) =
    ([0x0001E400, 0x0001E600], some (.ok (.count 0x1234))) := by decide

/-- V80. -/
theorem test_syncInterrupts : ((words (exec (.syncInterrupts 7) (ready .a true 0))).length,
    read (fun t => (t.dev.chip, t.h.nint)) (exec (.syncInterrupts 7) (ready .a true 0))) =
    (24, some ([(0x1409, 0x01), (0x1A03, 0xF8), (0x1A84, 0x03)], 7)) := by decide

/-- V85. -/
theorem test_syncInterrupts_nine : (answer (exec (.syncInterrupts 9) (ready .a true 5)),
    read (fun t => (t.log, t.h.nint)) (exec (.syncInterrupts 9) (ready .a true 5))) =
    (some (.fail .eTooManyLines), some ([.tooManyLines 9], 5)) := by decide

/-- V100. -/
theorem test_enableInterrupts : (outs (exec .enableInterrupts State.reset),
    read (fun t => (t.h.lock, t.h.cbRegistered)) (exec .enableInterrupts State.reset)) =
    ([.irqRegister, .response (.thread 0) (.ok .unit)], some (.free, true)) := by decide

/-- V103. -/
theorem test_disableInterrupts : (outs (exec .disableInterrupts { State.reset with
      h := { State.reset.h with cbRegistered := true } }),
    read (fun t => (t.h.lock, t.h.cbRegistered)) (exec .disableInterrupts { State.reset with
      h := { State.reset.h with cbRegistered := true } })) =
    ([.irqUnregister, .response (.thread 0) (.ok .unit)], some (.free, false)) := by decide

/-- V77, the failing write. -/
theorem test_reset : (words (exec .reset { ready .a true 5 with draws := [.scripted false [] 0] }),
    answer (exec .reset { ready .a true 5 with draws := [.scripted false [] 0] }),
    read (fun t => t.h.initialized) (exec .reset { ready .a true 5 with draws := [.scripted false [] 0] })) =
    ([0x88000C08], some (.fail .eTransport), some false) := by decide

/-- V70's last line. -/
theorem test_isInitialized : answer (exec .isInitialized (ready .a true 0)) = some (.ok (.bool true)) := by decide

/-- R258: the handshakes, then the reset write. -/
theorem test_suspend : outs (exec .suspend { ready .a true 5 with cur := .pm }) =
    [.pmHandshakes, .bus ⟨.sb, 0x88000C08, none, []⟩, .response .pm (.ok .unit)] := by decide

/-- R259: steps 1 to 6 without the identifier, then the lines as before (V81 for 0 lines). -/
theorem test_resume : (words (exec .resume (on { ready .a true 0 with cur := .pm } (chipDev []))),
    answer (exec .resume (on { ready .a true 0 with cur := .pm } (chipDev [])))) =
    ([0x80020080, 0x80002000, 0x80002202, 0x80000402, 0x00000600, 0x80022000, 0x80022202, 0x80000803,
      0x80021808, 0x80021A14, 0x80021C00, 0x04021E04, 0x80021808, 0x80021A14, 0x80021C00, 0x84021E04,
      0x80021800, 0x80021A1A, 0x80021C00, 0x04021E04, 0x80021800, 0x80021A1A, 0x80021C00, 0x84021E04],
      some (.ok .unit)) := by decide

/-- An instruction placed by the table's bits is the next step's. -/
theorem test_withFetchWord : words (step (State.reset.withFetchWord 32 0x88000C08)) = [0x88000C08] ∧
    answer (step (State.reset.withFetchWord 8 13)) = some (.ok (.bool false)) := by decide

/-- A bus command a thread delivers is refused with the mark, with nothing on the bus (R155, log 12); an agent beside the
operations issues it (R350, log 26). -/
theorem test_bus_command_agent :
    outs (step { State.reset with agenda := [.deliver (.thread 0) (.sb 0x88000C08)] }) =
      [.response (.thread 0) (.refused .wrongPort)] ∧
    words (step { State.reset with agenda := [.command (.sb 0x88000C08)] }) = [0x88000C08] := by decide

/-- A detach while only an agent outside the block owns the bus (R342, U28 names no such case; log 29). -/
theorem test_detach_outside_owner :
    read (fun t => t.attached) (step { State.reset with busOwner := some .outside, agenda := [.detach] }) = some false := by
  decide

/-! ### Witnesses: concrete states and operands that meet the hypotheses of each statement -/

/-- An outcome that is a next state has that state. -/
theorem next_of {o : Host.Outcome State Fault Refusal} (h : (read (fun _ => ()) o).isSome = true) : ∃ t, o = .next t := by
  cases o with
  | next t => exact ⟨t, rfl⟩
  | fault f => cases h
  | refused r => cases h

/-- `OkNext` at a literal count. -/
theorem okNext_of {s : State} {n : Nat} (h : (List.range n).all (fun k => (s.draw k).outcome) = true) : OkNext s n := by
  intro k hk
  exact List.all_eq_true.mp h k (List.mem_range.mpr hk)

/-- `FailsAt` at a literal count. -/
theorem failsAt_of {s : State} {n : Nat} (h : (List.range n).all (fun k => (s.draw k).outcome) = true)
    (hf : (s.draw n).outcome = false) : FailsAt s n := ⟨okNext_of h, hf⟩

/-- A ready state of variant A in GPIO mode, the chip at hand. -/
def s0 : State := on (ready .a true 5) (chipDev [0xA0, 0x02, 0x10, 0x00])

/-- The same with coming answers. -/
def s0With (l : List Draw) : State := { s0 with draws := l }

/-- An answer with no bytes. -/
def okDraw : Draw := .scripted true [] 0

theorem s0_wf : s0.cfg.wf = true := by decide
theorem s0_ready : Ready s0 := ⟨by decide, by decide⟩
theorem s0With_ready (l : List Draw) : Ready (s0With l) := ⟨rfl, rfl⟩

theorem witness_DecodeOfEncodeIsIdentity : (Instr.blkRdByte 7 true 0x1FFFF 1 ⟨512, ⟨0, 1⟩, 0⟩).wf = true ∧
    (Instr.blkWrBlock 0 false 0 511 ⟨512, ⟨0, 0⟩, 0⟩).wf = true ∧ (Instr.blockRead 0 ⟨0, 0⟩ (2 ^ 32 - 1)).wf = true := by
  decide

theorem witness_CommandWordsByMask : Port.host ≠ .bus ∧ Port.pm ≠ .bus ∧
    0x03FFFE00#32 &&& 0x8C000100#32 = 0x00000000#32 ∧ 0xF3FFFEFF#32 &&& 0x8C000100#32 = 0x80000000#32 ∧
    0x88000C08#32 &&& 0x8C000100#32 = 0x88000000#32 ∧
    (0x08000000#32 &&& 0x8C000100#32 ≠ 0x00000000#32 ∧ 0x08000000#32 &&& 0x8C000100#32 ≠ 0x80000000#32 ∧
      0x08000000#32 &&& 0x8C000100#32 ≠ 0x88000000#32) ∧
    (0x94000000#32).extractLsb' 0 9 = 0#9 ∧
    ((0x14000001#32).extractLsb' 0 9 ≠ 0#9 ∧ 0x14000001#32 &&& 0x88000000#32 = 0x00000000#32) ∧
    ((0x7FFFFFFF#32).extractLsb' 0 9 ≠ 0#9 ∧ 0x7FFFFFFF#32 &&& 0x88000000#32 = 0x08000000#32) ∧
    ((0x94000004#32).extractLsb' 0 9 ≠ 0#9 ∧ 0x94000004#32 &&& 0x88000000#32 = 0x80000000#32) ∧
    ((0x9C0001FF#32).extractLsb' 0 9 ≠ 0#9 ∧ 0x9C0001FF#32 &&& 0x88000000#32 = 0x88000000#32) := by decide

/-- A state with one entry to take. -/
def next (s : State) (e : Event) : State := { s with agenda := [e] }

theorem witness_WrongPortRefused :
    (∀ e : Event, (next s0 e).cfg.wf = true ∧ (next s0 e).attached = true ∧ (next s0 e).agenda = e :: []) ∧
    (∀ e : Event, canCall (next s0 e) .pm = true ∧ canCall (next s0 e) (.thread 3) = true) ∧
    (OpSel.ofCode 0).port ≠ Requester.pm.port ∧ (OpSel.ofCode 15).port ≠ (Requester.thread 3).port ∧
    decode (Requester.thread 3).port (.hostop 4 { args with size := 2 ^ 32 }) = .error .sizeOutOfRange ∧
    decode .bus (.sb 0x08000000) = .error .readWithRaw ∧ Reject.sizeOutOfRange ≠ .wrongPort ∧
    Reject.readWithRaw ≠ .wrongPort :=
  ⟨fun _ => ⟨s0_wf, rfl, rfl⟩, fun _ => ⟨rfl, rfl⟩, by decide, by decide, by decide, by decide, by decide, by decide⟩

/-- An attached block in which a thread's operation waits for the bus, an agent outside the block owning it. -/
def held : State :=
  { s0 with ctxs := [(.thread 1, { Ctx.fresh with op := .reset, phase := .start })], busOwner := some .outside }

theorem witness_AttachValues :
    (let d := next { s0 with attached := false } (.attach 7)
     d.cfg.wf = true ∧ d.attached = false ∧ d.agenda = .attach 7 :: []) ∧
    (let o := next { s0 with busOwner := some .outside } .detach
     (∀ r, o.idle r = true) ∧ o.waiters = [] ∧ o.irq = .idle ∧ o.cfg.wf = true ∧ o.attached = true ∧
       o.agenda = .detach :: []) ∧
    held.idle (.thread 1) = false ∧ ({ s0 with waiters := [.pm] } : State).waiters ≠ [] ∧
    ({ s0 with irq := .entered } : State).irq ≠ .idle ∧
    ({ s0 with cfg := { s0.cfg with maxCount := 512 } } : State).cfg.wf = false :=
  ⟨⟨s0_wf, rfl, rfl⟩, ⟨fun _ => rfl, rfl, rfl, s0_wf, rfl, rfl⟩, by decide, by decide, by decide, by decide⟩

theorem witness_StepRunsDeliveredInstruction :
    (∀ e : Event, (next s0 e).cfg.wf = true ∧ (next s0 e).attached = true ∧ (next s0 e).agenda = e :: []) ∧
    canCall (next s0 (.deliver .pm (.hostop 15 args))) .pm = true ∧
    decode Requester.pm.port (.hostop 15 args) = .ok .resume ∧ decode .bus (.sb 0x0001E400) = .ok (.sbRd 0 0xF2) ∧
    (decodeTableWord 8 14 = some .suspend ∧ portRequester (Instr.port .suspend) = some .pm ∧ canCall s0 .pm = true) ∧
    (decodeTableWord 32 0x0001E400 = some (.sbRd 0 0xF2) ∧ portRequester (Instr.port (.sbRd 0 0xF2)) = none) ∧
    (canCall (next s0 (.accept (.thread 3) (.hostop 13 args))) (.thread 3) = true ∧
      decode (Requester.thread 3).port (.hostop 13 args) = .ok .isInitialized ∧
      Instr.request .isInitialized = some (.isInitialized, Args.zero)) ∧ s0.agenda = [] :=
  ⟨fun _ => ⟨s0_wf, rfl, rfl⟩, by decide, by decide, by decide, by decide, by decide, by decide, rfl⟩

/-- A dispatch in flight while a thread waits to disable. -/
def waiting : State :=
  { s0 with
    h := { s0.h with lock := .irqInFlight, cbRegistered := true }
    irq := .dispatched
    waiters := [.thread 1]
    ctxs := [(.thread 1, { Ctx.fresh with op := .disableInterrupts, phase := .start })]
    agenda := [.deliver (.thread 0) (.hostop 13 args), .dispatchDone] }

theorem witness_StepKeepsInvariant : BlockInv waiting ∧ ∃ t, step waiting = .next t := by
  refine ⟨?_, next_of (by decide)⟩
  constructor
  case phases =>
    intro r
    by_cases h : r = .thread 1
    · subst h; exact .inr rfl
    · exact .inl (by simp [State.idle, State.ctx, waiting, ctxGet, Ne.symm h, Ctx.fresh])
  case noRequester => intro r; simp [waiting, s0, on, ready, State.reset, State.attachWith]
  all_goals decide

theorem witness_RunIsAcceptThenAdvances : s0.cfg.wf = true ∧ s0.attached = true ∧ s0.agenda = [] ∧
    canCall s0 .pm = true ∧ decode Requester.pm.port (.hostop 15 args) = .ok .resume ∧
    Instr.request .resume = some (.resume, Args.zero) ∧ ∃ t, exec .resume { s0 with cur := .pm } = .next t :=
  ⟨by decide, by decide, by decide, by decide, by decide, by decide, next_of (by decide)⟩

theorem witness_HandleFieldWriters : (∃ t, exec .readInterruptStatus s0 = .next t) ∧
    (∀ r, Instr.readInterruptStatus ≠ .init r) ∧ (∀ n, Instr.readInterruptStatus ≠ .syncInterrupts n) ∧
    Instr.readInterruptStatus ≠ .deinit ∧ Instr.readInterruptStatus ≠ .reset ∧ Instr.readInterruptStatus ≠ .suspend ∧
    Instr.readInterruptStatus ≠ .resume ∧ Instr.readInterruptStatus ≠ .enableInterrupts ∧
    Instr.readInterruptStatus ≠ .disableInterrupts :=
  ⟨next_of (by decide), by simp, by simp, by decide, by decide, by decide, by decide, by decide, by decide⟩

theorem witness_InstructionFrame : (∃ t, exec (.blockRead 0x30000 ⟨4, 12⟩ 10) s0 = .next t) ∧
    Instr.blockRead 0x30000 ⟨4, 12⟩ 10 ≠ .disableInterrupts ∧ Requester.thread 1 ≠ s0.cur ∧
    3 < (filledRange (.blockRead 0x30000 ⟨4, 12⟩ 10)).1 ∧
    (filledRange (.blockRead 0x30000 ⟨4, 12⟩ 10)).1 + (filledRange (.blockRead 0x30000 ⟨4, 12⟩ 10)).2 ≤ 16 :=
  ⟨next_of (by decide), by decide, by decide, by decide, by decide⟩

theorem witness_DeviceMemoryFrame : s0.cfg.wf = true ∧ s0.dev.fn.wf = true ∧
    (∃ t, exec (.writeReg 0x1408 0xDEADBEEF) s0 = .next t) ∧ 7 ∉ storedKeys s0.cfg (.writeReg 0x1408 0xDEADBEEF) ∧
    ¬ storesChipAt s0 (.writeReg 0x1408 0xDEADBEEF) 0x140C ∧ storesChipAt s0 (.writeReg 0x1408 0xDEADBEEF) 0x140B ∧
    locKey s0.cfg.intClrA ∉ storedKeys s0.cfg (.writeReg 0x1408 0xDEADBEEF) ∧
    locKey s0.cfg.intAckB ∉ storedKeys s0.cfg (.writeReg 0x1408 0xDEADBEEF) ∧
    usesQueue (.writeReg 0x1408 0xDEADBEEF) = false := by
  refine ⟨by decide, by decide, next_of (by decide), by decide, ?_, ⟨by decide, 3, by decide, by decide⟩, by decide,
    by decide, by decide⟩
  rintro ⟨-, j, hj, hk⟩
  match j, hj with
  | 0, _ | 1, _ | 2, _ | 3, _ => exact absurd hk (by decide)

theorem witness_SingleByteReadReturnsByte : s0.busOwner = none ∧ s0.draw 0 = .reference ∧
    (s0With [.scripted false [0xAB] 0]).draw 0 = .scripted false (0xAB :: []) 0 ∧
    [s0.cfg.dmaCntLo, s0.cfg.dmaCntHi, s0.cfg.irqFlagsA, s0.cfg.irqFlagsB, s0.cfg.intStatus].Nodup ∧
    (⟨0, 0x100⟩ : Loc8) ∉
      [s0.cfg.dmaCntLo, s0.cfg.dmaCntHi, s0.cfg.irqFlagsA, s0.cfg.irqFlagsB, s0.cfg.intStatus] := by decide

theorem witness_SingleByteWriteStoresByte : s0.busOwner = none ∧ s0.dev.fn.wf = true ∧ (s0.draw 0).outcome = true ∧
    (s0With [.scripted false [] 0]).draw 0 = .scripted false [] 0 ∧
    (s0With [.scripted true [0xCD] 0]).draw 0 = .scripted true (0xCD :: []) 0 ∧ s0.cfg.intClrA ≠ s0.cfg.intAckB ∧
    (⟨0, 0x100⟩ : Loc8) ≠ s0.cfg.intClrA ∧ (⟨0, 0x100⟩ : Loc8) ≠ s0.cfg.intAckB := by decide

/-- One read of 511 bytes to come. -/
def sBytes : State := s0With [.scripted true (List.replicate 511 3) 0]

theorem witness_BlockReadFillsBuffer :
    (511 = (if false then (511#9).toNat * 512 else (511#9).toNat)) ∧ countAllowed sBytes.cfg (511#9).toNat = true ∧
    1 + 511 ≤ (⟨8, 512⟩ : BufRef).len ∧ sBytes.busOwner = none ∧ sBytes.buf.wf = true ∧ 9 = (⟨8, 512⟩ : BufRef).base + 1 ∧
    sBytes.draw 0 = .scripted true (List.replicate 511 3) 0 ∧ (List.replicate 511 (3 : Byte)).length = 511 :=
  ⟨rfl, by decide, by decide, rfl, by decide, rfl, rfl, List.length_replicate⟩

theorem witness_BlockReadFillsBuffer_blocks :
    (12 = (if true then (3#9).toNat * 4 else (3#9).toNat)) ∧ countAllowed s0.cfg (3#9).toNat = true ∧
    0 + 12 ≤ (⟨8, 12⟩ : BufRef).len ∧ s0.busOwner = none ∧ s0.buf.wf = true ∧ 8 = (⟨8, 12⟩ : BufRef).base + 0 ∧
    (s0With [.scripted false (List.replicate 12 3) 0]).draw 0 = .scripted false (List.replicate 12 3) 0 ∧
    (List.replicate 12 (3 : Byte)).length = 12 := by decide

/-- The reference device at the window, and at function 1 with twelve bytes queued and with eleven, a byte below and a byte
beyond the range. -/
theorem witness_BlockReadFillsBuffer_reference :
    s0.draw 0 = .reference ∧ (⟨0, 0x10F⟩ : Loc8) = s0.cfg.winData ∧ (⟨1, 0⟩ : Loc8) ≠ s0.cfg.winData ∧
    12 ≤ (on s0 { Device.blank with fifo := List.replicate 12 5 }).dev.fifo.length ∧
    (on s0 { Device.blank with fifo := List.replicate 11 5 }).dev.fifo.length < 12 ∧ 7 < 8 ∧ 8 + 12 ≤ 20 := by decide

theorem witness_BlockWriteSendsBuffer : (261632 = (if true then (511#9).toNat * 512 else (511#9).toNat)) ∧
    countAllowed s0.cfg (511#9).toNat = true ∧ 0 + 261632 ≤ (⟨0, 261632⟩ : BufRef).len ∧ s0.busOwner = none ∧
    (1 = (if false then (1#9).toNat * 512 else (1#9).toNat)) ∧ countAllowed s0.cfg (1#9).toNat = true := by decide

/-- The reference device at the window and at function 1. -/
theorem witness_BlockWriteSendsBuffer_reference : s0.draw 0 = .reference ∧ (⟨0, 0x10F⟩ : Loc8) = s0.cfg.winData ∧
    s0.dev.chip.wf = true ∧ 261632 ≤ 2 ^ 24 ∧ (⟨1, 0⟩ : Loc8) ≠ s0.cfg.winData := by decide

theorem witness_BlockCountRefused : ¬ (1 ≤ (0#9).toNat ∧ (0#9).toNat ≤ s0.cfg.maxCount) ∧
    ¬ (1 ≤ (8#9).toNat ∧ (8#9).toNat ≤ ({ s0 with cfg := { s0.cfg with maxCount := 7 } } : State).cfg.maxCount) ∧
    Instr.blkWrByte 1 true 0 0 ⟨512, ⟨0, 0⟩, 0⟩ ∈ [Instr.blkRdByte 1 true 0 0 ⟨512, ⟨0, 0⟩, 0⟩,
      .blkRdBlock 1 true 0 0 ⟨512, ⟨0, 0⟩, 0⟩, .blkWrByte 1 true 0 0 ⟨512, ⟨0, 0⟩, 0⟩,
      .blkWrBlock 1 true 0 0 ⟨512, ⟨0, 0⟩, 0⟩] := by decide

theorem witness_BusOwnerHoldsOthers :
    let o : State := { s0 with busOwner := some .irq }
    o.busOwner ≠ none ∧ o.idle o.cur = true ∧ (∃ t, exec .isInitialized o = .next t) ∧
    (needsBus o (.sbRd 0 0xF2) ∧ Instr.request (.sbRd 0 0xF2) = none) ∧
    (needsBus o (.blkWrBlock 1 true 0 511 ⟨512, ⟨0, 261632⟩, 0⟩) ∧
      Instr.request (.blkWrBlock 1 true 0 511 ⟨512, ⟨0, 261632⟩, 0⟩) = none) ∧
    (needsBus o (.blockRead 0 ⟨0, 12⟩ 10) ∧ Instr.request (.blockRead 0 ⟨0, 12⟩ 10) ≠ none) ∧
    needsBus o (.clearInterrupts 0xE3) ∧ needsBus o (.syncInterrupts 8) ∧ needsBus o .readInterruptStatus ∧
    needsBus o .disableInterrupts ∧ needsBus o .resume :=
  ⟨by decide, by decide, next_of (by decide), ⟨trivial, rfl⟩, ⟨⟨by decide, by decide⟩, rfl⟩,
    ⟨⟨512, rfl, by decide, by decide, fun _ => by decide⟩, by decide⟩, .inl ⟨rfl, by decide⟩,
    ⟨by decide, by decide, .inr rfl⟩, fun _ => by decide, ⟨by decide, by decide⟩, (by decide : s0.h.life ≠ .negotiating)⟩

theorem witness_DirectRegisterAccess : Ready s0 ∧ inDirect s0.cfg 0xF0 = true ∧ inDirect s0.cfg 0xFF = true ∧ OkNext s0 1 :=
  ⟨s0_ready, by decide, by decide, okNext_of (by decide)⟩

/-- One windowed read of a word to come. -/
def sWord : State := s0With [okDraw, okDraw, okDraw, .scripted true [1, 2, 3, 4] 0]

theorem witness_WindowedReadReg : Ready sWord ∧ sWord.cfg.wf = true ∧ inDirect sWord.cfg 0xEF = false ∧
    inDirect sWord.cfg 0x100 = false ∧ OkNext sWord 3 ∧ sWord.draw 3 = .scripted true [1, 2, 3, 4] 0 :=
  ⟨s0With_ready _, by decide, by decide, by decide, okNext_of (by decide), rfl⟩

theorem witness_ReadRegTargetsChipAddress : Ready s0 ∧ s0.cfg.wf = true ∧ s0.dev.fn.wf = true ∧
    inDirect s0.cfg 0xFFFFFFFF = false ∧ s0.draws = [] :=
  ⟨s0_ready, by decide, by decide, by decide, by decide⟩

theorem witness_WindowedWriteReg : Ready s0 ∧ s0.cfg.wf = true ∧ s0.dev.fn.wf = true ∧ s0.dev.chip.wf = true ∧
    inDirect s0.cfg 0x00FFFFFE = false ∧ OkNext s0 4 :=
  ⟨s0_ready, by decide, by decide, by decide, by decide, okNext_of (by decide)⟩

/-- The first transaction fails. -/
def sFail0 : State := s0With [.scripted false [] 0]

/-- The fourth transaction fails. -/
def sFail3 : State := s0With [okDraw, okDraw, okDraw, .scripted false [] 2]

/-- The direct range (the one command fails), the first and the last command through the window. -/
theorem witness_RegisterAccessFailure :
    (Ready sFail0 ∧ sFail0.cfg.wf = true ∧ FailsAt sFail0 0 ∧ inDirect sFail0.cfg 0xFF = true ∧
      0 < (readRegBus sFail0.cfg sFail0.h.blockSize 0xFF).length ∧
      0 < (writeRegBus sFail0.cfg sFail0.h.blockSize 0xFF 0xA1).length ∧
      0 < (readRegBus sFail0.cfg sFail0.h.blockSize 0x1408).length) ∧
    (Ready sFail3 ∧ sFail3.cfg.wf = true ∧ FailsAt sFail3 3 ∧ inDirect sFail3.cfg 0x1408 = false ∧
      3 < (readRegBus sFail3.cfg sFail3.h.blockSize 0x1408).length ∧
      3 < (writeRegBus sFail3.cfg sFail3.h.blockSize 0x1408 0xA1).length) :=
  ⟨⟨s0With_ready _, by decide, failsAt_of rfl rfl, by decide, by decide, by decide, by decide⟩,
    ⟨s0With_ready _, by decide, failsAt_of rfl rfl, by decide, by decide, by decide⟩⟩

theorem witness_TransferSplit : 0 < 1 ∧ 0 < 512 := by decide

theorem witness_BlockWriteTransactions : Ready s0 ∧ s0.h.blockSize = some 512 ∧ 0 < 512 ∧
    roundUp4 262140 ≤ (⟨0, 262140⟩ : BufRef).len ∧ roundUp4 262140 / 512 ≤ s0.cfg.maxCount ∧
    roundUp4 262140 % 512 ≤ s0.cfg.maxCount ∧ roundUp4 0 ≤ (⟨0, 0⟩ : BufRef).len ∧ OkNext s0 8 :=
  ⟨s0_ready, rfl, by decide, by decide, by decide, by decide, by decide, okNext_of (by decide)⟩

/-- A state whose answer number `k` fails, those before it `OK`. -/
def sFails (k : Nat) : State := s0With (List.replicate k okDraw ++ [.scripted false [] 0])

/-- The first phase stored, the second's block command fails (k = 7), and the first command fails (k = 0). -/
theorem witness_BlockWriteTransactions_failure : Ready (sFails 7) ∧ (sFails 7).h.blockSize = some 512 ∧
    roundUp4 513 ≤ (⟨0, 516⟩ : BufRef).len ∧ roundUp4 513 / 512 ≤ (sFails 7).cfg.maxCount ∧
    roundUp4 513 % 512 ≤ (sFails 7).cfg.maxCount ∧ Ready (sFails 0) ∧
    (7 < (transferOut s0.cfg 0x30000 true 512 (roundUp4 513) (s0.buf.readBytes 0 (roundUp4 513))).length ∧
      0 < (transferOut s0.cfg 0x30000 true 512 (roundUp4 513) (s0.buf.readBytes 0 (roundUp4 513))).length) ∧
    FailsAt (sFails 7) 7 ∧ FailsAt (sFails 0) 0 ∧ (0x30000 : Word) ≠ 0 ∧ roundUp4 513 ≤ 2 ^ 24 ∧
    (sFails 7).cfg.wf = true ∧ (sFails 7).dev.fn.wf = true ∧ (sFails 7).dev.chip.wf = true ∧
    0 < roundUp4 513 / 512 * 512 :=
  ⟨s0With_ready _, rfl, by decide, by decide, by decide, s0With_ready _, ⟨by simp [transferOut, phaseWindow, windowOut, roundUp4],
    by simp [transferOut, phaseWindow, windowOut, roundUp4]⟩,
    failsAt_of rfl rfl, failsAt_of rfl rfl, by decide, by decide, by decide, by decide, by decide, by decide⟩

/-- A block of 512 bytes, then four bytes, through the window, to come. -/
def sHalves : State := s0With [okDraw, okDraw, okDraw, .scripted true (List.replicate 512 1) 0, okDraw, okDraw, okDraw,
  .scripted true [1, 2, 3, 4] 0]

theorem witness_BlockReadTransactions : Ready sHalves ∧ sHalves.h.blockSize = some 512 ∧ 0 < 512 ∧
    sHalves.buf.wf = true ∧ roundUp4 513 ≤ (⟨0, 516⟩ : BufRef).len ∧ roundUp4 513 / 512 ≤ sHalves.cfg.maxCount ∧
    roundUp4 513 % 512 ≤ sHalves.cfg.maxCount ∧ 3 = (if (0x30000 : Word) = 0 then 0 else 3) ∧ OkNext sHalves 8 ∧
    (List.replicate 512 (1 : Byte)).length = roundUp4 513 / 512 * 512 ∧
    ([1, 2, 3, 4] : List Byte).length = roundUp4 513 % 512 ∧
    (∃ n, sHalves.draw 3 = .scripted true (List.replicate 512 1) n) ∧
    (∃ n, sHalves.draw (if roundUp4 513 / 512 = 0 then 3 else 2 * 3 + 1) = .scripted true [1, 2, 3, 4] n) :=
  ⟨s0With_ready _, rfl, by decide, by decide, by decide, by decide, by decide, by decide, okNext_of (by decide),
    List.length_replicate, by decide, ⟨0, rfl⟩, ⟨0, rfl⟩⟩

/-- The first phase read, the second's first command fails (k = 4). -/
def sHalfFails : State :=
  s0With [okDraw, okDraw, okDraw, .scripted true (List.replicate 512 1) 0, .scripted false [] 0]

theorem witness_BlockReadTransactions_failure : Ready sHalfFails ∧ sHalfFails.h.blockSize = some 512 ∧
    roundUp4 513 ≤ (⟨0, 516⟩ : BufRef).len ∧ roundUp4 513 / 512 ≤ sHalfFails.cfg.maxCount ∧
    roundUp4 513 % 512 ≤ sHalfFails.cfg.maxCount ∧ (List.replicate 512 (1 : Byte)).length = roundUp4 513 / 512 * 512 ∧
    Ready (sFails 0) ∧
    sHalfFails.buf.wf = true ∧ 4 < (transferOut s0.cfg 0x30000 false 512 (roundUp4 513) []).length ∧
    FailsAt sHalfFails 4 ∧ roundUp4 513 / 512 ≠ 0 ∧
    (∃ n, sHalfFails.draw 3 = .scripted true (List.replicate 512 1) n) ∧ FailsAt (sFails 0) 0 ∧ ¬ 3 < 0 :=
  ⟨s0With_ready _, rfl, by decide, by decide, by decide, List.length_replicate, s0With_ready _, by decide, by decide,
    failsAt_of rfl rfl, by decide, ⟨0, rfl⟩, failsAt_of rfl rfl, by decide⟩

/-- Four bytes from the queue to come. -/
def sQueue : State := s0With [.scripted true [1, 2, 3, 4] 0]

theorem witness_BlockReadTransactions_direct : Ready sQueue ∧ sQueue.h.blockSize = some 512 ∧ OkNext sQueue 8 ∧
    0 = (if (0 : Word) = 0 then 0 else 3) ∧ ([] : List Byte).length = roundUp4 1 / 512 * 512 ∧
    ([1, 2, 3, 4] : List Byte).length = roundUp4 1 % 512 ∧ ¬ roundUp4 1 / 512 ≠ 0 ∧
    (∃ n, sQueue.draw (if roundUp4 1 / 512 = 0 then 0 else 2 * 0 + 1) = .scripted true [1, 2, 3, 4] n) :=
  ⟨s0With_ready _, rfl, okNext_of (by decide), by decide, by decide, by decide, by decide, ⟨0, rfl⟩⟩

theorem witness_WindowedReadBack : Ready s0 ∧ s0.cfg.wf = true ∧ s0.h.blockSize = some 512 ∧ (0xFFFE00 : Word) ≠ 0 ∧
    s0.draws = [] ∧ s0.dev.fn.wf = true ∧ s0.dev.chip.wf = true ∧ s0.buf.wf = true ∧
    roundUp4 262140 ≤ (⟨0, 262140⟩ : BufRef).len ∧ roundUp4 262140 ≤ (⟨7, 262140⟩ : BufRef).len ∧
    roundUp4 262140 / 512 ≤ s0.cfg.maxCount :=
  ⟨s0_ready, by decide, rfl, by decide, rfl, by decide, by decide, by decide, by decide, by decide, by decide⟩

theorem witness_QueueReadBack : Ready s0 ∧ s0.cfg.wf = true ∧ s0.h.blockSize = some 512 ∧ s0.cfg.winData ≠ ⟨1, 0⟩ ∧
    s0.draws = [] ∧ s0.dev.fifo = [] ∧ s0.buf.wf = true ∧ roundUp4 2000 ≤ (⟨0, 2000⟩ : BufRef).len ∧
    roundUp4 2000 ≤ (⟨2000, 2000⟩ : BufRef).len ∧ roundUp4 2000 / 512 ≤ s0.cfg.maxCount :=
  ⟨s0_ready, by decide, rfl, by decide, rfl, rfl, by decide, by decide, by decide, by decide⟩

theorem witness_TransferWithoutBlockSize : State.reset.idle State.reset.cur = true ∧ State.reset.h.blockSize = none ∧
    Instr.blockRead 0 ⟨0, 4⟩ 4 ∈ [Instr.blockRead 0 ⟨0, 4⟩ 4, .blockWrite 0 ⟨0, 4⟩ 4] := by decide

theorem witness_OversizedBlockPhaseRefused : Ready s0 ∧ s0.h.blockSize = some 512 ∧
    roundUp4 262144 ≤ (⟨0, 262144⟩ : BufRef).len ∧ s0.cfg.maxCount < roundUp4 262144 / 512 ∧ OkNext s0 3 :=
  ⟨s0_ready, rfl, by decide, by decide, okNext_of (by decide)⟩

theorem witness_ShortBufferRefused : s0.idle s0.cur = true ∧ s0.h.blockSize = some 512 ∧
    (⟨0, 10⟩ : BufRef).len < roundUp4 10 ∧ countAllowed s0.cfg (4#9).toNat = true ∧
    (⟨0, 4⟩ : BufRef).len < 1 + (4#9).toNat ∧ (⟨0, 2047⟩ : BufRef).len < 0 + (4#9).toNat * 512 := by decide

/-- The three reads of a status: all succeed, or the first or the last fails. -/
theorem witness_PendingSizeIsTwoBytes : Ready s0 ∧ OkNext s0 2 ∧ Ready (sFails 0) ∧ FailsAt (sFails 0) 0 ∧
    Ready (sFails 1) ∧ FailsAt (sFails 1) 1 :=
  ⟨s0_ready, okNext_of (by decide), s0With_ready _, failsAt_of rfl rfl, s0With_ready _, failsAt_of rfl rfl⟩

theorem witness_GpioInterruptStatus : Ready s0 ∧ OkNext s0 3 ∧ s0.h.gpioIrq = true ∧ s0.h.variant = .a ∧
    Ready (ready .b true 0) ∧ OkNext (ready .b true 0) 3 ∧ (ready .b true 0).h.gpioIrq = true ∧
    (ready .b true 0).h.variant = .b ∧ (sFails 2).h.gpioIrq = true ∧ (sFails 2).h.variant = .a ∧
    Ready (sFails 2) ∧ FailsAt (sFails 2) 2 :=
  ⟨s0_ready, okNext_of (by decide), rfl, rfl, ⟨by decide, by decide⟩, okNext_of (by decide), rfl, rfl, rfl, rfl,
    s0With_ready _, failsAt_of rfl rfl⟩

/-- A status-register state with flag 4 (register bit 5) set, and a line count. -/
def sFlag (n : Nat) : State := on (ready .unknown false n) { Device.blank with flags := 0x10 }

theorem witness_StatusRegisterInterruptStatus : Ready (sFlag 4) ∧ OkNext (sFlag 4) 3 ∧ (sFlag 4).h.gpioIrq = false ∧
    ((sFlag 4).readAnswer 2 (sFlag 4).cfg.intStatus).byte = 0x20 ∧
    (∃ i, (sFlag 4).h.nint ≤ i ∧ i ≤ 4 ∧ (0x00100000 : Word).getLsbD (16 + i) = true) :=
  ⟨⟨rfl, rfl⟩, okNext_of rfl, rfl, by decide, ⟨4, by decide, by decide, by decide⟩⟩

/-- The last of the three reads fails, in status-register mode. -/
def sFlagFails : State := { sFlag 5 with draws := [okDraw, okDraw, .scripted false [] 0] }

theorem witness_StatusRegisterInterruptStatus_failure : Ready sFlagFails ∧ sFlagFails.h.gpioIrq = false ∧
    FailsAt sFlagFails 2 :=
  ⟨⟨rfl, rfl⟩, rfl, failsAt_of rfl rfl⟩

theorem witness_StatusRegisterInterruptStatus_expected : Ready (sFlag 5) ∧ OkNext (sFlag 5) 3 ∧
    (sFlag 5).h.gpioIrq = false ∧ ((sFlag 5).readAnswer 2 (sFlag 5).cfg.intStatus).byte = 0x20 ∧
    ¬ (∃ i, (sFlag 5).h.nint ≤ i ∧ i ≤ 4 ∧ (0x00100000 : Word).getLsbD (16 + i) = true) :=
  ⟨⟨rfl, rfl⟩, okNext_of rfl, rfl, by decide, fun ⟨_, h1, h2, _⟩ => absurd (le_trans h1 h2) (by decide)⟩

theorem witness_UnknownVariantRefused : State.reset.idle State.reset.cur = true ∧ State.reset.h.variant = .unknown ∧
    State.reset.h.gpioIrq = true ∧ 8 ≤ State.reset.cfg.maxIntLines := by decide

/-- Of the masks: nothing to write; a value to write, and the write succeeds or fails. -/
theorem witness_ClearInterruptsVariantA : Ready s0 ∧ s0.h.variant = .a ∧ valueA s0.cfg s0.h.gpioIrq 0xFFFFFF00 = 0 ∧
    valueA s0.cfg s0.h.gpioIrq 0xE3 ≠ 0 ∧ (s0.draw 0).outcome = true ∧ s0.cfg.intClrA ≠ s0.cfg.intAckB ∧
    Ready (sFails 0) ∧ (sFails 0).h.variant = .a ∧ ((sFails 0).draw 0).outcome = false :=
  ⟨s0_ready, rfl, by decide, by decide, by decide, by decide, s0With_ready _, rfl, rfl⟩

/-- Variant B, with answers to come. -/
def sB (l : List Draw) : State := { ready .b true 5 with draws := l }

/-- Both writes are issued (mask `0xE3`), one (`0x03`, `0xE0`); the second of two fails. -/
theorem witness_ClearInterruptsVariantB : Ready (sB []) ∧ (sB []).h.variant = .b ∧ OkNext (sB []) 2 ∧
    (sB []).cfg.intClrA ∉ [(sB []).cfg.intAckB, (sB []).cfg.vmmCtlB] ∧ (sB []).cfg.vmmCtlB ≠ (sB []).cfg.intAckB ∧
    ackB Cfg.cfg0 0xE3 ≠ 0 ∧ vmmB Cfg.cfg0 0xE3 ≠ 0 ∧ vmmB Cfg.cfg0 0x03 = 0 ∧ ackB Cfg.cfg0 0xE0 = 0 ∧
    Ready (sB [okDraw, .scripted false [] 1]) ∧ FailsAt (sB [okDraw, .scripted false [] 1]) 1 :=
  ⟨⟨rfl, rfl⟩, rfl, okNext_of rfl, by decide, by decide, by decide, by decide, by decide, by decide, ⟨rfl, rfl⟩,
    failsAt_of rfl rfl⟩

theorem witness_ClearNothingWritesNothing : s0.idle s0.cur = true ∧ s0.h.variant ≠ .unknown ∧
    (0xFFFFFF00 : Word).extractLsb' 0 8 = 0#8 ∧ (ready .a false 5).h.gpioIrq = false ∧
    (0x1F : Word).extractLsb' 5 3 = 0#3 ∧ ∃ t, exec (.clearInterrupts 0xE3) s0 = .next t :=
  ⟨by decide, by decide, by decide, rfl, by decide, next_of (by decide)⟩

/-- The answers of an `init` whose ready bit is seen at poll 3, the identifier's bytes last. -/
def initDraws (id : List Byte) : List Draw :=
  [okDraw, okDraw, okDraw, okDraw, .scripted true [0] 0, .scripted true [0xFD] 0, .scripted true [0x02] 0, okDraw, okDraw,
    okDraw, okDraw, okDraw, okDraw, .scripted true id 0]

/-- A fresh handle over such answers, its ready bit seen at poll 3 (p = 2). -/
def sInit (id : List Byte) : State := { State.reset with draws := initDraws id }

theorem witness_InitIdentifiesChip : Ready (sInit [0xA0, 0x02, 0x10, 0x00]) ∧
    (sInit [0xA0, 0x02, 0x10, 0x00]).cfg.wf = true ∧ (sInit [0xA0, 0x02, 0x10, 0x00]).h.life ≠ .negotiating ∧
    inDirect (sInit [0xA0, 0x02, 0x10, 0x00]).cfg (sInit [0xA0, 0x02, 0x10, 0x00]).cfg.chipIdReg = false ∧ 2 < 3 ∧
    OkNext (sInit [0xA0, 0x02, 0x10, 0x00]) (2 + 11) ∧
    (sInit [0xA0, 0x02, 0x10, 0x00]).draw 4 = .scripted true [0] 0 ∧
    (sInit [0xA0, 0x02, 0x10, 0x00]).draw 5 = .scripted true [0xFD] 0 ∧
    (sInit [0xA0, 0x02, 0x10, 0x00]).draw 6 = .scripted true [0x02] 0 ∧ 0x00#8 &&& Cfg.cfg0.ioRdyMask = 0 ∧
    0xFD#8 &&& Cfg.cfg0.ioRdyMask = 0 ∧ 0x02#8 &&& Cfg.cfg0.ioRdyMask ≠ 0 ∧
    (sInit [0xA0, 0x02, 0x10, 0x00]).draw (2 + 11) = .scripted true [0xA0, 0x02, 0x10, 0x00] 0 ∧
    0x001002A0#32 &&& Cfg.cfg0.chipIdMask = Cfg.cfg0.chipIdPatA :=
  ⟨⟨rfl, rfl⟩, by decide, by decide, by decide, by decide, okNext_of rfl, rfl, rfl, rfl, by decide, by decide, by decide,
    rfl, by decide⟩

/-- The other two cases of the identifier (V71, V72). -/
theorem witness_InitIdentifiesChip_others : Ready (sInit [0xB0, 0x00, 0x30, 0x00]) ∧
    (sInit [0xB0, 0x00, 0x30, 0x00]).draw (2 + 11) = .scripted true [0xB0, 0x00, 0x30, 0x00] 0 ∧
    0x003000B0#32 &&& Cfg.cfg0.chipIdMask = Cfg.cfg0.chipIdPatB ∧
    (sInit [0x00, 0x00, 0x20, 0x00]).draw (2 + 11) = .scripted true [0x00, 0x00, 0x20, 0x00] 0 ∧
    0x00200000#32 &&& Cfg.cfg0.chipIdMask ≠ Cfg.cfg0.chipIdPatA ∧
    0x00200000#32 &&& Cfg.cfg0.chipIdMask ≠ Cfg.cfg0.chipIdPatB :=
  ⟨⟨rfl, rfl⟩, rfl, by decide, rfl, by decide, by decide⟩

/-- A handle whose device's ready bit is set at the first poll. -/
def sReady (h : Handle) : State :=
  { State.reset with h := h, draws := [okDraw, okDraw, okDraw, okDraw, .scripted true [0x02] 0] }

/-- The bytes of the polls at which the ready bit is seen last. -/
def pollBytes : Nat → Byte
  | 0 => 0
  | 1 => 0xFD
  | _ => 0x02

/-- A handle whose device's ready bit is set at the third poll. -/
def sReady3 (h : Handle) : State :=
  { State.reset with
    h := h, draws := [okDraw, okDraw, okDraw, okDraw, .scripted true [0] 0, .scripted true [0xFD] 0, .scripted true [2] 0] }

/-- The ready bit at the first poll (p = 0), the variant known or not. -/
theorem witness_InitResumeSkipsIdentification : Ready (sReady s0.h) ∧ (sReady s0.h).h.life ≠ .negotiating ∧ 0 < 3 ∧
    OkNext (sReady s0.h) (0 + 8) ∧ (sReady s0.h).draw 4 = .scripted true [0x02] 0 ∧ 0x02#8 &&& Cfg.cfg0.ioRdyMask ≠ 0 ∧
    (sReady s0.h).h.variant ≠ .unknown ∧ Ready (sReady State.reset.h) ∧
    (sReady State.reset.h).h.life ≠ .negotiating ∧ (sReady State.reset.h).h.variant = .unknown :=
  ⟨⟨rfl, rfl⟩, by decide, by decide, okNext_of rfl, rfl, by decide, by decide, ⟨rfl, rfl⟩, by decide, rfl⟩

/-- The ready bit at the last poll (p = 2). -/
theorem witness_InitResumeSkipsIdentification_third : Ready (sReady3 s0.h) ∧ (sReady3 s0.h).h.life ≠ .negotiating ∧ 2 < 3 ∧
    OkNext (sReady3 s0.h) (2 + 8) ∧ (∀ j, j ≤ 2 → (sReady3 s0.h).draw (4 + j) = .scripted true [pollBytes j] 0) ∧
    (∀ j, j < 2 → pollBytes j &&& Cfg.cfg0.ioRdyMask = 0) ∧ pollBytes 2 &&& Cfg.cfg0.ioRdyMask ≠ 0 := by
  refine ⟨⟨rfl, rfl⟩, by decide, by decide, okNext_of rfl, ?_, by decide, by decide⟩
  intro j hj
  match j, hj with
  | 0, _ | 1, _ | 2, _ => rfl

/-- The ready bit stays 0 for three polls. -/
def sNotReady : State :=
  { State.reset with
    draws := [okDraw, okDraw, okDraw, okDraw, .scripted true [0] 0, .scripted true [0] 0, .scripted true [0xFD] 0] }

theorem witness_InitNotReadyAfterThreePolls : Ready sNotReady ∧ sNotReady.h.life ≠ .negotiating ∧ OkNext sNotReady 4 ∧
    sNotReady.draw 4 = .scripted true [0] 0 ∧ sNotReady.draw 5 = .scripted true [0] 0 ∧
    sNotReady.draw 6 = .scripted true [0xFD] 0 ∧ 0x00#8 &&& sNotReady.cfg.ioRdyMask = 0 ∧
    0xFD#8 &&& sNotReady.cfg.ioRdyMask = 0 ∧ Instr.resume ∈ [Instr.init true, .resume] :=
  ⟨⟨rfl, rfl⟩, by decide, okNext_of rfl, rfl, rfl, rfl, by decide, by decide, by decide⟩

/-- The lifecycle statements: `init` in every life state but `negotiating`, `deinit`, `reset`, `suspend`. -/
theorem witness_InitEndsReadyOrFailed : Ready s0 ∧ s0.h.life ≠ .negotiating := ⟨s0_ready, by decide⟩

/-- `ReadyAtPoll` at a literal poll, from the answers one by one. -/
theorem readyAtPoll_of {s : State} {p k : Nat} (b : Nat → Byte) (hp : p < 3)
    (h : ∀ j, j ≤ p → 4 + j < k → s.draw (4 + j) = .scripted true [b j] 0)
    (hb : ∀ j, j ≤ p → (b j &&& s.cfg.ioRdyMask ≠ 0 ↔ j = p)) : ReadyAtPoll s p k :=
  ⟨hp, fun j hj hk => ⟨b j, 0, h j hj hk, hb j hj⟩⟩

/-- Whether the ready bit is seen at the third poll only. -/
theorem pollBytes_ready : ∀ j, j ≤ 2 → (pollBytes j &&& Cfg.cfg0.ioRdyMask ≠ 0 ↔ j = 2) := by decide

/-- A negotiation whose transaction `k` fails, the ready bit to be seen at poll 3. -/
def sInitFails (k : Nat) : State :=
  { s0 with draws := (initDraws []).take k ++ [.scripted false [] 0] }

/-- Of an `init` that identifies the chip, the last transaction fails (k = 13), after all polls; the last poll (k = 6); the
first write (k = 0), before any. Of one that skips the identification, the last write (k = 9). -/
theorem witness_InitEndsReadyOrFailed_failure :
    (∀ k, Ready (sInitFails k) ∧ (sInitFails k).h.life ≠ .negotiating ∧ (sInitFails k).cfg.wf = true) ∧
    (13 < (negotiationOut Cfg.cfg0 (2 + 1) ++ readRegBus Cfg.cfg0 (some 512) Cfg.cfg0.chipIdReg).length ∧
      FailsAt (sInitFails 13) 13 ∧ ReadyAtPoll (sInitFails 13) 2 13) ∧
    (FailsAt (sInitFails 6) 6 ∧ ReadyAtPoll (sInitFails 6) 2 6) ∧
    (FailsAt (sInitFails 0) 0 ∧ ReadyAtPoll (sInitFails 0) 2 0) ∧
    9 < (negotiationOut Cfg.cfg0 (2 + 1)).length ∧ FailsAt (sInitFails 9) 9 ∧ ReadyAtPoll (sInitFails 9) 2 9 := by
  refine ⟨fun _ => ⟨⟨rfl, rfl⟩, by simp [sInitFails, s0, on, ready], s0_wf⟩,
    ⟨by decide, failsAt_of rfl rfl, readyAtPoll_of pollBytes (by decide) ?_ pollBytes_ready⟩,
    ⟨failsAt_of rfl rfl, readyAtPoll_of pollBytes (by decide) ?_ pollBytes_ready⟩,
    ⟨failsAt_of rfl rfl, readyAtPoll_of pollBytes (by decide) (fun _ _ h => absurd h (by omega)) pollBytes_ready⟩,
    by decide, failsAt_of rfl rfl, readyAtPoll_of pollBytes (by decide) ?_ pollBytes_ready⟩
  all_goals
    intro j hj hk
    match j, hj with
    | 0, _ | 1, _ => rfl
    | 2, _ => first | rfl | omega

/-- The same while a negotiation runs. -/
def s0Negotiating : State := { s0 with h := { s0.h with life := .negotiating, initialized := false } }

theorem witness_DeinitClearsFlagOnly : (s0.idle s0.cur = true ∧ s0.h.life ≠ .negotiating) ∧
    s0Negotiating.idle s0Negotiating.cur = true ∧ s0Negotiating.h.life = .negotiating := by decide
theorem witness_ResetIsOneRawWrite : Ready s0 ∧ s0.h.life ≠ .negotiating := ⟨s0_ready, by decide⟩
theorem witness_IsInitializedReturnsFlag : s0.idle s0.cur = true ∧ s0Negotiating.idle s0Negotiating.cur = true ∧
    BlockInv s0Negotiating ∧ s0Negotiating.h.life = .negotiating := by
  refine ⟨by decide, by decide, ?_, by decide⟩
  constructor
  case phases => intro r; exact .inl rfl
  case noRequester => intro r; simp [s0Negotiating, s0, on, ready, State.reset, State.attachWith]
  all_goals decide
theorem witness_SuspendResetsDevice : Ready s0 ∧ s0.h.life ≠ .negotiating := ⟨s0_ready, by decide⟩

theorem witness_NegotiationRefusesLifecycle :
    s0Negotiating.idle s0Negotiating.cur = true ∧ s0Negotiating.h.life = .negotiating := by decide

theorem witness_TooManyLinesRejected : s0.idle s0.cur = true ∧ s0.cfg.maxIntLines < 9 := by decide

theorem cfg0_syncWindowed : syncWindowed Cfg.cfg0 := by
  intro r
  cases r <;> decide

/-- The answers of `syncInterrupts(6)` for variant B in GPIO mode: four reads of a word (V89's presets). -/
def syncDraws : List Draw :=
  [okDraw, okDraw, okDraw, .scripted true (wordBytes 0xFFFFFFFF) 0, okDraw, okDraw, okDraw, okDraw,
   okDraw, okDraw, okDraw, .scripted true (wordBytes 0x00000001) 0, okDraw, okDraw, okDraw, okDraw,
   okDraw, okDraw, okDraw, .scripted true (wordBytes 0x00000001) 0, okDraw, okDraw, okDraw, okDraw,
   okDraw, okDraw, okDraw, .scripted true (wordBytes 0x80000000) 0, okDraw, okDraw, okDraw, okDraw]

/-- The values of V89's presets. -/
def syncValues : Nat → Word
  | 0 => 0xFFFFFFFF
  | 1 => 0x00000001
  | 2 => 0x00000001
  | _ => 0x80000000

/-- V89's start. -/
def sSync : State := { ready .b true 0 with draws := syncDraws }

theorem witness_SyncInterruptsUpdates : Ready sSync ∧ sSync.cfg.wf = true ∧ sSync.h.variant ≠ .unknown ∧
    6 ≤ sSync.cfg.maxIntLines ∧ syncWindowed sSync.cfg ∧ OkNext sSync 32 ∧
    ∀ j, j < (syncPlan sSync 6).length → sSync.draw (8 * j + 3) = .scripted true (wordBytes (syncValues j)) 0 := by
  refine ⟨⟨rfl, rfl⟩, by decide, by decide, by decide, cfg0_syncWindowed, okNext_of rfl, ?_⟩
  intro j hj
  have h : j < 4 := hj
  match j, h with
  | 0, _ | 1, _ | 2, _ | 3, _ => rfl

/-- The write of the second register's update fails (k = 15). -/
def sSyncFails : State := { sSync with draws := syncDraws.take 15 ++ [.scripted false [] 0] }

theorem witness_SyncInterruptsUpdates_failure : Ready sSyncFails ∧ sSyncFails.cfg.wf = true ∧
    sSyncFails.h.variant ≠ .unknown ∧ 6 ≤ sSyncFails.cfg.maxIntLines ∧ syncWindowed sSyncFails.cfg ∧ 15 < (syncOut sSyncFails 6 syncValues).length ∧
    FailsAt sSyncFails 15 ∧
    (∀ j, 8 * j + 3 < 15 → sSyncFails.draw (8 * j + 3) = .scripted true (wordBytes (syncValues j)) 0) ∧
    Ready (sFails 0) ∧ FailsAt (sFails 0) 0 ∧ 0 < (syncOut (sFails 0) 6 syncValues).length := by
  refine ⟨⟨rfl, rfl⟩, by decide, by decide, by decide, cfg0_syncWindowed, by decide, failsAt_of rfl rfl, ?_, s0With_ready _, failsAt_of rfl rfl, by decide⟩
  intro j hj
  have h : j < 2 := by omega
  match j, h with
  | 0, _ | 1, _ => rfl

theorem witness_LineAllocation : Cfg.cfg0.wf = true := by decide

/-- A resume over the same registers. -/
def sResume : State :=
  { ready .b true 6 with
    draws := [okDraw, okDraw, okDraw, okDraw, .scripted true [0x02] 0, okDraw, okDraw, okDraw] ++ syncDraws }

/-- The ready bit at the first poll (p = 0); every transaction of `syncInterrupts` answered. -/
theorem witness_ResumeRestoresConfiguration : Ready sResume ∧ sResume.cfg.wf = true ∧ sResume.h.life ≠ .negotiating ∧
    sResume.h.variant ≠ .unknown ∧ sResume.h.nint ≤ sResume.cfg.maxIntLines ∧ syncWindowed sResume.cfg ∧
    ReadyAtPoll sResume 0 (0 + 8) ∧ OkNext sResume (0 + 40) ∧
    ∀ j, j < (syncPlan sResume sResume.h.nint).length →
      sResume.draw (0 + 8 * j + 11) = .scripted true (wordBytes (syncValues j)) 0 := by
  refine ⟨⟨rfl, rfl⟩, by decide, by decide, by decide, by decide, cfg0_syncWindowed,
    readyAtPoll_of (fun _ => 2) (by decide) ?_ (by decide), okNext_of rfl, ?_⟩
  · intro j hj _
    match j, hj with
    | 0, _ => rfl
  · intro j hj
    have h : j < 4 := hj
    match j, h with
    | 0, _ | 1, _ | 2, _ | 3, _ => rfl

/-- The same with the ready bit at the last poll (p = 2). -/
def sResume3 : State :=
  { ready .b true 6 with draws := (sReady3 s0.h).draws ++ [okDraw, okDraw, okDraw] ++ syncDraws }

theorem witness_ResumeRestoresConfiguration_third : Ready sResume3 ∧ sResume3.cfg.wf = true ∧
    sResume3.h.life ≠ .negotiating ∧ sResume3.h.variant ≠ .unknown ∧ sResume3.h.nint ≤ sResume3.cfg.maxIntLines ∧
    syncWindowed sResume3.cfg ∧ ReadyAtPoll sResume3 2 (2 + 8) ∧ OkNext sResume3 (2 + 40) ∧
    ∀ j, j < (syncPlan sResume3 sResume3.h.nint).length →
      sResume3.draw (2 + 8 * j + 11) = .scripted true (wordBytes (syncValues j)) 0 := by
  refine ⟨⟨rfl, rfl⟩, by decide, by decide, by decide, by decide, cfg0_syncWindowed,
    readyAtPoll_of pollBytes (by decide) ?_ pollBytes_ready, okNext_of rfl, ?_⟩
  · intro j hj _
    match j, hj with
    | 0, _ | 1, _ | 2, _ => rfl
  · intro j hj
    have h : j < 4 := hj
    match j, h with
    | 0, _ | 1, _ | 2, _ | 3, _ => rfl

/-- A resume whose transaction `k` fails, with a variant known or not. -/
def sResumeFails (v : Variant) (k : Nat) : State :=
  { ready v true 6 with draws := sResume3.draws.take k ++ [.scripted false [] 0] }

/-- The write of the second register's update fails (k = 15 of `syncInterrupts`), and its first transaction (k = 0). -/
theorem witness_ResumeRestoresConfiguration_syncFails :
    (∀ k, Ready (sResumeFails .b k) ∧ (sResumeFails .b k).h.life ≠ .negotiating ∧ (sResumeFails .b k).cfg.wf = true ∧
      (sResumeFails .b k).h.nint ≤ (sResumeFails .b k).cfg.maxIntLines ∧ syncWindowed (sResumeFails .b k).cfg) ∧
    (15 < (syncOut { sResumeFails .b 25 with h := negotiated (sResumeFails .b 25).h } 6 syncValues).length ∧
      ReadyAtPoll (sResumeFails .b 25) 2 (2 + 8) ∧ FailsAt (sResumeFails .b 25) (2 + 8 + 15) ∧
      ∀ j, 8 * j + 3 < 15 →
        (sResumeFails .b 25).draw (2 + 8 * j + 11) = .scripted true (wordBytes (syncValues j)) 0) ∧
    ReadyAtPoll (sResumeFails .b 10) 2 (2 + 8) ∧ FailsAt (sResumeFails .b 10) (2 + 8 + 0) := by
  refine ⟨fun _ => ⟨⟨rfl, rfl⟩, by simp [sResumeFails, ready], s0_wf, by simp [sResumeFails, ready, Cfg.cfg0],
      cfg0_syncWindowed⟩,
    ⟨by decide, readyAtPoll_of pollBytes (by decide) ?_ pollBytes_ready, failsAt_of rfl rfl, ?_⟩,
    readyAtPoll_of pollBytes (by decide) ?_ pollBytes_ready, failsAt_of rfl rfl⟩
  case refine_2 =>
    intro j hj
    have h : j < 2 := by omega
    match j, h with
    | 0, _ | 1, _ => rfl
  all_goals
    intro j hj _
    match j, hj with
    | 0, _ | 1, _ | 2, _ => rfl

/-- No known variant, every transaction of the negotiation answered; the last poll fails (k = 6); the last write (k = 9). -/
theorem witness_ResumeRestoresConfiguration_negotiationFails :
    (Ready (sResumeFails .unknown 10) ∧ (sResumeFails .unknown 10).h.variant = .unknown ∧
      ReadyAtPoll (sResumeFails .unknown 10) 2 (2 + 8) ∧ OkNext (sResumeFails .unknown 10) (2 + 8)) ∧
    (6 < 2 + 8 ∧ ReadyAtPoll (sResumeFails .b 6) 2 6 ∧ FailsAt (sResumeFails .b 6) 6) ∧
    9 < 2 + 8 ∧ ReadyAtPoll (sResumeFails .b 9) 2 9 ∧ FailsAt (sResumeFails .b 9) 9 := by
  refine ⟨⟨⟨rfl, rfl⟩, rfl, readyAtPoll_of pollBytes (by decide) ?_ pollBytes_ready, okNext_of rfl⟩,
    ⟨by decide, readyAtPoll_of pollBytes (by decide) ?_ pollBytes_ready, failsAt_of rfl rfl⟩,
    by decide, readyAtPoll_of pollBytes (by decide) ?_ pollBytes_ready, failsAt_of rfl rfl⟩
  all_goals
    intro j hj hk
    match j, hj with
    | 0, _ | 1, _ => rfl
    | 2, _ => first | rfl | omega

theorem witness_EnableFreesLockAndRegisters : Ready waiting := ⟨by decide, by decide⟩

theorem witness_DisableUnregistersAndFrees : Ready s0 ∧ s0.h.lock ≠ .irqInFlight ∧ s0.cur ∉ s0.waiters :=
  ⟨s0_ready, by decide, by decide⟩

theorem witness_DisableWaitsForDispatch : waiting.idle waiting.cur = true ∧ waiting.h.lock = .irqInFlight := by decide

theorem witness_InFlightNeverBecomesDisabled : waiting.h.lock = .irqInFlight ∧ ∃ t, step waiting = .next t :=
  ⟨rfl, next_of (by decide)⟩

/-- A registered callback and an asserted line. -/
def asserted : State := on { s0 with h := { s0.h with cbRegistered := true } } { Device.blank with flags := 1, line := true }

/-- A state with the delivery agent's next steps to take. -/
def irqs (s : State) (n : Nat) : State := { s with agenda := List.replicate n .irq }

theorem witness_InterruptIsDelivered : (irqs asserted 3).cfg.wf = true ∧ (irqs asserted 3).attached = true ∧
    (irqs asserted 3).irq = .idle ∧ (irqs asserted 3).agenda = .irq :: .irq :: .irq :: [] ∧
    asserted.h.cbRegistered = true ∧ asserted.dev.line = true ∧ asserted.busOwner = none ∧ asserted.h.lock = .free ∧
    (irqs s0 1).irq = .idle ∧ ¬ (s0.h.cbRegistered = true ∧ s0.dev.line = true ∧ s0.busOwner = none) := by decide

/-- The delivery agent at a position, with a lock and a bus owner, its next step to take. -/
def irqAt (p : IrqPhase) (l : Lock) (b : Option Agent) : State :=
  { asserted with irq := p, busOwner := b, h := { asserted.h with lock := l }, agenda := [.irq] }

/-- The line asserted and the callback registered while the lock is disabled. -/
theorem witness_InterruptIsDelivered_spurious :
    let s : State := { irqAt .idle .disabled none with agenda := [.irq, .irq] }
    s.irq = .idle ∧ s.h.cbRegistered = true ∧ s.dev.line = true ∧ s.busOwner = none ∧ s.h.lock = .disabled := by decide

theorem witness_DeliveryConditions :
    (∀ p l b, (irqAt p l b).cfg.wf = true ∧ (irqAt p l b).attached = true ∧ (irqAt p l b).agenda = .irq :: [] ∧
      (irqAt p l b).irq = p ∧ (irqAt p l b).h.lock = l ∧ (irqAt p l b).busOwner = b) ∧
    Lock.free ≠ .irqInFlight ∧ some Agent.outside ≠ none :=
  ⟨fun _ _ _ => ⟨s0_wf, rfl, rfl, rfl, rfl, rfl⟩, by decide, by decide⟩

/-- The handler inside an operation of its own. -/
def handlerBusy : State :=
  { waiting with
    ctxs := [(.handler, { Ctx.fresh with op := .readReg, phase := .start })], agenda := [.dispatchDone] }

theorem witness_InterruptReturns :
    let s : State := { waiting with agenda := [.dispatchDone, .irq, .irq] }
    s.cfg.wf = true ∧ s.attached = true ∧ s.irq = .dispatched ∧ s.idle .handler = true ∧ s.busOwner = none ∧
    handlerBusy.irq = .dispatched ∧ handlerBusy.idle .handler = false := by decide

/-- The handler waits for its own dispatch (V104). -/
def selfDisabled : State :=
  { waiting with
    waiters := [.handler]
    ctxs := [(.handler, { Ctx.fresh with op := .disableInterrupts, phase := .start })]
    agenda := [.advance .handler, .dispatchDone, .irq] }

theorem witness_HandlerSelfDisableIsStuck : SelfDisabled selfDisabled ∧ ∃ t, step selfDisabled = .next t :=
  ⟨⟨by decide, by decide, by decide, by decide, by decide⟩, next_of (by decide)⟩

end Sys2Proof.Tests
end

section
/-! SUPPORT. The instructions by their two kinds: a bus command is one turn at the bus, a host operation is a run of phases,
each of them inside the operation that was called. -/

namespace Sys2Proof.Machine

/-! ### The meaning of an instruction by its kind (R108, R155) -/

/-- A host operation's meaning is the run of its phases (R28). -/
theorem exec_of_request {i : Instr} {op : OpSel} {args : Args} (h : i.request = some (op, args)) (s : State) :
    exec i s = perform op args s := by
  cases i <;> cases h <;> rfl

/-- A bus command's meaning is one turn: a single-byte command, or a block command of a buffer (R141, R146). -/
theorem exec_of_command {i : Instr} (h : i.request = none) (s : State) :
    (∃ r, exec i s = (sbCommand r s).outcome) ∨ ∃ r side, exec i s = (blkCommand r side s).outcome := by
  cases i
  case sbRd | sbWr | sbWrRb => exact .inl ⟨_, rfl⟩
  case blkRdByte | blkRdBlock | blkWrByte | blkWrBlock => exact .inr ⟨_, _, rfl⟩
  all_goals cases h

theorem outcome_next {t : Turn} {s : State} (h : t.outcome = .next s) : t = .moved s ∨ t = .held s := by
  cases t <;> cases h
  · exact .inl rfl
  · exact .inr rfl

theorem outcome_fault {t : Turn} {f : Fault} : t.outcome ≠ .fault f := by
  cases t <;> nofun

/-- A single-byte command makes its transaction or is held (R153). -/
theorem sbCommand_next {r : SbReq} {s t : State} (h : (sbCommand r s).outcome = .next t) :
    t = s ∨ s.busOwner = none ∧ t = (s.sb r).2 := by
  unfold sbCommand withBus at h
  split at h <;> cases h
  · exact .inr ⟨‹_›, rfl⟩
  · exact .inl rfl

/-- What a block command leaves of the buffers: a read fills them from the buffer's offset on (R147, R149). -/
def filled (r : BlkReq) (side : Side) (s : State) : Memory :=
  if r.wr then s.buf else s.buf.writeBytes (side.buf.base + side.off) (s.blk r []).1.bytes

/-- The bytes a block command sends: a write's, out of its buffer (R149). -/
def sent (r : BlkReq) (side : Side) (s : State) : List Byte :=
  if r.wr then s.buf.readBytes (side.buf.base + side.off) r.bytes else []

/-- A block command makes its transaction, or is held, or answers `FAIL` for its count (R146, R152, R153). -/
theorem blkCommand_next {r : BlkReq} {side : Side} {s t : State} (h : (blkCommand r side s).outcome = .next t) :
    t = s ∨ t = { s with reply := ⟨false, []⟩ } ∨
      s.busOwner = none ∧ t = (s.blk r (sent r side s)).2.setBuf (filled r side s) := by
  unfold blkCommand withBus at h
  unfold sent filled
  repeat' split at h
  all_goals cases h
  · exact .inr (.inr ⟨‹_›, by simp only [*, if_true]; rfl⟩)
  · exact .inr (.inr ⟨‹_›, by simp only [*, if_false, Bool.false_eq_true]; rfl⟩)
  · exact .inl rfl
  · exact .inr (.inl rfl)

/-! ### A requester inside the operation it called (R27, R28) -/

/-- A requester is at a phase of an operation, with the operands it was called with (but for the two `resume` sets). -/
structure Inside (q : Requester) (op : OpSel) (args : Args) (u : State) : Prop where
  runs : (u.ctx q).op = op
  phase : opHasPhase op (u.ctx q).phase = true
  addr : (u.ctx q).args.addr = args.addr
  word : (u.ctx q).args.word = args.word
  buf : (u.ctx q).args.buf = args.buf
  size : (u.ctx q).args.size = args.size
  mask : (u.ctx q).args.mask = args.mask

@[simp] theorem opHasPhase_start (op : OpSel) : opHasPhase op .start = true := by cases op <;> rfl

theorem inside_load (q : Requester) (op : OpSel) (args : Args) (s : State) : Inside q op args (s.load q op args) := by
  constructor <;> simp

theorem Inside.opHasPhase {q : Requester} {op : OpSel} {args : Args} {u : State} (h : Inside q op args u) :
    opHasPhase (u.ctx q).op (u.ctx q).phase = true := by
  rw [h.runs]; exact h.phase

theorem Inside.goes {q : Requester} {op : OpSel} {args : Args} {u u' : State} (h : Inside q op args u)
    (g : (u.ctx q).Goes (u'.ctx q)) : Inside q op args u' :=
  ⟨g.op.trans h.runs, h.runs ▸ g.phase, g.addr.trans h.addr, g.word.trans h.word, g.buf.trans h.buf,
    g.size.trans h.size, g.mask.trans h.mask⟩

theorem Inside.of_ctx {q : Requester} {op : OpSel} {args : Args} {u u' : State} (h : Inside q op args u)
    (e : u'.ctx q = u.ctx q) : Inside q op args u' := by
  constructor <;> rw [e]
  exacts [h.runs, h.phase, h.addr, h.word, h.buf, h.size, h.mask]

/-- A phase that moves ends the operation or stays inside it. -/
theorem Inside.moved {q : Requester} {op : OpSel} {args : Args} {u u' : State} (h : Inside q op args u)
    (ht : phaseTurn q u = .moved u') : u'.idle q = true ∨ Inside q op args u' :=
  (phaseTurn_went ht h.opHasPhase).imp id h.goes

theorem Inside.held {q : Requester} {op : OpSel} {args : Args} {u u' : State} (h : Inside q op args u)
    (ht : phaseTurn q u = .held u') : Inside q op args u' := by
  obtain rfl | ⟨-, -, rfl⟩ := phaseTurn_held ht
  · exact h
  · exact h.of_ctx rfl

/-- An operation is at none of its phases when it is idle. -/
theorem opHasPhase_idle (op : OpSel) : opHasPhase op .idle = false := by cases op <;> rfl

theorem Inside.not_idle {q : Requester} {op : OpSel} {args : Args} {u : State} (h : Inside q op args u) :
    (u.ctx q).phase ≠ .idle := by
  intro e
  have := h.phase
  rw [e, opHasPhase_idle] at this
  cases this

/-- A call that ends by a run: what holds of the request accepted, and what every phase inside the operation keeps, holds
where it ends. A call by a requester inside an operation changes nothing. -/
theorem perform_run_induct {P : State → Prop} {op : OpSel} {args : Args} {s t : State}
    (moved : ∀ u u', P u → Inside s.cur op args u → phaseTurn s.cur u = .moved u' → P u')
    (held : ∀ u u', P u → Inside s.cur op args u → phaseTurn s.cur u = .held u' → P u')
    (start : P (s.load s.cur op args)) (h : perform op args s = .next t) : t = s ∨ P t := by
  cases hi : s.idle s.cur with
  | false => rw [perform_busy hi] at h; cases h; exact .inl rfl
  | true =>
    rw [perform_run hi] at h
    have keep := runPhases_induct (P := fun u => P u ∧ (u.idle s.cur = true ∨ Inside s.cur op args u))
      (fun u u' hu hn ht => by
        have hin : Inside s.cur op args u := hu.2.resolve_left (by simp [hn])
        exact ⟨moved u u' hu.1 hin ht, hin.moved ht⟩)
      (fun u u' hu hn ht => by
        have hin : Inside s.cur op args u := hu.2.resolve_left (by simp [hn])
        exact ⟨held u u' hu.1 hin ht, .inr (hin.held ht)⟩)
      64 ⟨start, .inr (inside_load s.cur op args s)⟩ h
    exact .inr keep.1

/-- The same for what holds before the call too. -/
theorem perform_inside {P : State → Prop} {op : OpSel} {args : Args} {s t : State}
    (moved : ∀ u u', P u → Inside s.cur op args u → phaseTurn s.cur u = .moved u' → P u')
    (held : ∀ u u', P u → Inside s.cur op args u → phaseTurn s.cur u = .held u' → P u')
    (before : P s) (start : P (s.load s.cur op args)) (h : perform op args s = .next t) : P t := by
  obtain rfl | ht := perform_run_induct moved held start h
  · exact before
  · exact ht

end Sys2Proof.Machine
end

section
/-! CERTIFICATE. The block's invariant: it holds at reset and every step of every agent keeps it. -/

namespace Sys2Proof.Machine

/-- The part of the invariant that speaks of the handle, with the delivery agent at `p`. -/
structure HandleOk (c : Cfg) (p : IrqPhase) (h : Handle) : Prop where
  life : h.initialized = true ↔ h.life = .ready
  variant : h.initialized = true → h.variant ≠ .unknown
  blockSize : h.blockSize = none ∨ h.blockSize = some Config.blockSizeReq
  negotiated : h.initialized = true → h.blockSize = some Config.blockSizeReq
  routing : h.gpioIrq = c.gpioIrq
  lines : h.nint ≤ c.maxIntLines
  lock : h.lock = .irqInFlight → p.pastGate = true

theorem BlockInv.handleOk {s : State} (h : BlockInv s) : HandleOk s.cfg s.irq s.h :=
  ⟨h.life, h.variant, h.blockSize, h.negotiated, h.routing, h.lines, h.lock⟩

theorem BlockInv.memOk {s : State} (h : BlockInv s) : MemOk s := ⟨⟨h.fnMem, h.chipMem⟩, h.bufMem⟩

/-- Each way a phase writes the handle keeps its part of the invariant (R21 to R26). -/
theorem HandleOk.step {c : Cfg} {p : IrqPhase} {op : OpSel} {h h' : Handle} (hk : HandleOk c p h)
    (hs : HandleStep c op h h') : HandleOk c p h' := by
  cases hs with
  | same => exact hk
  | negotiating => exact { hk with life := by simp, variant := by simp, negotiated := by simp }
  | failed => exact { hk with life := by simp, variant := by simp, negotiated := by simp }
  | commit ho v hv =>
    exact { hk with life := by simp, variant := fun _ => hv, blockSize := .inr rfl, negotiated := fun _ => rfl }
  | down => exact { hk with life := by simp [Handle.down], variant := nofun, negotiated := nofun }
  | lines ho n hn => exact { hk with lines := hn }
  | lock l ho =>
    refine { hk with lock := fun hl => ?_ }
    rcases ho with ⟨-, rfl⟩ | ⟨-, hne⟩
    · cases hl
    · exact absurd hl hne
  | callback => exact { hk with }

/-- The invariant of a state that differs in its handle, its memories and one requester's context. -/
theorem BlockInv.of_frame {q : Requester} {s t : State} (hs : BlockInv s) (hf : Frame q s t)
    (hh : HandleOk s.cfg s.irq t.h) (hm : MemOk t)
    (hq : t.idle q = true ∨ opHasPhase (t.ctx q).op (t.ctx q).phase = true) : BlockInv t where
  cfg := hf.cfg ▸ hs.cfg
  life := hh.life
  variant := hh.variant
  blockSize := hh.blockSize
  negotiated := hh.negotiated
  routing := hf.cfg ▸ hh.routing
  lines := hf.cfg ▸ hh.lines
  lock := hf.irq ▸ hh.lock
  bus := by rw [hf.busOwner, hf.irq]; exact hs.bus
  noRequester := by rw [hf.busOwner]; exact hs.noRequester
  waiters := hf.waiters ▸ hs.waiters
  phases r := by
    by_cases hr : r = q
    · exact hr ▸ hq
    · rw [idle_eq, hf.others r hr]; exact hs.phases r
  fnMem := hm.1.1
  chipMem := hm.1.2
  bufMem := hm.2

/-- A phase of an operation keeps the invariant. -/
theorem phaseTurn_keeps_inv {q : Requester} {s s' : State} (hs : BlockInv s) (h : phaseTurn q s = .moved s') :
    BlockInv s' := by
  obtain hi | hp := hs.phases q
  · have : phaseTurn q s = .held s := by simp [phaseTurn, eq_of_beq hi]
    rw [this] at h
    cases h
  · exact hs.of_frame (phaseTurn_frame h) (hs.handleOk.step (phaseTurn_handleStep h hp)) (phaseTurn_memOk h hs.memOk)
      ((phaseTurn_went h hp).imp id fun g => by rw [g.op]; exact g.phase)

/-- A requester waits at most once after joining the waiters (R26). -/
theorem joinWaiters_nodup {q : Requester} {s : State} (h : s.waiters.Nodup) : (joinWaiters q s).waiters.Nodup := by
  unfold joinWaiters
  split
  · exact h
  · rename_i hq
    simp only [List.contains_iff_mem] at hq
    simp only [setWaiters_waiters, List.nodup_append, List.nodup_singleton, List.mem_singleton]
    exact ⟨h, trivial, fun a ha b hb => by rintro rfl; exact hq (hb ▸ ha)⟩

/-- A requester that is held keeps the invariant. -/
theorem phaseTurn_held_keeps_inv {q : Requester} {s s' : State} (hs : BlockInv s) (h : phaseTurn q s = .held s') :
    BlockInv s' := by
  obtain rfl | ⟨-, -, rfl⟩ := phaseTurn_held h
  · exact hs
  · exact { hs with waiters := joinWaiters_nodup hs.waiters }

theorem blockInv_load {s : State} (hs : BlockInv s) (q : Requester) (op : OpSel) (args : Args) :
    BlockInv (s.load q op args) :=
  hs.of_frame (q := q) (by simp) hs.handleOk hs.memOk (.inr (by simp))

/-- One transaction of a bus command keeps the invariant. -/
theorem blockInv_blk {s : State} (hs : BlockInv s) (r : BlkReq) (p : List Byte) {m : Memory} (hm : m.wf = true) :
    BlockInv ((s.blk r p).2.setBuf m) :=
  have hd := Device.ok_blkAnswer r p s.nextDraw (c := s.cfg) (f := s.free) hs.memOk.1
  { hs with fnMem := hd.1, chipMem := hd.2, bufMem := hm }

theorem blockInv_sb {s : State} (hs : BlockInv s) (r : SbReq) : BlockInv (s.sb r).2 :=
  have hd := (memOk_sb r hs.memOk).1
  { hs with fnMem := hd.1, chipMem := hd.2 }

/-- An instruction keeps the invariant. -/
theorem exec_keeps_inv {i : Instr} {s t : State} (hs : BlockInv s) (h : exec i s = .next t) : BlockInv t := by
  cases hr : i.request with
  | some x =>
    rw [exec_of_request hr] at h
    exact perform_induct (fun _ _ hu _ ht => phaseTurn_keeps_inv hu ht)
      (fun _ _ hu _ ht => phaseTurn_held_keeps_inv hu ht) (fun _ => hs) (fun _ => blockInv_load hs _ _ _) h
  | none =>
    obtain ⟨r, e⟩ | ⟨r, side, e⟩ := exec_of_command hr s
    · obtain rfl | ⟨-, rfl⟩ := sbCommand_next (e ▸ h)
      · exact hs
      · exact blockInv_sb hs r
    · obtain rfl | rfl | ⟨-, rfl⟩ := blkCommand_next (e ▸ h)
      · exact hs
      · exact { hs with }
      · refine blockInv_blk hs r _ ?_
        unfold filled
        split
        · exact hs.bufMem
        · exact Memory.wf_writeBytes _ _ _ hs.bufMem

/-- A step of the delivery agent keeps the invariant (R276, R277, R280). -/
theorem irqTurn_keeps_inv {s t : State} (hs : BlockInv s) (h : irqTurn s = .moved t) : BlockInv t := by
  have lock := hs.lock
  obtain ⟨hi, -, -, -, rfl⟩ | ⟨-, hl, rfl⟩ | ⟨hi, -, rfl⟩ | ⟨-, -, rfl⟩ | ⟨-, -, rfl⟩ | ⟨-, rfl⟩ := irqTurn_moved h
  · rw [hi] at lock
    exact { hs with lock := lock, bus := by simp [IrqPhase.ownsBus], noRequester := by simp }
  · exact { hs with lock := fun e => absurd (hl.symm.trans e) (by decide), bus := by simp [IrqPhase.ownsBus],
                    noRequester := by simp }
  · exact { hs with lock := fun _ => rfl, bus := by simpa [hi, IrqPhase.ownsBus] using hs.bus }
  · exact { hs with lock := fun _ => rfl, bus := by simp [IrqPhase.ownsBus], noRequester := by simp }
  · exact { hs with lock := fun _ => rfl, bus := by simp [IrqPhase.ownsBus], noRequester := by simp }
  · exact { hs with lock := nofun, bus := by simp [IrqPhase.ownsBus], noRequester := by simp,
                    waiters := List.nodup_nil }

/-- The end of the dispatch keeps the invariant (R281). -/
theorem dispatchDone_keeps_inv {s t : State} (hs : BlockInv s) (h : (dispatchDone s).outcome = .next t) :
    BlockInv t := by
  unfold dispatchDone at h
  split at h <;> cases h
  · rename_i hd
    have hi : s.irq = .dispatched := by simp at hd; exact hd.1
    exact { hs with lock := fun _ => rfl, bus := by simpa [hi, IrqPhase.ownsBus] using hs.bus }
  · exact hs

/-- An attach gives a handle that meets the invariant, the memories as they are (R39). -/
theorem attachHandle_inv {s : State} (hs : BlockInv s) (dev : Nat) : BlockInv (attachHandle s dev) where
  cfg := hs.cfg
  life := by simp [attachHandle, Handle.attach]
  variant := nofun
  blockSize := .inl rfl
  negotiated := nofun
  routing := rfl
  lines := Nat.zero_le _
  lock := nofun
  bus := by simp [attachHandle, IrqPhase.ownsBus]
  noRequester := by simp [attachHandle]
  waiters := List.nodup_nil
  phases _ := .inl rfl
  fnMem := hs.fnMem
  chipMem := hs.chipMem
  bufMem := hs.bufMem

/-- An agent outside the block that takes or gives back the bus keeps the invariant (R29). -/
theorem outside_keeps_inv {s : State} (hs : BlockInv s) :
    BlockInv (outsideClaim s) ∧ BlockInv (outsideRelease s) := by
  have hb := hs.bus
  unfold outsideClaim outsideRelease
  constructor <;> split
  · rename_i h
    rw [h] at hb
    exact { hs with bus := by simpa using hb, noRequester := by simp }
  · exact hs
  · rename_i h
    rw [h] at hb
    exact { hs with bus := by simpa using hb, noRequester := by simp }
  · exact hs

/-- Accepting a request keeps the invariant. -/
theorem acceptOutcome_keeps_inv {s t : State} {r : Requester} {p : Packet} (hs : BlockInv s)
    (h : acceptOutcome s r p = .next t) : BlockInv t := by
  unfold acceptOutcome at h
  repeat' split at h
  all_goals cases h
  · exact blockInv_load (s := s.setCur r) { hs with } r _ _
  · exact hs
  · exact { hs with }
  · exact hs

/-- A turn that keeps the invariant when it moves and when it is held. -/
theorem outcome_keeps_inv {t : Turn} {s : State} (hm : ∀ u, t = .moved u → BlockInv u)
    (hh : ∀ u, t = .held u → BlockInv u) (h : t.outcome = .next s) : BlockInv s := by
  obtain e | e := outcome_next h
  · exact hm s e
  · exact hh s e

/-- What an agenda entry comes to keeps the invariant: the instruction it runs is run in a state that meets it, and so does
the state it ends in. -/
theorem eventTask_keeps_inv {s : State} (hs : BlockInv s) (e : Event) :
    (∀ i u, eventTask s e = .run i u → BlockInv u) ∧ ∀ t, eventTask s e = .done (.next t) → BlockInv t := by
  cases e <;> refine ⟨fun i u h => ?_, fun t h => ?_⟩ <;> simp only [eventTask] at h
  case deliver.refine_1 r p =>
    unfold deliverTask at h
    repeat' split at h
    all_goals cases h
    exact { hs with }
  case deliver.refine_2 r p =>
    unfold deliverTask at h
    repeat' split at h
    all_goals cases h
    all_goals exact { hs with }
  case command.refine_1 p =>
    unfold commandTask at h
    repeat' split at h
    all_goals cases h
    exact hs
  case command.refine_2 p =>
    unfold commandTask at h
    repeat' split at h
    all_goals cases h
    all_goals exact hs
  case accept.refine_2 r p =>
    split at h
    · exact acceptOutcome_keeps_inv hs (Task.done.inj h)
    · cases h; exact hs
  case advance.refine_2 r =>
    split at h
    · exact outcome_keeps_inv (fun _ => phaseTurn_keeps_inv hs) (fun _ => phaseTurn_held_keeps_inv hs)
        (Task.done.inj h)
    · cases h; exact hs
  case irq.refine_2 =>
    split at h
    · exact outcome_keeps_inv (fun _ => irqTurn_keeps_inv hs) (fun u hu => irqTurn_held hu ▸ hs) (Task.done.inj h)
    · cases h; exact hs
  case dispatchDone.refine_2 =>
    split at h
    · exact dispatchDone_keeps_inv hs (Task.done.inj h)
    · cases h; exact hs
  case claim.refine_2 => cases h; split; exacts [(outside_keeps_inv hs).1, hs]
  case release.refine_2 => cases h; split; exacts [(outside_keeps_inv hs).2, hs]
  case poke.refine_2 p =>
    cases h
    have hd := Device.ok_poke p hs.memOk.1
    exact { hs with fnMem := hd.1, chipMem := hd.2 }
  case fill.refine_2 a v => cases h; exact { hs with bufMem := Memory.wf_write _ _ _ hs.bufMem }
  case attach.refine_2 dev => cases h; split; exacts [hs, attachHandle_inv hs dev]
  case detach.refine_2 =>
    repeat' split at h
    all_goals cases h
    · exact { hs with }
    · exact hs
  all_goals cases h

/-- Settles O8: the agenda's entry is taken off, and what the entry comes to keeps the invariant. -/
theorem stepKeepsInvariant : Obligations.StepKeepsInvariant := by
  intro s t hs h
  cases ha : s.agenda with
  | nil =>
    rw [step_nil hs.cfg ha] at h
    cases h
    exact hs
  | cons e rest =>
    have keep := eventTask_keeps_inv (s := { s with agenda := rest }) { hs with } e
    cases hk : eventTask { s with agenda := rest } e with
    | run i u => exact exec_keeps_inv (keep.1 i u hk) (step_run hs.cfg ha hk ▸ h)
    | done o =>
      rw [step_done hs.cfg ha hk] at h
      exact keep.2 t (h ▸ hk)

/-- Settles O7: the invariant at reset is the invariant of a fresh handle under CFG0, the memories empty. -/
theorem resetMeetsInvariant : Obligations.ResetMeetsInvariant where
  cfg := by decide
  life := by decide
  variant := by decide
  blockSize := .inl rfl
  negotiated := by decide
  routing := rfl
  lines := by decide
  lock := by decide
  bus := by decide
  noRequester _ := by simp [State.reset, State.attachWith]
  waiters := List.nodup_nil
  phases _ := .inl rfl
  fnMem := rfl
  chipMem := rfl
  bufMem := rfl

end Sys2Proof.Machine
end

section
/-! CERTIFICATE. The run of an operation: it never outlasts the sequencer's bound, and it is its phases advanced one at a
time by the agenda. -/

namespace Sys2Proof.Machine

/-! ### No run overruns (R28) -/

/-- A context at a phase of an operation has a phase left. -/
theorem Ctx.left_pos {c : Ctx} (h : c.phase ≠ .idle) : 0 < c.left := by
  unfold Ctx.left
  split
  case h_1 hp => exact absurd hp h
  case h_3 r _ | h_31 r _ => exact r.left_pos
  case h_5 w _ => exact (RegStep.win w).left_pos
  all_goals omega

/-- Inside an operation with no more phases left than the run may take, the run does not fault. -/
theorem runPhases_no_fault {n : Nat} {q : Requester} {op : OpSel} {args : Args} {u : State} {f : Fault}
    (h : Inside q op args u) (hl : (u.ctx q).left ≤ n) : runPhases n q u ≠ .fault f := by
  induction n generalizing u with
  | zero => exact absurd (Ctx.left_pos h.not_idle) (by omega)
  | succ n ih =>
    have hi : u.idle q = false := by simpa [idle_eq] using h.not_idle
    cases ht : phaseTurn q u with
    | held u' => rw [runPhases_held hi ht]; nofun
    | refused r => rw [runPhases_refused hi ht]; nofun
    | moved u' =>
      rw [runPhases_moved hi ht]
      obtain hidle | hgoes := phaseTurn_went ht h.opHasPhase
      · rw [runPhases_idle n q u' hidle]; nofun
      · exact ih (h.goes hgoes) (by have := hgoes.left; omega)

/-- Settles O9: an operation starts with 48 phases left at most, each phase leaves fewer, and the sequencer grants 64. -/
theorem noSequenceOverruns : Obligations.NoSequenceOverruns := by
  intro i s f
  cases hr : i.request with
  | none =>
    obtain ⟨r, e⟩ | ⟨r, side, e⟩ := exec_of_command hr s <;> rw [e] <;> exact outcome_fault
  | some x =>
    obtain ⟨op, args⟩ := x
    rw [exec_of_request hr]
    cases hi : s.idle s.cur with
    | false => rw [perform_busy hi]; nofun
    | true =>
      rw [perform_run hi]
      exact runPhases_no_fault (inside_load s.cur op args s) (by simp [Ctx.left])

/-! ### A run is its phases advanced by the agenda (R28, R76) -/

/-- One step of a run of the machine. -/
theorem core_run_succ {s s' : State} (k : Nat) (h : step s = .next s') :
    Host.Core.run Sys2Proof.core (k + 1) s = Host.Core.run Sys2Proof.core k s' := by
  have h' : Sys2Proof.core.step s = .next s' := h
  simp only [Host.Core.run, h']

/-- An advance entry is the requester's next phase, with the rest of the agenda. -/
theorem step_advance {s : State} {q : Requester} {rest : List Event} (hc : s.cfg.wf = true) (ha : s.attached = true) :
    step (s.setAgenda (.advance q :: rest)) = ((phaseTurn q s).setAgenda rest).outcome := by
  have h : eventTask (s.setAgenda rest) (.advance q) = .done (phaseTurn q (s.setAgenda rest)).outcome :=
    eventTask_advance ha
  rw [← phaseTurn_setAgenda]
  exact step_done (s := s.setAgenda (.advance q :: rest)) hc rfl h

/-- A run that ends is some number of advances with no other entry between. -/
theorem runPhases_advances {n : Nat} {q : Requester} {s t : State} (hc : s.cfg.wf = true) (ha : s.attached = true)
    (h : runPhases n q s = .next t) :
    ∃ k, Host.Core.run Sys2Proof.core k (s.setAgenda (List.replicate k (.advance q))) = .next (t.setAgenda []) := by
  induction n generalizing s with
  | zero =>
    simp only [runPhases] at h
    split at h <;> cases h
    exact ⟨0, rfl⟩
  | succ n ih =>
    cases hi : s.idle q with
    | true => rw [runPhases_idle _ _ _ hi] at h; cases h; exact ⟨0, rfl⟩
    | false =>
      cases ht : phaseTurn q s with
      | refused r => rw [runPhases_refused hi ht] at h; cases h
      | held s' =>
        rw [runPhases_held hi ht] at h
        cases h
        refine ⟨1, ?_⟩
        rw [core_run_succ 0 (s' := t.setAgenda []) (by rw [List.replicate_one, step_advance hc ha, ht]; rfl)]
        rfl
      | moved s' =>
        rw [runPhases_moved hi ht] at h
        have hf := phaseTurn_frame ht
        obtain ⟨k, hk⟩ := ih (hf.cfg ▸ hc) (hf.attached ▸ ha) h
        refine ⟨k + 1, ?_⟩
        rw [core_run_succ k (s' := s'.setAgenda (List.replicate k (.advance q)))
          (by rw [List.replicate_succ, step_advance hc ha, ht]; rfl)]
        exact hk

/-- No phase of a run writes the agenda. -/
theorem runPhases_agenda {n : Nat} {q : Requester} {s t : State} (h : runPhases n q s = .next t) :
    t.agenda = s.agenda := by
  refine runPhases_induct (P := fun u => u.agenda = s.agenda) ?_ ?_ n rfl h
  · exact fun u u' hu _ ht => (phaseTurn_frame ht).agenda.trans hu
  · intro u u' hu _ ht
    obtain rfl | ⟨-, -, rfl⟩ := phaseTurn_held ht <;> exact hu

/-- A request accepted from a caller that can call. -/
theorem eventTask_accept_ok {s : State} {r : Requester} {p : Packet} {i : Instr} {op : OpSel} {args : Args}
    (ha : s.attached = true) (hc : canCall s r = true) (hd : decode r.port p = .ok i)
    (hr : i.request = some (op, args)) :
    eventTask s (.accept r p) = .done (.next ((s.setCur r).load r op args)) := by
  simp [eventTask, ha, acceptOutcome, hc, hd, hr]

/-- An accept entry loads the requester's context. -/
theorem step_accept {s : State} {r : Requester} {p : Packet} {rest : List Event} {i : Instr} {op : OpSel} {args : Args}
    (hw : s.cfg.wf = true) (ha : s.attached = true) (hg : s.agenda = .accept r p :: rest) (hc : canCall s r = true)
    (hd : decode r.port p = .ok i) (hr : i.request = some (op, args)) :
    step s = .next (({ s with agenda := rest, cur := r } : State).load r op args) :=
  step_done hw hg (eventTask_accept_ok ha hc hd hr)

theorem canCall_idle {s : State} {r : Requester} (h : canCall s r = true) : s.idle r = true := by
  simp only [canCall, Bool.and_eq_true] at h
  exact h.1

/-- Settles O10: the accept entry loads the operation as `exec` does, and each phase of the run is one advance. -/
theorem runIsAcceptThenAdvances : Obligations.RunIsAcceptThenAdvances := by
  intro s t r p i op args hw ha hg hc hd hr h
  rw [exec_of_request hr, perform_run (s := { s with cur := r }) (canCall_idle hc)] at h
  obtain ⟨k, hk⟩ := runPhases_advances (s := ({ s with cur := r } : State).load r op args) hw ha h
  have ht : t.setAgenda [] = t := by
    have : t.agenda = [] := (runPhases_agenda h).trans hg
    rw [← this]; rfl
  rw [ht] at hk
  refine ⟨k, ?_⟩
  rw [core_run_succ k (step_accept (s := { s with agenda := .accept r p :: List.replicate k (.advance r) })
    hw ha rfl hc hd hr)]
  exact hk

end Sys2Proof.Machine
end

section
/-! CERTIFICATE. The step by the agenda's entries; attach and detach. -/

namespace Sys2Proof.Machine

/-! ### Instructions taken from the agenda (R115, R155, R350) -/

/-- A delivered packet that decodes makes the step the meaning of its instruction (R115). -/
theorem step_deliver {s : State} {r : Requester} {p : Packet} {rest : List Event} {i : Instr} (hw : s.cfg.wf = true)
    (ha : s.attached = true) (hg : s.agenda = .deliver r p :: rest) (hc : canCall s r = true)
    (hd : decode r.port p = .ok i) : step s = exec i { s with agenda := rest, cur := r } :=
  step_run hw hg (eventTask_deliver_ok ha hc hd)

/-- So does a bus command of an agent beside the operations (R350). -/
theorem step_command {s : State} {p : Packet} {rest : List Event} {i : Instr} (hw : s.cfg.wf = true)
    (ha : s.attached = true) (hg : s.agenda = .command p :: rest) (hd : decode .bus p = .ok i) :
    step s = exec i { s with agenda := rest } :=
  step_run hw hg (eventTask_command_ok ha hd)

/-- What a table word decodes to, its packet decodes to on its own port. -/
theorem decode_of_table {nbits w : Nat} {i : Instr} (h : decodeTableWord nbits w = some i) :
    decode (Packet.ofTable nbits w).tablePort (Packet.ofTable nbits w) = .ok i := by
  unfold decodeTableWord at h
  split at h <;> cases h
  assumption

theorem decodeSb_port {w : Word} {i : Instr} (h : decodeSb w = .ok i) : i.port = .bus := by
  unfold decodeSb at h
  repeat' split at h
  all_goals cases h
  all_goals rfl

theorem decodeBlk_port {w : Word} {side : Side} {i : Instr} (h : decodeBlk w side = .ok i) : i.port = .bus := by
  unfold decodeBlk at h
  repeat' split at h
  all_goals cases h
  all_goals rfl

theorem decodeOp_port {op : OpSel} {args : Args} {i : Instr} (h : decodeOp op args = .ok i) : i.port = op.port := by
  cases op <;> simp only [decodeOp] at h
  case blockRead | blockWrite => split at h <;> cases h; rfl
  all_goals cases h; rfl

/-- A decoded instruction belongs to the port it arrived on (R111e, R155). -/
theorem decode_port {p : Port} {k : Packet} {i : Instr} (h : decode p k = .ok i) : i.port = p := by
  cases k <;> simp only [decode] at h <;> split at h
  case sb.isTrue w hp => exact (decodeSb_port h).trans hp.symm
  case blk.isTrue w side hp => exact (decodeBlk_port h).trans hp.symm
  case hostop.isTrue sel args hp => exact (decodeOp_port h).trans hp
  all_goals cases h

/-- The requester of a port delivers on that port. -/
theorem portRequester_port {p : Port} {r : Requester} (h : portRequester p = some r) : r.port = p := by
  cases p <;> cases h <;> rfl

theorem portRequester_none {p : Port} (h : portRequester p = none) : p = .bus := by
  cases p with
  | bus => rfl
  | _ => cases h

/-- The entry of a table word that is a bus command. -/
theorem tableEvent_command {nbits w : Nat} (h : portRequester (Packet.ofTable nbits w).tablePort = none) :
    tableEvent nbits w = .command (Packet.ofTable nbits w) := by
  simp [tableEvent, h]

/-- The entry of a table word that is a host operation. -/
theorem tableEvent_deliver {nbits w : Nat} {r : Requester}
    (h : portRequester (Packet.ofTable nbits w).tablePort = some r) :
    tableEvent nbits w = .deliver r (Packet.ofTable nbits w) := by
  simp [tableEvent, h]

/-- An instruction placed by the table's bits is run: a bus command as it stands, an operation for its port's requester
(log 22). -/
theorem step_withFetchWord {s : State} {nbits w : Nat} {i : Instr} (hw : s.cfg.wf = true) (ha : s.attached = true)
    (h : decodeTableWord nbits w = some i) :
    (portRequester i.port = none → step (s.withFetchWord nbits w) = exec i s) ∧
    ∀ r, portRequester i.port = some r → canCall s r = true →
      step (s.withFetchWord nbits w) = exec i { s with cur := r } := by
  have hd := decode_of_table h
  rw [decode_port hd]
  refine ⟨fun hp => ?_, fun r hp hc => ?_⟩
  · have hg : (s.withFetchWord nbits w).agenda = .command (Packet.ofTable nbits w) :: s.agenda := by
      rw [State.withFetchWord, tableEvent_command hp]
    exact step_command hw ha hg (portRequester_none hp ▸ hd)
  · have hg : (s.withFetchWord nbits w).agenda = .deliver r (Packet.ofTable nbits w) :: s.agenda := by
      rw [State.withFetchWord, tableEvent_deliver hp]
    exact step_deliver hw ha hg hc (portRequester_port hp ▸ hd)

/-! ### The other entries (R14, R40) -/

/-- The entries of the block's own agents, while a handle exists. -/
theorem step_agents {s : State} {rest : List Event} (hw : s.cfg.wf = true) (ha : s.attached = true) :
    (∀ r, s.agenda = .advance r :: rest → step s = (phaseTurn r { s with agenda := rest }).outcome) ∧
    (s.agenda = .irq :: rest → step s = (irqTurn { s with agenda := rest }).outcome) ∧
    (s.agenda = .dispatchDone :: rest → step s = (dispatchDone { s with agenda := rest }).outcome) := by
  refine ⟨fun r hg => ?_, fun hg => ?_, fun hg => ?_⟩ <;> refine step_done hw hg ?_ <;>
    simp only [eventTask, ha, if_true]

/-- An agent outside the block takes the bus if it has no owner. -/
theorem outsideClaim_eq (s : State) : outsideClaim s = { s with busOwner := s.busOwner.or (some .outside) } := by
  unfold outsideClaim
  cases h : s.busOwner with
  | none => rfl
  | some a => rw [if_neg nofun, Option.some_or, ← h]

/-- It gives back the bus it holds, and no other agent's. -/
theorem outsideRelease_eq (s : State) : outsideRelease s =
    { s with busOwner := if s.busOwner = some .outside then none else s.busOwner } := by
  unfold outsideRelease
  split <;> rfl

/-- An outside agent's entries. -/
theorem step_outside {s : State} {rest : List Event} (hw : s.cfg.wf = true) (ha : s.attached = true) :
    (s.agenda = .claim :: rest →
      step s = .next { s with agenda := rest, busOwner := s.busOwner.or (some .outside) }) ∧
    (s.agenda = .release :: rest →
      step s = .next
        { s with agenda := rest, busOwner := if s.busOwner = some .outside then none else s.busOwner }) := by
  refine ⟨fun hg => ?_, fun hg => ?_⟩ <;> refine step_done hw hg ?_ <;> simp only [eventTask, ha, if_true]
  · rw [outsideClaim_eq]
  · rw [outsideRelease_eq]

/-- Settles O6: each clause is the lemma of its entry. -/
theorem stepRunsDeliveredInstruction : Obligations.StepRunsDeliveredInstruction := by
  refine ⟨fun s r p rest i hw ha hg hc hd => step_deliver hw ha hg hc hd,
    fun s p rest i hw ha hg hd => step_command hw ha hg hd,
    fun s nbits w i hw ha h => step_withFetchWord hw ha h,
    fun s r p rest i op args hw ha hg hc hd hr => step_accept hw ha hg hc hd hr,
    fun s rest hw ha => ?_, fun s rest hw => ⟨fun c hg => ?_, fun a v hg => ?_, fun hg => step_nil hw hg⟩⟩
  · obtain ⟨hadvance, hirq, hdone⟩ := step_agents (rest := rest) hw ha
    exact ⟨hadvance, hirq, hdone, step_outside hw ha⟩
  · exact step_done hw hg rfl
  · exact step_done hw hg rfl

/-! ### Attach and detach (R39, R342) -/

/-- An attach of a detached block. -/
theorem step_attach {s : State} {dev : Nat} {rest : List Event} (hw : s.cfg.wf = true) (ha : s.attached = false)
    (hg : s.agenda = .attach dev :: rest) : step s = .next (attachHandle { s with agenda := rest } dev) := by
  refine step_done hw hg ?_
  simp only [eventTask, ha, Bool.false_eq_true, if_false]

/-- A detach while nothing is in progress, and while something is (U28). -/
theorem step_detach {s : State} {rest : List Event} (hw : s.cfg.wf = true) (ha : s.attached = true)
    (hg : s.agenda = .detach :: rest) :
    step s = if quiet s then .next { s with agenda := rest, attached := false } else .refused .detachInUse := by
  refine step_done hw hg ?_
  simp only [eventTask, ha, if_true]
  rfl

/-- Settles O5: the attach values stand in `State.attachWith` and `attachHandle`; a detach asks whether the block is
quiet. -/
theorem attachValues : Obligations.AttachValues := by
  refine ⟨fun cfg dev => ⟨rfl, rfl, rfl, rfl, rfl, rfl, rfl, rfl, rfl, rfl, rfl, rfl⟩,
    fun s dev rest hw ha hg => step_attach hw ha hg, fun s rest hw ha hg => ⟨fun h => ?_, fun h => ?_⟩,
    fun s hw => step_malformed hw⟩
  · rw [step_detach hw ha hg, if_pos ((quiet_iff s).mpr h)]
  · refine (step_detach hw ha hg).trans (if_neg fun hq => ?_)
    obtain ⟨hidle, hwaiters, hirq⟩ := (quiet_iff s).mp hq
    obtain ⟨r, hr⟩ | hne | hne := h
    · rw [hidle r] at hr; cases hr
    · exact hne hwaiters
    · exact hne hirq

end Sys2Proof.Machine
end

section
/-! CERTIFICATE. Which instruction writes which field of the handle (10_state.md rule R20). -/

namespace Sys2Proof.Machine

/-! ### The instruction of an operation -/

/-- The instruction whose request is an operation with its operands. -/
def instrOf (args : Args) : OpSel → Instr
  | .init => .init args.resume
  | .deinit => .deinit
  | .readReg => .readReg args.addr
  | .writeReg => .writeReg args.addr args.word
  | .blockRead => .blockRead args.addr args.buf args.size
  | .blockWrite => .blockWrite args.addr args.buf args.size
  | .readInterruptStatus => .readInterruptStatus
  | .clearInterrupts => .clearInterrupts args.mask
  | .readPendingSize => .readPendingSize
  | .syncInterrupts => .syncInterrupts args.n
  | .enableInterrupts => .enableInterrupts
  | .disableInterrupts => .disableInterrupts
  | .reset => .reset
  | .isInitialized => .isInitialized
  | .suspend => .suspend
  | .resume => .resume

/-- An instruction is the one its request makes (R108). -/
theorem eq_instrOf {i : Instr} {op : OpSel} {args : Args} (h : i.request = some (op, args)) : i = instrOf args op := by
  cases i <;> cases h <;> rfl

/-- The meaning of an instruction: an operation's run, or one bus command (R108, R155). -/
theorem exec_kinds (i : Instr) (s : State) :
    (∃ op args, i = instrOf args op ∧ i.request = some (op, args) ∧ exec i s = perform op args s) ∨
      i.request = none ∧
        ((∃ r, exec i s = (sbCommand r s).outcome) ∨ ∃ r side, exec i s = (blkCommand r side s).outcome) := by
  cases hr : i.request with
  | none => exact .inr ⟨rfl, exec_of_command hr s⟩
  | some x => exact .inl ⟨x.1, x.2, eq_instrOf hr, rfl, exec_of_request hr s⟩

/-! ### The fields an operation can write -/

/-- What an operation leaves of the handle. -/
structure HandleKept (op : OpSel) (h h' : Handle) : Prop where
  dev : h'.dev = h.dev
  gpioIrq : h'.gpioIrq = h.gpioIrq
  negotiation : op ≠ .init → op ≠ .resume → h'.blockSize = h.blockSize ∧ h'.variant = h.variant
  nint : op ≠ .syncInterrupts → op ≠ .resume → h'.nint = h.nint
  life : op ≠ .init → op ≠ .deinit → op ≠ .reset → op ≠ .suspend → op ≠ .resume →
    h'.initialized = h.initialized ∧ h'.life = h.life
  lock : op ≠ .enableInterrupts → op ≠ .disableInterrupts → h'.lock = h.lock ∧ h'.cbRegistered = h.cbRegistered

theorem HandleKept.refl (op : OpSel) (h : Handle) : HandleKept op h h :=
  ⟨rfl, rfl, fun _ _ => ⟨rfl, rfl⟩, fun _ _ => rfl, fun _ _ _ _ _ => ⟨rfl, rfl⟩, fun _ _ => ⟨rfl, rfl⟩⟩

theorem HandleKept.trans {op : OpSel} {h k l : Handle} (f : HandleKept op h k) (g : HandleKept op k l) :
    HandleKept op h l where
  dev := g.dev.trans f.dev
  gpioIrq := g.gpioIrq.trans f.gpioIrq
  negotiation h1 h2 :=
    ⟨(g.negotiation h1 h2).1.trans (f.negotiation h1 h2).1, (g.negotiation h1 h2).2.trans (f.negotiation h1 h2).2⟩
  nint h1 h2 := (g.nint h1 h2).trans (f.nint h1 h2)
  life h1 h2 h3 h4 h5 :=
    ⟨(g.life h1 h2 h3 h4 h5).1.trans (f.life h1 h2 h3 h4 h5).1,
      (g.life h1 h2 h3 h4 h5).2.trans (f.life h1 h2 h3 h4 h5).2⟩
  lock h1 h2 := ⟨(g.lock h1 h2).1.trans (f.lock h1 h2).1, (g.lock h1 h2).2.trans (f.lock h1 h2).2⟩

/-- Each way a phase writes the handle is a field its operation may write. -/
theorem HandleStep.kept {c : Cfg} {op : OpSel} {h h' : Handle} (hs : HandleStep c op h h') : HandleKept op h h' := by
  cases hs with
  | same => exact .refl op h
  | negotiating ho | failed ho =>
    refine { HandleKept.refl op h with life := fun h1 _ _ _ h5 => ?_ }
    rcases ho with rfl | rfl <;> contradiction
  | commit ho =>
    refine { HandleKept.refl op h with negotiation := fun h1 h2 => ?_, life := fun h1 _ _ _ h5 => ?_ }
    all_goals rcases ho with rfl | rfl <;> contradiction
  | down ho =>
    refine { HandleKept.refl op h with life := fun _ h2 h3 h4 _ => ?_ }
    rcases ho with rfl | rfl | rfl <;> contradiction
  | lines ho =>
    refine { HandleKept.refl op h with nint := fun h1 h2 => ?_ }
    rcases ho with rfl | rfl <;> contradiction
  | lock l ho =>
    refine { HandleKept.refl op h with lock := fun h1 h2 => ?_ }
    rcases ho with ⟨rfl, -⟩ | ⟨rfl, -⟩ <;> contradiction
  | callback ho =>
    refine { HandleKept.refl op h with lock := fun h1 h2 => ?_ }
    rcases ho with rfl | rfl <;> contradiction

/-- A requester that is held leaves the handle. -/
theorem phaseTurn_held_h {q : Requester} {s s' : State} (h : phaseTurn q s = .held s') : s'.h = s.h := by
  obtain rfl | ⟨-, -, rfl⟩ := phaseTurn_held h <;> rfl

/-- An operation's call leaves of the handle what its operation leaves. -/
theorem perform_handleKept {op : OpSel} {args : Args} {s t : State} (h : perform op args s = .next t) :
    HandleKept op s.h t.h :=
  perform_inside (P := fun u => HandleKept op s.h u.h)
    (fun _ _ hu hin ht => hu.trans (hin.runs ▸ phaseTurn_handleStep ht hin.opHasPhase).kept)
    (fun _ _ hu _ ht => phaseTurn_held_h ht ▸ hu) (.refl op s.h) (.refl op s.h) h

/-- A bus command leaves the handle. -/
theorem command_h {i : Instr} {s t : State} (hk : (∃ r, exec i s = (sbCommand r s).outcome) ∨
    ∃ r side, exec i s = (blkCommand r side s).outcome) (h : exec i s = .next t) : t.h = s.h := by
  obtain ⟨r, e⟩ | ⟨r, side, e⟩ := hk
  · obtain rfl | ⟨-, rfl⟩ := sbCommand_next (e ▸ h) <;> rfl
  · obtain rfl | rfl | ⟨-, rfl⟩ := blkCommand_next (e ▸ h) <;> rfl

/-- Settles O11: a bus command leaves the handle, and each operation's phases write only the fields of their operation. -/
theorem handleFieldWriters : Obligations.HandleFieldWriters := by
  intro i s t h
  obtain ⟨op, args, rfl, -, e⟩ | ⟨-, hk⟩ := exec_kinds i s
  · have k := perform_handleKept (e ▸ h)
    have ne {o : OpSel} (hne : instrOf args op ≠ instrOf args o) : op ≠ o := fun eo => hne (by rw [eo])
    exact ⟨k.dev, k.gpioIrq, fun h1 h2 => k.negotiation (ne (h1 _)) (ne h2), fun h1 h2 => k.nint (ne (h1 _)) (ne h2),
      fun h1 h2 h3 h4 h5 => k.life (ne (h1 _)) (ne h2) (ne h3) (ne h4) (ne h5), fun h1 h2 => k.lock (ne h1) (ne h2)⟩
  · rw [command_h hk h]
    exact ⟨rfl, rfl, fun _ _ => ⟨rfl, rfl⟩, fun _ _ => rfl, fun _ _ _ _ _ => ⟨rfl, rfl⟩, fun _ _ => ⟨rfl, rfl⟩⟩

end Sys2Proof.Machine
end

section
/-! SUPPORT. What one phase of an operation does at the ports: at most one transaction or registration call, and beside it
nothing that reaches the device, the buffers or the oracle. -/

namespace Sys2Proof.Machine

/-! ### What a phase does beside its transaction -/

/-- An output that is neither a bus command nor a registration call. -/
def OffBus (o : Output) : Prop := (∀ c, o ≠ .bus c) ∧ o ≠ .irqRegister ∧ o ≠ .irqUnregister

/-- What follows a transaction in a phase, or stands in a phase without one: the device, the buffers and the answers to come
are as before, and nothing goes out on the bus. -/
structure Local (s t : State) : Prop where
  dev : t.dev = s.dev
  buf : t.buf = s.buf
  draws : t.draws = s.draws
  out : ∃ l, t.out = s.out ++ l ∧ ∀ o ∈ l, OffBus o

theorem Local.emit_of {s t u : State} {o : Output} (h : Local s t) (ho : OffBus o) (hd : u.dev = t.dev)
    (hb : u.buf = t.buf) (hw : u.draws = t.draws) (he : u.out = t.out ++ [o]) : Local s u := by
  obtain ⟨l, hl, hq⟩ := h.out
  refine ⟨hd.trans h.dev, hb.trans h.buf, hw.trans h.draws, l ++ [o], by rw [he, hl, List.append_assoc], ?_⟩
  intro x hx
  rcases List.mem_append.mp hx with hx | hx
  · exact hq x hx
  · exact List.mem_singleton.mp hx ▸ ho

/-- An update that touches none of the four may be left out. -/
theorem Local.iff_of {s t u : State} (hd : u.dev = t.dev) (hb : u.buf = t.buf) (hw : u.draws = t.draws)
    (ho : u.out = t.out) : Local s u ↔ Local s t :=
  ⟨fun h => ⟨hd ▸ h.dev, hb ▸ h.buf, hw ▸ h.draws, ho ▸ h.out⟩,
    fun h => ⟨hd.trans h.dev, hb.trans h.buf, hw.trans h.draws, ho ▸ h.out⟩⟩

theorem offBus_response (q : Requester) (a : Answer) : OffBus (.response q a) := by simp [OffBus]

@[simp] theorem local_refl (s : State) : Local s s := ⟨rfl, rfl, rfl, [], by simp, nofun⟩
@[simp] theorem local_setCtx (s t : State) (q : Requester) (c : Ctx) : Local s (t.setCtx q c) ↔ Local s t :=
  Local.iff_of rfl rfl rfl rfl
@[simp] theorem local_goto (s t : State) (q : Requester) (p : Phase) : Local s (t.goto q p) ↔ Local s t :=
  Local.iff_of rfl rfl rfl rfl
@[simp] theorem local_setAcc (s t : State) (q : Requester) (v : Word) : Local s (t.setAcc q v) ↔ Local s t :=
  Local.iff_of rfl rfl rfl rfl
@[simp] theorem local_setH (s t : State) (k : Handle) : Local s (t.setH k) ↔ Local s t :=
  Local.iff_of rfl rfl rfl rfl
@[simp] theorem local_setLock (s t : State) (k : Lock) : Local s (t.setLock k) ↔ Local s t :=
  Local.iff_of rfl rfl rfl rfl
@[simp] theorem local_setCb (s t : State) (b : Bool) : Local s (t.setCb b) ↔ Local s t :=
  Local.iff_of rfl rfl rfl rfl
@[simp] theorem local_addLog (s t : State) (e : LogEvent) : Local s (t.addLog e) ↔ Local s t :=
  Local.iff_of rfl rfl rfl rfl
@[simp] theorem local_pmHandshakes {s t : State} (h : Local s t) : Local s (t.emit .pmHandshakes) :=
  h.emit_of (by simp [OffBus]) rfl rfl rfl rfl
@[simp] theorem local_finish {s t : State} (q : Requester) (a : Answer) (h : Local s t) : Local s (t.finish q a) :=
  h.emit_of (offBus_response q a) rfl rfl rfl rfl
@[simp] theorem local_raiseTransport {s t : State} (q : Requester) (h : Local s t) : Local s (t.raiseTransport q) :=
  h.emit_of (offBus_response q _) rfl rfl rfl rfl
@[simp] theorem local_failInit {s t : State} (q : Requester) (c : Code) (h : Local s t) : Local s (t.failInit q c) :=
  h.emit_of (offBus_response q _) rfl rfl rfl rfl
@[simp] theorem local_failInitTransport {s t : State} (q : Requester) (h : Local s t) :
    Local s (t.failInitTransport q) :=
  h.emit_of (offBus_response q _) rfl rfl rfl rfl

@[simp] theorem local_afterHalfA {s t : State} (q : Requester) (h : Local s t) : Local s (afterHalfA q t) := by
  unfold afterHalfA; split <;> simp [h]
@[simp] theorem local_halfDone {s t : State} (q : Requester) (f : Half) (n : Nat) (h : Local s t) :
    Local s (halfDone q f n t) := by
  cases f <;> simp [halfDone, h]
@[simp] theorem local_afterAckB {s t : State} (q : Requester) (h : Local s t) : Local s (afterAckB q t) := by
  unfold afterAckB; split <;> simp [h]
@[simp] theorem local_statusRegDone {s t : State} (q : Requester) (d : Byte) (h : Local s t) :
    Local s (statusRegDone q d t) := by
  unfold statusRegDone; dsimp only; split <;> simp [h]
@[simp] theorem local_syncDone {s t : State} (q : Requester) (h : Local s t) : Local s (syncDone q t) := by
  unfold syncDone; split <;> simp [h]
@[simp] theorem local_beginRmw {s t : State} (q : Requester) (g : RmwReg) (h : Local s t) :
    Local s (beginRmw q g t) := (local_goto s t q _).mpr h
@[simp] theorem local_afterRmw {s t : State} (q : Requester) (g : RmwReg) (h : Local s t) :
    Local s (afterRmw q g t) := by
  cases g <;> simp only [afterRmw] <;> (try split) <;> simp [h]
@[simp] theorem local_syncBody {s t : State} (q : Requester) (n : Nat) (h : Local s t) : Local s (syncBody q n t) := by
  unfold syncBody; dsimp only
  repeat' split
  all_goals simp [h]
@[simp] theorem local_afterNeg {s t : State} (q : Requester) (w : NegWrite) (h : Local s t) :
    Local s (afterNeg q w t) := by
  cases w <;> simp [afterNeg, h]
@[simp] theorem local_commitInit {s t : State} (q : Requester) (v : Variant) (h : Local s t) :
    Local s (commitInit q v t) := by
  unfold commitInit; dsimp only; split <;> simp [h]

/-! ### The transaction of a phase (R14, R28) -/

/-- The registers the negotiation writes (R233 to R238). -/
def negPlaces (c : Cfg) : List Loc8 :=
  [c.winEnReg, c.f0BlkszLo, c.f0BlkszHi, c.ioEnReg, c.f1BlkszLo, c.f1BlkszHi, c.intEnReg]

/-- The byte registers an operation stores to by single-byte writes that are no window writes. -/
def opPlaces (c : Cfg) : OpSel → List Loc8
  | .clearInterrupts => [c.intClrA, c.intAckB, c.vmmCtlB]
  | .init => negPlaces c
  | .resume => negPlaces c
  | .reset => [c.resetReg]
  | .suspend => [c.resetReg]
  | _ => []

/-- The register access a phase is part of: its direction and its address (R165, R240, R252). -/
inductive AccessPhase (c : Cfg) (x : Ctx) : Bool → Word → RegStep → Prop where
  | reg (st : RegStep) (hp : x.phase = .reg st) : AccessPhase c x (opWrites x.op) x.args.addr st
  | ident (st : RegStep) (hp : x.phase = .ident st) : AccessPhase c x false c.chipIdReg st
  | rmwRead (g : RmwReg) (st : RegStep) (hp : x.phase = .rmw g .read st) : AccessPhase c x false (rmwAddr c g) st
  | rmwWrite (g : RmwReg) (st : RegStep) (hp : x.phase = .rmw g .write st) : AccessPhase c x true (rmwAddr c g) st

/-- The state after what a phase of `q` does at the ports: nothing, one transaction, or one registration call. -/
inductive Transaction (q : Requester) (s : State) : State → Prop where
  | nothing : Transaction q s s
  | read (r : SbReq) (hb : s.busOwner = none) (hr : r.wr = false) : Transaction q s (s.sb r).2
  | store (r : SbReq) (hb : s.busOwner = none) (hl : r.loc ∈ opPlaces s.cfg (s.ctx q).op) :
    Transaction q s (s.sb r).2
  | window (f : Half) (w : WinStep) (hb : s.busOwner = none) (hp : (s.ctx q).phase = .blk f w) (hw : w ≠ .data) :
    Transaction q s (s.sb (windowReq s.cfg (s.ctx q).wa w.index)).2
  | access (wr : Bool) (a w : Word) (st : RegStep) (hb : s.busOwner = none)
    (hp : AccessPhase s.cfg (s.ctx q) wr a st) : Transaction q s (regAccess q wr a w st s).2
  | half (f : Half) (hp : (s.ctx q).phase = .blk f .data)
    (hb : countAllowed s.cfg (halfReq s.cfg (s.ctx q) s.h.blockSize f).count = true → s.busOwner = none) :
    Transaction q s (halfState q f s)
  | callback (o : Output) (hb : s.busOwner = none) : Transaction q s (s.dropDraw.emit o)

/-- A phase that is a transaction and what follows it. -/
def Transacts (q : Requester) (s s' : State) : Prop := ∃ t, Transaction q s t ∧ Local t s'

theorem transacts_local {q : Requester} {s s' : State} (h : Local s s') : Transacts q s s' := ⟨s, .nothing, h⟩

/-- A single-byte transaction of a phase: a read, or a write to a register of its operation. -/
theorem transacts_sbTurn {q : Requester} {r : SbReq} {failed : State → State} {ok : Byte → State → State}
    {s s' : State} (h : sbTurn r failed ok s = .moved s')
    (hr : r.wr = false ∨ r.loc ∈ opPlaces s.cfg (s.ctx q).op) (hf : ∀ t, Local t (failed t))
    (hk : ∀ d t, Local t (ok d t)) : Transacts q s s' := by
  obtain ⟨hb, hs⟩ := sbTurn_moved h
  have ht : Transaction q s (s.sb r).2 := hr.elim (.read r hb) (.store r hb)
  refine ⟨_, ht, ?_⟩
  obtain rfl | ⟨d, rfl⟩ := hs
  · exact hf _
  · exact hk _ _

/-- A register access of a phase. -/
theorem transacts_accessTurn {q : Requester} {wr : Bool} {a w : Word} {st : RegStep} {more : RegStep → Phase}
    {failed : State → State} {value : Word → State → State} {s s' : State}
    (h : accessTurn q wr a w st more failed value s = .moved s') (hp : AccessPhase s.cfg (s.ctx q) wr a st)
    (hf : ∀ t, Local t (failed t)) (hk : ∀ v t, Local t (value v t)) : Transacts q s s' := by
  obtain ⟨hb, hs⟩ := accessTurn_moved h
  refine ⟨_, .access wr a w st hb hp, ?_⟩
  obtain rfl | ⟨r, -, rfl⟩ | ⟨v, rfl⟩ := hs
  · exact hf _
  · simp
  · exact hk _ _

theorem withBusFor_moved {s s' u : State} {n : Nat} (h : withBusFor s n (.moved u) = .moved s') :
    s' = u ∧ (countAllowed s.cfg n = true → s.busOwner = none) := by
  unfold withBusFor at h
  split at h
  · obtain ⟨hb, hu⟩ := withBus_moved h
    cases hu
    exact ⟨rfl, fun _ => hb⟩
  · rename_i hn
    cases h
    exact ⟨rfl, fun h => absurd h hn⟩

theorem transacts_blkTurn {q : Requester} {s s' : State} {f : Half} {w : WinStep} (h : blkTurn q f w s = .moved s')
    (hp : (s.ctx q).phase = .blk f w) : Transacts q s s' := by
  unfold blkTurn at h
  split at h
  · rw [halfCommand_eq] at h
    obtain ⟨rfl, hb⟩ := withBusFor_moved h
    refine ⟨_, .half f hp hb, ?_⟩
    split <;> simp
  · obtain ⟨hb, h⟩ := withBus_moved h
    cases h
    refine ⟨_, .window f w hb hp (by assumption), ?_⟩
    split <;> simp [winWrite]

theorem transacts_resetTurn {q : Requester} {s s' : State} (h : resetTurn q s = .moved s')
    (ho : (s.ctx q).op = .reset ∨ (s.ctx q).op = .suspend) : Transacts q s s' := by
  unfold resetTurn at h
  split at h
  · cases h; exact transacts_local (by simp)
  · refine transacts_sbTurn h (.inr ?_) (by simp) (by simp)
    rcases ho with ho | ho <;> simp [ho, opPlaces, writeReq, SbReq.loc]

/-- The register of a negotiation write. -/
theorem negReq_place (c : Cfg) (w : NegWrite) : (negReq c w).loc ∈ negPlaces c := by
  cases w <;> simp [negReq, writeReq, SbReq.loc, negPlaces]

/-- The first phase of an operation makes no transaction, but `reset`'s (log 35). -/
theorem transacts_startTurn {q : Requester} {s s' : State} (h : startTurn q s = .moved s') : Transacts q s s' := by
  unfold startTurn at h
  split at h
  case h_13 ho => exact transacts_resetTurn h (.inl ho)
  case h_10 => cases h; exact transacts_local (by simp)
  all_goals
    simp only [startInit, startResume, beginNegotiation, startDeinit, startReg, startTransfer, startInterruptStatus,
      startClear, startPendingSize, startEnable, startDisable, startIsInitialized, startSuspend] at h
    repeat' split at h
    all_goals cases h
    all_goals exact transacts_local (by simp)

/-- A phase is at most one transaction or registration call, and what follows it. -/
theorem phaseTurn_transacts {q : Requester} {s s' : State} (h : phaseTurn q s = .moved s')
    (hp : opHasPhase (s.ctx q).op (s.ctx q).phase = true) : Transacts q s s' := by
  unfold phaseTurn at h
  split at h
  case h_1 => cases h
  case h_2 => exact transacts_startTurn h
  case h_3 r hs => exact transacts_accessTurn h (.reg r hs) (by simp) (by simp)
  case h_4 f w hs => exact transacts_blkTurn h hs
  case h_5 => exact transacts_sbTurn h (.inl rfl) (by simp) (by simp)
  case h_6 => exact transacts_sbTurn h (.inl rfl) (by simp) (fun _ t => by dsimp only; split <;> simp)
  case h_7 =>
    unfold flagsTurn at h
    repeat' split at h
    · exact transacts_sbTurn h (.inl rfl) (by simp) (by simp)
    · cases h; exact transacts_local (by simp)
    · exact transacts_sbTurn h (.inl rfl) (by simp) (by simp)
  case h_8 hs | h_9 hs | h_10 hs =>
    have ho : (s.ctx q).op = .clearInterrupts := by
      rw [hs] at hp; revert hp; cases (s.ctx q).op <;> simp [opHasPhase]
    exact transacts_sbTurn h (.inr (by simp [ho, opPlaces, writeReq, SbReq.loc])) (by simp) (by simp)
  case h_11 w hs =>
    have ho : opPlaces s.cfg (s.ctx q).op = negPlaces s.cfg := by
      rw [hs] at hp; revert hp; cases (s.ctx q).op <;> simp [opHasPhase, opPlaces]
    exact transacts_sbTurn h (.inr (ho ▸ negReq_place s.cfg w)) (by simp) (by simp)
  case h_12 =>
    refine transacts_sbTurn h (.inl rfl) (by simp) (fun _ t => ?_)
    dsimp only
    repeat' split
    all_goals simp
  case h_13 r hs =>
    refine transacts_accessTurn h (.ident r hs) (by simp) (fun _ t => ?_)
    split <;> simp
  case h_14 => unfold identSkipTurn at h; split at h <;> cases h <;> exact transacts_local (by simp)
  case h_15 hs =>
    have ho : (s.ctx q).op = .suspend := by
      rw [hs] at hp; revert hp; cases (s.ctx q).op <;> simp [opHasPhase]
    exact transacts_resetTurn h (.inr ho)
  case h_16 => cases h; exact transacts_local (by simp)
  case h_17 g f r hs =>
    unfold rmwTurn at h
    cases f
    · exact transacts_accessTurn h (.rmwRead g r hs) (by simp) (by simp)
    · exact transacts_accessTurn h (.rmwWrite g r hs) (by simp) (by simp)
  case h_18 =>
    obtain ⟨hb, h⟩ := withBus_moved h
    cases h
    exact ⟨_, .callback .irqRegister hb, by split <;> simp⟩
  case h_19 =>
    obtain ⟨hb, h⟩ := withBus_moved h
    cases h
    exact ⟨_, .callback .irqUnregister hb, (local_setCtx _ _ _ _).mpr (by split <;> simp)⟩
  case h_20 => cases h; exact transacts_local (by split <;> simp)

/-! ### What a transaction does to the buffers, and that none is made while the bus has an owner -/

theorem executeBlock_none {s : State} {r : BlkReq} (p : List Byte)
    (h : countAllowed s.cfg r.count = true → s.busOwner = none) (hb : s.busOwner ≠ none) :
    s.executeBlock r p = (⟨false, []⟩, s) :=
  executeBlock_refused s r p (by simpa using fun e => hb (h e))

/-- While the bus has an owner no phase makes a transaction (R29, R153): at most a block command whose count is refused. -/
theorem Transaction.eq_of_busy {q : Requester} {s t : State} (h : Transaction q s t) (hb : s.busOwner ≠ none) :
    t = s := by
  cases h with
  | nothing => rfl
  | half f hp hc =>
    unfold halfState
    rw [executeBlock_none _ hc hb]
    exact setBuf_self _ _ (by simp [Memory.writeBytes])
  | read r h | store r h | window f w h | access wr a w st h | callback o h => exact absurd h hb

/-- Only a block command of a read fills the buffers. -/
theorem Transaction.buf {q : Requester} {s t : State} (h : Transaction q s t) :
    t.buf = s.buf ∨ ∃ f, (s.ctx q).phase = .blk f .data ∧ opWrites (s.ctx q).op = false ∧ t = halfState q f s := by
  cases h with
  | half f hp =>
    cases hw : opWrites (s.ctx q).op with
    | true => exact .inl (by cases f <;> simp [halfState, halfReq, hw])
    | false => exact .inr ⟨f, hp, rfl, rfl⟩
  | access => exact .inl (by simp)
  | nothing | read | store | window | callback => exact .inl rfl

end Sys2Proof.Machine
end

section
/-! CERTIFICATE. What no instruction changes (10_state.md rules R27, R29): the configuration, the schedule, the other
agents, and the buffers but for the bytes a read fills. -/

namespace Sys2Proof.Machine

/-! ### The bytes a block command returns -/

theorem readBlk_length {c : Cfg} {d d' : Device} {r : BlkReq} {bs : List Byte} (h : d.readBlk c r = some (bs, d')) :
    bs.length ≤ r.bytes := by
  unfold Device.readBlk at h
  repeat' split at h
  all_goals cases h
  all_goals simp

/-- An answer holds no more bytes than its command moves. -/
theorem blkAnswer_length (c : Cfg) (f : Nat) (d : Device) (r : BlkReq) (p : List Byte) (w : Draw) :
    (blkAnswer c f d r p w).1.bytes.length ≤ r.bytes := by
  unfold blkAnswer
  repeat' split
  all_goals first | exact readBlk_length ‹_› | simp

theorem executeBlock_length (s : State) (r : BlkReq) (p : List Byte) :
    (s.executeBlock r p).1.bytes.length ≤ r.bytes := by
  obtain h | h := executeBlock_cases s r p <;> rw [h]
  · exact blkAnswer_length _ _ _ _ _ _
  · exact Nat.zero_le _

/-! ### Where a transfer stands (R184, R187) -/

/-- A transfer of a rounded size at a block size: its split, the bytes moved so far, and the cursor they are counted from. -/
structure TransferAt (f : Half) (bs : Nat) (u : State) (x : Ctx) : Prop where
  blockSize : u.h.blockSize = some bs
  nblk : x.nblk = wholeBlocks (roundUp4 x.args.size) bs
  nleft : x.nleft = remainder (roundUp4 x.args.size) bs
  cur : x.cur = match f with | .a => 0 | .b => wholeBlocks (roundUp4 x.args.size) bs * bs
  wa : x.args.addr ≠ 0 → x.wa = x.args.addr + BitVec.ofNat 32 x.cur

/-- A requester in a transfer phase stands where the split puts it. -/
def TransferOk (q : Requester) (u : State) : Prop :=
  ∀ f w, (u.ctx q).phase = .blk f w → ∃ bs, TransferAt f bs u (u.ctx q)

/-- The bytes of a half and those before it are bytes of the transfer. -/
theorem TransferAt.fits {f : Half} {bs : Nat} {u : State} {x : Ctx} (h : TransferAt f bs u x) (c : Cfg) :
    x.cur + (halfReq c x u.h.blockSize f).bytes ≤ roundUp4 x.args.size := by
  have hsplit := Nat.div_add_mod' (roundUp4 x.args.size) bs
  rw [h.cur, h.blockSize]
  cases f
  · simp only [halfReq, BlkReq.bytes, if_true, Option.getD_some, h.nblk, wholeBlocks]
    omega
  · simp only [halfReq, BlkReq.bytes, Bool.false_eq_true, if_false, h.nleft, wholeBlocks, remainder]
    omega

theorem transferOk_finish (q : Requester) (t : State) (a : Answer) : TransferOk q (t.finish q a) := by
  intro f w h
  simp at h

theorem transferOk_load (q : Requester) (op : OpSel) (args : Args) (s : State) : TransferOk q (s.load q op args) := by
  intro f w h
  simp at h

theorem transferOk_joinWaiters {q : Requester} {s : State} (h : TransferOk q s) : TransferOk q (joinWaiters q s) := by
  intro f w hp
  obtain ⟨bs, hat⟩ := h f w hp
  exact ⟨bs, hat.blockSize, hat.nblk, hat.nleft, hat.cur, hat.wa⟩

theorem transferOk_raiseTransport (q : Requester) (t : State) : TransferOk q (t.raiseTransport q) :=
  transferOk_finish q _ _

/-- Phase (b) is entered with the window and the buffer cursors past phase (a). -/
theorem transferOk_afterHalfA {q : Requester} {t : State} {bs : Nat} (h : TransferAt .b bs t (t.ctx q)) :
    TransferOk q (afterHalfA q t) := by
  unfold afterHalfA
  split
  · exact transferOk_finish q t _
  · intro f w hp
    simp only [ctx_goto_same, Phase.blk.injEq] at hp
    obtain ⟨rfl, -⟩ := hp
    simp only [ctx_goto_same]
    exact ⟨bs, ⟨h.blockSize, h.nblk, h.nleft, h.cur, h.wa⟩⟩

theorem transferOk_startTransfer {q : Requester} {s s' : State} (h : startTransfer q s = .moved s') :
    TransferOk q s' := by
  unfold startTransfer at h
  dsimp only at h
  split at h
  · cases h; exact transferOk_raiseTransport q s
  · rename_i bs hbs
    split at h
    · cases h
    · split at h
      · rename_i h0
        cases h
        refine transferOk_afterHalfA (bs := bs) ⟨hbs, ?_, ?_, ?_, ?_⟩ <;> simp [h0]
      · cases h
        intro f w hp
        simp only [ctx_goto_same, Phase.blk.injEq] at hp
        obtain ⟨rfl, -⟩ := hp
        refine ⟨bs, ⟨hbs, ?_, ?_, ?_, ?_⟩⟩ <;> simp

/-- Phase (a)'s block command moves its blocks; the cursors advance by them (R187). -/
theorem transferOk_halfDone {q : Requester} {t : State} {f : Half} {bs n : Nat} (h : TransferAt f bs t (t.ctx q))
    (hn : f = .a → n = (t.ctx q).nblk * bs) : TransferOk q (halfDone q f n t) := by
  cases f
  · obtain ⟨hbs, hnblk, hnleft, hcur, hwa⟩ := h
    dsimp only at hcur
    refine transferOk_afterHalfA (bs := bs) ⟨hbs, ?_, ?_, ?_, ?_⟩
    · simpa using hnblk
    · simpa using hnleft
    · simp [hcur, hn rfl, hnblk]
    · intro ha
      simp only [ctx_setCtx_same] at ha ⊢
      rw [if_neg ha, hwa ha, hcur]
      simp
  · exact transferOk_finish q t _

theorem transferOk_blkTurn {q : Requester} {s s' : State} {f : Half} {w : WinStep} (h : blkTurn q f w s = .moved s')
    (hp : (s.ctx q).phase = .blk f w) (hs : TransferOk q s) : TransferOk q s' := by
  obtain ⟨bs, hat⟩ := hs f w hp
  unfold blkTurn at h
  split at h
  · rw [halfCommand_eq] at h
    obtain ⟨rfl, -⟩ := withBusFor_moved h
    split
    · refine transferOk_halfDone (bs := bs) (f := f) ?_ ?_
      · simp only [halfState, setBuf_ctx, executeBlock_ctx]
        exact ⟨by simpa using hat.blockSize, hat.nblk, hat.nleft, hat.cur, hat.wa⟩
      · rintro rfl
        simp [halfReq, BlkReq.bytes, hat.blockSize, halfState]
    · exact transferOk_raiseTransport q _
  · obtain ⟨-, h⟩ := withBus_moved h
    cases h
    split
    · intro f' w' hp'
      simp only [ctx_goto_same, Phase.blk.injEq] at hp'
      obtain ⟨rfl, -⟩ := hp'
      simp only [ctx_goto_same, winWrite, sb_ctx]
      exact ⟨bs, ⟨by simpa using hat.blockSize, hat.nblk, hat.nleft, hat.cur, hat.wa⟩⟩
    · exact transferOk_raiseTransport q _

/-- The operations that are transfers. -/
def isTransfer : OpSel → Bool
  | .blockRead => true
  | .blockWrite => true
  | _ => false

/-- A transfer is at its first phase or in one of its halves. -/
theorem transfer_phases {op : OpSel} {p : Phase} (ht : isTransfer op = true) (hp : opHasPhase op p = true) :
    p = .start ∨ ∃ f w, p = .blk f w := by
  cases op <;> simp only [isTransfer, Bool.false_eq_true] at ht
  all_goals cases p <;> simp_all [opHasPhase]

/-- Only transfers have halves. -/
theorem isTransfer_of_blk {op : OpSel} {f : Half} {w : WinStep} (hp : opHasPhase op (.blk f w) = true) :
    isTransfer op = true := by
  revert hp
  cases op <;> simp [opHasPhase, isTransfer]

/-- A phase of a transfer leaves it where the split puts it. -/
theorem phaseTurn_transferOk {q : Requester} {s s' : State} (h : phaseTurn q s = .moved s')
    (hp : opHasPhase (s.ctx q).op (s.ctx q).phase = true) (hs : TransferOk q s) : TransferOk q s' := by
  cases ht : isTransfer (s.ctx q).op with
  | false =>
    intro f w hp'
    obtain hi | hg := phaseTurn_went h hp
    · rw [idle_eq, hp'] at hi; cases hi
    · rw [isTransfer_of_blk (hp' ▸ hg.phase)] at ht
      cases ht
  | true =>
    obtain hph | ⟨f, w, hph⟩ := transfer_phases ht hp
    · have hst : startTurn q s = startTransfer q s := by
        unfold startTurn
        revert ht
        cases (s.ctx q).op <;> simp [isTransfer]
      simp only [phaseTurn, hph, hst] at h
      exact transferOk_startTransfer h
    · simp only [phaseTurn, hph] at h
      exact transferOk_blkTurn h hph hs

/-! ### The buffers (R146, R188) -/

/-- Bytes outside a range are as before. -/
def SameOutside (range : Nat × Nat) (m m' : Memory) : Prop :=
  ∀ a, a < range.1 ∨ range.1 + range.2 ≤ a → m'.read a = m.read a

theorem sameOutside_writeBytes {range : Nat × Nat} (m : Memory) {base : Nat} {bs : List Byte} (hlo : range.1 ≤ base)
    (hhi : base + bs.length ≤ range.1 + range.2) : SameOutside range m (m.writeBytes base bs) :=
  fun _ ha => Memory.read_writeBytes_out _ _ _ _ (by omega)

/-- A half's block command fills no byte outside the transfer's. -/
theorem halfState_sameOutside {q : Requester} {args : Args} {s : State} {f : Half}
    (hin : Inside q .blockRead args s) (hp : (s.ctx q).phase = .blk f .data) (hs : TransferOk q s) :
    SameOutside (args.buf.base, roundUp4 args.size) s.buf (halfState q f s).buf := by
  obtain ⟨bs, hat⟩ := hs f .data hp
  have hfit := hat.fits s.cfg
  have hlen := executeBlock_length s (halfReq s.cfg (s.ctx q) s.h.blockSize f) (halfPayload q f s)
  simp only [halfState, setBuf_buf]
  split
  · exact fun _ _ => rfl
  · rw [hin.size] at hfit
    rw [hin.buf]
    exact sameOutside_writeBytes _ (by omega) (by dsimp only; omega)

/-- A phase of an operation fills no byte outside its instruction's range. -/
theorem phaseTurn_sameOutside {q : Requester} {op : OpSel} {args : Args} {s s' : State} (hin : Inside q op args s)
    (h : phaseTurn q s = .moved s') (hs : TransferOk q s) :
    SameOutside (filledRange (instrOf args op)) s.buf s'.buf := by
  obtain ⟨t, ht, hl⟩ := phaseTurn_transacts h hin.opHasPhase
  rw [hl.buf]
  obtain e | ⟨f, hp, hw, rfl⟩ := ht.buf
  · rw [e]; exact fun _ _ => rfl
  · have ho : op = .blockRead := by
      have ht := isTransfer_of_blk (hp ▸ hin.phase)
      rw [hin.runs] at hw
      revert ht hw
      cases op <;> simp [isTransfer, opWrites]
    subst ho
    exact halfState_sameOutside hin hp hs

/-- An operation's call fills no byte outside its instruction's range. -/
theorem perform_sameOutside {op : OpSel} {args : Args} {s t : State} (h : perform op args s = .next t) :
    SameOutside (filledRange (instrOf args op)) s.buf t.buf := by
  refine (perform_run_induct
    (P := fun u => SameOutside (filledRange (instrOf args op)) s.buf u.buf ∧ TransferOk s.cur u) ?_ ?_ ?_ h).elim
    (fun e _ _ => e ▸ rfl) fun k => k.1
  · rintro u u' ⟨hbuf, hok⟩ hin ht
    exact ⟨fun a ha => (phaseTurn_sameOutside hin ht hok a ha).trans (hbuf a ha),
      phaseTurn_transferOk ht hin.opHasPhase hok⟩
  · rintro u u' ⟨hbuf, hok⟩ hin ht
    obtain rfl | ⟨-, -, rfl⟩ := phaseTurn_held ht
    · exact ⟨hbuf, hok⟩
    · exact ⟨hbuf, transferOk_joinWaiters hok⟩
  · exact ⟨fun _ _ => rfl, transferOk_load s.cur op args s⟩

/-- A bus command fills no byte outside its range (R147, R148). -/
theorem blkCommand_sameOutside {r : BlkReq} {side : Side} {s t : State} {range : Nat × Nat}
    (h : (blkCommand r side s).outcome = .next t)
    (hr : r.wr = false → range = (side.buf.base + side.off, r.bytes)) : SameOutside range s.buf t.buf := by
  obtain rfl | rfl | ⟨-, rfl⟩ := blkCommand_next h
  · exact fun _ _ => rfl
  · exact fun _ _ => rfl
  · simp only [setBuf_buf, filled]
    split
    · exact fun _ _ => rfl
    · have hlen : (s.blk r []).1.bytes.length ≤ r.bytes := blkAnswer_length _ _ _ _ _ _
      rw [hr (by simpa using ‹¬ r.wr = true›)]
      exact sameOutside_writeBytes _ le_rfl (by dsimp only; omega)

theorem sbCommand_buf {r : SbReq} {s t : State} (h : (sbCommand r s).outcome = .next t) : t.buf = s.buf := by
  obtain rfl | ⟨-, rfl⟩ := sbCommand_next h <;> rfl

/-- An instruction fills no byte outside its range. -/
theorem exec_sameOutside {i : Instr} {s t : State} (h : exec i s = .next t) :
    SameOutside (filledRange i) s.buf t.buf := by
  cases hr : i.request with
  | some x =>
    rw [exec_of_request hr] at h
    rw [eq_instrOf hr]
    exact perform_sameOutside h
  | none =>
    cases i
    case sbRd | sbWr | sbWrRb => exact fun _ _ => by rw [sbCommand_buf h]
    case blkRdByte | blkRdBlock => exact blkCommand_sameOutside h fun _ => rfl
    case blkWrByte | blkWrBlock => exact blkCommand_sameOutside h nofun
    all_goals cases hr

/-! ### Everything else (R27, R29, R40) -/

/-- What an instruction of `q` leaves: the configuration, the other agents and the schedule; the waiters too, but that a
`disableInterrupts` may add its caller. -/
structure CallFrame (q : Requester) (disables : Prop) (s t : State) : Prop where
  cfg : t.cfg = s.cfg
  attached : t.attached = s.attached
  irq : t.irq = s.irq
  busOwner : t.busOwner = s.busOwner
  agenda : t.agenda = s.agenda
  cur : t.cur = s.cur
  others : ∀ r, r ≠ q → t.ctx r = s.ctx r
  waiters : ¬ disables → t.waiters = s.waiters
  waits : ∀ r, r ≠ q → (r ∈ t.waiters ↔ r ∈ s.waiters)

theorem CallFrame.refl (q : Requester) (d : Prop) (s : State) : CallFrame q d s s :=
  ⟨rfl, rfl, rfl, rfl, rfl, rfl, fun _ _ => rfl, fun _ => rfl, fun _ _ => Iff.rfl⟩

theorem CallFrame.trans {q : Requester} {d : Prop} {s t u : State} (h : CallFrame q d s t) (g : CallFrame q d t u) :
    CallFrame q d s u :=
  ⟨g.cfg.trans h.cfg, g.attached.trans h.attached, g.irq.trans h.irq, g.busOwner.trans h.busOwner,
    g.agenda.trans h.agenda, g.cur.trans h.cur, fun r hr => (g.others r hr).trans (h.others r hr),
    fun hd => (g.waiters hd).trans (h.waiters hd), fun r hr => (g.waits r hr).trans (h.waits r hr)⟩

theorem Frame.callFrame {q : Requester} {s t : State} (h : Frame q s t) (d : Prop) : CallFrame q d s t :=
  ⟨h.cfg, h.attached, h.irq, h.busOwner, h.agenda, h.cur, h.others, fun _ => h.waiters,
    fun _ _ => by rw [h.waiters]⟩

theorem callFrame_joinWaiters {q : Requester} {d : Prop} (hd : d) (s : State) : CallFrame q d s (joinWaiters q s) where
  cfg := rfl
  attached := rfl
  irq := rfl
  busOwner := rfl
  agenda := rfl
  cur := rfl
  others _ _ := rfl
  waiters hn := absurd hd hn
  waits r hr := by rw [joinWaiters_mem]; simp [hr]

/-- A phase that is held. -/
theorem phaseTurn_held_callFrame {q : Requester} {op : OpSel} {args : Args} {s s' : State} (hin : Inside q op args s)
    (h : phaseTurn q s = .held s') : CallFrame q (op = .disableInterrupts) s s' := by
  obtain rfl | ⟨-, ho, rfl⟩ := phaseTurn_held h
  · exact .refl q _ _
  · exact callFrame_joinWaiters (hin.runs.symm.trans ho) s

theorem perform_callFrame {op : OpSel} {args : Args} {s t : State} (h : perform op args s = .next t) :
    CallFrame s.cur (op = .disableInterrupts) s t :=
  perform_inside (P := CallFrame s.cur (op = .disableInterrupts) s)
    (fun _ _ hu _ ht => hu.trans ((phaseTurn_frame ht).callFrame _))
    (fun _ _ hu hin ht => hu.trans (phaseTurn_held_callFrame hin ht)) (.refl _ _ s)
    (((frame_load s.cur s s op args).mpr (.refl _ s)).callFrame _) h

/-- A bus command. -/
theorem command_frame {i : Instr} {s t : State} (hk : (∃ r, exec i s = (sbCommand r s).outcome) ∨
    ∃ r side, exec i s = (blkCommand r side s).outcome) (h : exec i s = .next t) : Frame s.cur s t := by
  obtain ⟨r, e⟩ | ⟨r, side, e⟩ := hk
  · obtain rfl | ⟨-, rfl⟩ := sbCommand_next (e ▸ h) <;> simp
  · obtain rfl | rfl | ⟨-, rfl⟩ := blkCommand_next (e ▸ h)
    · exact .refl _ _
    · exact ⟨rfl, rfl, rfl, rfl, rfl, rfl, rfl, fun _ _ => rfl⟩
    · exact ⟨rfl, rfl, rfl, rfl, rfl, rfl, rfl, fun _ _ => rfl⟩

theorem exec_callFrame {i : Instr} {s t : State} (h : exec i s = .next t) :
    CallFrame s.cur (i = .disableInterrupts) s t := by
  obtain ⟨op, args, rfl, -, e⟩ | ⟨-, hk⟩ := exec_kinds i s
  · have k := perform_callFrame (e ▸ h)
    exact { k with waiters := fun hne => k.waiters fun ho => hne (by rw [ho]; rfl) }
  · exact (command_frame hk h).callFrame _

/-- Settles O12: the frame of every phase, and the range the block commands of a read fill. -/
theorem instructionFrame : Obligations.InstructionFrame := by
  intro i s t h
  have k := exec_callFrame h
  exact ⟨k.cfg, k.attached, k.irq, k.busOwner, k.agenda, k.cur, k.others, k.waiters, k.waits, exec_sameOutside h⟩

end Sys2Proof.Machine
end

section
/-! CERTIFICATE. The bus has one owner (10_state.md rule R29): while it has one, no instruction makes a transaction, and
one that needs the bus waits. -/

namespace Sys2Proof.Machine

/-! ### Nothing goes out while the bus has an owner (R153) -/

theorem Local.trans {s t u : State} (h : Local s t) (g : Local t u) : Local s u := by
  obtain ⟨l, hl, hq⟩ := h.out
  obtain ⟨m, hm, hr⟩ := g.out
  refine ⟨g.dev.trans h.dev, g.buf.trans h.buf, g.draws.trans h.draws, l ++ m, by rw [hm, hl, List.append_assoc], ?_⟩
  intro o ho
  exact (List.mem_append.mp ho).elim (hq o) (hr o)

/-- A phase that moves while the bus has an owner makes no transaction. -/
theorem phaseTurn_local_of_busy {q : Requester} {s s' : State} (h : phaseTurn q s = .moved s')
    (hp : opHasPhase (s.ctx q).op (s.ctx q).phase = true) (hb : s.busOwner ≠ none) : Local s s' := by
  obtain ⟨t, ht, hl⟩ := phaseTurn_transacts h hp
  rwa [ht.eq_of_busy hb] at hl

theorem phaseTurn_held_local {q : Requester} {s s' : State} (h : phaseTurn q s = .held s') :
    Local s s' ∧ s'.busOwner = s.busOwner := by
  obtain rfl | ⟨-, -, rfl⟩ := phaseTurn_held h
  · exact ⟨local_refl s', rfl⟩
  · exact ⟨⟨rfl, rfl, rfl, [], (List.append_nil _).symm, nofun⟩, rfl⟩

/-- An operation called while the bus has an owner. -/
theorem perform_local_of_busy {op : OpSel} {args : Args} {s t : State} (hb : s.busOwner ≠ none)
    (h : perform op args s = .next t) : Local s t ∧ t.busOwner = s.busOwner := by
  refine perform_inside (P := fun u => Local s u ∧ u.busOwner = s.busOwner) ?_ ?_ ⟨local_refl s, rfl⟩
    ⟨(local_setCtx s s s.cur _).mpr (local_refl s), rfl⟩ h
  · rintro u u' ⟨hl, hu⟩ hin ht
    exact ⟨hl.trans (phaseTurn_local_of_busy ht hin.opHasPhase (hu ▸ hb)), (phaseTurn_frame ht).busOwner.trans hu⟩
  · rintro u u' ⟨hl, hu⟩ - ht
    obtain ⟨hl', hu'⟩ := phaseTurn_held_local ht
    exact ⟨hl.trans hl', hu'.trans hu⟩

/-- An instruction run while the bus has an owner. -/
theorem exec_local_of_busy {i : Instr} {s t : State} (hb : s.busOwner ≠ none) (h : exec i s = .next t) :
    Local s t ∧ t.busOwner = s.busOwner := by
  obtain ⟨op, args, -, -, e⟩ | ⟨-, ⟨r, e⟩ | ⟨r, side, e⟩⟩ := exec_kinds i s
  · exact perform_local_of_busy hb (e ▸ h)
  · obtain rfl | ⟨hn, -⟩ := sbCommand_next (e ▸ h)
    · exact ⟨local_refl t, rfl⟩
    · exact absurd hn hb
  · obtain rfl | rfl | ⟨hn, -⟩ := blkCommand_next (e ▸ h)
    · exact ⟨local_refl t, rfl⟩
    · exact ⟨⟨rfl, rfl, rfl, [], (List.append_nil _).symm, nofun⟩, rfl⟩
    · exact absurd hn hb

/-! ### Commands and phases that wait (R29, R153) -/

theorem sbCommand_busy {s : State} (r : SbReq) (hb : s.busOwner ≠ none) : (sbCommand r s).outcome = .next s := by
  rw [sbCommand, withBus_busy _ hb]; rfl

theorem blkCommand_busy {s : State} {r : BlkReq} {side : Side} (hb : s.busOwner ≠ none)
    (hc : countAllowed s.cfg r.count = true) (hl : side.off + r.bytes ≤ side.buf.len) :
    (blkCommand r side s).outcome = .next s := by
  rw [blkCommand, if_pos hc, if_pos hl, withBus_busy _ hb]; rfl

/-- A bus command that needs the bus changes nothing while it has an owner. -/
theorem command_busy {i : Instr} {s : State} (hb : s.busOwner ≠ none) (hn : needsBus s i) (hr : i.request = none) :
    exec i s = .next s := by
  cases i
  case sbRd | sbWr | sbWrRb => exact sbCommand_busy _ hb
  case blkRdByte | blkRdBlock | blkWrByte | blkWrBlock => exact blkCommand_busy hb hn.1 hn.2
  all_goals cases hr

theorem sbTurn_busy {r : SbReq} {failed : State → State} {ok : Byte → State → State} {s : State}
    (hb : s.busOwner ≠ none) : sbTurn r failed ok s = .held s := withBus_busy _ hb

/-- Phases that claim the bus whatever the operands: those at which an operation can come to the bus first, but for the
block command of a direct transfer and the raw write of `reset`. -/
def claimsBus : Phase → Bool
  | .reg _ => true
  | .blk _ w => w != .data
  | .count0 => true
  | .clrA0 => true
  | .clrB0 => true
  | .clrB1 => true
  | .neg _ => true
  | .rmw _ _ _ => true
  | .registerCb => true
  | .unregisterCb => true
  | _ => false

/-- A phase that claims the bus is held while the bus has an owner. -/
theorem phaseTurn_busy {q : Requester} {s : State} (hb : s.busOwner ≠ none) (h : claimsBus (s.ctx q).phase = true) :
    phaseTurn q s = .held s := by
  unfold phaseTurn
  split
  case h_4 f w hp =>
    rw [hp] at h
    cases w
    case data => cases h
    all_goals exact withBus_busy _ hb
  case h_1 => rfl
  case h_3 | h_18 | h_19 => exact withBus_busy _ hb
  case h_5 | h_8 | h_9 | h_10 | h_11 => exact sbTurn_busy hb
  case h_17 g f st hp => unfold rmwTurn; cases f <;> exact withBus_busy _ hb
  all_goals
    rename_i hp
    rw [hp] at h
    cases h

/-- A transfer's block command is held if its count is allowed (R152). -/
theorem blkTurn_data_busy {q : Requester} {f : Half} {s : State} (hb : s.busOwner ≠ none)
    (hc : countAllowed s.cfg (halfReq s.cfg (s.ctx q) s.h.blockSize f).count = true) :
    blkTurn q f .data s = .held s := by
  rw [blkTurn, halfCommand_eq, withBusFor, if_pos hc, withBus_busy _ hb]

/-- The raw write of `reset` is held, no negotiation running. -/
theorem resetTurn_busy {q : Requester} {s : State} (hb : s.busOwner ≠ none) (hl : s.h.life ≠ .negotiating) :
    resetTurn q s = .held s := by
  rw [resetTurn, if_neg hl, sbTurn_busy hb]

/-! ### An operation that waits at its first bus step (R232, R251, R258, R272, R284) -/

/-- An operation accepted and waiting: what it has written, and that nothing else has changed. -/
structure WaitsForBus (s : State) (i : Instr) (t : State) : Prop where
  inside : t.idle s.cur = false
  out : t.out = s.out ++ outHeld i
  h : t.h = handleHeld s i
  dev : t.dev = s.dev
  buf : t.buf = s.buf
  log : t.log = s.log
  waiters : t.waiters = s.waiters
  busOwner : t.busOwner = s.busOwner

/-- The first phase moves to one that is held. -/
theorem perform_waits {op : OpSel} {args : Args} {s u : State} (hi : s.idle s.cur = true) (hb : s.busOwner ≠ none)
    (hm : phaseTurn s.cur (s.load s.cur op args) = .moved u) (hp : (u.ctx s.cur).phase ≠ .idle)
    (hu : phaseTurn s.cur u = .held u) (hout : u.out = s.out ++ outHeld (instrOf args op))
    (hh : u.h = handleHeld s (instrOf args op)) (hlog : u.log = s.log) :
    ∃ t, perform op args s = .next t ∧ WaitsForBus s (instrOf args op) t := by
  have hf := phaseTurn_frame hm
  have hl := phaseTurn_local_of_busy hm (inside_load s.cur op args s).opHasPhase hb
  have hui : u.idle s.cur = false := by simpa [idle_eq] using hp
  refine ⟨u, ?_, ⟨hui, hout, hh, hl.dev, hl.buf, hlog, hf.waiters, hf.busOwner⟩⟩
  rw [perform_run hi, phase_moved (n := 63) (by simp) hm, runPhases_held hui hu]

/-- A state in which an operation is about to claim the bus, with what it has written. -/
structure StopsAtBus (s : State) (i : Instr) (u : State) : Prop where
  claims : claimsBus (u.ctx s.cur).phase = true
  out : u.out = s.out ++ outHeld i
  h : u.h = handleHeld s i
  log : u.log = s.log

/-- The same for a phase that claims the bus whatever the operands. -/
theorem perform_waits_claims {op : OpSel} {args : Args} {s u : State} (hi : s.idle s.cur = true)
    (hb : s.busOwner ≠ none) (hm : phaseTurn s.cur (s.load s.cur op args) = .moved u)
    (hu : StopsAtBus s (instrOf args op) u) :
    ∃ t, perform op args s = .next t ∧ WaitsForBus s (instrOf args op) t :=
  perform_waits hi hb hm (fun e => by have := hu.claims; rw [e] at this; cases this)
    (phaseTurn_busy ((phaseTurn_frame hm).busOwner ▸ hb) hu.claims) hu.out hu.h hu.log

/-- A transfer with its split made (R184). -/
def withSplit (q : Requester) (bs : Nat) (s : State) : State :=
  s.setCtx q
    { s.ctx q with
      nblk := wholeBlocks (roundUp4 (s.ctx q).args.size) bs, nleft := remainder (roundUp4 (s.ctx q).args.size) bs
      wa := (s.ctx q).args.addr, cur := 0 }

/-- Where a transfer goes first: to the half its split begins with (R184, R185). -/
theorem startTransfer_first {q : Requester} {s : State} {bs : Nat} (hbs : s.h.blockSize = some bs)
    (hlen : roundUp4 (s.ctx q).args.size ≤ (s.ctx q).args.buf.len)
    (hc : firstCount bs (roundUp4 (s.ctx q).args.size) ≠ 0) :
    ∃ f, startTransfer q s = .moved ((withSplit q bs s).goto q (.blk f (halfFirst (s.ctx q).args.addr))) ∧
      ∀ p c b, (halfReq c { (withSplit q bs s).ctx q with phase := p } b f).count =
        firstCount bs (roundUp4 (s.ctx q).args.size) := by
  unfold firstCount at hc ⊢
  by_cases h0 : roundUp4 (s.ctx q).args.size / bs = 0
  · rw [if_pos h0] at hc ⊢
    refine ⟨.b, ?_, fun _ _ _ => by simp [withSplit, halfReq, remainder]⟩
    simp [startTransfer, hbs, not_lt.mpr hlen, wholeBlocks, h0, afterHalfA, remainder, hc, withSplit]
  · rw [if_neg h0] at hc ⊢
    refine ⟨.a, ?_, fun _ _ _ => by simp [withSplit, halfReq, wholeBlocks]⟩
    simp [startTransfer, hbs, not_lt.mpr hlen, wholeBlocks, h0, withSplit]

/-- A transfer that comes to a transaction waits at its first window write, or on the direct path at its block command,
whose count is then allowed (R152, R182). -/
theorem perform_waits_transfer {op : OpSel} {args : Args} {s : State} (hi : s.idle s.cur = true)
    (hb : s.busOwner ≠ none) (ho : op = .blockRead ∨ op = .blockWrite)
    (hn : ∃ bs, s.h.blockSize = some bs ∧ roundUp4 args.size ≤ args.buf.len ∧ firstCount bs (roundUp4 args.size) ≠ 0 ∧
      (args.addr = 0 → firstCount bs (roundUp4 args.size) ≤ s.cfg.maxCount)) :
    ∃ t, perform op args s = .next t ∧ WaitsForBus s (instrOf args op) t := by
  obtain ⟨bs, hbs, hlen, hc, hmax⟩ := hn
  obtain ⟨f, hm, hcount⟩ := startTransfer_first (q := s.cur) (s := s.load s.cur op args) hbs (by simpa using hlen)
    (by simpa using hc)
  have hm' : phaseTurn s.cur (s.load s.cur op args) = .moved _ :=
    (show _ = startTransfer s.cur (s.load s.cur op args) by
      rcases ho with rfl | rfl <;> simp [phaseTurn, startTurn]).trans hm
  have houtH : outHeld (instrOf args op) = [] ∧ handleHeld s (instrOf args op) = s.h := by
    rcases ho with rfl | rfl <;> exact ⟨rfl, rfl⟩
  refine perform_waits hi hb hm' (by simp) ?_ (by rw [houtH.1]; simp [withSplit]) (by rw [houtH.2]; rfl) rfl
  by_cases ha : args.addr = 0
  · simp only [phaseTurn, ctx_goto_same, ctx_load_same, halfFirst, ha, if_true]
    refine blkTurn_data_busy hb ?_
    rw [ctx_goto_same, hcount, ctx_load_same]
    simpa [countAllowed, withSplit, Nat.one_le_iff_ne_zero] using ⟨hc, hmax ha⟩
  · exact phaseTurn_busy hb (by simpa [halfFirst, claimsBus] using ha)

/-- The first phase of a `clearInterrupts` that writes goes to its first write (R218 to R221). -/
theorem startClear_first {q : Requester} {s : State}
    (h : (s.h.variant = .a ∧ valueA s.cfg s.h.gpioIrq (s.ctx q).args.mask ≠ 0) ∨
      (s.h.variant = .b ∧
        (s.h.gpioIrq = true ∧ ackB s.cfg (s.ctx q).args.mask ≠ 0 ∨ vmmB s.cfg (s.ctx q).args.mask ≠ 0))) :
    ∃ v p, startClear q s = .moved ((s.setAcc q v).goto q p) ∧ claimsBus p = true := by
  unfold startClear
  dsimp only
  obtain ⟨hv, ha⟩ | ⟨hv, hw⟩ := h <;> rw [hv] <;> dsimp only
  · exact ⟨_, .clrA0, if_neg ha, rfl⟩
  · by_cases hack : s.h.gpioIrq = true ∧ ackB s.cfg (s.ctx q).args.mask ≠ 0
    · exact ⟨_, .clrB0, if_pos (by simpa using hack), rfl⟩
    · have hvmm : ¬ vmmB s.cfg (s.ctx q).args.mask = 0 := hw.resolve_left hack
      rw [if_neg (by simpa using hack), afterAckB, if_neg hvmm]
      exact ⟨_, .clrB1, rfl, rfl⟩

/-- The first phase of a `syncInterrupts` that updates a register writes the line count and begins the update (R249,
R251). -/
theorem syncBody_first {q : Requester} {n : Nat} {s : State} (hn : n ≤ s.cfg.maxIntLines) (hv : s.h.variant ≠ .unknown)
    (hu : s.h.variant = .b ∨ s.h.gpioIrq = true) :
    ∃ g, syncBody q n s = beginRmw q g
      ((s.setH { s.h with nint := n }).setCtx q { s.ctx q with args := { (s.ctx q).args with n := n } }) := by
  unfold syncBody
  rw [if_neg (not_lt.mpr hn), if_neg hv]
  by_cases hb : s.h.variant = .b
  · exact ⟨.misc, if_pos hb⟩
  · exact ⟨.pinmux, (if_neg hb).trans (if_pos (hu.resolve_left hb))⟩

/-- Each operation that comes to a bus step waits at its first. -/
theorem perform_waits_of_needsBus {op : OpSel} {args : Args} {s : State} (hi : s.idle s.cur = true)
    (hb : s.busOwner ≠ none) (hn : needsBus s (instrOf args op)) :
    ∃ t, perform op args s = .next t ∧ WaitsForBus s (instrOf args op) t := by
  cases op with
  | deinit | isInitialized => exact hn.elim
  | blockRead => exact perform_waits_transfer hi hb (.inl rfl) hn
  | blockWrite => exact perform_waits_transfer hi hb (.inr rfl) hn
  | init | resume =>
    have hl : s.h.life ≠ .negotiating := hn
    refine perform_waits_claims hi hb
      (by simp [phaseTurn, startTurn, startInit, startResume, beginNegotiation, hl]; rfl) ?_
    exact ⟨by simp [claimsBus], by simp [instrOf, outHeld], rfl, rfl⟩
  | readReg | writeReg =>
    refine perform_waits_claims hi hb (by simp [phaseTurn, startTurn, startReg]; rfl) ?_
    exact ⟨by simp [claimsBus], by simp [instrOf, outHeld], rfl, rfl⟩
  | readInterruptStatus =>
    have hv : ¬ (s.h.gpioIrq && decide (s.h.variant = .unknown)) = true := by
      simpa [instrOf, needsBus] using hn
    refine perform_waits_claims hi hb (by simp only [phaseTurn, startTurn, ctx_load_same]; exact if_neg hv) ?_
    exact ⟨by simp [claimsBus], by simp [instrOf, outHeld], rfl, rfl⟩
  | readPendingSize =>
    refine perform_waits_claims hi hb (by simp [phaseTurn, startTurn, startPendingSize]; rfl) ?_
    exact ⟨by simp [claimsBus], by simp [instrOf, outHeld], rfl, rfl⟩
  | clearInterrupts =>
    obtain ⟨v, p, hm, hp⟩ := startClear_first (q := s.cur) (s := s.load s.cur .clearInterrupts args)
      (by simpa [instrOf, needsBus] using hn)
    have hst : phaseTurn s.cur (s.load s.cur .clearInterrupts args) =
        startClear s.cur (s.load s.cur .clearInterrupts args) := by simp [phaseTurn, startTurn]
    exact perform_waits_claims hi hb (hst.trans hm) ⟨by simpa using hp, by simp [instrOf, outHeld], rfl, rfl⟩
  | syncInterrupts =>
    obtain ⟨hmax, hv, hu⟩ := hn
    obtain ⟨g, hm⟩ := syncBody_first (q := s.cur) (s := s.load s.cur .syncInterrupts args) hmax hv hu
    refine perform_waits_claims hi hb (by simp [phaseTurn, startTurn, startSync, hm]; rfl) ?_
    exact ⟨by simp [beginRmw, claimsBus], by simp [beginRmw, instrOf, outHeld], rfl, rfl⟩
  | enableInterrupts =>
    refine perform_waits_claims hi hb (by simp [phaseTurn, startTurn, startEnable]; rfl) ?_
    exact ⟨by simp [claimsBus], by simp [instrOf, outHeld], rfl, rfl⟩
  | disableInterrupts =>
    obtain ⟨hl, hw⟩ := hn
    refine perform_waits_claims hi hb (by simp [phaseTurn, startTurn, startDisable, hl, hw]; rfl) ?_
    exact ⟨by simp [claimsBus], by simp [instrOf, outHeld], rfl, rfl⟩
  | reset =>
    have hl : s.h.life ≠ .negotiating := hn
    refine ⟨s.load s.cur .reset args, ?_, ⟨by simp [idle_eq], by simp [instrOf, outHeld], rfl, rfl, rfl, rfl, rfl, rfl⟩⟩
    rw [perform_run hi, runPhases_held (n := 63) (by simp [idle_eq])]
    simp only [phaseTurn, startTurn, ctx_load_same]
    exact resetTurn_busy hb hl
  | suspend =>
    have hl : s.h.life ≠ .negotiating := hn
    refine perform_waits hi hb (by simp [phaseTurn, startTurn, startSuspend, hl]; rfl) ?_ ?_ ?_ ?_ ?_
    · simp
    · simp only [phaseTurn, ctx_goto_same]
      exact resetTurn_busy hb hl
    · simp [instrOf, outHeld]
    · rfl
    · rfl

/-- Settles O19: with the bus owned no phase makes a transaction, a bus command is held as it stands, and an operation
that needs the bus moves by its first phase to one that is held. -/
theorem busOwnerHoldsOthers : Obligations.BusOwnerHoldsOthers := by
  intro i s hb
  refine ⟨fun t h => ?_, fun hn hr => command_busy hb hn hr, fun hn hr hi => ?_⟩
  · obtain ⟨hl, ho⟩ := exec_local_of_busy hb h
    exact ⟨hl.dev, hl.draws, ho, hl.out⟩
  · obtain ⟨op, args, rfl, -, e⟩ | ⟨hnone, -⟩ := exec_kinds i s
    · obtain ⟨t, ht, hw⟩ := perform_waits_of_needsBus hi hb hn
      exact ⟨t, e.trans ht, hw.inside, hw.out, hw.h, hw.dev, hw.buf, hw.log, hw.waiters, hw.busOwner⟩
    · exact absurd hnone hr

end Sys2Proof.Machine
end

section
/-! SUPPORT. What an instruction can store in the device (20_memory.md rules R74, R90 to R92): one transaction at a time,
against the places its instruction may store to. -/

namespace Sys2Proof.Machine

/-! ### The places of an instruction -/

/-- A change of the device within what an instruction, called in `s`, may change. -/
structure DevStep (s : State) (i : Instr) (d d' : Device) : Prop where
  fn : ∀ k, k ∉ storedKeys s.cfg i → d'.fn.read k = d.fn.read k
  chip : ∀ k, ¬ storesChipAt s i k → d'.chip.read k = d.chip.read k
  status : locKey s.cfg.intClrA ∉ storedKeys s.cfg i → locKey s.cfg.intAckB ∉ storedKeys s.cfg i → SameStatus d d'
  count : d'.dmaCnt = d.dmaCnt
  queue : usesQueue i = false → d'.fifo = d.fifo

theorem DevStep.refl (s : State) (i : Instr) (d : Device) : DevStep s i d d :=
  ⟨fun _ _ => rfl, fun _ _ => rfl, fun _ _ => .refl d, rfl, fun _ => rfl⟩

theorem DevStep.of_eq {s : State} {i : Instr} {d d' : Device} (h : d' = d) : DevStep s i d d' := h ▸ .refl s i d'

theorem DevStep.trans {s : State} {i : Instr} {d e f : Device} (h : DevStep s i d e) (g : DevStep s i e f) :
    DevStep s i d f :=
  ⟨fun k hk => (g.fn k hk).trans (h.fn k hk), fun k hk => (g.chip k hk).trans (h.chip k hk),
    fun ha hb => (h.status ha hb).trans (g.status ha hb), g.count.trans h.count,
    fun hq => (g.queue hq).trans (h.queue hq)⟩

/-- A byte stored at one of the instruction's places. -/
theorem devStep_writeSb {s : State} {i : Instr} (d : Device) {l : Loc8} (v : Byte)
    (hl : locKey l ∈ storedKeys s.cfg i) : DevStep s i d (d.writeSb s.cfg l v) where
  fn k hk := by
    rw [writeSb_fn]
    exact Memory.read_write_ne _ _ _ _ fun e => hk (e ▸ hl)
  chip k _ := by rw [writeSb_chip]
  status ha hb := writeSb_same d v (fun e => ha (e ▸ hl)) (fun e => hb (e ▸ hl))
  count := writeSb_dmaCnt _ _ _ _
  queue _ := writeSb_fifo _ _ _ _

/-- A single-byte command whose write, if it is one, is to one of the instruction's places. -/
theorem devStep_sbAnswer {s : State} {i : Instr} {r : SbReq} (f : Nat) (d : Device) (w : Draw)
    (hr : r.wr = true → locKey r.loc ∈ storedKeys s.cfg i) : DevStep s i d (sbAnswer s.cfg f d r w).2 := by
  obtain h | ⟨hw, h⟩ := sbAnswer_cases s.cfg f d r w <;> rw [h]
  · exact .refl s i d
  · exact devStep_writeSb d _ (hr hw)

theorem devStep_writeEach {s : State} {i : Instr} {r : BlkReq} (bs : List Byte) (d : Device) (n : Nat)
    (h : ∀ j, j < bs.length → locKey (blkLoc r (n + j)) ∈ storedKeys s.cfg i) :
    DevStep s i d (Device.writeEach s.cfg r d n bs) := by
  induction bs generalizing d n with
  | nil => exact .refl s i d
  | cons b t ih =>
    refine (devStep_writeSb d b (h 0 (by simp))).trans (ih _ (n + 1) fun j hj => ?_)
    have hj' := h (j + 1) (by simpa using hj)
    rwa [Nat.add_comm j 1, ← Nat.add_assoc] at hj'

/-- The places a block write of `n` bytes stores to are the instruction's: chip bytes from the window on, the queue, or
bytes of a function. -/
structure BlockPlaces (s : State) (i : Instr) (d : Device) (r : BlkReq) (n : Nat) : Prop where
  window : r.atWindow s.cfg = true → ∀ j, j < n → storesChipAt s i (d.window s.cfg + BitVec.ofNat 24 j).toNat
  queue : r.atWindow s.cfg = false → r.atFifo = true → usesQueue i = true
  bytes : r.atWindow s.cfg = false → r.atFifo = false → ∀ j, j < n → locKey (blkLoc r j) ∈ storedKeys s.cfg i

theorem devStep_writeBlk {s : State} {i : Instr} {d : Device} {r : BlkReq} {n : Nat} {bs : List Byte}
    (h : BlockPlaces s i d r n) (hl : bs.length ≤ n) : DevStep s i d (d.writeBlk s.cfg r bs) := by
  unfold Device.writeBlk
  split
  · rename_i ha
    refine { DevStep.refl s i d with chip := fun k hk => ?_, status := fun _ _ => ⟨rfl, rfl, rfl⟩ }
    exact read_chipWrite_out _ _ _ _ fun j hj e => hk (e ▸ h.window ha j (by omega))
  · rename_i ha
    have ha' : r.atWindow s.cfg = false := by simpa using ha
    split
    · rename_i hf
      refine { DevStep.refl s i d with queue := fun hq => ?_, status := fun _ _ => ⟨rfl, rfl, rfl⟩ }
      rw [h.queue ha' hf] at hq
      cases hq
    · rename_i hf
      refine devStep_writeEach bs d 0 fun j hj => ?_
      rw [Nat.zero_add]
      exact h.bytes ha' (by simpa using hf) j (by omega)

/-- A block read takes bytes off the queue only at the function-1 data port (R91). -/
theorem devStep_blkRead {s : State} {i : Instr} {r : BlkReq} (f : Nat) (d : Device) (p : List Byte) (w : Draw)
    (hr : r.wr = false) (hq : r.atFifo = true → usesQueue i = true) : DevStep s i d (blkAnswer s.cfg f d r p w).2 := by
  obtain h | ⟨hf, h⟩ := blkAnswer_read_cases s.cfg f d r p w hr <;> rw [h]
  · exact .refl s i d
  · refine { DevStep.refl s i d with queue := fun hn => ?_, status := fun _ _ => ⟨rfl, rfl, rfl⟩ }
    rw [hq hf] at hn
    cases hn

/-- A block write of a payload that fits the instruction's places; a failed one stores only its first bytes (R89). -/
theorem devStep_blkWrite {s : State} {i : Instr} {r : BlkReq} (f : Nat) {d : Device} {p : List Byte} (w : Draw) {n : Nat}
    (hr : r.wr = true) (h : BlockPlaces s i d r n) (hl : p.length ≤ n) :
    DevStep s i d (blkAnswer s.cfg f d r p w).2 := by
  obtain ⟨m, e⟩ := blkAnswer_write_cases s.cfg f d r p w hr
  rw [e]
  exact devStep_writeBlk h ((List.length_take_le' m p).trans hl)

/-! ### Block commands of an agent beside the operations (R149, R150) -/

/-- The places of a block command of `n` bytes: `blkKeys`, or the window, or the queue. -/
theorem blockPlaces_command {s : State} {i : Instr} {d : Device} {r : BlkReq} {n : Nat}
    (hk : storedKeys s.cfg i = blkKeys s.cfg r.fn r.inc r.addr n) (hq : usesQueue i = r.atFifo)
    (hw : ∀ k, storesChipAt s i k ↔ (⟨r.fn, r.addr⟩ : Loc8) = s.cfg.winData ∧ inWindow (d.window s.cfg) n k) :
    BlockPlaces s i d r n where
  window ha j hj := (hw _).mpr ⟨by simpa [BlkReq.atWindow] using ha, j, hj, rfl⟩
  queue _ hf := hq.trans hf
  bytes ha hf j hj := by
    have hne : ¬ ((⟨r.fn, r.addr⟩ : Loc8) = s.cfg.winData ∨ (r.fn = 1 ∧ r.addr = 0)) := by
      rintro (e | ⟨e1, e2⟩)
      · simp [BlkReq.atWindow, e] at ha
      · simp [BlkReq.atFifo, e1, e2, Config.fnData] at hf
    rw [hk, blkKeys, if_neg hne]
    exact List.mem_map.mpr ⟨j, List.mem_range.mpr hj, rfl⟩

/-- A block command's turn. -/
theorem blkCommand_devStep {s t : State} {i : Instr} {r : BlkReq} {side : Side}
    (h : (blkCommand r side s).outcome = .next t)
    (hq : usesQueue i = r.atFifo) (hw : r.wr = true → BlockPlaces s i s.dev r r.bytes) : DevStep s i s.dev t.dev := by
  obtain rfl | rfl | ⟨-, rfl⟩ := blkCommand_next h
  · exact .refl _ _ _
  · exact .refl _ _ _
  · simp only [setBuf_dev, blk_dev]
    cases hr : r.wr with
    | false => exact devStep_blkRead _ _ _ _ hr fun hf => hq.trans hf
    | true => exact devStep_blkWrite _ _ hr (hw hr) (by simp [sent, hr])

theorem sbCommand_devStep {s t : State} {i : Instr} {r : SbReq} (h : (sbCommand r s).outcome = .next t)
    (hr : r.wr = true → locKey r.loc ∈ storedKeys s.cfg i) : DevStep s i s.dev t.dev := by
  obtain rfl | ⟨-, rfl⟩ := sbCommand_next h
  · exact .refl _ _ _
  · exact devStep_sbAnswer _ _ _ hr

/-- A bus command stores to its own places. -/
theorem command_devStep {i : Instr} {s t : State} (hr : i.request = none) (h : exec i s = .next t) :
    DevStep s i s.dev t.dev := by
  cases i
  case sbRd => exact sbCommand_devStep h nofun
  case sbWr | sbWrRb => exact sbCommand_devStep h fun _ => by simp [storedKeys, SbReq.loc]
  case blkRdByte | blkRdBlock =>
    exact blkCommand_devStep h (by simp [usesQueue, BlkReq.atFifo, Config.fnData]; rfl) nofun
  case blkWrByte | blkWrBlock =>
    have hq : ∀ (fn : FnIndex) (addr : BusAddr), (decide (fn = 1) && decide (addr = 0)) =
      (fn == Config.fnData && addr == 0) := fun _ _ => rfl
    exact blkCommand_devStep h (hq _ _) fun _ => blockPlaces_command rfl (hq _ _) fun _ => Iff.rfl
  all_goals cases hr

end Sys2Proof.Machine
end

section
/-! SUPPORT. Where a windowed access stands: how many of the window registers hold its address (41_address_window.md rules
R161, R166), followed phase by phase. -/

namespace Sys2Proof.Machine

/-! ### The window registers (R74, R160, R161) -/

/-- How many window writes are made before a phase of a windowed access. -/
def WinStep.made : WinStep → Nat
  | .w0 => 0
  | .w1 => 1
  | .w2 => 2
  | .data => 3

/-- The window registers written so far hold their bytes of the address. -/
def Windowed (c : Cfg) (d : Device) (a : Word) (w : WinStep) : Prop :=
  ∀ j, j < w.made → d.fn.read (locKey ⟨0, winAddr c j⟩) = byteOf a j

theorem windowed_w0 (c : Cfg) (d : Device) (a : Word) : Windowed c d a .w0 := fun j hj => absurd hj (Nat.not_lt_zero j)

/-- A window write that succeeds: one register more holds its byte. -/
theorem windowed_next {c : Cfg} {d : Device} {a : Word} {w : WinStep} (hc : c.wf = true) (hd : d.fn.wf = true)
    (hw : w ≠ .data) (h : Windowed c d a w) :
    Windowed c (d.writeSb c ⟨0, winAddr c w.index⟩ (byteOf a w.index)) a w.next := by
  have hi : w.index = w.made ∧ w.next.made = w.made + 1 ∧ w.made < 3 := by
    cases w with
    | data => exact absurd rfl hw
    | _ => decide
  obtain ⟨hindex, hnext, hlt⟩ := hi
  intro j hj
  rw [writeSb_fn, hindex]
  rw [hnext] at hj
  by_cases he : j = w.made
  · rw [he]
    exact Memory.read_write_same _ _ _ hd
  · rw [Memory.read_write_ne, h j (by omega)]
    rw [(window_keys hc j (by omega)).2, (window_keys hc w.made hlt).2]
    omega

/-- The three bytes of `A[23:0]`. -/
theorem byteOf_append (a : Word) : byteOf a 2 ++ byteOf a 1 ++ byteOf a 0 = a.extractLsb' 0 24 := by
  apply BitVec.eq_of_getLsbD_eq
  intro i hi
  simp only [BitVec.getLsbD_append, byteOf, BitVec.getLsbD_extractLsb']
  by_cases h1 : i < 8
  · simp [h1, hi]
  · by_cases h2 : i - 8 < 8
    · simp [h1, h2, hi, show 8 + (i - 8) = i by omega]
    · simp [h1, h2, hi, show 16 + (i - 8 - 8) = i by omega, show i - 8 - 8 < 8 by omega]

/-- At the data command the window value is `A[23:0]` (R74). -/
theorem windowed_window {c : Cfg} {d : Device} {a : Word} (hc : c.wf = true) (h : Windowed c d a .data) :
    d.window c = a.extractLsb' 0 24 := by
  have key (j : Nat) (hj : j < 3) : d.fn.read (locKey ⟨c.winAddr0.fn, winAddr c j⟩) = byteOf a j := by
    rw [(window_keys hc j hj).1, ← (window_keys hc j hj).2]
    exact h j hj
  rw [Device.window, key 2 (by omega), key 1 (by omega), key 0 (by omega)]
  exact byteOf_append a

/-- A window write of an operation that succeeds. -/
theorem sb_windowed {s : State} {a : Word} {w : WinStep} (hc : s.cfg.wf = true) (hd : s.dev.fn.wf = true)
    (hw : w ≠ .data) (h : Windowed s.cfg s.dev a w) (ho : (s.sb (windowReq s.cfg a w.index)).1.ok = true) :
    Windowed s.cfg (s.sb (windowReq s.cfg a w.index)).2.dev a w.next := by
  rw [sb_ok] at ho
  rw [sb_dev, nextDraw_eq_draw, sbAnswer_write _ _ _ _ _ rfl ho]
  exact windowed_next hc hd hw h

/-! ### A register access (R165) -/

/-- A register access at a step that fits its address: direct in the direct range, else windowed. -/
def AccessAt (c : Cfg) (d : Device) (a : Word) : RegStep → Prop
  | .direct => inDirect c a = true
  | .win w => inDirect c a = false ∧ Windowed c d a w

theorem accessAt_regFirst (c : Cfg) (d : Device) (a : Word) : AccessAt c d a (regFirst c a) := by
  unfold regFirst
  split
  · assumption
  · exact ⟨by simpa using ‹¬ inDirect c a = true›, windowed_w0 c d a⟩

/-- What a window write of an access comes to. -/
theorem regAccess_win_result (q : Requester) (wr : Bool) (a w : Word) (x : WinStep) (hx : x ≠ .data) (s : State) :
    (regAccess q wr a w (.win x) s).1 =
      if (s.sb (windowReq s.cfg a x.index)).1.ok then .more (.win x.next) else .fail := by
  cases x with
  | data => exact absurd rfl hx
  | _ => unfold regAccess winWrite; dsimp only; cases (s.sb _).1.ok <;> rfl

/-- An access that is not over is at the next window write's step, the register written. -/
theorem regAccess_accessAt {q : Requester} {wr : Bool} {a w : Word} {st r : RegStep} {s : State}
    (hc : s.cfg.wf = true) (hd : s.dev.fn.wf = true) (h : AccessAt s.cfg s.dev a st)
    (hr : (regAccess q wr a w st s).1 = .more r) : AccessAt s.cfg (regAccess q wr a w st s).2.dev a r := by
  match st with
  | .direct => simp only [regAccess] at hr; split at hr <;> cases hr
  | .win x =>
    by_cases hx : x = .data
    · subst hx
      simp only [regAccess] at hr
      repeat' split at hr
      all_goals cases hr
    · rw [regAccess_win_state _ _ _ _ _ hx]
      rw [regAccess_win_result _ _ _ _ _ hx] at hr
      split at hr <;> cases hr
      exact ⟨h.1, sb_windowed hc hd hx h.2 ‹_›⟩

/-- What a step inside a register access comes to, with the access's own result. -/
theorem accessTurn_result {q : Requester} {wr : Bool} {a w : Word} {st : RegStep} {more : RegStep → Phase}
    {failed : State → State} {value : Word → State → State} {s s' : State}
    (h : accessTurn q wr a w st more failed value s = .moved s') :
    s' = failed (regAccess q wr a w st s).2 ∨
      (∃ r, (regAccess q wr a w st s).1 = .more r ∧ s' = (regAccess q wr a w st s).2.goto q (more r)) ∨
      ∃ v, s' = value v (regAccess q wr a w st s).2 := by
  obtain ⟨-, h⟩ := withBus_moved h
  split at h <;> rename_i heq <;> cases h <;> rw [heq]
  · exact .inl rfl
  · exact .inr (.inl ⟨_, rfl, rfl⟩)
  · exact .inr (.inr ⟨_, rfl⟩)

/-! ### The phase a context is at -/

/-- The device holds what the phase a context is at needs: the window registers written before it. -/
def AtPhase (c : Cfg) (d : Device) (x : Ctx) : Prop :=
  match x.phase with
  | .reg st => AccessAt c d x.args.addr st
  | .blk _ w => (x.args.addr = 0 → w = .data) ∧ (x.args.addr ≠ 0 → Windowed c d x.wa w)
  | .ident st => AccessAt c d c.chipIdReg st
  | .rmw g _ st => AccessAt c d (rmwAddr c g) st
  | _ => True

/-- The same of a requester's context. -/
def WindowOk (q : Requester) (u : State) : Prop := AtPhase u.cfg u.dev (u.ctx q)

theorem windowOk_idle {q : Requester} {u : State} (h : u.idle q = true) : WindowOk q u := by
  have hp : (u.ctx q).phase = .idle := eq_of_beq h
  simp only [WindowOk, AtPhase, hp]

theorem windowOk_goto {q : Requester} {t : State} {p : Phase}
    (h : AtPhase t.cfg t.dev { t.ctx q with phase := p }) : WindowOk q (t.goto q p) := by
  rw [WindowOk, ctx_goto_same]
  exact h

@[simp] theorem windowOk_finish (q : Requester) (t : State) (a : Answer) : WindowOk q (t.finish q a) :=
  windowOk_idle (idle_finish t q a)
@[simp] theorem windowOk_raiseTransport (q : Requester) (t : State) : WindowOk q (t.raiseTransport q) :=
  windowOk_idle (idle_raiseTransport t q)
@[simp] theorem windowOk_failInit (q : Requester) (t : State) (c : Code) : WindowOk q (t.failInit q c) :=
  windowOk_idle (idle_failInit t q c)
@[simp] theorem windowOk_failInitTransport (q : Requester) (t : State) : WindowOk q (t.failInitTransport q) :=
  windowOk_idle (idle_failInitTransport t q)

theorem windowOk_beginRmw (q : Requester) (g : RmwReg) (t : State) : WindowOk q (beginRmw q g t) :=
  windowOk_goto (accessAt_regFirst t.cfg t.dev (rmwAddr t.cfg g))

theorem windowOk_syncDone (q : Requester) (t : State) : WindowOk q (syncDone q t) := by
  unfold syncDone; split <;> simp

theorem windowOk_afterRmw (q : Requester) (g : RmwReg) (t : State) : WindowOk q (afterRmw q g t) := by
  cases g <;> simp only [afterRmw] <;> (try split) <;>
    simp only [windowOk_beginRmw, windowOk_syncDone]

theorem windowOk_syncBody (q : Requester) (n : Nat) (t : State) : WindowOk q (syncBody q n t) := by
  unfold syncBody
  dsimp only
  repeat' split
  · exact windowOk_finish _ _ _
  · exact windowOk_finish _ _ _
  · exact windowOk_beginRmw _ _ _
  · exact windowOk_beginRmw _ _ _
  · exact windowOk_syncDone _ _

theorem windowOk_commitInit (q : Requester) (v : Variant) (t : State) : WindowOk q (commitInit q v t) := by
  unfold commitInit
  dsimp only
  split
  · exact windowOk_goto trivial
  · exact windowOk_finish _ _ _

/-- A half begins with its first window write, or at once on the direct path (R182). -/
theorem atPhase_halfFirst (c : Cfg) (d : Device) (x : Ctx) (f : Half) (h : x.phase = .blk f (halfFirst x.args.addr)) :
    AtPhase c d x := by
  simp only [AtPhase, h, halfFirst]
  exact ⟨fun ha => if_pos ha, fun ha => by rw [if_neg ha]; exact windowed_w0 c d x.wa⟩

theorem windowOk_afterHalfA (q : Requester) (t : State) : WindowOk q (afterHalfA q t) := by
  unfold afterHalfA
  split
  · exact windowOk_finish _ _ _
  · exact windowOk_goto (atPhase_halfFirst _ _ _ .b rfl)

theorem windowOk_halfDone (q : Requester) (f : Half) (n : Nat) (t : State) : WindowOk q (halfDone q f n t) := by
  cases f
  · exact windowOk_afterHalfA _ _
  · exact windowOk_finish _ _ _

theorem windowOk_startTransfer {q : Requester} {s s' : State} (h : startTransfer q s = .moved s') : WindowOk q s' := by
  unfold startTransfer at h
  dsimp only at h
  repeat' split at h
  all_goals cases h
  · exact windowOk_raiseTransport _ _
  · exact windowOk_afterHalfA _ _
  · exact windowOk_goto (atPhase_halfFirst _ _ _ .a (by simp))

theorem windowOk_blkTurn {q : Requester} {s s' : State} {f : Half} {w : WinStep} (hc : s.cfg.wf = true)
    (hd : s.dev.fn.wf = true) (h : blkTurn q f w s = .moved s') (hp : (s.ctx q).phase = .blk f w)
    (hs : WindowOk q s) : WindowOk q s' := by
  unfold blkTurn at h
  split at h
  · rw [halfCommand_eq] at h
    obtain ⟨rfl, -⟩ := withBusFor_moved h
    split
    · exact windowOk_halfDone _ _ _ _
    · exact windowOk_raiseTransport _ _
  · rename_i hw
    obtain ⟨-, h⟩ := withBus_moved h
    cases h
    split
    · rename_i ho
      refine windowOk_goto ?_
      simp only [WindowOk, AtPhase, hp] at hs
      exact ⟨fun ha => absurd (hs.1 ha) hw, fun ha => sb_windowed hc hd hw (hs.2 ha) ho⟩
    · exact windowOk_raiseTransport _ _

theorem windowOk_sbTurn {q : Requester} {r : SbReq} {failed : State → State} {ok : Byte → State → State} {s s' : State}
    (h : sbTurn r failed ok s = .moved s') (hf : ∀ t, WindowOk q (failed t)) (hk : ∀ d, WindowOk q (ok d (s.sb r).2)) :
    WindowOk q s' := by
  obtain ⟨-, rfl | ⟨d, rfl⟩⟩ := sbTurn_moved h
  · exact hf _
  · exact hk d

/-- A register access inside an operation keeps to its address, whichever phases the operation gives it. -/
theorem windowOk_accessTurn {q : Requester} {wr : Bool} {a w : Word} {st : RegStep} {more : RegStep → Phase}
    {failed : State → State} {value : Word → State → State} {s s' : State} (hc : s.cfg.wf = true)
    (hd : s.dev.fn.wf = true) (h : accessTurn q wr a w st more failed value s = .moved s')
    (hat : AccessAt s.cfg s.dev a st)
    (hm : ∀ (d : Device) (tmp : List Byte) (r : RegStep), AccessAt s.cfg d a r →
      AtPhase s.cfg d { s.ctx q with tmp := tmp, phase := more r })
    (hf : ∀ t, WindowOk q (failed t)) (hk : ∀ v, WindowOk q (value v (regAccess q wr a w st s).2)) :
    WindowOk q s' := by
  obtain rfl | ⟨r, hr, rfl⟩ | ⟨v, rfl⟩ := accessTurn_result h
  · exact hf _
  · obtain ⟨tmp, ht⟩ := regAccess_ctx_same q wr a w st s
    refine windowOk_goto ?_
    rw [ht, regAccess_cfg]
    exact hm _ tmp r (regAccess_accessAt hc hd hat hr)
  · exact hk v

theorem windowOk_resetTurn {q : Requester} {s s' : State} (h : resetTurn q s = .moved s') : WindowOk q s' := by
  unfold resetTurn at h
  split at h
  · cases h; exact windowOk_finish _ _ _
  · exact windowOk_sbTurn h (fun _ => windowOk_raiseTransport _ _) (fun _ => windowOk_finish _ _ _)

theorem windowOk_afterAckB (q : Requester) (t : State) : WindowOk q (afterAckB q t) := by
  unfold afterAckB
  split
  · exact windowOk_finish _ _ _
  · exact windowOk_goto trivial

theorem windowOk_afterNeg (q : Requester) (w : NegWrite) (t : State) : WindowOk q (afterNeg q w t) := by
  cases w
  case intEn =>
    simp only [afterNeg]
    split
    · exact windowOk_goto trivial
    · exact windowOk_goto (accessAt_regFirst _ _ _)
  all_goals exact windowOk_goto trivial

/-- The first phase of an operation leaves it before its first window write. -/
theorem windowOk_startTurn {q : Requester} {s s' : State} (h : startTurn q s = .moved s') : WindowOk q s' := by
  unfold startTurn at h
  split at h
  case h_1 | h_16 =>
    simp only [startInit, startResume, beginNegotiation] at h
    split at h <;> cases h
    · exact windowOk_finish _ _ _
    · simp [WindowOk, AtPhase]
  case h_3 | h_4 => cases h; exact windowOk_goto (accessAt_regFirst _ _ _)
  case h_5 | h_6 => exact windowOk_startTransfer h
  case h_8 =>
    unfold startClear at h
    dsimp only at h
    repeat' split at h
    all_goals cases h
    all_goals first | exact windowOk_finish _ _ _ | exact windowOk_goto trivial | exact windowOk_afterAckB _ _
  case h_10 => cases h; exact windowOk_syncBody _ _ _
  case h_13 => exact windowOk_resetTurn h
  all_goals
    simp only [startDeinit, startInterruptStatus, startPendingSize, startEnable, startDisable, startIsInitialized,
      startSuspend] at h
    repeat' split at h
    all_goals cases h
    all_goals first | exact windowOk_finish _ _ _ | exact windowOk_goto trivial

/-- A phase of an operation leaves the device with what the next one needs. -/
theorem phaseTurn_windowOk {q : Requester} {s s' : State} (hc : s.cfg.wf = true) (hd : s.dev.fn.wf = true)
    (h : phaseTurn q s = .moved s') (hs : WindowOk q s) : WindowOk q s' := by
  unfold phaseTurn at h
  split at h
  case h_1 => cases h
  case h_2 => exact windowOk_startTurn h
  case h_3 r hp =>
    simp only [WindowOk, AtPhase, hp] at hs
    exact windowOk_accessTurn hc hd h hs (fun _ _ _ hr => hr) (by simp) (by simp)
  case h_4 f w hp => exact windowOk_blkTurn hc hd h hp hs
  case h_5 => exact windowOk_sbTurn h (by simp) fun _ => windowOk_goto trivial
  case h_6 =>
    refine windowOk_sbTurn h (by simp) fun _ => ?_
    dsimp only
    split
    · exact windowOk_finish _ _ _
    · exact windowOk_goto trivial
  case h_7 =>
    unfold flagsTurn at h
    repeat' split at h
    · exact windowOk_sbTurn h (by simp) (by simp)
    · cases h; exact windowOk_finish _ _ _
    · exact windowOk_sbTurn h (by simp) fun _ => windowOk_finish _ _ _
  case h_8 | h_10 => exact windowOk_sbTurn h (by simp) (by simp)
  case h_9 => exact windowOk_sbTurn h (by simp) fun _ => windowOk_afterAckB _ _
  case h_11 w _ => exact windowOk_sbTurn h (by simp) fun _ => windowOk_afterNeg _ _ _
  case h_12 hp =>
    refine windowOk_sbTurn h (by simp) fun _ => ?_
    dsimp only
    repeat' split
    · exact windowOk_failInit _ _ _
    · simp [WindowOk, AtPhase, hp]
    · exact windowOk_goto trivial
  case h_13 r hp =>
    simp only [WindowOk, AtPhase, hp] at hs
    refine windowOk_accessTurn hc hd h hs (fun _ _ _ hr => hr) (by simp) fun v => ?_
    split
    · exact windowOk_failInit _ _ _
    · exact windowOk_commitInit _ _ _
  case h_14 =>
    unfold identSkipTurn at h
    split at h <;> cases h
    · exact windowOk_failInit _ _ _
    · exact windowOk_commitInit _ _ _
  case h_15 => exact windowOk_resetTurn h
  case h_16 => cases h; exact windowOk_syncBody _ _ _
  case h_17 g f r hp =>
    simp only [WindowOk, AtPhase, hp] at hs
    unfold rmwTurn at h
    cases f
    · refine windowOk_accessTurn hc hd h hs (fun _ _ _ hr => hr) (by simp) fun v => windowOk_goto ?_
      simpa [AtPhase] using accessAt_regFirst s.cfg _ _
    · exact windowOk_accessTurn hc hd h hs (fun _ _ _ hr => hr) (by simp) fun v => windowOk_afterRmw _ _ _
  case h_18 =>
    obtain ⟨-, h⟩ := withBus_moved h
    cases h
    split <;> simp
  case h_19 =>
    obtain ⟨-, h⟩ := withBus_moved h
    cases h
    simp [WindowOk, AtPhase]
  case h_20 => cases h; split <;> simp

end Sys2Proof.Machine
end

section
/-! SUPPORT. Where an update of the interrupt registers stands: the register is one of the plan that `syncInterrupts` had
when it was called (44_lifecycle.md rules R249 to R255, R259). -/

namespace Sys2Proof.Machine

/-! ### The plan (R249) -/

theorem misc_mem_syncPlan {s : State} {n : Nat} : RmwReg.misc ∈ syncPlan s n ↔ s.h.variant = .b := by
  unfold syncPlan
  repeat' split
  all_goals simp_all

theorem pinmux_mem_syncPlan {s : State} {n : Nat} : RmwReg.pinmux ∈ syncPlan s n ↔ s.h.gpioIrq = true := by
  unfold syncPlan
  repeat' split
  all_goals simp_all

theorem en1_mem_syncPlan {s : State} {n : Nat} : RmwReg.en1 ∈ syncPlan s n ↔ s.h.gpioIrq = true := by
  unfold syncPlan
  repeat' split
  all_goals simp_all

theorem en2_mem_syncPlan {s : State} {n : Nat} : RmwReg.en2 ∈ syncPlan s n ↔ s.h.gpioIrq = true ∧ 5 < n := by
  unfold syncPlan
  repeat' split
  all_goals simp_all

/-- A requester updates register `g` for `n` lines, under the plan of the state `s` the operation was called in. -/
structure SyncAt (s : State) (n : Nat) (g : RmwReg) (h : Handle) (x : Ctx) : Prop where
  variant : h.variant = s.h.variant
  gpioIrq : h.gpioIrq = s.h.gpioIrq
  lines : x.args.n = n
  plan : g ∈ syncPlan s n
  rem : g = .en1 → x.rem = n

/-- The handle as an operation that has not yet read it for its updates needs it: the variant and the routing of `s`. -/
def Unplanned (s : State) (h : Handle) : Prop := h.variant = s.h.variant ∧ h.gpioIrq = s.h.gpioIrq

/-- Where `syncInterrupts` and `resume` stand at a phase: before the updates, or in one of the plan. `resume` identifies no
chip, so it keeps the variant (R243). -/
def SyncPhase (s : State) (n : Nat) (h : Handle) (x : Ctx) : Prop :=
  match x.phase with
  | .start => Unplanned s h ∧ (x.op = .syncInterrupts → x.args.n = n) ∧ (x.op = .resume → h.nint = n)
  | .neg _ => x.args.resume = true ∧ Unplanned s h ∧ h.nint = n
  | .poll => x.args.resume = true ∧ Unplanned s h ∧ h.nint = n
  | .ident _ => False
  | .identSkip => Unplanned s h ∧ h.nint = n
  | .syncStart => Unplanned s h ∧ h.nint = n
  | .rmw g _ _ => SyncAt s n g h x
  | _ => True

/-- The same of a requester's context. -/
def SyncOk (s : State) (n : Nat) (q : Requester) (u : State) : Prop := SyncPhase s n u.h (u.ctx q)

variable {s : State} {n : Nat} {q : Requester}

theorem syncOk_idle {u : State} (h : u.idle q = true) : SyncOk s n q u := by
  have hp : (u.ctx q).phase = .idle := eq_of_beq h
  simp only [SyncOk, SyncPhase, hp]

theorem syncOk_finish (t : State) (a : Answer) : SyncOk s n q (t.finish q a) := syncOk_idle (idle_finish t q a)

theorem syncOk_syncDone (t : State) : SyncOk s n q (syncDone q t) := by
  unfold syncDone; split <;> exact syncOk_finish _ _

theorem syncOk_goto {t : State} {p : Phase} (h : SyncPhase s n t.h { t.ctx q with phase := p }) :
    SyncOk s n q (t.goto q p) := by
  rw [SyncOk, ctx_goto_same]
  exact h

theorem syncOk_beginRmw {t : State} {g : RmwReg} (h : SyncAt s n g t.h (t.ctx q)) : SyncOk s n q (beginRmw q g t) :=
  syncOk_goto ⟨h.variant, h.gpioIrq, h.lines, h.plan, h.rem⟩

/-- The first update is one of the plan. -/
theorem syncOk_syncBody {u : State} (hu : Unplanned s u.h) : SyncOk s n q (syncBody q n u) := by
  obtain ⟨hv, hg⟩ := hu
  unfold syncBody
  dsimp only
  repeat' split
  · exact syncOk_finish _ _
  · exact syncOk_finish _ _
  · rename_i hb
    exact syncOk_beginRmw ⟨hv, hg, by simp, misc_mem_syncPlan.mpr (hv ▸ hb), nofun⟩
  · rename_i hgpio
    exact syncOk_beginRmw ⟨hv, hg, by simp, pinmux_mem_syncPlan.mpr (hg ▸ hgpio), nofun⟩
  · exact syncOk_syncDone _

/-- After the update of a register of the plan comes the next of the plan, if there is one. -/
theorem syncOk_afterRmw {t : State} {g : RmwReg} (h : SyncAt s n g t.h (t.ctx q)) : SyncOk s n q (afterRmw q g t) := by
  obtain ⟨hv, hg, hl, hplan, hrem⟩ := h
  cases g <;> simp only [afterRmw]
  · split
    · rename_i hgpio
      exact syncOk_beginRmw ⟨hv, hg, hl, pinmux_mem_syncPlan.mpr (hg ▸ hgpio), nofun⟩
    · exact syncOk_syncDone _
  · exact syncOk_beginRmw ⟨hv, hg, by simpa using hl, en1_mem_syncPlan.mpr (pinmux_mem_syncPlan.mp hplan),
      fun _ => by simpa using hl⟩
  · split
    · exact syncOk_syncDone _
    · rename_i hrest
      rw [hrem rfl, Config.en1Lines] at hrest
      exact syncOk_beginRmw ⟨hv, hg, by simpa using hl,
        en2_mem_syncPlan.mpr ⟨en1_mem_syncPlan.mp hplan, by omega⟩, nofun⟩
  · exact syncOk_syncDone _

/-- What a register access leaves of where an update stands. -/
theorem syncAt_regAccess {u : State} {g : RmwReg} (wr : Bool) (a w : Word) (st : RegStep)
    (h : SyncAt s n g u.h (u.ctx q)) :
    SyncAt s n g (regAccess q wr a w st u).2.h ((regAccess q wr a w st u).2.ctx q) := by
  obtain ⟨tmp, ht⟩ := regAccess_ctx_same q wr a w st u
  rw [ht]
  exact ⟨by simpa using h.variant, by simpa using h.gpioIrq, h.lines, h.plan, h.rem⟩

/-- The updates of a register. -/
theorem syncOk_rmwTurn {u u' : State} {g : RmwReg} {f : RmwHalf} {st : RegStep}
    (hat : SyncAt s n g u.h (u.ctx q)) (h : rmwTurn q g f st u = .moved u') : SyncOk s n q u' := by
  unfold rmwTurn at h
  cases f <;> obtain ⟨-, rfl | ⟨r, -, rfl⟩ | ⟨v, rfl⟩⟩ := accessTurn_moved h
  case read.inr.inr =>
    obtain ⟨hv, hg, hl, hplan, hrem⟩ := syncAt_regAccess false (rmwAddr u.cfg g) 0 st hat
    exact syncOk_goto ⟨hv, hg, by simpa using hl, hplan, by simpa using hrem⟩
  case write.inr.inr => exact syncOk_afterRmw (syncAt_regAccess _ _ _ st hat)
  case read.inr.inl | write.inr.inl =>
    obtain ⟨hv, hg, hl, hplan, hrem⟩ := syncAt_regAccess _ (rmwAddr u.cfg g) _ st hat
    exact syncOk_goto ⟨hv, hg, hl, hplan, hrem⟩
  all_goals exact syncOk_idle (idle_raiseTransport _ _)

/-- The negotiation of `resume` goes on to its next write or poll, and past the identification (R232, R243). -/
theorem syncOk_afterNeg {t : State} (w : NegWrite) (hr : (t.ctx q).args.resume = true) (hu : Unplanned s t.h)
    (hn : t.h.nint = n) : SyncOk s n q (afterNeg q w t) := by
  cases w <;> simp only [afterNeg]
  case intEn => rw [if_pos hr]; exact syncOk_goto ⟨hu, hn⟩
  case ioEn => exact syncOk_goto ⟨by simpa using hr, hu, hn⟩
  all_goals exact syncOk_goto ⟨hr, hu, hn⟩

/-- A phase of `syncInterrupts` or `resume` leaves it before its updates or in one of the plan. -/
theorem phaseTurn_syncOk {u u' : State} (ho : (u.ctx q).op = .syncInterrupts ∨ (u.ctx q).op = .resume)
    (h : phaseTurn q u = .moved u') (hp : opHasPhase (u.ctx q).op (u.ctx q).phase = true) (hs : SyncOk s n q u) :
    SyncOk s n q u' := by
  unfold SyncOk SyncPhase at hs
  unfold phaseTurn at h
  split at h <;> rename_i hph <;> simp only [hph] at hs hp
  case h_2 =>
    obtain ⟨hu, hsync, hres⟩ := hs
    unfold startTurn at h
    rcases ho with ho | ho <;> simp only [ho] at h
    · cases h
      rw [hsync ho]
      exact syncOk_syncBody hu
    · simp only [startResume, beginNegotiation] at h
      split at h <;> cases h
      · exact syncOk_finish _ _
      · simpa [SyncOk, SyncPhase] using ⟨hu, hres ho⟩
  case h_11 w =>
    obtain ⟨hr, hu, hn⟩ := hs
    obtain ⟨-, rfl | ⟨d, rfl⟩⟩ := sbTurn_moved h
    · exact syncOk_idle (idle_failInitTransport _ _)
    · exact syncOk_afterNeg w hr hu hn
  case h_12 =>
    obtain ⟨-, rfl | ⟨d, rfl⟩⟩ := sbTurn_moved h
    · exact syncOk_idle (idle_failInitTransport _ _)
    · dsimp only
      repeat' split
      · exact syncOk_idle (idle_failInit _ _ _)
      · simpa [SyncOk, SyncPhase, hph] using hs
      · exact syncOk_goto (by simpa [SyncPhase] using hs)
  case h_14 =>
    obtain ⟨⟨hv, hg⟩, hn⟩ := hs
    unfold identSkipTurn at h
    split at h <;> cases h
    · exact syncOk_idle (idle_failInit _ _ _)
    · unfold commitInit
      dsimp only
      split
      · exact syncOk_goto ⟨⟨by simpa using hv, hg⟩, hn⟩
      · exact syncOk_finish _ _
  case h_16 =>
    obtain ⟨hu, hn⟩ := hs
    cases h
    rw [hn]
    exact syncOk_syncBody hu
  case h_17 g f st => exact syncOk_rmwTurn hs h
  all_goals rcases ho with ho | ho <;> rw [ho] at hp <;> cases hp

end Sys2Proof.Machine
end

section
/-! CERTIFICATE. What an instruction can change in the device (10_state.md rules R35 to R37, 20_memory.md rules R71, R74,
R90 to R92): every transaction of every operation is at one of its instruction's places. -/

namespace Sys2Proof.Machine

/-! ### The function memories stay canonical -/

theorem writeEach_fnWf {c : Cfg} {r : BlkReq} (bs : List Byte) {d : Device} {n : Nat} (h : d.fn.wf = true) :
    (Device.writeEach c r d n bs).fn.wf = true := by
  induction bs generalizing d n with
  | nil => exact h
  | cons b t ih => exact ih (by rw [writeSb_fn]; exact Memory.wf_write _ _ _ h)

theorem writeBlk_fnWf {c : Cfg} {r : BlkReq} (bs : List Byte) {d : Device} (h : d.fn.wf = true) :
    (d.writeBlk c r bs).fn.wf = true := by
  unfold Device.writeBlk
  repeat' split
  · exact h
  · exact h
  · exact writeEach_fnWf bs h

theorem sb_fnWf {s : State} (r : SbReq) (h : s.dev.fn.wf = true) : (s.sb r).2.dev.fn.wf = true := by
  rw [sb_dev]
  obtain e | ⟨-, e⟩ := sbAnswer_cases s.cfg s.free s.dev r s.nextDraw <;> rw [e]
  · exact h
  · rw [writeSb_fn]; exact Memory.wf_write _ _ _ h

theorem executeBlock_fnWf {s : State} (r : BlkReq) (p : List Byte) (h : s.dev.fn.wf = true) :
    (s.executeBlock r p).2.dev.fn.wf = true := by
  obtain e | e := executeBlock_cases s r p <;> rw [e]
  · rw [blk_dev]
    cases hw : r.wr with
    | false => obtain e | ⟨-, e⟩ := blkAnswer_read_cases s.cfg s.free s.dev r p s.nextDraw hw <;> rw [e] <;> exact h
    | true =>
      obtain ⟨m, e⟩ := blkAnswer_write_cases s.cfg s.free s.dev r p s.nextDraw hw
      rw [e]
      exact writeBlk_fnWf _ h
  · exact h

theorem Transaction.fnWf {q : Requester} {s t : State} (ht : Transaction q s t) (h : s.dev.fn.wf = true) :
    t.dev.fn.wf = true := by
  cases ht with
  | nothing | callback => exact h
  | read | store | window => exact sb_fnWf _ h
  | half => exact executeBlock_fnWf _ _ h
  | access wr a w st =>
    exact regAccess_state_cases (P := fun t => t.dev.fn.wf = true) q wr a w st s (fun r => sb_fnWf r h)
      (fun r p _ => executeBlock_fnWf r p h)

/-! ### A register access at its instruction's places (R165 to R171) -/

/-- The places a register access stores to are the instruction's. -/
structure AccessPlaces (s : State) (i : Instr) (wr : Bool) (a : Word) : Prop where
  direct : inDirect s.cfg a = true → wr = true → locKey ⟨0, a.extractLsb' 0 17⟩ ∈ storedKeys s.cfg i
  window : inDirect s.cfg a = false → ∀ k ∈ windowKeys s.cfg, k ∈ storedKeys s.cfg i
  chip : inDirect s.cfg a = false → wr = true → ∀ k, inWindow (a.extractLsb' 0 24) 4 k → storesChipAt s i k

theorem windowReq_key (c : Cfg) (a : Word) (w : WinStep) : locKey (windowReq c a w.index).loc ∈ windowKeys c := by
  refine List.mem_map.mpr ⟨w.index, List.mem_range.mpr ?_, rfl⟩
  cases w <;> decide

/-- A block request of `executeBlock`, read or write, at the instruction's places. -/
theorem executeBlock_devStep {s u : State} {i : Instr} {r : BlkReq} {p : List Byte} {n : Nat} (hu : u.cfg = s.cfg)
    (hr : r.wr = false → r.atFifo = true → usesQueue i = true) (hw : r.wr = true → BlockPlaces s i u.dev r n)
    (hl : p.length ≤ n) : DevStep s i u.dev (u.executeBlock r p).2.dev := by
  obtain e | e := executeBlock_cases u r p <;> rw [e]
  · rw [blk_dev, hu]
    cases h : r.wr with
    | false => exact devStep_blkRead _ _ _ _ h (hr h)
    | true => exact devStep_blkWrite _ _ h (hw h) hl
  · exact .refl _ _ _

/-- The data command of a windowed access writes four chip bytes from the address on (R170). -/
theorem windowData_places {s : State} {i : Instr} {d : Device} {a : Word} {bs : Option Nat} (hc : s.cfg.wf = true)
    (hd : inDirect s.cfg a = false) (hat : Windowed s.cfg d a .data) (hp : AccessPlaces s i true a) :
    BlockPlaces s i d (windowDataReq s.cfg true bs) 4 := by
  have hwin := windowData_at hc true bs
  refine ⟨fun _ j hj => hp.chip hd rfl _ ⟨j, hj, by rw [windowed_window hc hat]⟩, fun h => ?_, fun h => ?_⟩
  all_goals rw [hwin] at h; cases h

theorem windowData_notFifo (c : Cfg) (wr : Bool) (bs : Option Nat) : (windowDataReq c wr bs).atFifo = false := by
  simp [BlkReq.atFifo, windowDataReq, Config.fnCtrl, Config.fnData]

/-- Every transaction of a register access is at its instruction's places. -/
theorem regAccess_devStep {s u : State} {i : Instr} {q : Requester} {wr : Bool} {a w : Word} {st : RegStep}
    (hc : s.cfg.wf = true) (hu : u.cfg = s.cfg) (hat : AccessAt u.cfg u.dev a st) (hp : AccessPlaces s i wr a) :
    DevStep s i u.dev (regAccess q wr a w st u).2.dev := by
  rw [hu] at hat
  match st with
  | .direct =>
    rw [regAccess_direct_state, sb_dev, hu]
    exact devStep_sbAnswer _ _ _ (hp.direct hat)
  | .win x =>
    by_cases hx : x = .data
    · subst hx
      rw [regAccess_data_state, setCtx_dev, hu]
      refine executeBlock_devStep (n := 4) hu (fun _ hf => ?_) (fun hw => ?_) ?_
      · rw [windowData_notFifo] at hf; cases hf
      · cases wr with
        | false => cases hw
        | true => exact windowData_places hc hat.1 hat.2 hp
      · cases wr <;> simp [regPayload, wordBytes]
    · rw [regAccess_win_state _ _ _ _ _ hx, sb_dev, hu]
      exact devStep_sbAnswer _ _ _ fun _ => hp.window hat.1 _ (windowReq_key _ _ _)

/-- The line count an operation's updates are planned for: its operand, or the handle's for `resume` (R259). -/
def plannedLines (s : State) (args : Args) : OpSel → Nat
  | .resume => s.h.nint
  | _ => args.n

/-- The operations that update the interrupt registers. -/
def isSync : OpSel → Prop := fun op => op = .syncInterrupts ∨ op = .resume

theorem sync_places {s : State} {args : Args} {op : OpSel} (ho : isSync op) {g : RmwReg} (wr : Bool)
    (hg : g ∈ syncPlan s (plannedLines s args op)) : AccessPlaces s (instrOf args op) wr (rmwAddr s.cfg g) where
  direct hd _ := by
    have hm : locKey ⟨0, (rmwAddr s.cfg g).extractLsb' 0 17⟩ ∈
        directKeys s.cfg [s.cfg.miscReg, s.cfg.pinmuxReg, s.cfg.intrEn1Reg, s.cfg.intrEn2Reg] := by
      refine List.mem_map.mpr ⟨rmwAddr s.cfg g, List.mem_filter.mpr ⟨?_, hd⟩, rfl⟩
      cases g <;> simp [rmwAddr]
    rcases ho with rfl | rfl <;> simp only [instrOf, storedKeys, List.mem_append] <;> simp only [hm, true_or, or_true]
  window _ k hk := by
    rcases ho with rfl | rfl <;> simp only [instrOf, storedKeys, List.mem_append] <;> simp only [hk, true_or, or_true]
  chip hd _ k hk := by
    have hm : inSyncRegs s (plannedLines s args op) k := ⟨g, hg, hd, hk⟩
    rcases ho with rfl | rfl <;> exact hm

/-- The access a phase is part of is at its instruction's places. -/
theorem accessPhase_places {s u : State} {q : Requester} {op : OpSel} {args : Args} {wr : Bool} {a : Word} {st : RegStep}
    (hu : u.cfg = s.cfg) (hin : Inside q op args u) (hs : isSync op → SyncOk s (plannedLines s args op) q u)
    (hp : AccessPhase u.cfg (u.ctx q) wr a st) : AccessPlaces s (instrOf args op) wr a := by
  have hphase := hin.phase
  rw [hu] at hp
  cases hp with
  | reg _ hph =>
    rw [hph] at hphase
    rw [hin.addr, hin.runs]
    cases op <;> simp only [opHasPhase, Bool.false_eq_true] at hphase
    · exact ⟨nofun, fun _ _ hk => hk, nofun⟩
    · exact ⟨fun hd _ => by simp [instrOf, storedKeys, hd], fun hd k hk => by simpa [instrOf, storedKeys, hd] using hk,
        fun hd _ k hk => ⟨hd, hk⟩⟩
  | ident _ hph =>
    rw [hph] at hphase
    refine ⟨nofun, fun _ k hk => ?_, nofun⟩
    cases op <;> simp only [opHasPhase, Bool.false_eq_true] at hphase
    all_goals simp only [instrOf, storedKeys, List.mem_append]; simp only [hk, true_or, or_true]
  | rmwRead g _ hph | rmwWrite g _ hph =>
    rw [hph] at hphase
    have ho : isSync op := by
      revert hphase
      cases op <;> simp [opHasPhase, isSync]
    have hat := hs ho
    simp only [SyncOk, SyncPhase, hph] at hat
    exact sync_places ho _ hat.plan

/-! ### A transfer at its instruction's places (R182, R187) -/

/-- A chip position counted on from a cursor is one counted on from the cursor's address (R74, R187). -/
theorem extract_add_ofNat (a : Word) (m j : Nat) :
    (a + BitVec.ofNat 32 m).extractLsb' 0 24 + BitVec.ofNat 24 j = a.extractLsb' 0 24 + BitVec.ofNat 24 (m + j) := by
  apply BitVec.eq_of_toNat_eq
  simp only [BitVec.toNat_add, BitVec.extractLsb'_toNat, BitVec.toNat_ofNat, Nat.shiftRight_zero]
  omega

/-- The bytes a half of a transfer sends are no more than its command moves. -/
theorem halfPayload_length (q : Requester) (f : Half) (s : State) :
    (halfPayload q f s).length ≤ (halfReq s.cfg (s.ctx q) s.h.blockSize f).bytes := by
  unfold halfPayload
  split <;> simp

/-- Where a half's block command goes: the function-1 queue for address 0, else the window data port (R182). -/
theorem halfReq_place (c : Cfg) (x : Ctx) (bs : Option Nat) (f : Half) (hc : c.wf = true) :
    (x.args.addr = 0 → (halfReq c x bs f).atWindow c = false ∧ (halfReq c x bs f).atFifo = true) ∧
    (x.args.addr ≠ 0 → (halfReq c x bs f).atWindow c = true ∧ (halfReq c x bs f).atFifo = false) := by
  have hdata := winData_fn hc
  have hne : (⟨1, 0⟩ : Loc8) ≠ c.winData := by
    rw [← hdata]
    intro e
    cases congrArg Loc8.fn e
  refine ⟨fun ha => ?_, fun ha => ?_⟩
  · cases f <;> simpa [halfReq, ha, BlkReq.atWindow, BlkReq.atFifo, Config.fnData] using hne
  · cases f <;> simp only [halfReq, if_neg ha, BlkReq.atWindow, BlkReq.atFifo, Config.fnCtrl, hdata] <;>
      simp [Config.fnData]

/-- A half's block command is at its transfer's places. -/
theorem halfState_devStep {s u : State} {q : Requester} {op : OpSel} {args : Args} {f : Half} (hc : s.cfg.wf = true)
    (hu : u.cfg = s.cfg) (hin : Inside q op args u) (hp : (u.ctx q).phase = .blk f .data) (hw : WindowOk q u)
    (ht : TransferOk q u) : DevStep s (instrOf args op) u.dev (halfState q f u).dev := by
  obtain ⟨bs, hat⟩ := ht f .data hp
  simp only [WindowOk, AtPhase, hp] at hw
  have hop : op = .blockRead ∨ op = .blockWrite := by
    have := isTransfer_of_blk (hp ▸ hin.phase)
    revert this
    cases op <;> simp [isTransfer]
  have hwr : ∀ c b, (halfReq c (u.ctx q) b f).wr = opWrites op := by
    intro c b
    cases f <;> simp [halfReq, hin.runs]
  obtain ⟨hzero, hnonzero⟩ := halfReq_place s.cfg (u.ctx q) u.h.blockSize f hc
  have hqueue : (halfReq s.cfg (u.ctx q) u.h.blockSize f).atFifo = true → usesQueue (instrOf args op) = true := by
    intro hf
    have ha : args.addr = 0 := by
      by_contra hne
      rw [(hnonzero (hin.addr ▸ hne)).2] at hf
      cases hf
    rcases hop with rfl | rfl <;> simp [instrOf, usesQueue, ha]
  simp only [halfState, setBuf_dev, hu]
  refine executeBlock_devStep hu (fun _ hf => hqueue hf) (fun h => ⟨fun h1 j hj => ?_, fun _ => hqueue, fun h1 h2 => ?_⟩)
    (hu ▸ halfPayload_length q f u)
  · rw [hwr] at h
    have ho : op = .blockWrite := by
      rcases hop with rfl | rfl
      · cases h
      · rfl
    subst ho
    have ha : (u.ctx q).args.addr ≠ 0 := by
      intro e
      rw [(hzero e).1] at h1
      cases h1
    have hfit := hat.fits s.cfg
    rw [hin.size] at hfit
    refine ⟨hin.addr ▸ ha, (u.ctx q).cur + j, by omega, ?_⟩
    rw [← hu, windowed_window (hu ▸ hc) (hw.2 ha), hat.wa ha, hin.addr, extract_add_ofNat]
  · by_cases ha : (u.ctx q).args.addr = 0
    · rw [(hzero ha).2] at h2; cases h2
    · rw [(hnonzero ha).1] at h1; cases h1

/-! ### A phase, and an operation's call -/

/-- The registers an operation writes are its instruction's places. -/
theorem opPlaces_stored {c : Cfg} {op : OpSel} (args : Args) {l : Loc8} (h : l ∈ opPlaces c op) :
    locKey l ∈ storedKeys c (instrOf args op) := by
  have hm (L : List Loc8) (hl : l ∈ L) : locKey l ∈ L.map locKey := List.mem_map_of_mem hl
  cases op <;> simp only [opPlaces, List.not_mem_nil] at h
  case init => exact List.mem_append_left _ (hm _ h)
  case resume => exact List.mem_append_left _ (List.mem_append_left _ (hm _ h))
  case clearInterrupts | reset | suspend => exact hm _ h

/-- What holds of a requester inside an operation called in `s`. -/
structure Running (s : State) (q : Requester) (op : OpSel) (args : Args) (u : State) : Prop where
  cfg : u.cfg = s.cfg
  fnWf : u.dev.fn.wf = true
  window : WindowOk q u
  transfer : TransferOk q u
  sync : isSync op → SyncOk s (plannedLines s args op) q u

/-- The transaction of a phase is at its instruction's places. -/
theorem Transaction.devStep {s u t : State} {q : Requester} {op : OpSel} {args : Args} (hc : s.cfg.wf = true)
    (hr : Running s q op args u) (hin : Inside q op args u) (ht : Transaction q u t) :
    DevStep s (instrOf args op) u.dev t.dev := by
  cases ht with
  | nothing => exact .refl _ _ _
  | callback => exact .refl _ _ _
  | read r _ hw => exact .of_eq (sb_read_dev u r hw)
  | store r _ hl =>
    rw [sb_dev, hr.cfg]
    exact devStep_sbAnswer _ _ _ fun _ => opPlaces_stored args (hin.runs ▸ hr.cfg ▸ hl)
  | window f w _ hp hw =>
    have hat := hr.window
    simp only [WindowOk, AtPhase, hp] at hat
    have ha : args.addr ≠ 0 := fun e => hw (hat.1 (hin.addr.trans e))
    rw [sb_dev, hr.cfg]
    refine devStep_sbAnswer _ _ _ fun _ => ?_
    have hk := windowReq_key s.cfg (u.ctx q).wa w
    have htr := isTransfer_of_blk (hp ▸ hin.phase)
    cases op <;> simp only [isTransfer, Bool.false_eq_true] at htr
    all_goals simpa only [instrOf, storedKeys, if_neg ha] using hk
  | access wr a w st _ hp =>
    have hat : AccessAt u.cfg u.dev a st := by
      have := hr.window
      cases hp <;> rename_i hph <;> simpa only [WindowOk, AtPhase, hph] using this
    exact regAccess_devStep hc hr.cfg hat (accessPhase_places hr.cfg hin hr.sync hp)
  | half f hp => exact halfState_devStep hc hr.cfg hin hp hr.window hr.transfer

/-- A phase that moves keeps what holds inside the operation. -/
theorem Running.moved {s u u' : State} {q : Requester} {op : OpSel} {args : Args} (hc : s.cfg.wf = true)
    (hr : Running s q op args u) (hin : Inside q op args u) (h : phaseTurn q u = .moved u') :
    Running s q op args u' where
  cfg := (phaseTurn_frame h).cfg.trans hr.cfg
  fnWf := by
    obtain ⟨t, ht, hl⟩ := phaseTurn_transacts h hin.opHasPhase
    rw [hl.dev]
    exact ht.fnWf hr.fnWf
  window := phaseTurn_windowOk (hr.cfg ▸ hc) hr.fnWf h hr.window
  transfer := phaseTurn_transferOk h hin.opHasPhase hr.transfer
  sync ho := phaseTurn_syncOk (by rw [hin.runs]; exact ho) h hin.opHasPhase (hr.sync ho)

theorem Running.held {s u u' : State} {q : Requester} {op : OpSel} {args : Args} (hr : Running s q op args u)
    (h : phaseTurn q u = .held u') : Running s q op args u' := by
  obtain rfl | ⟨-, -, rfl⟩ := phaseTurn_held h
  · exact hr
  · exact ⟨hr.cfg, hr.fnWf, hr.window, transferOk_joinWaiters hr.transfer, hr.sync⟩

/-- A request just accepted. -/
theorem running_load {s : State} (hd : s.dev.fn.wf = true) (op : OpSel) (args : Args) :
    Running s s.cur op args (s.load s.cur op args) where
  cfg := rfl
  fnWf := hd
  window := by simp [WindowOk, AtPhase]
  transfer := transferOk_load s.cur op args s
  sync ho := by
    simp only [SyncOk, SyncPhase, ctx_load_same]
    rcases ho with rfl | rfl
    · exact ⟨⟨rfl, rfl⟩, fun _ => rfl, nofun⟩
    · exact ⟨⟨rfl, rfl⟩, nofun, fun _ => rfl⟩

/-- An operation's call changes the device only at its instruction's places. -/
theorem perform_devStep {op : OpSel} {args : Args} {s t : State} (hc : s.cfg.wf = true) (hd : s.dev.fn.wf = true)
    (h : perform op args s = .next t) : DevStep s (instrOf args op) s.dev t.dev := by
  refine (perform_run_induct
    (P := fun u => DevStep s (instrOf args op) s.dev u.dev ∧ Running s s.cur op args u) ?_ ?_ ?_ h).elim
    (fun e => .of_eq (by rw [e])) fun k => k.1
  · rintro u u' ⟨hstep, hr⟩ hin ht
    obtain ⟨v, hv, hl⟩ := phaseTurn_transacts ht hin.opHasPhase
    refine ⟨hstep.trans ?_, hr.moved hc hin ht⟩
    rw [hl.dev]
    exact hv.devStep hc hr hin
  · rintro u u' ⟨hstep, hr⟩ - ht
    refine ⟨?_, hr.held ht⟩
    rw [(phaseTurn_held_local ht).1.dev]
    exact hstep
  · exact ⟨.refl _ _ _, running_load hd op args⟩

/-- Settles O13: a bus command stores to its own places, and so does every transaction of an operation's phases. -/
theorem deviceMemoryFrame : Obligations.DeviceMemoryFrame := by
  intro i s t hc hd h
  have k : DevStep s i s.dev t.dev := by
    cases hr : i.request with
    | none => exact command_devStep hr h
    | some x =>
      rw [exec_of_request hr] at h
      rw [eq_instrOf hr]
      exact perform_devStep hc hd h
  exact ⟨k.fn, k.chip, k.status, k.count, k.queue⟩

end Sys2Proof.Machine
end

section
/-! CERTIFICATE. What a register read through the window returns on the reference device (20_memory.md rule R74,
41_address_window.md rule R166). -/

namespace Sys2Proof.Machine

/-! ### A windowed `readReg` on the reference device (R74, R166) -/

/-- With no answers listed the reference device answers. -/
theorem draw_of_nil {s : State} (h : s.draws = []) (k : Nat) : s.draw k = .reference := by
  simp [State.draw, h]

theorem okNext_of_nil {s : State} (h : s.draws = []) (n : Nat) : OkNext s n := by
  intro k _
  rw [draw_of_nil h]
  rfl

/-- The word of four chip bytes from `w` on, little-endian (R65, R74). -/
theorem bytesToWord_chipRead (m : Memory) (w : BitVec 24) :
    bytesToWord (chipRead m w 4) =
      m.read (w + 3).toNat ++ m.read (w + 2).toNat ++ m.read (w + 1).toNat ++ m.read w.toNat := by
  have h : chipRead m w 4 =
      [m.read (w + 0#24).toNat, m.read (w + 1).toNat, m.read (w + 2).toNat, m.read (w + 3).toNat] := rfl
  rw [h, BitVec.add_zero]
  rfl

/-- The data command of a windowed `readReg` on the reference device ends it with the word at the window (R166, R74). -/
theorem readReg_data {q : Requester} {s : State} (hop : (s.ctx q).op = .readReg)
    (hp : (s.ctx q).phase = .reg (.win .data)) (hc : s.cfg.wf = true) (hb : s.busOwner = none)
    (hd : s.draw 0 = .reference) :
    ∃ t, phaseTurn q s = .moved t ∧ t.idle q = true ∧
      t.out = s.out ++ [blkOut false 0 false s.cfg.winData.addr 4 s.h.blockSize []] ++
        [.response q (.ok (.word (bytesToWord (chipRead s.dev.chip (s.dev.window s.cfg) 4))))] := by
  have hread := (blk_window_read (p := []) (r := windowDataReq s.cfg false s.h.blockSize) rfl
    (windowData_at hc false _) hd).1
  have ht : phaseTurn q s = regTurn q (.win .data) s := by simp [phaseTurn, hp]
  rw [ht, regTurn, hop, accessTurn_data hc hb]
  simp only [opWrites, regPayload, Bool.false_eq_true, if_false, hread, if_true]
  refine ⟨_, rfl, ?_, ?_⟩
  · simp
  · simp [regResult, opWrites, blkOut, BlkReq.word, windowDataReq, BlkReq.bytes, Config.fnCtrl]

/-- Settles O22: after the three window writes the window value is `A[23:0]`, and the device answers the data command
with the chip bytes there. -/
theorem readRegTargetsChipAddress : Obligations.ReadRegTargetsChipAddress := by
  rintro a s ⟨hi, hb⟩ hc hf hdir hn
  have hrun := perform_window (op := .readReg) (args := { Args.zero with addr := a }) (.inl rfl) hi hb hdir
    (okNext_of_nil hn 3)
  generalize hv : (s.load s.cur .readReg { Args.zero with addr := a }).goto s.cur (.reg (.win .w0)) = v at hrun
  have hcfg : v.cfg = s.cfg := by simp [← hv]
  have hdev : v.dev = s.dev := by simp [← hv]
  have hnone : v.draws = [] := by simpa [← hv] using hn
  have hwin := afterWindow_window s.cur a (fun x => .reg (.win x)) v (hcfg ▸ hc) (hdev ▸ hf) (okNext_of_nil hnone 3)
  obtain ⟨t, ht, hidle, hout⟩ := readReg_data (q := s.cur) (s := afterWindow s.cur a (fun x => .reg (.win x)) v)
    (by simp [← hv]) (by simp) (by simpa [hcfg] using hc) (by simpa [← hv] using hb)
    (by simpa using draw_of_nil hnone 3)
  refine ⟨t, ?_, ?_⟩
  · rw [exec_of_request (i := .readReg a) rfl, hrun, phase_moved (n := 59) (by simp) ht, runPhases_idle _ _ _ hidle]
  · rw [hout, afterWindow_cfg, hwin, bytesToWord_chipRead]
    simp [← hv, readRegOut]

end Sys2Proof.Machine
end

section
/-! CERTIFICATE. Transfers at address 0 on the reference device (20_memory.md rule R91, 42_block_transfer.md rules R182
to R189): what a write appends to the function-1 queue, a read takes off it (70_reset_and_hazards.md rule R363). -/

namespace Sys2Proof.Machine

/-! ### Byte ranges that follow one another (R66) -/

theorem Memory.readBytes_add (m : Memory) (base n k : Nat) :
    m.readBytes base (n + k) = m.readBytes base n ++ m.readBytes (base + n) k := by
  simp [Memory.readBytes, List.range_add, Nat.add_assoc]

theorem Memory.writeBytes_append (m : Memory) (base : Nat) (xs ys : List Byte) :
    m.writeBytes base (xs ++ ys) = (m.writeBytes base xs).writeBytes (base + xs.length) ys := by
  induction xs generalizing m base with
  | nil => rfl
  | cons x xs ih =>
    simp only [List.cons_append, Memory.writeBytes, ih, List.length_cons]
    rw [Nat.add_assoc, Nat.add_comm 1]

/-! ### Block commands at the queue (R91) -/

/-- The reference device appends what is written to its queue. -/
theorem blk_queue_write {s : State} {r : BlkReq} {p : List Byte} (hw : r.wr = true) (ha : r.atWindow s.cfg = false)
    (hf : r.atFifo = true) (hd : s.draw 0 = .reference) :
    (s.blk r p).1.ok = true ∧ (s.blk r p).2.dev.fifo = s.dev.fifo ++ p := by
  rw [blk_reply_eq, blk_dev, nextDraw_eq_draw, hd]
  simp [blkAnswer, hw, Device.writeBlk, ha, hf]

/-- The reference device answers a read of no more bytes than are queued with the first ones, which it takes off. -/
theorem blk_queue_read {s : State} {r : BlkReq} {p : List Byte} (hw : r.wr = false) (ha : r.atWindow s.cfg = false)
    (hf : r.atFifo = true) (hd : s.draw 0 = .reference) (hn : r.bytes ≤ s.dev.fifo.length) :
    (s.blk r p).1 = ⟨true, s.dev.fifo.take r.bytes⟩ ∧ (s.blk r p).2.dev.fifo = s.dev.fifo.drop r.bytes := by
  rw [blk_reply_eq, blk_dev, nextDraw_eq_draw, hd]
  simp [blkAnswer, hw, Device.readBlk, ha, hf, hn]

/-! ### The counts of a transfer's two halves (R152, R184) -/

/-- A block less one byte is an allowed count (R9). -/
theorem maxCount_ge {c : Cfg} (h : c.wf = true) : 511 ≤ c.maxCount := by
  have hc : c.countOk = true := by
    simp only [Cfg.wf, Bool.and_eq_true] at h
    exact h.2
  simp only [Cfg.countOk, Bool.and_eq_true, decide_eq_true_eq] at hc
  exact hc.1

/-- A half that is not empty has an allowed count, if both parts of the split are within the limit. -/
theorem TransferAt.countAllowed {f : Half} {bs : Nat} {u : State} {x : Ctx} (h : TransferAt f bs u x) {c : Cfg}
    {b : Option Nat} (ha : wholeBlocks (roundUp4 x.args.size) bs ≤ c.maxCount)
    (hb : remainder (roundUp4 x.args.size) bs ≤ c.maxCount) (h0 : (halfReq c x b f).count ≠ 0) :
    countAllowed c (halfReq c x b f).count = true := by
  have hle : (halfReq c x b f).count ≤ c.maxCount := by
    cases f
    · exact h.nblk.le.trans ha
    · exact h.nleft.le.trans hb
  simp [Machine.countAllowed, hle, Nat.one_le_iff_ne_zero.mpr h0]

/-! ### A transfer at address 0 after `n` bytes -/

/-- The queue and the buffers after `n` bytes of a transfer between the queue and the buffer at `base`: a write has
appended the buffer's bytes, a read has put the queue's first bytes into the buffer. -/
def QueueMoved (wr : Bool) (base n : Nat) (s u : State) : Prop :=
  if wr then u.dev.fifo = s.dev.fifo ++ s.buf.readBytes base n ∧ u.buf = s.buf
  else u.dev.fifo = s.dev.fifo.drop n ∧ u.buf = s.buf.writeBytes base (s.dev.fifo.take n)

/-- The next block command of a write: the queue takes the buffer's next bytes. -/
theorem QueueMoved.write {base n k : Nat} {s u v : State} (h : QueueMoved true base n s u)
    (hfifo : v.dev.fifo = u.dev.fifo ++ u.buf.readBytes (base + n) k) (hbuf : v.buf = u.buf) :
    QueueMoved true base (n + k) s v := by
  obtain ⟨hqueue, hsame⟩ := h
  exact ⟨by rw [hfifo, hqueue, hsame, Memory.readBytes_add, List.append_assoc], hbuf.trans hsame⟩

/-- The next block command of a read: the buffer takes the queue's next bytes. -/
theorem QueueMoved.read {base n k : Nat} {s u v : State} (h : QueueMoved false base n s u)
    (hk : n + k ≤ s.dev.fifo.length) (hfifo : v.dev.fifo = u.dev.fifo.drop k)
    (hbuf : v.buf = u.buf.writeBytes (base + n) (u.dev.fifo.take k)) : QueueMoved false base (n + k) s v := by
  obtain ⟨hqueue, hfilled⟩ := h
  have hn : (s.dev.fifo.take n).length = n := by rw [List.length_take]; omega
  exact ⟨by rw [hfifo, hqueue, List.drop_drop], by
    rw [hbuf, hfilled, hqueue, List.take_add, Memory.writeBytes_append, hn]⟩

/-- The bytes a read has not taken are still queued. -/
theorem QueueMoved.queued {base n k : Nat} {s u : State} (h : QueueMoved false base n s u)
    (hk : n + k ≤ s.dev.fifo.length) : k ≤ u.dev.fifo.length := by
  rw [h.1, List.length_drop]
  omega

/-- A transfer at address 0 on the reference device has moved `n` bytes, and left what it does not own. -/
structure QueueRun (wr : Bool) (base n : Nat) (s u : State) : Prop where
  cfg : u.cfg = s.cfg
  h : u.h = s.h
  busOwner : u.busOwner = none
  draws : u.draws = []
  moved : QueueMoved wr base n s u

theorem QueueRun.start {s : State} (wr : Bool) (base : Nat) (hb : s.busOwner = none) (hn : s.draws = []) :
    QueueRun wr base 0 s s :=
  ⟨rfl, rfl, hb, hn, by cases wr <;> simp [QueueMoved, Memory.readBytes, Memory.writeBytes]⟩

@[simp] theorem queueRun_setCtx (wr : Bool) (base n : Nat) (s u : State) (q : Requester) (c : Ctx) :
    QueueRun wr base n s (u.setCtx q c) ↔ QueueRun wr base n s u :=
  ⟨fun ⟨hc, hh, hb, hd, hm⟩ => ⟨hc, hh, hb, hd, hm⟩, fun ⟨hc, hh, hb, hd, hm⟩ => ⟨hc, hh, hb, hd, hm⟩⟩

@[simp] theorem queueRun_goto (wr : Bool) (base n : Nat) (s u : State) (q : Requester) (p : Phase) :
    QueueRun wr base n s (u.goto q p) ↔ QueueRun wr base n s u := queueRun_setCtx ..

@[simp] theorem queueRun_finish (wr : Bool) (base n : Nat) (s u : State) (q : Requester) (a : Answer) :
    QueueRun wr base n s (u.finish q a) ↔ QueueRun wr base n s u :=
  ⟨fun ⟨hc, hh, hb, hd, hm⟩ => ⟨hc, hh, hb, hd, hm⟩, fun ⟨hc, hh, hb, hd, hm⟩ => ⟨hc, hh, hb, hd, hm⟩⟩

/-- What a transfer at address 0 is called with, and what it needs: an allowed split, and for a read enough bytes
queued. -/
structure QueueCall (op : OpSel) (args : Args) (bs : Nat) (s : State) : Prop where
  transfer : isTransfer op = true
  addr : args.addr = 0
  cfgWf : s.cfg.wf = true
  blockSize : s.h.blockSize = some bs
  fits : roundUp4 args.size ≤ args.buf.len
  blocks : wholeBlocks (roundUp4 args.size) bs ≤ s.cfg.maxCount
  rest : remainder (roundUp4 args.size) bs ≤ s.cfg.maxCount
  queued : opWrites op = false → roundUp4 args.size ≤ s.dev.fifo.length

/-- A requester in a half of such a transfer, the bytes before the half moved. -/
structure QueueHalf (f : Half) (op : OpSel) (args : Args) (bs : Nat) (s u : State) : Prop where
  runs : (u.ctx s.cur).op = op
  operands : (u.ctx s.cur).args = args
  place : TransferAt f bs u (u.ctx s.cur)
  run : QueueRun (opWrites op) args.buf.base (u.ctx s.cur).cur s u

/-- The block command of a half succeeds and moves the half's bytes (R188, R189, R91). -/
theorem QueueHalf.command {f : Half} {op : OpSel} {args : Args} {bs : Nat} {s u : State} (hs : QueueCall op args bs s)
    (hu : QueueHalf f op args bs s u) (h0 : (halfReq u.cfg (u.ctx s.cur) u.h.blockSize f).count ≠ 0) :
    halfOk s.cur f u = true ∧
      QueueRun (opWrites op) args.buf.base
        ((u.ctx s.cur).cur + (halfReq u.cfg (u.ctx s.cur) u.h.blockSize f).bytes) s (halfState s.cur f u) := by
  obtain ⟨hcfg, hh, hb, hd, hm⟩ := hu.run
  have hargs := hu.operands
  obtain ⟨hwin, hqueue⟩ := (halfReq_place u.cfg (u.ctx s.cur) u.h.blockSize f (hcfg ▸ hs.cfgWf)).1 (hargs ▸ hs.addr)
  have hallow := hu.place.countAllowed (c := u.cfg) (by rw [hargs, hcfg]; exact hs.blocks)
    (by rw [hargs, hcfg]; exact hs.rest) h0
  have hfit := hu.place.fits u.cfg
  have hwr : (halfReq u.cfg (u.ctx s.cur) u.h.blockSize f).wr = opWrites op := by
    cases f <;> exact congrArg opWrites hu.runs
  have hqueued := hs.queued
  unfold halfOk halfState halfPayload
  rw [executeBlock_allowed _ _ _ hallow, hwr, hargs]
  rw [hargs] at hfit
  generalize halfReq u.cfg (u.ctx s.cur) u.h.blockSize f = r at *
  cases hw : opWrites op with
  | true =>
    rw [hw] at hm hwr
    obtain ⟨hok, hdev⟩ := blk_queue_write (p := u.buf.readBytes (args.buf.base + (u.ctx s.cur).cur) r.bytes) hwr hwin
      hqueue (draw_of_nil hd 0)
    exact ⟨hok, hcfg, hh, hb, by simp [hd], hm.write hdev rfl⟩
  | false =>
    rw [hw] at hm hwr
    have hlen := hfit.trans (hqueued hw)
    obtain ⟨hreply, hdev⟩ := blk_queue_read (p := []) hwr hwin hqueue (draw_of_nil hd 0) (hm.queued hlen)
    refine ⟨by simp [hreply], hcfg, hh, hb, by simp [hd], hm.read hlen hdev ?_⟩
    simp [hreply]

/-! ### The run of the transfer (R184, R185) -/

/-- A half's last phase is its block command, with no window write before it (R182). -/
theorem QueueHalf.phase {f : Half} {op : OpSel} {args : Args} {bs : Nat} {s u : State} (hs : QueueCall op args bs s)
    (hu : QueueHalf f op args bs s u) (h0 : (halfReq u.cfg (u.ctx s.cur) u.h.blockSize f).count ≠ 0)
    (hp : (u.ctx s.cur).phase = .blk f .data) :
    phaseTurn s.cur u =
      .moved (halfDone s.cur f (halfReq u.cfg (u.ctx s.cur) u.h.blockSize f).bytes (halfState s.cur f u)) := by
  simp only [phaseTurn, hp]
  rw [blkTurn_data hu.run.busOwner, (hu.command hs h0).1, if_pos rfl]

/-- The phase index is no part of where a transfer stands. -/
theorem QueueHalf.goto {f : Half} {op : OpSel} {args : Args} {bs : Nat} {s u : State}
    (hu : QueueHalf f op args bs s u) (p : Phase) : QueueHalf f op args bs s (u.goto s.cur p) := by
  obtain ⟨hop, hargs, ⟨hbs, hnblk, hnleft, hcur, hwa⟩, hrun⟩ := hu
  constructor
  · simpa using hop
  · simpa using hargs
  · rw [ctx_goto_same]
    exact ⟨hbs, hnblk, hnleft, hcur, hwa⟩
  · simpa using hrun

/-- What is left after phase (a): nothing, or phase (b), which ends the transfer with every byte moved (R185). -/
theorem QueueHalf.finishes {op : OpSel} {args : Args} {bs : Nat} {s u : State} (hs : QueueCall op args bs s)
    (hu : QueueHalf .b op args bs s u) (n : Nat) :
    ∃ t, runPhases (n + 1) s.cur (afterHalfA s.cur u) = .next t ∧ t.idle s.cur = true ∧
      QueueRun (opWrites op) args.buf.base (roundUp4 args.size) s t := by
  have hsplit : (u.ctx s.cur).cur + (u.ctx s.cur).nleft = roundUp4 args.size := by
    rw [hu.place.cur, hu.place.nleft, hu.operands]
    exact Nat.div_add_mod' _ bs
  unfold afterHalfA
  by_cases h0 : (u.ctx s.cur).nleft = 0
  · rw [if_pos h0]
    refine ⟨_, runPhases_idle _ _ _ (by simp), by simp, ?_⟩
    rw [h0, Nat.add_zero] at hsplit
    simpa [hsplit] using hu.run
  · rw [if_neg h0, hu.operands, hs.addr, halfFirst, if_pos rfl]
    have hv := hu.goto (.blk .b .data)
    have hcount : (halfReq u.cfg ((u.goto s.cur (.blk .b .data)).ctx s.cur) u.h.blockSize .b).count ≠ 0 := by
      simpa [halfReq] using h0
    refine ⟨_, (phase_moved (by simp) (hv.phase hs hcount (by simp))).trans (runPhases_idle _ _ _ ?_), ?_, ?_⟩
    · simp [halfDone]
    · simp [halfDone]
    · simpa [halfDone, halfReq, BlkReq.bytes, hsplit] using (hv.command hs hcount).2

/-- Phase (a)'s block command takes the transfer to the end of phase (a) (R187). -/
theorem QueueHalf.afterA {op : OpSel} {args : Args} {bs : Nat} {s u : State} (hs : QueueCall op args bs s)
    (hu : QueueHalf .a op args bs s u) (h0 : (halfReq u.cfg (u.ctx s.cur) u.h.blockSize .a).count ≠ 0) :
    ∃ v, halfDone s.cur .a (halfReq u.cfg (u.ctx s.cur) u.h.blockSize .a).bytes (halfState s.cur .a u) =
      afterHalfA s.cur v ∧ QueueHalf .b op args bs s v := by
  have hctx : (halfState s.cur .a u).ctx s.cur = u.ctx s.cur := by simp [halfState]
  have hrun := (hu.command hs h0).2
  have hbytes : (halfReq u.cfg (u.ctx s.cur) u.h.blockSize .a).bytes = wholeBlocks (roundUp4 args.size) bs * bs := by
    simp [halfReq, BlkReq.bytes, hu.place.blockSize, hu.place.nblk, hu.operands]
  have hzero := hu.place.cur
  refine ⟨_, rfl, ?_⟩
  rw [hctx]
  constructor
  · simpa using hu.runs
  · simpa using hu.operands
  · rw [ctx_setCtx_same]
    refine ⟨(congrArg Handle.blockSize hrun.h).trans hs.blockSize, hu.place.nblk, hu.place.nleft, ?_,
      fun hne => absurd ?_ hne⟩
    · simp only [hzero, hbytes, hu.operands, Nat.zero_add]
    · exact hu.operands ▸ hs.addr
  · simpa using hrun

/-- From phase (a)'s block command the transfer runs to its end with every byte moved (R184). -/
theorem QueueHalf.completes {op : OpSel} {args : Args} {bs : Nat} {s u : State} (hs : QueueCall op args bs s)
    (hu : QueueHalf .a op args bs s u) (hp : (u.ctx s.cur).phase = .blk .a .data)
    (h0 : wholeBlocks (roundUp4 args.size) bs ≠ 0) (n : Nat) :
    ∃ t, runPhases (n + 2) s.cur u = .next t ∧ t.idle s.cur = true ∧
      QueueRun (opWrites op) args.buf.base (roundUp4 args.size) s t := by
  have hcount : (halfReq u.cfg (u.ctx s.cur) u.h.blockSize .a).count ≠ 0 := by
    simpa [halfReq, hu.place.nblk, hu.operands] using h0
  obtain ⟨v, hdone, hv⟩ := hu.afterA hs hcount
  rw [phase_moved (by simp [hp]) (hu.phase hs hcount hp), hdone]
  exact hv.finishes hs n

/-- A transfer with its split made has moved nothing; without a whole block that is the end of phase (a) (R184,
R185). -/
theorem QueueCall.split {op : OpSel} {args : Args} {bs : Nat} {s : State} (hs : QueueCall op args bs s)
    (hb : s.busOwner = none) (hn : s.draws = []) (f : Half)
    (hf : f = .b → wholeBlocks (roundUp4 args.size) bs = 0) :
    QueueHalf f op args bs s (withSplit s.cur bs (s.load s.cur op args)) := by
  constructor
  · simp [withSplit]
  · simp [withSplit]
  · refine ⟨hs.blockSize, by simp [withSplit], by simp [withSplit], ?_, by simp [withSplit]⟩
    cases f with
    | a => simp [withSplit]
    | b => simp [withSplit, hf rfl]
  · simpa [withSplit, State.load] using QueueRun.start (opWrites op) args.buf.base hb hn

/-- A transfer's first phase makes its split. -/
theorem startTurn_transfer {q : Requester} {s : State} (h : isTransfer (s.ctx q).op = true) :
    startTurn q s = startTransfer q s := by
  unfold startTurn
  revert h
  cases (s.ctx q).op <;> simp [isTransfer]

/-- A call of a transfer at address 0 runs to its end with every byte moved. -/
theorem QueueCall.runs {op : OpSel} {args : Args} {bs : Nat} {s : State} (hs : QueueCall op args bs s)
    (hr : Ready s) (hn : s.draws = []) :
    ∃ t, perform op args s = .next t ∧ t.idle s.cur = true ∧
      QueueRun (opWrites op) args.buf.base (roundUp4 args.size) s t := by
  obtain ⟨hi, hb⟩ := hr
  have hstart : phaseTurn s.cur (s.load s.cur op args) = startTransfer s.cur (s.load s.cur op args) := by
    simpa [phaseTurn] using startTurn_transfer (by simpa using hs.transfer)
  have hsplit := hs.split hb hn
  rw [perform_run hi]
  by_cases h0 : wholeBlocks (roundUp4 args.size) bs = 0
  · have hm : phaseTurn s.cur (s.load s.cur op args) =
        .moved (afterHalfA s.cur (withSplit s.cur bs (s.load s.cur op args))) := by
      rw [hstart]
      simp [startTransfer, withSplit, hs.blockSize, not_lt.mpr hs.fits, h0]
    rw [phase_moved (by simp) hm]
    exact (hsplit .b fun _ => h0).finishes hs 62
  · have hm : phaseTurn s.cur (s.load s.cur op args) =
        .moved ((withSplit s.cur bs (s.load s.cur op args)).goto s.cur (.blk .a .data)) := by
      rw [hstart]
      simp [startTransfer, withSplit, hs.blockSize, not_lt.mpr hs.fits, h0, hs.addr, halfFirst]
    rw [phase_moved (by simp) hm]
    exact ((hsplit .a nofun).goto _).completes hs (by simp) h0 61

/-- Settles O29: the write leaves the rounded size's bytes in the queue that was empty, and the read takes all of them.
That the window data port is elsewhere is not used: it is on function 0 under every well-formed configuration (R10). -/
theorem queueReadBack : Obligations.QueueReadBack := by
  intro b1 b2 size s hr hc hbs _ hn hempty hbuf h1 h2 hmax
  have hrest : remainder (roundUp4 size) 512 ≤ s.cfg.maxCount :=
    (Nat.le_of_lt_succ (Nat.mod_lt _ (by decide))).trans (maxCount_ge hc)
  have hw : QueueCall .blockWrite { Args.zero with addr := 0, buf := b1, size := size } 512 s :=
    ⟨rfl, rfl, hc, hbs, h1, hmax, hrest, nofun⟩
  obtain ⟨t, ht, hidle, hcfg, hh, hbus, hdraws, hsent, hkept⟩ := hw.runs hr hn
  rw [hempty, List.nil_append] at hsent
  have hcur : t.cur = s.cur := (perform_callFrame ht).cur
  have hread : QueueCall .blockRead { Args.zero with addr := 0, buf := b2, size := size } 512 t :=
    ⟨rfl, rfl, hcfg ▸ hc, hh ▸ hbs, h2, hcfg ▸ hmax, hcfg ▸ hrest, fun _ => by simp [hsent]⟩
  obtain ⟨u, hu, -, -, -, -, -, htaken, hfilled⟩ := hread.runs ⟨hcur ▸ hidle, hbus⟩ hdraws
  refine ⟨t, u, ht, hu, by simp [htaken, hsent], fun i hi => ?_⟩
  rw [hfilled, hsent, hkept, List.take_of_length_le (by simp),
    Memory.read_writeBytes_in _ _ _ _ hbuf (by simpa using hi)]
  simp [Memory.readBytes]

end Sys2Proof.Machine
end

section
/-! CERTIFICATE. The command words and the decoder (30_encoding.md): the fields of a word and the word of its fields,
what each kind of packet decodes to, the round trip, the opcode table's masks. -/

namespace Sys2Proof

/-! ### The fields of a command word (R101, R103) -/

/-- A bit above the lower part of a word is a bit of its upper part. -/
theorem getLsbD_append_of_le {v w i : Nat} {hi : BitVec v} {lo : BitVec w} (h : w ≤ i) :
    (hi ++ lo).getLsbD i = hi.getLsbD (i - w) := by
  rw [BitVec.getLsbD_append, if_neg (Nat.not_lt.mpr h)]

theorem getLsbD_append_ofBool {v : Nat} {hi : BitVec v} {b : Bool} : (hi ++ BitVec.ofBool b).getLsbD 0 = b := by
  simp [BitVec.getElem_append]

theorem ofBool_getLsbD (w : Word) (i : Nat) : BitVec.ofBool (w.getLsbD i) = w.extractLsb' i 1 := by
  ext j hj
  obtain rfl : j = 0 := by omega
  simp

section
variable (rw : Bool) (fn : FnIndex) (mode inc : Bool) (addr : BusAddr) (count : BitVec 9)

@[simp] theorem fieldCount_blkWord : fieldCount (blkWord rw fn mode inc addr count) = count :=
  BitVec.extractLsb'_append_eq_right

@[simp] theorem fieldAddr_blkWord : fieldAddr (blkWord rw fn mode inc addr count) = addr := by
  refine (BitVec.extractLsb'_append_eq_of_le (by decide)).trans ?_
  exact BitVec.extractLsb'_append_eq_right

@[simp] theorem fieldInc_blkWord : fieldInc (blkWord rw fn mode inc addr count) = inc := by
  iterate 2 refine (getLsbD_append_of_le (by decide)).trans ?_
  exact getLsbD_append_ofBool

@[simp] theorem fieldMode_blkWord : fieldMode (blkWord rw fn mode inc addr count) = mode := by
  iterate 3 refine (getLsbD_append_of_le (by decide)).trans ?_
  exact getLsbD_append_ofBool

@[simp] theorem fieldFn_blkWord : fieldFn (blkWord rw fn mode inc addr count) = fn := by
  iterate 4 refine (BitVec.extractLsb'_append_eq_of_le (by decide)).trans ?_
  exact BitVec.extractLsb'_append_eq_right

@[simp] theorem fieldRw_blkWord : fieldRw (blkWord rw fn mode inc addr count) = rw := by
  iterate 5 refine (getLsbD_append_of_le (by decide)).trans ?_
  simp

end

/-- The six fields of a `BLK` word are all of it: every word is the word of its fields. -/
theorem blkWord_fields (w : Word) :
    blkWord (fieldRw w) (fieldFn w) (fieldMode w) (fieldInc w) (fieldAddr w) (fieldCount w) = w := by
  unfold blkWord fieldRw fieldFn fieldMode fieldInc fieldAddr fieldCount
  rw [ofBool_getLsbD, ofBool_getLsbD, ofBool_getLsbD,
    BitVec.extractLsb'_append_extractLsb'_eq_extractLsb' (rfl : 31 = 28 + 3),
    BitVec.extractLsb'_append_extractLsb'_eq_extractLsb' (rfl : 28 = 27 + 1),
    BitVec.extractLsb'_append_extractLsb'_eq_extractLsb' (rfl : 27 = 26 + 1),
    BitVec.extractLsb'_append_extractLsb'_eq_extractLsb' (rfl : 26 = 9 + 17),
    BitVec.extractLsb'_append_extractLsb'_eq_extractLsb' (rfl : 9 = 0 + 9)]
  exact BitVec.extractLsb'_eq_self

theorem blkWord_inj {rw rw' : Bool} {fn fn' : FnIndex} {mode mode' inc inc' : Bool} {addr addr' : BusAddr}
    {count count' : BitVec 9} :
    blkWord rw fn mode inc addr count = blkWord rw' fn' mode' inc' addr' count' ↔
      rw = rw' ∧ fn = fn' ∧ mode = mode' ∧ inc = inc' ∧ addr = addr' ∧ count = count' := by
  refine ⟨fun h => ?_, fun ⟨hrw, hfn, hmode, hinc, haddr, hcount⟩ => by rw [hrw, hfn, hmode, hinc, haddr, hcount]⟩
  exact ⟨by simpa using congrArg fieldRw h, by simpa using congrArg fieldFn h, by simpa using congrArg fieldMode h,
    by simpa using congrArg fieldInc h, by simpa using congrArg fieldAddr h, by simpa using congrArg fieldCount h⟩

/-- Two words meet field by field. -/
theorem blkWord_and (rw rw' : Bool) (fn fn' : FnIndex) (mode mode' inc inc' : Bool) (addr addr' : BusAddr)
    (count count' : BitVec 9) :
    blkWord rw fn mode inc addr count &&& blkWord rw' fn' mode' inc' addr' count' =
      blkWord (rw && rw') (fn &&& fn') (mode && mode') (inc && inc') (addr &&& addr') (count &&& count') := by
  unfold blkWord
  simp only [← BitVec.ofBool_and_ofBool, ← BitVec.and_append]

/-- An `SB` word is a `BLK` word with `z1` in the place of `inc`, and `z0` and the data byte in the place of the
count. -/
theorem sbWord_eq_blkWord (rw : Bool) (fn : FnIndex) (raw : Bool) (addr : BusAddr) (data : Byte) :
    sbWord rw fn raw addr data = blkWord rw fn raw false addr (0#1 ++ data) :=
  BitVec.append_assoc

theorem fieldData_eq (w : Word) : fieldData w = (fieldCount w).extractLsb' 0 8 := by
  simp [fieldData, fieldCount]

theorem fieldZ0_eq (w : Word) : fieldZ0 w = (fieldCount w).getLsbD 8 := by
  simp [fieldZ0, fieldCount]

section
variable (rw : Bool) (fn : FnIndex) (raw : Bool) (addr : BusAddr) (data : Byte)

@[simp] theorem fieldFn_sbWord : fieldFn (sbWord rw fn raw addr data) = fn := by
  rw [sbWord_eq_blkWord, fieldFn_blkWord]

@[simp] theorem fieldAddr_sbWord : fieldAddr (sbWord rw fn raw addr data) = addr := by
  rw [sbWord_eq_blkWord, fieldAddr_blkWord]

@[simp] theorem fieldData_sbWord : fieldData (sbWord rw fn raw addr data) = data := by
  rw [fieldData_eq, sbWord_eq_blkWord, fieldCount_blkWord]
  exact BitVec.extractLsb'_append_eq_right

end

/-! ### Decoding a command word (R102, R104, R111) -/

/-- The bits the mask of the `SB` rows looks at (R102): direction and mode as named, the reserved bits 0. -/
structure SbBits (w : Word) (rw raw : Bool) : Prop where
  rw : fieldRw w = rw
  raw : fieldMode w = raw
  z1 : fieldInc w = false
  z0 : fieldZ0 w = false

theorem sbBits_iff (w : Word) (rw raw : Bool) :
    SbBits w rw raw ↔ fieldRw w = rw ∧ fieldMode w = raw ∧ fieldInc w = false ∧ fieldZ0 w = false :=
  ⟨fun ⟨hrw, hraw, hz1, hz0⟩ => ⟨hrw, hraw, hz1, hz0⟩, fun ⟨hrw, hraw, hz1, hz0⟩ => ⟨hrw, hraw, hz1, hz0⟩⟩

theorem sbBits_sbWord (rw : Bool) (fn : FnIndex) (raw : Bool) (addr : BusAddr) (data : Byte) :
    SbBits (sbWord rw fn raw addr data) rw raw := by
  rw [sbWord_eq_blkWord]
  exact ⟨fieldRw_blkWord .., fieldMode_blkWord .., fieldInc_blkWord .., by
    rw [fieldZ0_eq, fieldCount_blkWord, getLsbD_append_of_le (le_refl 8)]
    rfl⟩

section
variable {w : Word} {side : Side}

theorem decodeSb_reserved (h : fieldInc w = true ∨ fieldZ0 w = true) : decodeSb w = .error .reservedBit := by
  simp [decodeSb, h]

theorem decodeSb_read (h : SbBits w false false) : decodeSb w = .ok (.sbRd (fieldFn w) (fieldAddr w)) := by
  simp [decodeSb, h.rw, h.raw, h.z1, h.z0]

theorem decodeSb_readWithRaw (h : SbBits w false true) : decodeSb w = .error .readWithRaw := by
  simp [decodeSb, h.rw, h.raw, h.z1, h.z0]

theorem decodeSb_write (h : SbBits w true false) :
    decodeSb w = .ok (.sbWr (fieldFn w) (fieldAddr w) (fieldData w)) := by
  simp [decodeSb, h.rw, h.raw, h.z1, h.z0]

theorem decodeSb_rawWrite (h : SbBits w true true) :
    decodeSb w = .ok (.sbWrRb (fieldFn w) (fieldAddr w) (fieldData w)) := by
  simp [decodeSb, h.rw, h.raw, h.z1, h.z0]

theorem decodeBlk_countZero (hc : fieldCount w = 0#9) : decodeBlk w side = .error .countZero := if_pos hc

theorem decodeBlk_readByte (hc : fieldCount w ≠ 0#9) (hrw : fieldRw w = false) (hbm : fieldMode w = false) :
    decodeBlk w side = .ok (.blkRdByte (fieldFn w) (fieldInc w) (fieldAddr w) (fieldCount w) side) := by
  simp [decodeBlk, hc, hrw, hbm]

theorem decodeBlk_readBlock (hc : fieldCount w ≠ 0#9) (hrw : fieldRw w = false) (hbm : fieldMode w = true) :
    decodeBlk w side = .ok (.blkRdBlock (fieldFn w) (fieldInc w) (fieldAddr w) (fieldCount w) side) := by
  simp [decodeBlk, hc, hrw, hbm]

theorem decodeBlk_writeByte (hc : fieldCount w ≠ 0#9) (hrw : fieldRw w = true) (hbm : fieldMode w = false) :
    decodeBlk w side = .ok (.blkWrByte (fieldFn w) (fieldInc w) (fieldAddr w) (fieldCount w) side) := by
  simp [decodeBlk, hc, hrw, hbm]

theorem decodeBlk_writeBlock (hc : fieldCount w ≠ 0#9) (hrw : fieldRw w = true) (hbm : fieldMode w = true) :
    decodeBlk w side = .ok (.blkWrBlock (fieldFn w) (fieldInc w) (fieldAddr w) (fieldCount w) side) := by
  simp [decodeBlk, hc, hrw, hbm]

end

theorem countOk_iff {count : BitVec 9} : countOk count = true ↔ count ≠ 0#9 := bne_iff_ne

/-! ### Decoding a packet (R111, R115, R155) -/

theorem decode_bus_sb (w : Word) : decode .bus (.sb w) = decodeSb w := by simp [decode]

theorem decode_bus_blk (w : Word) (side : Side) : decode .bus (.blk w side) = decodeBlk w side := by simp [decode]

/-- No `SB` word is an instruction on a requester's port (R155). -/
theorem decode_sb_wrongPort {p : Port} (hp : p ≠ .bus) (w : Word) : decode p (.sb w) = .error .wrongPort := if_neg hp

/-- Nor is a `BLK` word. -/
theorem decode_blk_wrongPort {p : Port} (hp : p ≠ .bus) (w : Word) (side : Side) :
    decode p (.blk w side) = .error .wrongPort := if_neg hp

/-- An operation of the other port (R111e). -/
theorem decode_hostop_wrongPort {p : Port} {opsel : BitVec 4} (args : Args) (hp : (OpSel.ofCode opsel).port ≠ p) :
    decode p (.hostop opsel args) = .error .wrongPort := if_neg hp

@[simp] theorem ofCode_code (op : OpSel) : OpSel.ofCode op.code = op := by cases op <;> rfl

theorem decode_hostop_code (op : OpSel) (args : Args) : decode op.port (.hostop op.code args) = decodeOp op args := by
  simp [decode]

/-! ### The round trip (R115) -/

/-- A bus command is read back from its word: the decoder finds the fields the encoder placed. -/
theorem decode_encode_command {i : Instr} (hw : i.wf = true) (h : i.request = none) :
    decode .bus (encode i) = .ok i := by
  cases i
  case sbRd | sbWr | sbWrRb =>
    simp [encode, decode_bus_sb, decodeSb_read, decodeSb_write, decodeSb_rawWrite, sbBits_sbWord]
  case blkRdByte | blkRdBlock | blkWrByte | blkWrBlock =>
    have hc := countOk_iff.mp hw
    simp [encode, decode_bus_blk, decodeBlk_readByte, decodeBlk_readBlock, decodeBlk_writeByte,
      decodeBlk_writeBlock, hc]
  all_goals cases h

/-- The packet of a host operation is its `opsel` number with its operands (R108). -/
theorem encode_of_request {i : Instr} {op : OpSel} {args : Args} (h : i.request = some (op, args)) :
    encode i = .hostop op.code args := by
  cases i <;> cases h <;> rfl

/-- A host operation is read back from its operands; a transfer's size is in range (R108). -/
theorem decodeOp_of_request {i : Instr} {op : OpSel} {args : Args} (hw : i.wf = true)
    (h : i.request = some (op, args)) : decodeOp op args = .ok i := by
  cases i <;> cases h
  case blockRead | blockWrite => exact if_pos hw
  all_goals rfl

/-- Settles O1: a bus command goes through the fields of its word, a host operation through its `opsel` number. -/
theorem decodeOfEncodeIsIdentity : Obligations.DecodeOfEncodeIsIdentity := by
  intro i hw
  cases h : i.request with
  | none => simpa [Instr.port, h] using decode_encode_command hw h
  | some x =>
    obtain ⟨op, args⟩ := x
    have hport : i.port = op.port := by simp [Instr.port, h]
    rw [hport, encode_of_request h, decode_hostop_code, decodeOp_of_request hw h]

/-! ### The opcode table's masks (R102, R104) -/

/-- A word under the mask of the `SB` rows: the bits the mask looks at. -/
theorem sbMask_iff (w : Word) (rw raw : Bool) :
    w &&& 0x8C000100#32 = blkWord rw 0 raw false 0 0 ↔ SbBits w rw raw := by
  have hmask : 0x8C000100#32 = blkWord true 0 true true 0 (BitVec.twoPow 9 8) := rfl
  have hz0 : fieldCount w &&& BitVec.twoPow 9 8 = 0 ↔ fieldZ0 w = false := by
    rw [BitVec.and_twoPow, ← fieldZ0_eq]
    cases fieldZ0 w <;> decide
  have hword := blkWord_and (fieldRw w) true (fieldFn w) 0 (fieldMode w) true (fieldInc w) true (fieldAddr w) 0
    (fieldCount w) (BitVec.twoPow 9 8)
  rw [blkWord_fields, ← hmask] at hword
  rw [hword, blkWord_inj, hz0]
  simpa using (sbBits_iff w rw raw).symm

/-- A word under the mask of the `BLK` rows: direction and mode. -/
theorem blkMask_iff (w : Word) (rw bm : Bool) :
    w &&& 0x88000000#32 = blkWord rw 0 bm false 0 0 ↔ fieldRw w = rw ∧ fieldMode w = bm := by
  have hmask : 0x88000000#32 = blkWord true 0 true false 0 0 := rfl
  have hword := blkWord_and (fieldRw w) true (fieldFn w) 0 (fieldMode w) true (fieldInc w) false (fieldAddr w) 0
    (fieldCount w) 0
  rw [blkWord_fields, ← hmask] at hword
  rw [hword, blkWord_inj]
  simp

/-- An `SB` word that is none of the three commands has a reserved bit set, or is a read with `raw` (R111a, R111b). -/
theorem decodeSb_no_command {w : Word} (hread : ¬ SbBits w false false) (hwrite : ¬ SbBits w true false)
    (hraw : ¬ SbBits w true true) : decodeSb w = .error .readWithRaw ∨ decodeSb w = .error .reservedBit := by
  by_cases hres : fieldInc w = true ∨ fieldZ0 w = true
  · exact .inr (decodeSb_reserved hres)
  · simp only [not_or, Bool.not_eq_true] at hres
    obtain ⟨hz1, hz0⟩ := hres
    have hbits : SbBits w (fieldRw w) (fieldMode w) := ⟨rfl, rfl, hz1, hz0⟩
    cases hrw : fieldRw w <;> cases hmode : fieldMode w <;> rw [hrw, hmode] at hbits
    · exact absurd hbits hread
    · exact .inl (decodeSb_readWithRaw hbits)
    · exact absurd hbits hwrite
    · exact absurd hbits hraw

/-- Settles O2: a word's row of the table is read off the bits its mask looks at. -/
theorem commandWordsByMask : Obligations.CommandWordsByMask := by
  intro w side
  rw [decode_bus_sb, decode_bus_blk]
  refine ⟨fun p hp => ⟨decode_sb_wrongPort hp w, decode_blk_wrongPort hp w side⟩,
    fun h => decodeSb_read ((sbMask_iff w false false).mp h),
    fun h => decodeSb_write ((sbMask_iff w true false).mp h),
    fun h => decodeSb_rawWrite ((sbMask_iff w true true).mp h),
    fun hread hwrite hraw => decodeSb_no_command (mt (sbMask_iff w false false).mpr hread)
      (mt (sbMask_iff w true false).mpr hwrite) (mt (sbMask_iff w true true).mpr hraw),
    decodeBlk_countZero, fun hc => ⟨fun h => ?_, fun h => ?_, fun h => ?_, fun h => ?_⟩⟩
  · obtain ⟨hrw, hbm⟩ := (blkMask_iff w false false).mp h
    exact decodeBlk_readByte hc hrw hbm
  · obtain ⟨hrw, hbm⟩ := (blkMask_iff w false true).mp h
    exact decodeBlk_readBlock hc hrw hbm
  · obtain ⟨hrw, hbm⟩ := (blkMask_iff w true false).mp h
    exact decodeBlk_writeByte hc hrw hbm
  · obtain ⟨hrw, hbm⟩ := (blkMask_iff w true true).mp h
    exact decodeBlk_writeBlock hc hrw hbm

/-- Settles O3: the decoder evaluated on each of the words. -/
theorem specWordsDecode : Obligations.SpecWordsDecode :=
  ⟨by decide, by decide, by decide, by decide, by decide, by decide, by decide⟩

end Sys2Proof
end

section
/-! CERTIFICATE. Packets that are no instruction where they arrive (30_encoding.md rules R111, R112, R155): the mark for
the wrong port, a refusal by name for any other. -/

namespace Sys2Proof.Machine

theorem requester_port_ne_bus (r : Requester) : r.port ≠ .bus := by cases r <;> nofun

/-- An operation of the other port, and every bus command, decodes to the wrong port on a requester's (R111e, R155). -/
theorem decode_requester_wrongPort {r : Requester} {p : Packet}
    (h : (∃ opsel args, p = .hostop opsel args ∧ (OpSel.ofCode opsel).port ≠ r.port) ∨ (∃ w, p = .sb w) ∨
      ∃ w side, p = .blk w side) : decode r.port p = .error .wrongPort := by
  obtain ⟨opsel, args, rfl, hp⟩ | ⟨w, rfl⟩ | ⟨w, side, rfl⟩ := h
  · exact decode_hostop_wrongPort args hp
  · exact decode_sb_wrongPort (requester_port_ne_bus r) w
  · exact decode_blk_wrongPort (requester_port_ne_bus r) w side

section
variable {s : State} {r : Requester} {p : Packet} {e : Reject}

theorem eventTask_accept_wrongPort (ha : s.attached = true) (hc : canCall s r = true)
    (hd : decode r.port p = .error .wrongPort) :
    eventTask s (.accept r p) = .done (.next (refusePort s r)) := by
  simp [eventTask, ha, acceptOutcome, hc, hd]

theorem eventTask_deliver_illegal (ha : s.attached = true) (hc : canCall s r = true)
    (hd : decode r.port p = .error e) (he : e ≠ .wrongPort) :
    eventTask s (.deliver r p) = .done (.refused (.illegalPacket e)) := by
  simp [eventTask, ha, deliverTask, hc, hd]

theorem eventTask_accept_illegal (ha : s.attached = true) (hc : canCall s r = true)
    (hd : decode r.port p = .error e) (he : e ≠ .wrongPort) :
    eventTask s (.accept r p) = .done (.refused (.illegalPacket e)) := by
  simp [eventTask, ha, acceptOutcome, hc, hd]

theorem eventTask_command_illegal (ha : s.attached = true) (hd : decode .bus p = .error e) (he : e ≠ .wrongPort) :
    eventTask s (.command p) = .done (.refused (.illegalPacket e)) := by
  simp [eventTask, ha, commandTask, hd]

end

/-- Settles O4: what the packet decodes to on its port decides the entry's outcome, delivered or accepted. -/
theorem wrongPortRefused : Obligations.WrongPortRefused := by
  intro s r p rest hw ha
  refine ⟨fun hc hg => ⟨fun hp => ?_, fun e hd he => ?_⟩, fun e hg hd he => ?_⟩
  · have hd := decode_requester_wrongPort hp
    obtain hg | hg := hg
    · exact step_done hw hg (eventTask_deliver_wrongPort ha hc hd)
    · exact step_done hw hg (eventTask_accept_wrongPort ha hc hd)
  · obtain hg | hg := hg
    · exact step_done hw hg (eventTask_deliver_illegal ha hc hd he)
    · exact step_done hw hg (eventTask_accept_illegal ha hc hd he)
  · exact step_done hw hg (eventTask_command_illegal ha hd he)

end Sys2Proof.Machine
end

section
/-! CERTIFICATE. The single-byte commands of an agent beside the operations (40_command_encoder.md rules R142 to R144):
each is one transaction on a free bus, with the reference device's byte as its answer (20_memory.md rules R90, R92). -/

namespace Sys2Proof.Machine

/-! ### A single-byte command on a free bus (R141, R153) -/

theorem sbCommand_free {s : State} (r : SbReq) (hb : s.busOwner = none) :
    (sbCommand r s).outcome = .next (s.sb r).2 := by
  rw [sbCommand, withBus_free _ hb]; rfl

/-! ### What a single-byte command answers (R89, R142 to R144) -/

theorem padded_one (f : Nat) (b : Byte) (bs : List Byte) : padded f (b :: bs) 1 = [b] := rfl

/-- A listed answer to a command that returns a byte gives its status and its first byte. -/
theorem sb_reply_scripted {s : State} {r : SbReq} (h : r.wr = false ∨ r.raw = true) {ok : Bool} {b : Byte}
    {bs : List Byte} {l : Nat} (hd : s.draw 0 = .scripted ok (b :: bs) l) : (s.sb r).2.reply = ⟨ok, [b]⟩ := by
  rw [sb_reply, nextDraw_eq_draw, hd]
  obtain h | h := h <;> simp [sbAnswer, h, padded_one]

/-- The reference device answers a read with its byte of the place. -/
theorem sb_reply_read {s : State} {r : SbReq} (hw : r.wr = false) (hd : s.draw 0 = .reference) :
    (s.sb r).2.reply = ⟨true, [s.dev.readSb s.cfg r.loc]⟩ := by
  rw [sb_reply, nextDraw_eq_draw, hd]
  simp [sbAnswer, hw]

/-- A plain write returns no byte. -/
theorem sb_reply_write {s : State} {r : SbReq} (hw : r.wr = true) (hr : r.raw = false) :
    (s.sb r).2.reply = ⟨(s.draw 0).outcome, []⟩ := by
  rw [sb_reply, nextDraw_eq_draw]
  cases s.draw 0 <;> simp [sbAnswer, hw, hr, Draw.outcome]

/-- The reference device reads back what a raw write stored. -/
theorem sb_reply_raw {s : State} {r : SbReq} (hw : r.wr = true) (hr : r.raw = true) (hd : s.draw 0 = .reference) :
    (s.sb r).2.reply = ⟨true, [r.data]⟩ := by
  rw [sb_reply, nextDraw_eq_draw, hd]
  simp [sbAnswer, hw, hr]

/-! ### The bytes of the reference device (R90, R92) -/

/-- Flag 0 stands in bit 0 of the status register, flags 1 to 4 in bits 2 to 5 (R210). -/
theorem statusRegByte_eq (f : BitVec 5) :
    statusRegByte f = 0#2 ++ f.extractLsb' 1 4 ++ 0#1 ++ f.extractLsb' 0 1 := by
  revert f
  decide

section
variable {c : Cfg} (d : Device)

theorem readSb_dmaCntLo : d.readSb c c.dmaCntLo = d.dmaCnt.extractLsb' 0 8 := by simp [Device.readSb]

theorem readSb_dmaCntHi (h : c.dmaCntHi ≠ c.dmaCntLo) : d.readSb c c.dmaCntHi = d.dmaCnt.extractLsb' 8 8 := by
  simp [Device.readSb, h]

theorem readSb_irqFlagsA (h : c.irqFlagsA ∉ [c.dmaCntLo, c.dmaCntHi]) :
    d.readSb c c.irqFlagsA = 0#3 ++ d.flags := by
  simp_all [Device.readSb, BitVec.setWidth_eq_append]

theorem readSb_irqFlagsB (h : c.irqFlagsB ∉ [c.dmaCntLo, c.dmaCntHi, c.irqFlagsA]) :
    d.readSb c c.irqFlagsB = 0#4 ++ d.flags.extractLsb' 0 4 := by
  simp_all [Device.readSb, BitVec.setWidth_eq_append]

theorem readSb_intStatus (h : c.intStatus ∉ [c.dmaCntLo, c.dmaCntHi, c.irqFlagsA, c.irqFlagsB]) :
    d.readSb c c.intStatus = 0#2 ++ d.flags.extractLsb' 1 4 ++ 0#1 ++ d.flags.extractLsb' 0 1 := by
  simp_all [Device.readSb, statusRegByte_eq]

/-- Away from the five registers a read returns the stored byte. -/
theorem readSb_memory {l : Loc8} (h : l ∉ [c.dmaCntLo, c.dmaCntHi, c.irqFlagsA, c.irqFlagsB, c.intStatus]) :
    d.readSb c l = d.fn.read (locKey l) := by
  simp_all [Device.readSb]

end

/-- Settles O14: the command is one transaction, and the byte is the first of the five registers that stands there, or
the stored one. -/
theorem singleByteReadReturnsByte : Obligations.SingleByteReadReturnsByte := by
  intro fn addr s hb
  refine ⟨(s.sb ⟨fn, addr, false, false, 0⟩).2, sbCommand_free _ hb, rfl, sb_read_dev s _ rfl, rfl, rfl, rfl, rfl,
    fun ok b bs l hd => sb_reply_scripted (.inl rfl) hd, fun hd hnodup => ?_⟩
  simp only [List.nodup_cons] at hnodup
  obtain ⟨hlo, hhi, hflagsA, hflagsB, -⟩ := hnodup
  refine ⟨_, sb_reply_read rfl hd, fun e => ?_, fun e => ?_, fun e => ?_, fun e => ?_, fun e => ?_,
    fun hout => readSb_memory _ hout⟩
  all_goals simp only [SbReq.loc, e]
  · exact readSb_dmaCntLo _
  · exact readSb_dmaCntHi _ (by simp_all [eq_comm])
  · exact readSb_irqFlagsA _ (by simp_all [eq_comm])
  · exact readSb_irqFlagsB _ (by simp_all [eq_comm])
  · exact readSb_intStatus _ (by simp_all [eq_comm])

/-! ### A single-byte write on a free bus (R89, R90, R92) -/

/-- The two write forms are one request, raw or plain (R143, R144). -/
theorem exec_sbWrite (raw : Bool) (fn : FnIndex) (addr : BusAddr) (data : Byte) (s : State) :
    exec (if raw then .sbWrRb fn addr data else .sbWr fn addr data) s =
      (sbCommand ⟨fn, addr, true, raw, data⟩ s).outcome := by
  cases raw <;> rfl

/-- A write touches no other byte of function space, whether it lands or not. -/
theorem sbAnswer_fn_other {c : Cfg} (f : Nat) (d : Device) (r : SbReq) (w : Draw) {k : Nat} (h : k ≠ locKey r.loc) :
    (sbAnswer c f d r w).2.fn.read k = d.fn.read k := by
  obtain e | ⟨-, e⟩ := sbAnswer_cases c f d r w <;> rw [e]
  rw [writeSb_fn, Memory.read_write_ne _ _ _ _ h]

/-- A failed command of which nothing landed leaves the device. -/
theorem sbAnswer_failed (c : Cfg) (f : Nat) (d : Device) (r : SbReq) (bs : List Byte) :
    (sbAnswer c f d r (.scripted false bs 0)).2 = d := by simp [sbAnswer]

/-- Settles O15: the write is one transaction whose device is the old one or, always on `OK`, the one with the byte
stored. -/
theorem singleByteWriteStoresByte : Obligations.SingleByteWriteStoresByte := by
  intro raw fn addr data s hb hwf
  have hstored (ho : (s.draw 0).outcome = true) :
      (s.sb ⟨fn, addr, true, raw, data⟩).2.dev = s.dev.writeSb s.cfg ⟨fn, addr⟩ data := by
    rw [sb_dev, nextDraw_eq_draw, sbAnswer_write _ _ _ _ _ rfl ho]; rfl
  obtain ⟨hchip, hfifo⟩ := sbAnswer_chip s.cfg s.free s.dev ⟨fn, addr, true, raw, data⟩ s.nextDraw
  refine ⟨_, (exec_sbWrite ..).trans (sbCommand_free _ hb), rfl, rfl, rfl, rfl, rfl, hchip, hfifo,
    fun k hk => sbAnswer_fn_other _ _ _ _ hk, fun ho => ?_, fun bs hd => ?_,
    fun hclr hack => sbAnswer_same _ _ _ hclr hack, fun ho hne => ⟨fun e => ?_, fun e => ?_⟩,
    fun hr => sb_reply_write rfl hr, fun hr hd => sb_reply_raw rfl hr hd,
    fun hr ok b bs l hd => sb_reply_scripted (.inr hr) hd⟩
  · rw [hstored ho, writeSb_fn, Memory.read_write_same _ _ _ hwf]
  · rw [sb_dev, nextDraw_eq_draw, hd, sbAnswer_failed]
  · rw [hstored ho, e]; exact writeSb_ackA _ _ hne
  · rw [hstored ho, e]; exact writeSb_ackB _ _ hne

end Sys2Proof.Machine
end

section
/-! CERTIFICATE. The block commands of an agent beside the operations (40_command_encoder.md rules R146 to R152): the
bytes they move between the buffer and the device, and a count out of range. -/

namespace Sys2Proof.Machine

/-! ### A block command by its count and the bus (R146, R152, R153) -/

/-- An allowed count, a buffer that holds the bytes and a free bus make a block command one transaction; a read then
fills the buffer. -/
theorem blkCommand_free {s : State} {r : BlkReq} {side : Side} (hc : countAllowed s.cfg r.count = true)
    (hl : side.off + r.bytes ≤ side.buf.len) (hb : s.busOwner = none) :
    (blkCommand r side s).outcome = .next ((s.blk r (sent r side s)).2.setBuf (filled r side s)) := by
  rw [blkCommand, if_pos hc, if_pos hl, withBus_free _ hb]
  unfold sent filled
  cases r.wr <;> rfl

/-- A count out of range answers `FAIL` and does nothing else, whoever owns the bus and whatever the buffer (R152). -/
theorem blkCommand_refused {s : State} {r : BlkReq} (side : Side) (hc : countAllowed s.cfg r.count = false) :
    (blkCommand r side s).outcome = .next { s with reply := ⟨false, []⟩ } := by
  rw [blkCommand, if_neg (by simp [hc])]; rfl

theorem countAllowed_eq_false {c : Cfg} {n : Nat} : countAllowed c n = false ↔ ¬ (1 ≤ n ∧ n ≤ c.maxCount) := by
  rw [← Bool.not_eq_true, countAllowed, Bool.and_eq_true, decide_eq_true_eq, decide_eq_true_eq]

/-- Settles O18: the count is checked before the buffer and before the bus. -/
theorem blockCountRefused : Obligations.BlockCountRefused := by
  intro i fn inc addr count side s hi hc
  have href := countAllowed_eq_false.mpr hc
  simp only [List.mem_cons, List.not_mem_nil, or_false] at hi
  obtain rfl | rfl | rfl | rfl := hi
  all_goals exact blkCommand_refused side href

/-! ### The request of a block command (R147 to R150) -/

/-- The request of a block command's operands: a read or a write, in byte or in block mode. -/
def blkReqOf (wr bm : Bool) (fn : FnIndex) (inc : Bool) (addr : BusAddr) (count : BitVec 9) (side : Side) : BlkReq :=
  ⟨fn, addr, wr, bm, inc, count.toNat, some side.bs⟩

theorem exec_blkRead (bm : Bool) (fn : FnIndex) (inc : Bool) (addr : BusAddr) (count : BitVec 9) (side : Side)
    (s : State) :
    exec (if bm then .blkRdBlock fn inc addr count side else .blkRdByte fn inc addr count side) s =
      (blkCommand (blkReqOf false bm fn inc addr count side) side s).outcome := by
  cases bm <;> rfl

theorem exec_blkWrite (bm : Bool) (fn : FnIndex) (inc : Bool) (addr : BusAddr) (count : BitVec 9) (side : Side)
    (s : State) :
    exec (if bm then .blkWrBlock fn inc addr count side else .blkWrByte fn inc addr count side) s =
      (blkCommand (blkReqOf true bm fn inc addr count side) side s).outcome := by
  cases bm <;> rfl

section
variable (wr bm : Bool) (fn : FnIndex) (inc : Bool) (addr : BusAddr) (count : BitVec 9) (side : Side)

@[simp] theorem blkReqOf_bs : (blkReqOf wr bm fn inc addr count side).bs = some side.bs := rfl
@[simp] theorem blkReqOf_bytes : (blkReqOf wr bm fn inc addr count side).bytes =
    if bm then count.toNat * side.bs else count.toNat := rfl
@[simp] theorem blkReqOf_word : (blkReqOf wr bm fn inc addr count side).word = blkWord wr fn bm inc addr count := by
  simp [blkReqOf, BlkReq.word]
@[simp] theorem blkReqOf_atWindow (c : Cfg) : (blkReqOf wr bm fn inc addr count side).atWindow c =
    decide ((⟨fn, addr⟩ : Loc8) = c.winData) := rfl

/-- The queue is at function 1 address 0 (R91). -/
theorem blkReqOf_atFifo (h : (⟨fn, addr⟩ : Loc8) = ⟨1, 0⟩) :
    (blkReqOf wr bm fn inc addr count side).atFifo = true := by
  cases h
  rfl

end

/-! ### What a block command answers (R91, R147, R149) -/

/-- The reference device takes the bytes it answers with off its queue, and changes nothing else. -/
theorem blk_queue_read_dev {s : State} {r : BlkReq} {p : List Byte} (hw : r.wr = false) (ha : r.atWindow s.cfg = false)
    (hf : r.atFifo = true) (hd : s.draw 0 = .reference) (hn : r.bytes ≤ s.dev.fifo.length) :
    (s.blk r p).2.dev = { s.dev with fifo := s.dev.fifo.drop r.bytes } := by
  rw [blk_dev, nextDraw_eq_draw, hd]
  simp [blkAnswer, hw, Device.readBlk, ha, hf, hn]

/-- A read of more bytes than are queued fails. -/
theorem blk_queue_short {s : State} {r : BlkReq} {p : List Byte} (hw : r.wr = false) (ha : r.atWindow s.cfg = false)
    (hf : r.atFifo = true) (hd : s.draw 0 = .reference) (hn : s.dev.fifo.length < r.bytes) :
    (s.blk r p).1.ok = false := by
  rw [blk_reply_eq, nextDraw_eq_draw, hd]
  simp [blkAnswer, hw, Device.readBlk, ha, hf, not_le.mpr hn]

/-- The reference device appends a write's bytes to its queue, and changes nothing else. -/
theorem blk_queue_write_dev {s : State} {r : BlkReq} {p : List Byte} (hw : r.wr = true) (ha : r.atWindow s.cfg = false)
    (hf : r.atFifo = true) (hd : s.draw 0 = .reference) :
    (s.blk r p).2.dev = { s.dev with fifo := s.dev.fifo ++ p } := by
  rw [blk_dev, nextDraw_eq_draw, hd]
  simp [blkAnswer, hw, Device.writeBlk, ha, hf]

/-- A block write returns its status and no byte. -/
theorem blk_reply_write {s : State} {r : BlkReq} {p : List Byte} (hw : r.wr = true) :
    (s.blk r p).2.reply = ⟨(s.draw 0).outcome, []⟩ := by
  rw [blk_reply, nextDraw_eq_draw]
  cases s.draw 0 <;> simp [blkAnswer, hw, Draw.outcome]

/-! ### A block read on a free bus (R147, R148) -/

/-- The state after a block read: the transaction made and its answer in the buffer. -/
def afterRead (r : BlkReq) (side : Side) (s : State) : State :=
  (s.blk r []).2.setBuf (s.buf.writeBytes (side.buf.base + side.off) (s.blk r []).1.bytes)

theorem blkCommand_read {s : State} {r : BlkReq} {side : Side} (hw : r.wr = false)
    (hc : countAllowed s.cfg r.count = true) (hl : side.off + r.bytes ≤ side.buf.len) (hb : s.busOwner = none) :
    (blkCommand r side s).outcome = .next (afterRead r side s) := by
  rw [blkCommand_free hc hl hb]
  simp [sent, filled, hw, afterRead]

section
variable {r : BlkReq} {side : Side} {s : State}

/-- A read fills no byte outside the bytes of its count. -/
theorem afterRead_outside {a : Nat}
    (ha : a < side.buf.base + side.off ∨ side.buf.base + side.off + r.bytes ≤ a) :
    (afterRead r side s).buf.read a = s.buf.read a := by
  have hlen : (s.blk r []).1.bytes.length ≤ r.bytes := blkAnswer_length _ _ _ _ _ _
  exact Memory.read_writeBytes_out _ _ _ _ (by omega)

/-- Byte `i` of the answer stands at position `i` of the buffer from the offset on. -/
theorem afterRead_inside (hm : s.buf.wf = true) {ok : Bool} {bs : List Byte} (he : (s.blk r []).1 = ⟨ok, bs⟩) {i : Nat}
    (hi : i < bs.length) : (afterRead r side s).buf.read (side.buf.base + side.off + i) = bs[i] := by
  simp only [afterRead, setBuf_buf, he]
  exact Memory.read_writeBytes_in _ _ _ _ hm hi

/-- A listed answer of as many bytes as are read: they stand in the buffer, and the device is as before. -/
theorem afterRead_scripted (hw : r.wr = false) (hm : s.buf.wf = true) {ok : Bool} {bs : List Byte} {l : Nat}
    (hd : s.draw 0 = .scripted ok bs l) (hlen : bs.length = r.bytes) :
    (afterRead r side s).reply = ⟨ok, bs⟩ ∧ (afterRead r side s).dev = s.dev ∧
      ∀ i (hi : i < bs.length), (afterRead r side s).buf.read (side.buf.base + side.off + i) = bs[i] := by
  have hreply := blk_read_scripted s r [] hw hd
  rw [padded_self _ _ _ hlen] at hreply
  exact ⟨hreply, blk_read_scripted_dev s r [] hw hd, fun i hi => afterRead_inside hm hreply hi⟩

/-- The reference device at the window: the chip's bytes from the window value on (R74, R90). -/
theorem afterRead_window (hw : r.wr = false) (hm : s.buf.wf = true) (hd : s.draw 0 = .reference)
    (ha : r.atWindow s.cfg = true) :
    (afterRead r side s).reply.ok = true ∧ (afterRead r side s).dev = s.dev ∧
      ∀ i, i < r.bytes → (afterRead r side s).buf.read (side.buf.base + side.off + i) =
        s.dev.chip.read (s.dev.window s.cfg + BitVec.ofNat 24 i).toNat := by
  obtain ⟨hreply, hdev⟩ := blk_window_read (p := []) hw ha hd
  refine ⟨congrArg Reply.ok hreply, hdev, fun i hi => ?_⟩
  rw [afterRead_inside hm hreply (by simpa using hi)]
  simp [chipRead]

/-- The reference device at the queue, enough bytes queued: the first ones, which are taken off (R91). -/
theorem afterRead_queue (hw : r.wr = false) (hm : s.buf.wf = true) (hd : s.draw 0 = .reference)
    (ha : r.atWindow s.cfg = false) (hf : r.atFifo = true) (hn : r.bytes ≤ s.dev.fifo.length) :
    (afterRead r side s).reply = ⟨true, s.dev.fifo.take r.bytes⟩ ∧
      (afterRead r side s).dev = { s.dev with fifo := s.dev.fifo.drop r.bytes } ∧
      ∀ i, i < r.bytes → (afterRead r side s).buf.read (side.buf.base + side.off + i) = s.dev.fifo.getD i 0 := by
  have hreply := (blk_queue_read (p := []) hw ha hf hd hn).1
  refine ⟨hreply, blk_queue_read_dev hw ha hf hd hn, fun i hi => ?_⟩
  rw [afterRead_inside hm hreply (by simp; omega)]
  simp [List.getD_eq_getElem?_getD, List.getElem?_eq_getElem (hi.trans_le hn)]

end

/-- Settles O16: the answer's bytes are those the buffer holds; what the answer is depends on who gives it and where. -/
theorem blockReadFillsBuffer : Obligations.BlockReadFillsBuffer := by
  rintro fn inc bm addr count side n base s rfl hc hl hb hm rfl
  have hqueue := blkReqOf_atFifo false bm fn inc addr count side
  refine ⟨_, (exec_blkRead ..).trans (blkCommand_read rfl hc hl hb), by simp [afterRead], rfl, rfl, rfl,
    fun _ ha => afterRead_outside ha, fun ok bs l hd hlen => afterRead_scripted rfl hm hd hlen,
    fun hd ha => afterRead_window rfl hm hd (by simpa using ha), fun hd ha hq => ⟨fun hn => ?_, fun hn => ?_⟩⟩
  · exact afterRead_queue rfl hm hd (by simpa using ha) (hqueue hq) hn
  · exact blk_queue_short rfl (by simpa using ha) (hqueue hq) hd hn

/-! ### A block write on a free bus (R149, R150) -/

theorem blkCommand_write {s : State} {r : BlkReq} {side : Side} (hw : r.wr = true)
    (hc : countAllowed s.cfg r.count = true) (hl : side.off + r.bytes ≤ side.buf.len) (hb : s.busOwner = none) :
    (blkCommand r side s).outcome =
      .next (s.blk r (s.buf.readBytes (side.buf.base + side.off) r.bytes)).2 := by
  rw [blkCommand_free hc hl hb]
  simp only [sent, filled, hw, if_true]
  rw [setBuf_self _ _ (blk_buf _ _ _)]

/-- Settles O17: the payload is the buffer's bytes, and the reference device stores it at the window or queues it. -/
theorem blockWriteSendsBuffer : Obligations.BlockWriteSendsBuffer := by
  rintro fn inc bm addr count side n s rfl hc hl hb
  have hqueue := blkReqOf_atFifo true bm fn inc addr count side
  refine ⟨_, s.buf.readBytes (side.buf.base + side.off) _,
    (exec_blkWrite ..).trans (blkCommand_write rfl hc hl hb), Memory.readBytes_length .., fun i hi => ?_,
    by simp, blk_reply_write rfl, rfl, rfl, rfl, rfl, fun hd ha hchip hn i hi => ?_, fun hd ha hq => ?_⟩
  · simp [Memory.readBytes]
  · rw [blk_window_write rfl (by simpa using ha) (by rw [hd]; rfl)]
    exact read_chipWrite_in _ _ _ hchip (by simpa using hn) i hi
  · exact blk_queue_write_dev rfl (by simpa using ha) (hqueue hq) hd

end Sys2Proof.Machine
end

section
/-! CERTIFICATE. A transfer whose first block command has a count out of range (40_command_encoder.md rule R152,
42_block_transfer.md rule R191): its window writes go out, the command does not. -/

namespace Sys2Proof.Machine

/-! ### A block command of a transfer that is refused (R152) -/

/-- A half whose count is out of range ends the transfer with `E_TRANSPORT` and makes no transaction. -/
theorem blkTurn_data_refused {q : Requester} {f : Half} {s : State}
    (hc : countAllowed s.cfg (halfReq s.cfg (s.ctx q) s.h.blockSize f).count = false) :
    blkTurn q f .data s = .moved (s.raiseTransport q) := by
  have hexec := executeBlock_refused s _ (halfPayload q f s) hc
  have hok : halfOk q f s = false := congrArg (fun x : Reply × State => x.1.ok) hexec
  have hstate : halfState q f s = s := by
    unfold halfState
    rw [hexec]
    exact setBuf_self _ _ (by simp [Memory.writeBytes])
  rw [blkTurn, halfCommand_eq, withBusFor, hc, hok, hstate]
  rfl

/-- A half that is refused at its block command has made its window writes and fails there. -/
theorem run_half_refused {n : Nat} {q : Requester} {f : Half} {s : State}
    (hp : (s.ctx q).phase = .blk f (halfFirst (s.ctx q).args.addr)) (hb : s.busOwner = none) (ho : OkNext s 3)
    (hc : s.cfg.maxCount < (halfReq s.cfg { s.ctx q with phase := .blk f .data } s.h.blockSize f).count) :
    runPhases (n + 4) q s = .next ((halfReady q f s).raiseTransport q) := by
  obtain ⟨m, hrun⟩ := run_half (n := n) hp hb (ho.mono (by unfold halfDraws; split <;> omega))
  have hctx := halfReady_ctx q f s hp
  have hturn : phaseTurn q (halfReady q f s) = .moved ((halfReady q f s).raiseTransport q) := by
    have hdata : phaseTurn q (halfReady q f s) = blkTurn q f .data (halfReady q f s) := by simp [phaseTurn, hctx]
    refine hdata.trans (blkTurn_data_refused (countAllowed_eq_false.mpr fun h => absurd h.2 (not_le.mpr ?_)))
    simpa [hctx] using hc
  rw [hrun, phase_moved (by simp [hctx]) hturn, runPhases_idle _ _ _ (by simp)]

/-- A call of a transfer whose first block command has a count above `MAX_COUNT` (R182, R191). -/
theorem perform_transfer_refused {op : OpSel} {args : Args} {bs : Nat} {s : State} (hop : isTransfer op = true)
    (hr : Ready s) (hbs : s.h.blockSize = some bs) (hlen : roundUp4 args.size ≤ args.buf.len)
    (hmax : s.cfg.maxCount < firstCount bs (roundUp4 args.size)) (ho : OkNext s 3) :
    ∃ t, perform op args s = .next t ∧ t.idle s.cur = true ∧ t.h = s.h ∧ t.buf = s.buf ∧
      t.out = s.out ++ phaseWindow s.cfg args.addr args.addr ++ [.response s.cur (.fail .eTransport)] := by
  obtain ⟨hi, hb⟩ := hr
  obtain ⟨f, hfirst, hcount⟩ := startTransfer_first (q := s.cur) (s := s.load s.cur op args) hbs (by simpa using hlen)
    (by rw [ctx_load_same]; exact (Nat.zero_lt_of_lt hmax).ne')
  have hstart : phaseTurn s.cur (s.load s.cur op args) = startTransfer s.cur (s.load s.cur op args) := by
    simpa [phaseTurn] using startTurn_transfer (by simpa using hop)
  have hrun := run_half_refused (n := 59) (q := s.cur) (f := f)
    (s := (withSplit s.cur bs (s.load s.cur op args)).goto s.cur (.blk f (halfFirst args.addr)))
    (by simp [withSplit]) hb ho (by rw [ctx_goto_same, hcount, ctx_load_same]; exact hmax)
  have hmoved := phase_moved (n := 63) (by simp) (hstart.trans hfirst)
  rw [ctx_load_same] at hmoved
  exact ⟨_, (perform_run hi).trans (hmoved.trans hrun), by simp [withSplit]⟩

/-- Settles O31: a block phase of that many blocks is the transfer's first. -/
theorem oversizedBlockPhaseRefused : Obligations.OversizedBlockPhaseRefused := by
  intro addr buf size bs s hr hbs hlen hmax ho i hi
  have hfirst : firstCount bs (roundUp4 size) = roundUp4 size / bs := if_neg (Nat.zero_lt_of_lt hmax).ne'
  rw [← hfirst] at hmax
  simp only [List.mem_cons, List.not_mem_nil, or_false] at hi
  obtain rfl | rfl := hi
  · exact perform_transfer_refused (op := .blockRead) (args := { Args.zero with addr, buf, size }) rfl hr hbs hlen
      hmax ho
  · exact perform_transfer_refused (op := .blockWrite) (args := { Args.zero with addr, buf, size }) rfl hr hbs hlen
      hmax ho

end Sys2Proof.Machine
end

section
/-! CERTIFICATE. `readReg` and `writeReg` on any answers (41_address_window.md rules R161 to R171): the one command of
the direct range or the four through the window, what the last of them answers and stores, and the first of them that
fails. -/

namespace Sys2Proof.Machine

/-! ### The bytes of a word (R65) -/

theorem wordBytes_getElem (w : Word) {j : Nat} (hj : j < (wordBytes w).length) :
    (wordBytes w)[j] = w.extractLsb' (8 * j) 8 := by
  simp only [wordBytes, List.length_cons, List.length_nil] at hj
  interval_cases j <;> rfl

/-! ### The commands of a register access (R161, R166, R167, R170, R171) -/

/-- The command of one phase of a register access. -/
def regCommand (c : Cfg) (bs : Option Nat) (wr : Bool) (a w : Word) : RegStep → Output
  | .direct => sbOut wr ⟨0, a.extractLsb' 0 17⟩ false (if wr then byteOf w 0 else 0)
  | .win .data => blkOut wr 0 false c.winData.addr 4 bs (regPayload wr w)
  | .win x => sbOut true ⟨0, winAddr c x.index⟩ false (byteOf a x.index)

/-- The phases of a register access from one on. -/
def RegStep.rest : RegStep → List RegStep
  | .direct => [.direct]
  | .win .w0 => [.win .w0, .win .w1, .win .w2, .win .data]
  | .win .w1 => [.win .w1, .win .w2, .win .data]
  | .win .w2 => [.win .w2, .win .data]
  | .win .data => [.win .data]

/-- The commands of a register access from a phase on. -/
def regCommands (c : Cfg) (bs : Option Nat) (wr : Bool) (a w : Word) (st : RegStep) : List Output :=
  st.rest.map (regCommand c bs wr a w)

section
variable (c : Cfg) (bs : Option Nat) (wr : Bool) (a w : Word)

/-- The window writes and the data command, from the first write on. -/
theorem regCommands_windowed :
    regCommands c bs wr a w (.win .w0) = windowOut c a ++ [regCommand c bs wr a w (.win .data)] := by
  simp [regCommands, RegStep.rest, regCommand, WinStep.index, windowOut, winAddr, byteOf]

/-- From its first phase on, `readReg` issues the commands of R166 or R167. -/
theorem regCommands_read : regCommands c bs false a w (regFirst c a) = readRegBus c bs a := by
  unfold regFirst readRegBus
  split
  · rfl
  · exact regCommands_windowed c bs false a w

/-- From its first phase on, `writeReg` issues the commands of R170 or R171. -/
theorem regCommands_write : regCommands c bs true a w (regFirst c a) = writeRegBus c bs a w := by
  unfold regFirst writeRegBus
  split
  · rfl
  · exact regCommands_windowed c bs true a w

/-- A phase's command, then those of the phases after it. -/
theorem regCommands_eq_cons (st : RegStep) :
    ∃ l, regCommands c bs wr a w st = regCommand c bs wr a w st :: l := by
  rcases st with _ | x
  · exact ⟨_, rfl⟩
  · cases x <;> exact ⟨_, rfl⟩

theorem regCommands_win {x : WinStep} (hx : x ≠ .data) :
    regCommands c bs wr a w (.win x) = regCommand c bs wr a w (.win x) :: regCommands c bs wr a w (.win x.next) := by
  cases x
  case data => exact absurd rfl hx
  all_goals rfl

/-- A phase with a further command after its own is a window write. -/
theorem window_of_more_commands {st : RegStep} {k : Nat} (h : k + 1 < (regCommands c bs wr a w st).length) :
    ∃ x, st = .win x ∧ x ≠ .data := by
  rcases st with _ | x
  · simp [regCommands, RegStep.rest] at h
  · refine ⟨x, rfl, ?_⟩
    rintro rfl
    simp [regCommands, RegStep.rest] at h

end

/-! ### One transaction of a register access -/

/-- At the window data port a block command's status is the oracle's, for a read too: the reference device has every
byte there. -/
theorem blk_ok_window {s : State} {r : BlkReq} (p : List Byte) (ha : r.atWindow s.cfg = true) :
    (s.blk r p).1.ok = (s.draw 0).outcome := by
  cases hw : r.wr with
  | true => exact blk_ok_write s r p hw
  | false =>
    cases hd : s.draw 0 with
    | reference => rw [(blk_window_read hw ha hd).1]; rfl
    | scripted ok bs l => rw [blk_read_scripted s r p hw hd]; rfl

section
variable {q : Requester} {wr : Bool} {a w : Word} {st : RegStep} {s : State}

/-- The data command of a windowed access is one transaction: its count is allowed. -/
theorem executeBlock_windowData (hc : s.cfg.wf = true) (p : List Byte) :
    s.executeBlock (windowDataReq s.cfg wr s.h.blockSize) p = s.blk (windowDataReq s.cfg wr s.h.blockSize) p :=
  executeBlock_allowed _ _ _ (windowData_allowed s.cfg wr s.h.blockSize hc)

theorem windowData_ok (hc : s.cfg.wf = true) (p : List Byte) :
    (s.blk (windowDataReq s.cfg wr s.h.blockSize) p).1.ok = (s.draw 0).outcome :=
  blk_ok_window p (windowData_at hc wr _)

/-- A phase of a register access emits its one command. -/
theorem regAccess_out (hc : s.cfg.wf = true) :
    (regAccess q wr a w st s).2.out = s.out ++ [regCommand s.cfg s.h.blockSize wr a w st] := by
  match st with
  | .direct => rw [regAccess_direct_state]; rfl
  | .win .data => rw [regAccess_data_state, executeBlock_windowData hc]; rfl
  | .win .w0 => rw [regAccess_win_state _ _ _ _ _ (by decide)]; rfl
  | .win .w1 => rw [regAccess_win_state _ _ _ _ _ (by decide)]; rfl
  | .win .w2 => rw [regAccess_win_state _ _ _ _ _ (by decide)]; rfl

/-- A transaction that fails fails the access (R162, R302). -/
theorem regAccess_fails (hc : s.cfg.wf = true) (ho : (s.draw 0).outcome = false) :
    (regAccess q wr a w st s).1 = .fail := by
  match st with
  | .direct => simp [regAccess, ho]
  | .win .data => simp [regAccess, executeBlock_windowData hc, windowData_ok hc, ho]
  | .win .w0 | .win .w1 | .win .w2 => simp [regAccess, winWrite, ho]

/-- A window write answered `OK` goes on to the next phase (R161). -/
theorem regAccess_window {x : WinStep} (hx : x ≠ .data) (ho : (s.draw 0).outcome = true) :
    (regAccess q wr a w (.win x) s).1 = .more (.win x.next) := by
  cases x
  case data => exact absurd rfl hx
  all_goals simp [regAccess, winWrite, ho]

/-- The value of a direct access is the byte that came back, zero-extended (R167). -/
theorem regAccess_direct_value (ho : (s.draw 0).outcome = true) :
    (regAccess q wr a w .direct s).1 = .value ((s.sb (directReq wr a w)).1.byte.setWidth 32) := by
  simp [regAccess, ho]

/-- The value of a windowed access is the word of the bytes that came back, or of those sent. -/
theorem regAccess_data_value (hc : s.cfg.wf = true) (ho : (s.draw 0).outcome = true) :
    (regAccess q wr a w (.win .data) s).1 =
      .value (bytesToWord (if wr then regPayload wr w
        else (s.blk (windowDataReq s.cfg wr s.h.blockSize) (regPayload wr w)).1.bytes)) := by
  cases wr <;> simp [regAccess, executeBlock_windowData hc, windowData_ok hc, ho, regPayload]

end

/-! ### One phase of `readReg` or `writeReg` (R165) -/

/-- A requester at phase `st` of a call of `readReg` or `writeReg`, the bus free. -/
structure InReg (q : Requester) (op : OpSel) (args : Args) (st : RegStep) (s : State) : Prop where
  runs : (s.ctx q).op = op
  operands : (s.ctx q).args = args
  phase : (s.ctx q).phase = .reg st
  bus : s.busOwner = none

/-- The transaction of a phase of `readReg` or `writeReg` and what it comes to. -/
def regStep (q : Requester) (op : OpSel) (args : Args) (st : RegStep) (s : State) : Access × State :=
  regAccess q (opWrites op) args.addr args.word st s

/-- The state in which `readReg` or `writeReg` goes on after a transaction: failed, at the next phase, or ended with the
result. -/
def regAfter (q : Requester) (op : OpSel) (t : State) : Access → State
  | .fail => t.raiseTransport q
  | .more r => t.goto q (.reg r)
  | .value v => t.done q (regResult op v)

section
variable {q : Requester} {op : OpSel} {args : Args} {st : RegStep} {s : State}

theorem InReg.turn (h : InReg q op args st s) {x : Access} (hx : (regStep q op args st s).1 = x) :
    phaseTurn q s = .moved (regAfter q op (regStep q op args st s).2 x) := by
  obtain ⟨hop, hargs, hp, hb⟩ := h
  subst hx
  simp only [phaseTurn, hp, regTurn, accessTurn, hop, hargs, regStep]
  rw [withBus_free _ hb]
  generalize regAccess q (opWrites op) args.addr args.word st s = y
  obtain ⟨x, t⟩ := y
  cases x <;> rfl

/-- A phase whose transaction ends the access with a value ends the operation. -/
theorem InReg.ends (h : InReg q op args st s) {v : Word} (hv : (regStep q op args st s).1 = .value v) (n : Nat) :
    runPhases (n + 1) q s = .next ((regStep q op args st s).2.done q (regResult op v)) := by
  rw [phase_moved (by simp [h.phase]) (h.turn hv)]
  exact runPhases_idle _ _ _ (idle_finish ..)

/-- A phase whose transaction fails ends the operation (R162, R304). -/
theorem InReg.fails (h : InReg q op args st s) (hc : s.cfg.wf = true) (ho : (s.draw 0).outcome = false) (n : Nat) :
    runPhases (n + 1) q s = .next ((regStep q op args st s).2.raiseTransport q) := by
  rw [phase_moved (by simp [h.phase]) (h.turn (regAccess_fails hc ho))]
  exact runPhases_idle _ _ _ (idle_raiseTransport ..)

/-- The state after a window write answered `OK`. -/
theorem InReg.next {x : WinStep} (h : InReg q op args (.win x) s) :
    InReg q op args (.win x.next) ((regStep q op args (.win x) s).2.goto q (.reg (.win x.next))) := by
  obtain ⟨hop, -, hargs, -⟩ := regAccess_ctx_fields q (opWrites op) args.addr args.word (.win x) s
  refine ⟨?_, ?_, by simp, ?_⟩
  · simpa [regStep, hop] using h.runs
  · simpa [regStep, hargs] using h.operands
  · simpa [regStep] using h.bus

/-- The first of the remaining transactions that fails ends the operation, with its command and those before it
emitted. -/
theorem InReg.fails_at (h : InReg q op args st s) (hc : s.cfg.wf = true) {k : Nat} (hf : FailsAt s k)
    (hk : k < (regCommands s.cfg s.h.blockSize (opWrites op) args.addr args.word st).length) (n : Nat) :
    ∃ t, runPhases (n + k + 1) q s = .next t ∧ t.idle q = true ∧ t.h = s.h ∧ t.buf = s.buf ∧
      t.out = s.out ++ (regCommands s.cfg s.h.blockSize (opWrites op) args.addr args.word st).take (k + 1) ++
        [.response q (.fail .eTransport)] := by
  obtain ⟨hok, hfail⟩ := hf
  induction k generalizing st s with
  | zero =>
    obtain ⟨l, hl⟩ := regCommands_eq_cons s.cfg s.h.blockSize (opWrites op) args.addr args.word st
    refine ⟨_, h.fails hc hfail n, by simp, by simp [regStep], by simp [regStep], ?_⟩
    simp [regStep, regAccess_out hc, hl]
  | succ k ih =>
    obtain ⟨x, rfl, hx⟩ := window_of_more_commands _ _ _ _ _ hk
    have hmore := regAccess_window (q := q) (wr := opWrites op) (a := args.addr) (w := args.word) hx (hok 0 (by omega))
    have hdraw (j : Nat) :
        ((regStep q op args (.win x) s).2.goto q (.reg (.win x.next))).draw j = s.draw (j + 1) := by
      simp [regStep, regAccess_win_state _ _ _ _ _ hx]
    rw [regCommands_win _ _ _ _ _ hx] at hk ⊢
    obtain ⟨t, ht, hidle, hh, hbuf, hout⟩ := ih h.next (by simpa [regStep] using hc)
      (by simpa [regStep] using hk) (fun j hj => by rw [hdraw]; exact hok (j + 1) (by omega))
      (by rw [hdraw]; exact hfail)
    refine ⟨t, ?_, hidle, by simpa [regStep] using hh, by simpa [regStep] using hbuf, ?_⟩
    · rw [← Nat.add_assoc, phase_moved (by simp [h.phase]) (h.turn hmore)]
      exact ht
    · simpa [regStep, regAccess_out hc] using hout

end

/-! ### A call of `readReg` or `writeReg` -/

/-- The two operations that access a register. -/
def isRegOp (op : OpSel) : Prop := op = .readReg ∨ op = .writeReg

/-- The state in which a call of `readReg` or `writeReg` makes its first transaction. -/
def regStarted (op : OpSel) (args : Args) (s : State) : State :=
  (s.load s.cur op args).goto s.cur (.reg (regFirst s.cfg args.addr))

section
variable {op : OpSel} {args : Args} {s : State}

theorem perform_reg (hop : isRegOp op) (hi : s.idle s.cur = true) :
    perform op args s = runPhases 63 s.cur (regStarted op args s) := by
  have h : phaseTurn s.cur (s.load s.cur op args) = .moved (regStarted op args s) := by
    obtain rfl | rfl := hop <;> simp [phaseTurn, startTurn, startReg, regStarted]
  rw [perform_run hi, phase_moved (by simp) h]

theorem regStarted_inReg (hb : s.busOwner = none) :
    InReg s.cur op args (regFirst s.cfg args.addr) (regStarted op args s) :=
  ⟨by simp [regStarted], by simp [regStarted], by simp [regStarted], hb⟩

/-- A call in the direct range is one transaction, a read of which answers the byte and leaves the device (R167,
R171). -/
theorem perform_direct (hop : isRegOp op) (hr : Ready s) (hd : inDirect s.cfg args.addr = true) (ho : OkNext s 1) :
    ∃ t v, perform op args s = .next t ∧ t.idle s.cur = true ∧ t.h = s.h ∧ t.buf = s.buf ∧
      t.out = s.out ++ [regCommand s.cfg s.h.blockSize (opWrites op) args.addr args.word .direct,
        .response s.cur (.ok (regResult op v))] ∧
      (opWrites op = false → t.dev = s.dev ∧
        v = (s.readAnswer 0 ⟨0, args.addr.extractLsb' 0 17⟩).byte.setWidth 32) := by
  have hin : InReg s.cur op args .direct (regStarted op args s) := by
    simpa [regFirst, hd] using regStarted_inReg (op := op) (args := args) hr.2
  refine ⟨_, ((regStarted op args s).sb (directReq (opWrites op) args.addr args.word)).1.byte.setWidth 32,
    (perform_reg hop hr.1).trans (hin.ends (regAccess_direct_value (ho 0 (by omega))) 62), by simp,
    by simp [regStep, regStarted], by simp [regStep, regStarted], ?_, fun hw => ⟨?_, ?_⟩⟩
  · rw [State.done, finish_out, regStep, regAccess_direct_state, sb_out]
    exact List.append_assoc ..
  · rw [State.done, finish_dev, regStep, regAccess_direct_state]
    exact sb_read_dev _ _ hw
  · rw [hw, sb_reply_eq, nextDraw_eq_draw]
    rfl

/-- A call whose transaction `k` is the first that fails. -/
theorem perform_reg_fails (hop : isRegOp op) (hr : Ready s) (hc : s.cfg.wf = true) {k : Nat} (hf : FailsAt s k)
    {l : List Output}
    (hl : regCommands s.cfg s.h.blockSize (opWrites op) args.addr args.word (regFirst s.cfg args.addr) = l)
    (hk : k < l.length) :
    ∃ t, perform op args s = .next t ∧ t.idle s.cur = true ∧ t.h = s.h ∧ t.buf = s.buf ∧
      t.out = s.out ++ l.take (k + 1) ++ [.response s.cur (.fail .eTransport)] := by
  subst hl
  have hlen : k < 63 := by
    refine lt_of_lt_of_le hk ?_
    unfold regFirst
    split <;> simp [regCommands, RegStep.rest]
  obtain ⟨n, hn⟩ := Nat.exists_eq_add_of_lt hlen
  rw [perform_reg hop hr.1, show 63 = n + k + 1 by omega]
  exact (regStarted_inReg hr.2).fails_at hc hf hk n

/-! ### Through the window, up to the data command and from it -/

/-- The state in which a windowed call issues its data command: after its three window writes. -/
def windowSet (op : OpSel) (args : Args) (s : State) : State :=
  afterWindow s.cur args.addr (fun x => .reg (.win x)) ((s.load s.cur op args).goto s.cur (.reg (.win .w0)))

theorem windowSet_inReg (hb : s.busOwner = none) : InReg s.cur op args (.win .data) (windowSet op args s) :=
  ⟨by simp [windowSet], by simp [windowSet], by simp [windowSet], by simpa [windowSet] using hb⟩

@[simp] theorem windowSet_cfg : (windowSet op args s).cfg = s.cfg := by simp [windowSet]
@[simp] theorem windowSet_h : (windowSet op args s).h = s.h := by simp [windowSet]
@[simp] theorem windowSet_buf : (windowSet op args s).buf = s.buf := by simp [windowSet]
@[simp] theorem windowSet_log : (windowSet op args s).log = s.log := by simp [windowSet]
@[simp] theorem windowSet_chip : (windowSet op args s).dev.chip = s.dev.chip := by simp [windowSet]
@[simp] theorem windowSet_draw (k : Nat) : (windowSet op args s).draw k = s.draw (k + 3) := by simp [windowSet]
@[simp] theorem windowSet_out : (windowSet op args s).out = s.out ++ windowOut s.cfg args.addr := by simp [windowSet]

/-- The window value then is `A[23:0]` (R74, R161). -/
theorem windowSet_window (hc : s.cfg.wf = true) (hf : s.dev.fn.wf = true) (ho : OkNext s 3) :
    (windowSet op args s).dev.window s.cfg = args.addr.extractLsb' 0 24 :=
  afterWindow_window _ _ _ ((s.load s.cur op args).goto s.cur (.reg (.win .w0))) hc hf ho

/-- A windowed call ends with its data command answered `OK` (R166, R170). -/
theorem perform_windowed (hop : isRegOp op) (hr : Ready s) (hc : s.cfg.wf = true)
    (hd : inDirect s.cfg args.addr = false) (ho : OkNext s 4) {v : Word}
    (hv : (regStep s.cur op args (.win .data) (windowSet op args s)).1 = .value v) :
    ∃ t, perform op args s = .next t ∧ t.idle s.cur = true ∧ t.h = s.h ∧ t.buf = s.buf ∧ t.log = s.log ∧
      t.dev = (regStep s.cur op args (.win .data) (windowSet op args s)).2.dev ∧
      t.out = s.out ++ (windowOut s.cfg args.addr ++
        [regCommand s.cfg s.h.blockSize (opWrites op) args.addr args.word (.win .data)]) ++
        [.response s.cur (.ok (regResult op v))] := by
  have hrun := (windowSet_inReg (op := op) (args := args) hr.2).ends hv 59
  refine ⟨_, (perform_window hop hr.1 hr.2 hd (ho.mono (by omega))).trans hrun, ?_⟩
  simp [regStep, regAccess_out, hc]

/-- Four bytes that come back are the value, little-endian (R65, R166). -/
theorem windowSet_read_value (hw : opWrites op = false) (hc : s.cfg.wf = true) {d0 d1 d2 d3 : Byte} {l : Nat}
    (hd : s.draw 3 = .scripted true [d0, d1, d2, d3] l) :
    (regStep s.cur op args (.win .data) (windowSet op args s)).1 = .value (d3 ++ d2 ++ d1 ++ d0) := by
  have hlen (c : Cfg) (bs : Option Nat) : [d0, d1, d2, d3].length = (windowDataReq c false bs).bytes := rfl
  rw [regStep, hw, regAccess_data_value (by simpa using hc) (by simp [hd, Draw.outcome]),
    blk_read_scripted _ _ _ rfl (by simpa using hd), padded_self _ _ _ (hlen _ _)]
  rfl

/-- The word's bytes are written into chip space from `A[23:0]` on (R74, R170). -/
theorem windowSet_write_chip (hw : opWrites op = true) (hc : s.cfg.wf = true) (hf : s.dev.fn.wf = true)
    (ho : OkNext s 4) :
    (regStep s.cur op args (.win .data) (windowSet op args s)).2.dev.chip =
      chipWrite s.dev.chip (args.addr.extractLsb' 0 24) (wordBytes args.word) := by
  have hwc : (windowSet op args s).cfg.wf = true := by simpa using hc
  have hok : ((windowSet op args s).draw 0).outcome = true := by simpa using ho 3 (by omega)
  rw [regStep, hw, regAccess_data_state, executeBlock_windowData hwc, setCtx_dev,
    blk_window_write rfl (windowData_at hwc _ _) hok, windowSet_cfg, windowSet_window hc hf (ho.mono (by omega)),
    windowSet_chip]
  rfl

end

/-! ### The obligations -/

/-- Settles O20: one transaction, a read for `readReg` and a plain write of the low byte for `writeReg`. -/
theorem directRegisterAccess : Obligations.DirectRegisterAccess := by
  intro a w s hr hd ho
  obtain ⟨t, v, ht, hidle, hh, hbuf, hout, hread⟩ :=
    perform_direct (op := .readReg) (args := { Args.zero with addr := a }) (.inl rfl) hr hd ho
  obtain ⟨u, _, hu, hidle', hh', hbuf', hout', -⟩ :=
    perform_direct (op := .writeReg) (args := { Args.zero with addr := a, word := w }) (.inr rfl) hr hd ho
  obtain ⟨hdev, rfl⟩ := hread rfl
  exact ⟨⟨t, ht, hidle, hh, hbuf, hdev, hout⟩, ⟨u, hu, hidle', hh', hbuf', hout'⟩⟩

/-- Settles O21: the three window writes, then the word of the four bytes the data command brings back. -/
theorem windowedReadReg : Obligations.WindowedReadReg := by
  intro a d0 d1 d2 d3 l s hr hc hd ho hdata
  have ho4 : OkNext s 4 := fun k hk => by
    obtain hlt | rfl := Nat.lt_succ_iff_lt_or_eq.mp hk
    · exact ho k hlt
    · rw [hdata]; rfl
  obtain ⟨t, ht, hidle, hh, hbuf, hlog, -, hout⟩ :=
    perform_windowed (op := .readReg) (args := { Args.zero with addr := a }) (.inl rfl) hr hc hd ho4
      (windowSet_read_value rfl hc hdata)
  exact ⟨t, ht, hidle, hh, hbuf, hlog, hout⟩

/-- Settles O23: the data command writes the word's bytes into chip space from the programmed window value on. -/
theorem windowedWriteReg : Obligations.WindowedWriteReg := by
  intro a w s hr hc hf hchip hd ho
  obtain ⟨t, ht, hidle, hh, hbuf, hlog, hdev, hout⟩ :=
    perform_windowed (op := .writeReg) (args := { Args.zero with addr := a, word := w }) (.inr rfl) hr hc hd ho
      (regAccess_data_value (by simpa using hc) (by simpa using ho 3 (by omega)))
  have hstored : t.dev.chip = chipWrite s.dev.chip (a.extractLsb' 0 24) (wordBytes w) :=
    (congrArg Device.chip hdev).trans (windowSet_write_chip rfl hc hf ho)
  have hlen : (wordBytes w).length = 4 := rfl
  refine ⟨t, ht, hidle, hh, hbuf, hlog, hout, fun j hj => ?_, fun k hk => ?_⟩
  · rw [← hlen] at hj
    rw [hstored, read_chipWrite_in _ _ _ hchip (by rw [hlen]; decide) j hj, wordBytes_getElem]
  · rw [hstored]
    exact read_chipWrite_out _ _ _ _ hk

/-- Settles O24: from the first phase on, the first transaction that fails ends the access. -/
theorem registerAccessFailure : Obligations.RegisterAccessFailure := by
  intro a w k s hr hc hf
  exact ⟨perform_reg_fails (op := .readReg) (args := { Args.zero with addr := a }) (.inl rfl) hr hc hf
      (regCommands_read s.cfg s.h.blockSize a 0),
    perform_reg_fails (op := .writeReg) (args := { Args.zero with addr := a, word := w }) (.inr rfl) hr hc hf
      (regCommands_write s.cfg s.h.blockSize a w)⟩

end Sys2Proof.Machine
end

section
/-! CERTIFICATE. The split of a transfer, and the transfers and block commands that end before any bus activity: no
negotiated block size, or a buffer too short for the bytes to move (42_block_transfer.md rules R181 to R186, R192). -/

namespace Sys2Proof.Machine

/-! ### The split (R181, R184, R186) -/

theorem four_dvd_roundUp4 (n : Nat) : 4 ∣ roundUp4 n := Nat.dvd_sub_mod _

theorem le_roundUp4 (n : Nat) : n ≤ roundUp4 n := by
  unfold roundUp4; omega

theorem roundUp4_lt (n : Nat) : roundUp4 n < n + 4 := by
  unfold roundUp4; omega

/-- Settles O25: the rounding, then division with remainder. -/
theorem transferSplit : Obligations.TransferSplit := fun size bs hbs =>
  ⟨four_dvd_roundUp4 size, le_roundUp4 size, roundUp4_lt size, Nat.div_add_mod' (roundUp4 size) bs, Nat.mod_lt _ hbs⟩

/-! ### A transfer that ends at its first phase (R183, R192) -/

/-- A called transfer begins with its split. -/
theorem phaseTurn_load_transfer {op : OpSel} (hop : isTransfer op = true) (q : Requester) (args : Args) (s : State) :
    phaseTurn q (s.load q op args) = startTransfer q (s.load q op args) := by
  simpa [phaseTurn] using startTurn_transfer (s := s.load q op args) (by simpa using hop)

/-- With no negotiated block size a transfer fails at once, whatever its buffer (R183). -/
theorem perform_transfer_unset {op : OpSel} {args : Args} {s : State} (hop : isTransfer op = true)
    (hi : s.idle s.cur = true) (hbs : s.h.blockSize = none) :
    perform op args s = .next ((s.load s.cur op args).raiseTransport s.cur) := by
  have hstart : startTransfer s.cur (s.load s.cur op args) = .moved ((s.load s.cur op args).raiseTransport s.cur) := by
    simp [startTransfer, hbs]
  rw [perform_run hi, phase_moved (n := 63) (by simp) ((phaseTurn_load_transfer hop ..).trans hstart),
    runPhases_idle _ _ _ (by simp)]

/-- With a block size, a transfer whose buffer is shorter than the rounded size is a refused request (R192). -/
theorem perform_transfer_short {op : OpSel} {args : Args} {s : State} {bs : Nat} (hop : isTransfer op = true)
    (hi : s.idle s.cur = true) (hbs : s.h.blockSize = some bs) (hlen : args.buf.len < roundUp4 args.size) :
    perform op args s = .refused .bufferTooShort := by
  have hstart : startTransfer s.cur (s.load s.cur op args) = .refused .bufferTooShort := by
    simp [startTransfer, hbs, hlen]
  rw [perform_run hi]
  exact runPhases_refused (n := 63) (by simp [idle_eq]) ((phaseTurn_load_transfer hop ..).trans hstart)

/-- Settles O30: both transfers fail at their first phase, which touches neither bus nor buffer. -/
theorem transferWithoutBlockSize : Obligations.TransferWithoutBlockSize := by
  intro addr buf size s hi hbs i hmem
  simp only [List.mem_cons, List.not_mem_nil, or_false] at hmem
  obtain rfl | rfl := hmem
  · exact ⟨_, perform_transfer_unset (op := .blockRead) rfl hi hbs, by simp, rfl, rfl, rfl, rfl⟩
  · exact ⟨_, perform_transfer_unset (op := .blockWrite) rfl hi hbs, by simp, rfl, rfl, rfl, rfl⟩

/-! ### A block command with a short buffer (R192) -/

/-- A block command with an allowed count whose buffer ends before its bytes is refused, whoever owns the bus. -/
theorem blkCommand_short {s : State} {r : BlkReq} {side : Side} (hc : countAllowed s.cfg r.count = true)
    (hlen : side.buf.len < side.off + r.bytes) : (blkCommand r side s).outcome = .refused .bufferTooShort := by
  rw [blkCommand, if_pos hc, if_neg (not_le.mpr hlen)]
  rfl

/-- Settles O32: a transfer is refused at its split, a block command before it claims the bus. -/
theorem shortBufferRefused : Obligations.ShortBufferRefused := by
  intro addr buf size bs fn inc a count side s
  refine ⟨fun hi hbs hlen => ⟨?_, ?_⟩, fun hc hlen => ⟨?_, ?_⟩, fun hc hlen => ⟨?_, ?_⟩⟩
  · exact perform_transfer_short (op := .blockRead) rfl hi hbs hlen
  · exact perform_transfer_short (op := .blockWrite) rfl hi hbs hlen
  · exact blkCommand_short (r := blkReqOf false false fn inc a count side) hc hlen
  · exact blkCommand_short (r := blkReqOf true false fn inc a count side) hc hlen
  · exact blkCommand_short (r := blkReqOf false true fn inc a count side) hc hlen
  · exact blkCommand_short (r := blkReqOf true true fn inc a count side) hc hlen

end Sys2Proof.Machine
end

section
/-! SUPPORT. A transfer half by half (42_block_transfer.md rules R184 to R190): the commands of a half, the state at its
block command and after it, what it has moved between the buffer and chip space, and where it ends if one of its
transactions fails. -/

namespace Sys2Proof.Machine

/-! ### What a half moves (R184, R187) -/

/-- The count of a half's block command: whole blocks, then the bytes that remain. -/
def halfCount (bs sz : Nat) : Half → Nat
  | .a => sz / bs
  | .b => sz % bs

/-- The bytes a half moves. -/
def halfBytes (bs sz : Nat) : Half → Nat
  | .a => sz / bs * bs
  | .b => sz % bs

/-- The bytes moved before a half. -/
def halfStart (bs sz : Nat) : Half → Nat
  | .a => 0
  | .b => sz / bs * bs

/-- The part of a transfer's bytes that a half sends. -/
def halfPart (bs sz : Nat) (p : List Byte) : Half → List Byte
  | .a => p.take (sz / bs * bs)
  | .b => p.drop (sz / bs * bs)

/-- The window writes before a half's block command (R182). -/
def windowLen (addr : Word) : Nat := if addr = 0 then 0 else 3

/-- The commands of a half; an empty half has none (R185). -/
def halfOut (c : Cfg) (addr : Word) (wr : Bool) (bs sz : Nat) (p : List Byte) (f : Half) : List Output :=
  if halfCount bs sz f = 0 then []
  else phaseWindow c addr (addr + BitVec.ofNat 32 (halfStart bs sz f)) ++
    [blkOut wr (transferPlace c addr).1 (decide (f = .a)) (transferPlace c addr).2 (halfCount bs sz f) (some bs)
      (halfPart bs sz p f)]

/-- The bytes a transfer sends: the buffer's, for a write (R189). -/
def transferPayload (op : OpSel) (args : Args) (m : Memory) : List Byte :=
  if opWrites op then m.readBytes args.buf.base (roundUp4 args.size) else []

/-- The request of a half's block command. -/
def transferReq (c : Cfg) (op : OpSel) (args : Args) (bs : Nat) (f : Half) : BlkReq :=
  ⟨(transferPlace c args.addr).1, (transferPlace c args.addr).2, opWrites op, decide (f = .a), true,
    halfCount bs (roundUp4 args.size) f, some bs⟩

section
variable (c : Cfg) (op : OpSel) (args : Args) (bs sz : Nat) (f : Half)

theorem halfBytes_eq_zero (h : halfCount bs sz f = 0) : halfBytes bs sz f = 0 := by
  cases f <;> simp_all [halfCount, halfBytes]

theorem halfStart_add_halfBytes_le : halfStart bs sz f + halfBytes bs sz f ≤ sz := by
  have hsplit := Nat.div_add_mod' sz bs
  cases f <;> simp only [halfStart, halfBytes] <;> omega

@[simp] theorem transferReq_wr : (transferReq c op args bs f).wr = opWrites op := rfl
@[simp] theorem transferReq_count : (transferReq c op args bs f).count = halfCount bs (roundUp4 args.size) f := rfl
@[simp] theorem transferReq_bytes : (transferReq c op args bs f).bytes = halfBytes bs (roundUp4 args.size) f := by
  cases f <;> rfl

/-- Through the window a half's block command is at the data port (R182). -/
theorem transferReq_atWindow (hc : c.wf = true) (ha : args.addr ≠ 0) :
    (transferReq c op args bs f).atWindow c = true := by
  rw [BlkReq.atWindow, transferReq, transferPlace, if_neg ha]
  exact beq_iff_eq.mpr (winData_fn hc)

@[simp] theorem phaseWindow_length (a cursor : Word) : (phaseWindow c a cursor).length = windowLen a := by
  unfold phaseWindow windowLen; split <;> rfl

theorem halfOut_length (a : Word) (wr : Bool) (p : List Byte) :
    (halfOut c a wr bs sz p f).length = if halfCount bs sz f = 0 then 0 else windowLen a + 1 := by
  unfold halfOut; split <;> simp

/-- The commands of a transfer are those of its two halves. -/
theorem transferOut_eq_halves (a : Word) (wr : Bool) (p : List Byte) :
    transferOut c a wr bs sz p = halfOut c a wr bs sz p .a ++ halfOut c a wr bs sz p .b := by
  simp [transferOut, halfOut, halfCount, halfStart, halfPart]

/-- The part a half sends is the buffer's bytes from its start on. -/
theorem halfPart_readBytes (m : Memory) (base : Nat) :
    halfPart bs sz (m.readBytes base sz) f = m.readBytes (base + halfStart bs sz f) (halfBytes bs sz f) := by
  have hsplit := Nat.div_add_mod' sz bs
  have hall : m.readBytes base sz = m.readBytes base (sz / bs * bs) ++ m.readBytes (base + sz / bs * bs) (sz % bs) := by
    rw [← Memory.readBytes_add, hsplit]
  cases f <;> simp [halfPart, halfStart, halfBytes, hall]

end

/-! ### A requester in a half -/

/-- A requester in a half of a transfer, the bus free and the counts of the split allowed. -/
structure InHalf (q : Requester) (op : OpSel) (args : Args) (bs : Nat) (f : Half) (u : State) : Prop where
  runs : (u.ctx q).op = op
  operands : (u.ctx q).args = args
  place : TransferAt f bs u (u.ctx q)
  bus : u.busOwner = none
  allowed : ∀ g, halfCount bs (roundUp4 args.size) g ≤ u.cfg.maxCount

/-- The state in which a half begins. -/
def halfEntered (q : Requester) (f : Half) (u : State) : State := u.goto q (.blk f (halfFirst (u.ctx q).args.addr))

/-- The state in which a half issues its block command, its window writes made. -/
def commandReady (q : Requester) (f : Half) (u : State) : State := halfReady q f (halfEntered q f u)

/-- The state after a half's block command; an empty half is skipped (R185). -/
def halfRun (q : Requester) (f : Half) (u : State) : State :=
  if (halfReq u.cfg (u.ctx q) u.h.blockSize f).count = 0 then u else halfState q f (commandReady q f u)

section
variable (q : Requester) (f : Half) (u : State)

@[simp] theorem halfEntered_ctx :
    (halfEntered q f u).ctx q = { u.ctx q with phase := .blk f (halfFirst (u.ctx q).args.addr) } := ctx_goto_same ..
@[simp] theorem halfEntered_cfg : (halfEntered q f u).cfg = u.cfg := rfl
@[simp] theorem halfEntered_h : (halfEntered q f u).h = u.h := rfl
@[simp] theorem halfEntered_busOwner : (halfEntered q f u).busOwner = u.busOwner := rfl
@[simp] theorem halfEntered_log : (halfEntered q f u).log = u.log := rfl
@[simp] theorem halfEntered_buf : (halfEntered q f u).buf = u.buf := rfl
@[simp] theorem halfEntered_dev : (halfEntered q f u).dev = u.dev := rfl
@[simp] theorem halfEntered_out : (halfEntered q f u).out = u.out := rfl
@[simp] theorem halfEntered_draw (k : Nat) : (halfEntered q f u).draw k = u.draw k := rfl

@[simp] theorem commandReady_ctx : (commandReady q f u).ctx q = { u.ctx q with phase := .blk f .data } := by
  rw [commandReady, halfReady_ctx _ _ _ (by simp), halfEntered_ctx]
@[simp] theorem commandReady_cfg : (commandReady q f u).cfg = u.cfg := by simp [commandReady]
@[simp] theorem commandReady_h : (commandReady q f u).h = u.h := by simp [commandReady]
@[simp] theorem commandReady_busOwner : (commandReady q f u).busOwner = u.busOwner := by simp [commandReady]
@[simp] theorem commandReady_log : (commandReady q f u).log = u.log := by simp [commandReady]
@[simp] theorem commandReady_buf : (commandReady q f u).buf = u.buf := by simp [commandReady]
@[simp] theorem commandReady_out :
    (commandReady q f u).out = u.out ++ phaseWindow u.cfg (u.ctx q).args.addr (u.ctx q).wa := by simp [commandReady]
@[simp] theorem commandReady_draw (k : Nat) :
    (commandReady q f u).draw k = u.draw (k + windowLen (u.ctx q).args.addr) := by
  simp [commandReady, halfDraws, windowLen]
@[simp] theorem commandReady_chip : (commandReady q f u).dev.chip = u.dev.chip := by
  unfold commandReady halfReady; split <;> simp

theorem commandReady_fnWf (h : u.dev.fn.wf = true) : (commandReady q f u).dev.fn.wf = true := by
  unfold commandReady halfReady
  split
  · exact h
  · exact sb_fnWf _ (sb_fnWf _ (sb_fnWf _ h))

@[simp] theorem halfState_cfg : (halfState q f u).cfg = u.cfg := by simp [halfState]
@[simp] theorem halfState_busOwner : (halfState q f u).busOwner = u.busOwner := by simp [halfState]
@[simp] theorem halfState_log : (halfState q f u).log = u.log := by simp [halfState]
@[simp] theorem halfState_ctx : (halfState q f u).ctx q = u.ctx q := by simp [halfState]

@[simp] theorem halfRun_cfg : (halfRun q f u).cfg = u.cfg := by unfold halfRun; split <;> simp
@[simp] theorem halfRun_h : (halfRun q f u).h = u.h := by unfold halfRun; split <;> simp
@[simp] theorem halfRun_busOwner : (halfRun q f u).busOwner = u.busOwner := by unfold halfRun; split <;> simp
@[simp] theorem halfRun_log : (halfRun q f u).log = u.log := by unfold halfRun; split <;> simp

/-- A half changes nothing of its requester's context but the phase index. -/
theorem halfRun_ctx : ∃ p, (halfRun q f u).ctx q = { u.ctx q with phase := p } := by
  unfold halfRun
  split
  · exact ⟨_, rfl⟩
  · exact ⟨.blk f .data, by simp⟩

theorem halfRun_fnWf (h : u.dev.fn.wf = true) : (halfRun q f u).dev.fn.wf = true := by
  unfold halfRun
  split
  · exact h
  · exact executeBlock_fnWf _ _ (commandReady_fnWf q f u h)

end

namespace InHalf
variable {q : Requester} {op : OpSel} {args : Args} {bs : Nat} {f : Half} {u : State}

theorem request (h : InHalf q op args bs f u) :
    halfReq u.cfg (u.ctx q) u.h.blockSize f = transferReq u.cfg op args bs f := by
  rw [h.place.blockSize]
  cases f <;>
    simp [halfReq, transferReq, transferPlace, halfCount, h.runs, h.operands, h.place.nblk, h.place.nleft, wholeBlocks,
      remainder, Config.fnData, Config.fnCtrl, apply_ite Prod.fst, apply_ite Prod.snd]

theorem cursor (h : InHalf q op args bs f u) : (u.ctx q).cur = halfStart bs (roundUp4 args.size) f := by
  rw [h.place.cur, h.operands]
  cases f <;> rfl

theorem window (h : InHalf q op args bs f u) (ha : args.addr ≠ 0) :
    (u.ctx q).wa = args.addr + BitVec.ofNat 32 (halfStart bs (roundUp4 args.size) f) := by
  rw [h.place.wa (h.operands ▸ ha), h.operands, h.cursor]

/-- The window writes of a half are those of its cursor. -/
theorem windowWrites (h : InHalf q op args bs f u) : phaseWindow u.cfg (u.ctx q).args.addr (u.ctx q).wa =
    phaseWindow u.cfg args.addr (args.addr + BitVec.ofNat 32 (halfStart bs (roundUp4 args.size) f)) := by
  rw [h.operands]
  unfold phaseWindow
  split
  · rfl
  · rw [h.window ‹_›]

theorem countAllowed (h : InHalf q op args bs f u) (h0 : halfCount bs (roundUp4 args.size) f ≠ 0) :
    countAllowed u.cfg (transferReq u.cfg op args bs f).count = true := by
  simp [Machine.countAllowed, h.allowed f, Nat.one_le_iff_ne_zero, h0]

/-- A half's block command sends its part of the transfer's bytes. -/
theorem payload (h : InHalf q op args bs f u) :
    halfPayload q f u = halfPart bs (roundUp4 args.size) (transferPayload op args u.buf) f := by
  unfold halfPayload transferPayload
  rw [h.request, h.operands, h.cursor, transferReq_wr, transferReq_bytes]
  split
  · exact (halfPart_readBytes ..).symm
  · cases f <;> simp [halfPart]

/-- At its block command a requester is in the same half. -/
theorem ready (h : InHalf q op args bs f u) : InHalf q op args bs f (commandReady q f u) := by
  obtain ⟨hop, hargs, ⟨hbs, hnblk, hnleft, hcur, hwa⟩, hbus, hall⟩ := h
  refine ⟨by simpa using hop, by simpa using hargs, ?_, by simpa using hbus, by simpa using hall⟩
  rw [commandReady_ctx]
  exact ⟨by simpa using hbs, hnblk, hnleft, hcur, hwa⟩

theorem halfRun_eq (h : InHalf q op args bs f u) : halfRun q f u =
    if halfCount bs (roundUp4 args.size) f = 0 then u else halfState q f (commandReady q f u) := by
  rw [halfRun, h.request, transferReq_count]

/-! ### The block command of a half (R188, R189) -/

/-- A half's block command is one transaction. -/
theorem executeBlock_eq (h : InHalf q op args bs f u) (h0 : halfCount bs (roundUp4 args.size) f ≠ 0) :
    u.executeBlock (halfReq u.cfg (u.ctx q) u.h.blockSize f) (halfPayload q f u) =
      u.blk (transferReq u.cfg op args bs f)
        (halfPart bs (roundUp4 args.size) (transferPayload op args u.buf) f) := by
  rw [h.request, h.payload, executeBlock_allowed _ _ _ (h.countAllowed h0)]

theorem halfOk_eq (h : InHalf q op args bs f u) (h0 : halfCount bs (roundUp4 args.size) f ≠ 0) :
    halfOk q f u = (u.blk (transferReq u.cfg op args bs f)
      (halfPart bs (roundUp4 args.size) (transferPayload op args u.buf) f)).1.ok := by
  rw [halfOk, h.executeBlock_eq h0]

theorem halfState_eq (h : InHalf q op args bs f u) (h0 : halfCount bs (roundUp4 args.size) f ≠ 0) :
    halfState q f u =
      (u.blk (transferReq u.cfg op args bs f)
        (halfPart bs (roundUp4 args.size) (transferPayload op args u.buf) f)).2.setBuf
      (if opWrites op then u.buf
       else u.buf.writeBytes (args.buf.base + halfStart bs (roundUp4 args.size) f)
        (u.blk (transferReq u.cfg op args bs f)
          (halfPart bs (roundUp4 args.size) (transferPayload op args u.buf) f)).1.bytes) := by
  rw [halfState, h.executeBlock_eq h0, h.request, h.operands, h.cursor, transferReq_wr]

theorem halfState_out (h : InHalf q op args bs f u) (h0 : halfCount bs (roundUp4 args.size) f ≠ 0) :
    (halfState q f u).out = u.out ++
      [blkOut (opWrites op) (transferPlace u.cfg args.addr).1 (decide (f = .a)) (transferPlace u.cfg args.addr).2
        (halfCount bs (roundUp4 args.size) f) (some bs)
        (halfPart bs (roundUp4 args.size) (transferPayload op args u.buf) f)] := by
  rw [h.halfState_eq h0]
  rfl

theorem halfState_draw (h : InHalf q op args bs f u) (h0 : halfCount bs (roundUp4 args.size) f ≠ 0) (k : Nat) :
    (halfState q f u).draw k = u.draw (k + 1) := by
  rw [h.halfState_eq h0, draw_setBuf, draw_blk]

/-- A transaction that fails fails the half. -/
theorem halfOk_of_fail (h : InHalf q op args bs f u) (h0 : halfCount bs (roundUp4 args.size) f ≠ 0)
    (ho : (u.draw 0).outcome = false) : halfOk q f u = false := by
  rw [h.halfOk_eq h0, blk_reply_eq, nextDraw_eq_draw]
  cases hd : u.draw 0 with
  | reference => simp [hd, Draw.outcome] at ho
  | scripted ok xs l =>
    have hok : ok = false := by simpa [hd, Draw.outcome] using ho
    simp only [blkAnswer, hok]
    split <;> rfl

/-! ### The commands of a half and the answers it takes -/

theorem halfRun_out (h : InHalf q op args bs f u) : (halfRun q f u).out = u.out ++
    halfOut u.cfg args.addr (opWrites op) bs (roundUp4 args.size) (transferPayload op args u.buf) f := by
  rw [h.halfRun_eq, halfOut]
  split
  · simp
  · rw [h.ready.halfState_out ‹_›, commandReady_out, h.windowWrites, commandReady_cfg, commandReady_buf, List.append_assoc]

theorem halfRun_draw (h : InHalf q op args bs f u) (p : List Byte) (k : Nat) : (halfRun q f u).draw k =
    u.draw (k + (halfOut u.cfg args.addr (opWrites op) bs (roundUp4 args.size) p f).length) := by
  rw [h.halfRun_eq, halfOut_length]
  split
  · rfl
  · rw [h.ready.halfState_draw ‹_›, commandReady_draw, h.operands, Nat.add_assoc, Nat.add_comm 1]

end InHalf

end Sys2Proof.Machine
end

section
/-! SUPPORT. How a half runs: to its end on transactions that succeed, and no further than the first that fails
(42_block_transfer.md rules R187, R190). -/

namespace Sys2Proof.Machine

/-! ### A window write that fails (R162, R190) -/

/-- A window write of a half, the bus free. -/
theorem blkTurn_window {q : Requester} {f : Half} {w : WinStep} {u : State} (hw : w ≠ .data) (hb : u.busOwner = none) :
    blkTurn q f w u = .moved
      (if (u.draw 0).outcome then (u.sb (windowReq u.cfg (u.ctx q).wa w.index)).2.goto q (.blk f w.next)
       else (u.sb (windowReq u.cfg (u.ctx q).wa w.index)).2.raiseTransport q) := by
  cases w
  case data => exact absurd rfl hw
  all_goals simp [blkTurn, withBus_free _ hb, winWrite]

/-- A window write's command, then those of the phases after it. -/
theorem windowOut_drop (c : Cfg) (a : Word) {w : WinStep} (hw : w ≠ .data) :
    (windowOut c a).drop w.made =
      .bus ⟨.sb, (windowReq c a w.index).word, none, []⟩ :: (windowOut c a).drop w.next.made := by
  cases w
  case data => exact absurd rfl hw
  all_goals simp [windowOut, WinStep.made, WinStep.next, WinStep.index, sbOut, SbReq.word, windowReq, winAddr, byteOf,
    Config.fnCtrl]

/-- What a requester's half leaves that failed at a window write: nothing but the commands up to it. -/
structure StoppedAtWindow (q : Requester) (sent : List Output) (u t : State) : Prop where
  idle : t.idle q = true
  h : t.h = u.h
  buf : t.buf = u.buf
  chip : t.dev.chip = u.dev.chip
  out : t.out = u.out ++ sent ++ [.response q (.fail .eTransport)]

/-- The first of a half's remaining window writes that fails ends the transfer. -/
theorem window_fails_at {q : Requester} {f : Half} {w : WinStep} {u : State} {k n : Nat}
    (hp : (u.ctx q).phase = .blk f w) (hb : u.busOwner = none) (hf : FailsAt u k)
    (hk : k < ((windowOut u.cfg (u.ctx q).wa).drop w.made).length) :
    ∃ t, runPhases (n + k + 1) q u = .next t ∧
      StoppedAtWindow q (((windowOut u.cfg (u.ctx q).wa).drop w.made).take (k + 1)) u t := by
  obtain ⟨hok, hfail⟩ := hf
  induction k generalizing w u with
  | zero =>
    have hw : w ≠ .data := by rintro rfl; exact absurd hk (Nat.not_lt_zero _)
    have hturn : phaseTurn q u = blkTurn q f w u := by simp [phaseTurn, hp]
    rw [blkTurn_window hw hb, if_neg (by simp [hfail])] at hturn
    rw [phase_moved (by simp [hp]) hturn, windowOut_drop _ _ hw]
    exact ⟨_, runPhases_idle _ _ _ (by simp), by simp, by simp, by simp, by simp [sbAnswer_chip], by simp⟩
  | succ k ih =>
    have hw : w ≠ .data := by rintro rfl; exact absurd hk (Nat.not_lt_zero _)
    have hturn : phaseTurn q u = blkTurn q f w u := by simp [phaseTurn, hp]
    rw [blkTurn_window hw hb, if_pos (hok 0 (by omega))] at hturn
    rw [windowOut_drop _ _ hw] at hk ⊢
    obtain ⟨t, ht, hidle, hh, hbuf, hchip, hout⟩ :=
      ih (u := (u.sb (windowReq u.cfg (u.ctx q).wa w.index)).2.goto q (.blk f w.next)) (w := w.next) (by simp)
        (by simpa using hb) (by simpa using hk) (fun j hj => by simpa using hok (j + 1) (by omega))
        (by simpa using hfail)
    refine ⟨t, ?_, hidle, by simpa using hh, by simpa using hbuf, by simpa [sbAnswer_chip] using hchip, ?_⟩
    · rw [← Nat.add_assoc, phase_moved (by simp [hp]) hturn]
      exact ht
    · simpa using hout

/-! ### The run of a half -/

/-- What a half leaves that failed: no byte changed outside those it moves, none of the buffers by a write, and the chip's
only where the window was programmed (R190). -/
structure HalfFailed (q : Requester) (op : OpSel) (args : Args) (bs : Nat) (f : Half) (u t : State) : Prop where
  idle : t.idle q = true
  h : t.h = u.h
  kept : opWrites op = true → t.buf = u.buf
  outside : SameOutside (args.buf.base + halfStart bs (roundUp4 args.size) f, halfBytes bs (roundUp4 args.size) f)
    u.buf t.buf
  chip : u.cfg.wf = true → u.dev.fn.wf = true → args.addr ≠ 0 → ∀ a,
    ¬ inWindow ((args.addr + BitVec.ofNat 32 (halfStart bs (roundUp4 args.size) f)).extractLsb' 0 24)
      (halfBytes bs (roundUp4 args.size) f) a → t.dev.chip.read a = u.dev.chip.read a

namespace InHalf
variable {q : Requester} {op : OpSel} {args : Args} {bs : Nat} {f : Half} {u : State}

/-- The part a half sends is no longer than what it moves. -/
theorem part_length_le (op : OpSel) (args : Args) (bs : Nat) (f : Half) (m : Memory) :
    (halfPart bs (roundUp4 args.size) (transferPayload op args m) f).length ≤ halfBytes bs (roundUp4 args.size) f := by
  unfold transferPayload
  split
  · rw [halfPart_readBytes, Memory.readBytes_length]
  · cases f <;> simp [halfPart]

/-- At a windowed half's block command the device's window is the half's cursor (R74, R187). -/
theorem window_programmed (h : InHalf q op args bs f u) (hc : u.cfg.wf = true) (hf : u.dev.fn.wf = true)
    (ha : args.addr ≠ 0) (ho : OkNext u 3) : (commandReady q f u).dev.window u.cfg =
      (args.addr + BitVec.ofNat 32 (halfStart bs (roundUp4 args.size) f)).extractLsb' 0 24 := by
  have hready : commandReady q f u = afterWindow q (u.ctx q).wa (.blk f) (halfEntered q f u) := by
    rw [commandReady, halfReady, halfEntered_ctx, if_neg (by simpa [h.operands] using ha)]
  rw [hready, h.window ha]
  exact afterWindow_window q _ (.blk f) (halfEntered q f u) hc hf ho

/-- Outside the bytes a half moves the buffers are as before its block command. -/
theorem halfState_outside (h : InHalf q op args bs f u) (h0 : halfCount bs (roundUp4 args.size) f ≠ 0) :
    SameOutside (args.buf.base + halfStart bs (roundUp4 args.size) f, halfBytes bs (roundUp4 args.size) f)
      u.buf (halfState q f u).buf := by
  rw [h.halfState_eq h0, setBuf_buf]
  split
  · exact fun _ _ => rfl
  · refine sameOutside_writeBytes _ le_rfl (Nat.add_le_add_left ?_ _)
    exact (blkAnswer_length ..).trans (transferReq_bytes ..).le

/-- Outside the bytes a half moves chip space is as before its block command, whatever the answer. -/
theorem halfState_chip_outside (h : InHalf q op args bs f u) (h0 : halfCount bs (roundUp4 args.size) f ≠ 0)
    (hc : u.cfg.wf = true) (ha : args.addr ≠ 0) {a : Nat}
    (hout : ¬ inWindow (u.dev.window u.cfg) (halfBytes bs (roundUp4 args.size) f) a) :
    (halfState q f u).dev.chip.read a = u.dev.chip.read a := by
  have hat := transferReq_atWindow u.cfg op args bs f hc ha
  rw [h.halfState_eq h0, setBuf_dev, blk_dev]
  generalize hp : halfPart bs (roundUp4 args.size) (transferPayload op args u.buf) f = p
  cases hw : opWrites op with
  | false =>
    obtain e | ⟨-, e⟩ := blkAnswer_read_cases u.cfg u.free u.dev (transferReq u.cfg op args bs f) p u.nextDraw hw <;>
      rw [e]
  | true =>
    obtain ⟨m, e⟩ := blkAnswer_write_cases u.cfg u.free u.dev (transferReq u.cfg op args bs f) p u.nextDraw hw
    rw [e, Device.writeBlk, if_pos hat]
    refine read_chipWrite_out _ _ _ _ fun j hj e => hout ⟨j, ?_, e⟩
    have hlen := part_length_le op args bs f u.buf
    rw [hp] at hlen
    rw [List.length_take] at hj
    omega

/-- A half whose window writes succeed makes its block command and goes on or fails with it. -/
theorem runs_command (h : InHalf q op args bs f u) (ho : OkNext u (windowLen args.addr)) (n : Nat) :
    ∃ m, runPhases (n + 4) q (halfEntered q f u) = runPhases (n + m) q
      (if halfOk q f (commandReady q f u) then
        halfDone q f (halfBytes bs (roundUp4 args.size) f) (halfState q f (commandReady q f u))
      else (halfState q f (commandReady q f u)).raiseTransport q) := by
  have hdraws : halfDraws q (halfEntered q f u) = windowLen args.addr := by
    simp [halfDraws, windowLen, h.operands]
  obtain ⟨m, hrun⟩ := run_half (n := n) (q := q) (f := f) (s := halfEntered q f u) (by simp) h.bus (hdraws.symm ▸ ho)
  have hturn : phaseTurn q (commandReady q f u) = blkTurn q f .data (commandReady q f u) := by simp [phaseTurn]
  rw [blkTurn_data h.ready.bus, h.ready.request, transferReq_bytes] at hturn
  have hmoved := phase_moved (n := n + m) (by simp) hturn
  exact ⟨m, hrun.trans hmoved⟩

/-- A half whose transactions succeed runs to the end of its block command. -/
theorem runs_on (h : InHalf q op args bs f u) (h0 : halfCount bs (roundUp4 args.size) f ≠ 0)
    (ho : OkNext u (windowLen args.addr)) (hok : halfOk q f (commandReady q f u) = true) (n : Nat) :
    ∃ m, runPhases (n + 4) q (halfEntered q f u) =
      runPhases (n + m) q (halfDone q f (halfBytes bs (roundUp4 args.size) f) (halfRun q f u)) := by
  obtain ⟨m, hrun⟩ := h.runs_command ho n
  rw [if_pos hok] at hrun
  exact ⟨m, by rw [hrun, h.halfRun_eq, if_neg h0]⟩

/-- A half that fails at a window write. -/
theorem fails_at_window (h : InHalf q op args bs f u) (h0 : halfCount bs (roundUp4 args.size) f ≠ 0) {k : Nat}
    (hf : FailsAt u k) (hk : k < windowLen args.addr) (n : Nat) :
    ∃ t, runPhases (n + 4) q (halfEntered q f u) = .next t ∧ HalfFailed q op args bs f u t ∧
      t.out = u.out ++ (halfOut u.cfg args.addr (opWrites op) bs (roundUp4 args.size) (transferPayload op args u.buf)
        f).take (k + 1) ++ [.response q (.fail .eTransport)] := by
  have ha : args.addr ≠ 0 := by
    intro ha
    rw [windowLen, if_pos ha] at hk
    exact Nat.not_lt_zero _ hk
  rw [windowLen, if_neg ha] at hk
  have hfirst : halfFirst (u.ctx q).args.addr = .w0 := by rw [h.operands, halfFirst, if_neg ha]
  obtain ⟨t, ht, hstop⟩ := window_fails_at (q := q) (f := f) (w := .w0) (u := halfEntered q f u) (k := k)
    (n := n + (3 - k)) (by simp [hfirst]) h.bus hf hk
  rw [show n + (3 - k) + k + 1 = n + 4 by omega] at ht
  refine ⟨t, ht, ⟨hstop.idle, hstop.h, fun _ => hstop.buf, fun a _ => by rw [hstop.buf, halfEntered_buf],
    fun _ _ _ a _ => by rw [hstop.chip, halfEntered_dev]⟩, ?_⟩
  have hlen : (Machine.windowOut u.cfg (u.ctx q).wa).length = 3 := rfl
  rw [hstop.out, halfOut, if_neg h0, ← h.windowWrites, phaseWindow, h.operands, if_neg ha,
    List.take_append_of_le_length (by omega)]
  simp [WinStep.made]

/-- A half that fails at its block command. -/
theorem fails_at_command (h : InHalf q op args bs f u) (h0 : halfCount bs (roundUp4 args.size) f ≠ 0)
    (hf : FailsAt u (windowLen args.addr)) (n : Nat) :
    ∃ t, runPhases (n + 4) q (halfEntered q f u) = .next t ∧ HalfFailed q op args bs f u t ∧
      t.out = u.out ++ halfOut u.cfg args.addr (opWrites op) bs (roundUp4 args.size) (transferPayload op args u.buf)
        f ++ [.response q (.fail .eTransport)] := by
  obtain ⟨hok, hfail⟩ := hf
  obtain ⟨m, hrun⟩ := h.runs_command hok n
  rw [h.ready.halfOk_of_fail h0 (by simpa [h.operands] using hfail), if_neg (by decide)] at hrun
  have hout := h.halfRun_out
  rw [h.halfRun_eq, if_neg h0] at hout
  refine ⟨_, hrun.trans (runPhases_idle _ _ _ (by simp)), ⟨by simp, by simp, fun hw => ?_, ?_,
    fun hc hfn ha a hin => ?_⟩, by rw [raiseTransport_out, hout]⟩
  · simp [h.ready.halfState_eq h0, hw]
  · simpa using h.ready.halfState_outside h0
  · rw [← h.window_programmed hc hfn ha (by rwa [windowLen, if_neg ha] at hok)] at hin
    simpa using h.ready.halfState_chip_outside h0 (by simpa using hc) ha (by simpa using hin)

/-- A half ends at the first of its transactions that fails, with its command and those before it emitted. -/
theorem fails_at (h : InHalf q op args bs f u) {k : Nat} (hf : FailsAt u k) {l : List Output}
    (hl : halfOut u.cfg args.addr (opWrites op) bs (roundUp4 args.size) (transferPayload op args u.buf) f = l)
    (hk : k < l.length) (n : Nat) :
    ∃ t, runPhases (n + 4) q (halfEntered q f u) = .next t ∧ HalfFailed q op args bs f u t ∧
      t.out = u.out ++ l.take (k + 1) ++ [.response q (.fail .eTransport)] := by
  subst hl
  have h0 : halfCount bs (roundUp4 args.size) f ≠ 0 := by
    intro h0
    rw [halfOut_length, if_pos h0] at hk
    exact Nat.not_lt_zero _ hk
  have hlen := halfOut_length u.cfg bs (roundUp4 args.size) f args.addr (opWrites op) (transferPayload op args u.buf)
  rw [if_neg h0] at hlen
  obtain hwin | rfl := Nat.lt_succ_iff_lt_or_eq.mp (hlen ▸ hk)
  · exact h.fails_at_window h0 hf hwin n
  · rw [List.take_of_length_le hlen.le]
    exact h.fails_at_command h0 hf n

end InHalf

end Sys2Proof.Machine
end

section
/-! SUPPORT. A call of a transfer (42_block_transfer.md rules R184 to R190): its two halves one after the other, to the end
on transactions that succeed, or to the first that fails. -/

namespace Sys2Proof.Machine

/-! ### From the call to phase (b) (R184, R187) -/

/-- What a transfer is called with that comes to its split: the caller idle, the bus free, a negotiated block size, a
buffer that holds the rounded size, counts in range. -/
structure TransferCall (op : OpSel) (args : Args) (bs : Nat) (s : State) : Prop where
  transfer : isTransfer op = true
  ready : Ready s
  blockSize : s.h.blockSize = some bs
  fits : roundUp4 args.size ≤ args.buf.len
  allowed : ∀ g, halfCount bs (roundUp4 args.size) g ≤ s.cfg.maxCount

/-- The cursors advance by the bytes moved (R187). -/
def advance (q : Requester) (n : Nat) (u : State) : State :=
  u.setCtx q
    { u.ctx q with
      cur := (u.ctx q).cur + n
      wa := if (u.ctx q).args.addr = 0 then (u.ctx q).wa else (u.ctx q).wa + BitVec.ofNat 32 n }

/-- The state before phase (a): the request accepted and the split made. -/
def firstHalf (op : OpSel) (args : Args) (bs : Nat) (s : State) : State := withSplit s.cur bs (s.load s.cur op args)

/-- The state before phase (b): phase (a) made, or skipped, and the cursors past it. -/
def secondHalf (op : OpSel) (args : Args) (bs : Nat) (s : State) : State :=
  advance s.cur (halfBytes bs (roundUp4 args.size) .a) (halfRun s.cur .a (firstHalf op args bs s))

/-- The state in which a transfer ends whose transactions succeed. -/
def transferred (op : OpSel) (args : Args) (bs : Nat) (s : State) : State :=
  halfRun s.cur .b (secondHalf op args bs s)

/-- A half's transactions succeed, if it has any. -/
def HalfAnswered (q : Requester) (args : Args) (bs : Nat) (f : Half) (u : State) : Prop :=
  halfCount bs (roundUp4 args.size) f ≠ 0 →
    OkNext u (windowLen args.addr) ∧ halfOk q f (commandReady q f u) = true

section
variable (op : OpSel) (args : Args) (bs : Nat) (s : State)

@[simp] theorem firstHalf_cfg : (firstHalf op args bs s).cfg = s.cfg := rfl
@[simp] theorem firstHalf_h : (firstHalf op args bs s).h = s.h := rfl
@[simp] theorem firstHalf_log : (firstHalf op args bs s).log = s.log := rfl
@[simp] theorem firstHalf_buf : (firstHalf op args bs s).buf = s.buf := rfl
@[simp] theorem firstHalf_dev : (firstHalf op args bs s).dev = s.dev := rfl

@[simp] theorem secondHalf_cfg : (secondHalf op args bs s).cfg = s.cfg := by simp [secondHalf, advance]
@[simp] theorem secondHalf_h : (secondHalf op args bs s).h = s.h := by simp [secondHalf, advance]
@[simp] theorem secondHalf_log : (secondHalf op args bs s).log = s.log := by simp [secondHalf, advance]
@[simp] theorem secondHalf_buf :
    (secondHalf op args bs s).buf = (halfRun s.cur .a (firstHalf op args bs s)).buf := rfl
@[simp] theorem secondHalf_dev :
    (secondHalf op args bs s).dev = (halfRun s.cur .a (firstHalf op args bs s)).dev := rfl

theorem secondHalf_fnWf (h : s.dev.fn.wf = true) : (secondHalf op args bs s).dev.fn.wf = true :=
  halfRun_fnWf s.cur .a (firstHalf op args bs s) h

@[simp] theorem transferred_h : (transferred op args bs s).h = s.h := by simp [transferred]
@[simp] theorem transferred_log : (transferred op args bs s).log = s.log := by simp [transferred]

end

/-- An advance by no bytes changes nothing in a context that was written. -/
theorem advance_zero (q : Requester) (c : Ctx) (u : State) : advance q 0 (u.setCtx q c) = u.setCtx q c := by
  simp [advance]

/-- Past phase (a) a requester is in phase (b) (R187). -/
theorem InHalf.advance {q : Requester} {op : OpSel} {args : Args} {bs : Nat} {u : State}
    (h : InHalf q op args bs .a u) :
    InHalf q op args bs .b (advance q (halfBytes bs (roundUp4 args.size) .a) (halfRun q .a u)) := by
  obtain ⟨p, hctx⟩ := halfRun_ctx q .a u
  obtain ⟨hop, hargs, ⟨hbs, hnblk, hnleft, hcur, hwa⟩, hbus, hall⟩ := h
  refine ⟨?_, ?_, ?_, by simpa [Machine.advance] using hbus, by simpa [Machine.advance] using hall⟩
  · simpa [Machine.advance, hctx] using hop
  · simpa [Machine.advance, hctx] using hargs
  · rw [Machine.advance, ctx_setCtx_same, hctx]
    refine ⟨by simpa using hbs, hnblk, hnleft, ?_, fun ha => ?_⟩
    · simp [hcur, halfBytes, hargs, wholeBlocks]
    · dsimp only at ha ⊢
      rw [if_neg ha, hwa ha, hcur]
      simp

namespace TransferCall
variable {op : OpSel} {args : Args} {bs : Nat} {s : State}

theorem firstHalf_inHalf (hs : TransferCall op args bs s) : InHalf s.cur op args bs .a (firstHalf op args bs s) :=
  ⟨by simp [firstHalf, withSplit], by simp [firstHalf, withSplit],
    ⟨hs.blockSize, by simp [firstHalf, withSplit], by simp [firstHalf, withSplit], by simp [firstHalf, withSplit],
      by simp [firstHalf, withSplit]⟩, hs.ready.2, hs.allowed⟩

theorem secondHalf_inHalf (hs : TransferCall op args bs s) : InHalf s.cur op args bs .b (secondHalf op args bs s) :=
  hs.firstHalf_inHalf.advance

/-- The commands emitted before phase (b). -/
theorem secondHalf_out (hs : TransferCall op args bs s) : (secondHalf op args bs s).out = s.out ++
    halfOut s.cfg args.addr (opWrites op) bs (roundUp4 args.size) (transferPayload op args s.buf) .a :=
  hs.firstHalf_inHalf.halfRun_out

theorem secondHalf_draw (hs : TransferCall op args bs s) (p : List Byte) (k : Nat) : (secondHalf op args bs s).draw k =
    s.draw (k + (halfOut s.cfg args.addr (opWrites op) bs (roundUp4 args.size) p .a).length) :=
  hs.firstHalf_inHalf.halfRun_draw p k

/-- The first phase of a call: the split, then phase (a) or, with no whole block, what follows it (R184, R185). -/
theorem perform_split (hs : TransferCall op args bs s) : perform op args s = runPhases 63 s.cur
    (if halfCount bs (roundUp4 args.size) .a = 0 then afterHalfA s.cur (firstHalf op args bs s)
     else halfEntered s.cur .a (firstHalf op args bs s)) := by
  have hstart : startTransfer s.cur (s.load s.cur op args) = .moved
      (if halfCount bs (roundUp4 args.size) .a = 0 then afterHalfA s.cur (firstHalf op args bs s)
       else halfEntered s.cur .a (firstHalf op args bs s)) := by
    simp only [startTransfer, load_h, hs.blockSize, ctx_load_same, if_neg (not_lt.mpr hs.fits)]
    split <;> rename_i h0
    · rw [if_pos (show halfCount bs (roundUp4 args.size) .a = 0 from h0)]
      simp [firstHalf, withSplit, h0]
    · rw [if_neg (show halfCount bs (roundUp4 args.size) .a ≠ 0 from h0)]
      simp [firstHalf, withSplit, halfEntered]
  rw [perform_run hs.ready.1, phase_moved (n := 63) (by simp) ((phaseTurn_load_transfer hs.transfer ..).trans hstart)]

/-- A transfer goes through a phase (a) whose transactions succeed. -/
theorem perform_afterHalfA (hs : TransferCall op args bs s)
    (ha : HalfAnswered s.cur args bs .a (firstHalf op args bs s)) :
    ∃ n, perform op args s = runPhases (n + 4) s.cur (afterHalfA s.cur (secondHalf op args bs s)) := by
  have hin := hs.firstHalf_inHalf
  rw [hs.perform_split]
  by_cases h0 : halfCount bs (roundUp4 args.size) .a = 0
  · have hsame : secondHalf op args bs s = firstHalf op args bs s := by
      rw [secondHalf, hin.halfRun_eq, if_pos h0, halfBytes_eq_zero _ _ _ h0]
      exact advance_zero ..
    exact ⟨59, by rw [if_pos h0, hsame]⟩
  · obtain ⟨hwin, hok⟩ := ha h0
    obtain ⟨m, hrun⟩ := hin.runs_on h0 hwin hok 59
    refine ⟨55 + m, ?_⟩
    rw [if_neg h0, show 55 + m + 4 = 59 + m by omega]
    exact hrun

/-- After phase (a) a transfer ends, or enters phase (b) (R185). -/
theorem afterHalfA_eq (hs : TransferCall op args bs s) : afterHalfA s.cur (secondHalf op args bs s) =
    if halfCount bs (roundUp4 args.size) .b = 0 then (secondHalf op args bs s).done s.cur .unit
    else halfEntered s.cur .b (secondHalf op args bs s) := by
  have hin := hs.secondHalf_inHalf
  have hleft : ((secondHalf op args bs s).ctx s.cur).nleft = halfCount bs (roundUp4 args.size) .b := by
    rw [hin.place.nleft, hin.operands]
    rfl
  rw [afterHalfA, hleft]
  rfl

/-! ### The whole run -/

/-- A transfer whose transactions succeed ends with `OK` (R188, R189). -/
theorem completes (hs : TransferCall op args bs s) (ha : HalfAnswered s.cur args bs .a (firstHalf op args bs s))
    (hb : HalfAnswered s.cur args bs .b (secondHalf op args bs s)) :
    perform op args s = .next ((transferred op args bs s).done s.cur .unit) := by
  have hin := hs.secondHalf_inHalf
  obtain ⟨n, hrun⟩ := hs.perform_afterHalfA ha
  rw [hrun, hs.afterHalfA_eq, transferred]
  by_cases h0 : halfCount bs (roundUp4 args.size) .b = 0
  · rw [if_pos h0, hin.halfRun_eq, if_pos h0]
    exact runPhases_idle _ _ _ (idle_finish ..)
  · obtain ⟨hwin, hok⟩ := hb h0
    obtain ⟨m, hm⟩ := hin.runs_on h0 hwin hok n
    rw [if_neg h0, hm]
    exact runPhases_idle _ _ _ (idle_finish ..)

/-- The bytes a transfer sends in phase (b) are those the buffer held at the call. -/
theorem secondHalf_payload (hs : TransferCall op args bs s) :
    transferPayload op args (secondHalf op args bs s).buf = transferPayload op args s.buf := by
  have hin := hs.firstHalf_inHalf
  unfold transferPayload
  split <;> rename_i hw
  · rw [secondHalf_buf, hin.halfRun_eq]
    split
    · rfl
    · rw [hin.ready.halfState_eq ‹_›, setBuf_buf, if_pos hw, commandReady_buf, firstHalf_buf]
  · rfl

/-- The commands of a transfer whose transactions succeed. -/
theorem transferred_out (hs : TransferCall op args bs s) : (transferred op args bs s).out = s.out ++
    transferOut s.cfg args.addr (opWrites op) bs (roundUp4 args.size) (transferPayload op args s.buf) := by
  rw [transferred, hs.secondHalf_inHalf.halfRun_out, hs.secondHalf_out, secondHalf_cfg, hs.secondHalf_payload,
    transferOut_eq_halves, List.append_assoc]

/-- A transfer ends at the first of its transactions that fails: in phase (a), which then was its first, or in phase (b)
(R190). -/
theorem fails_at (hs : TransferCall op args bs s) {k : Nat} (hf : FailsAt s k) {l : List Output}
    (hl : transferOut s.cfg args.addr (opWrites op) bs (roundUp4 args.size) (transferPayload op args s.buf) = l)
    (hk : k < l.length)
    (ha : windowLen args.addr < k → HalfAnswered s.cur args bs .a (firstHalf op args bs s)) :
    ∃ t, perform op args s = .next t ∧ t.out = s.out ++ l.take (k + 1) ++ [.response s.cur (.fail .eTransport)] ∧
      (HalfFailed s.cur op args bs .a (firstHalf op args bs s) t ∧ k ≤ windowLen args.addr ∨
        HalfFailed s.cur op args bs .b (secondHalf op args bs s) t) := by
  have hin := hs.firstHalf_inHalf
  have hlen := halfOut_length s.cfg bs (roundUp4 args.size) .a args.addr (opWrites op) (transferPayload op args s.buf)
  rw [transferOut_eq_halves] at hl
  generalize hla : halfOut s.cfg args.addr (opWrites op) bs (roundUp4 args.size) (transferPayload op args s.buf) .a = la
    at hl hlen
  subst hl
  by_cases hka : k < la.length
  · have h0 : halfCount bs (roundUp4 args.size) .a ≠ 0 := by
      intro h0
      rw [hlen, if_pos h0] at hka
      exact Nat.not_lt_zero _ hka
    rw [if_neg h0] at hlen
    obtain ⟨t, ht, hleft, hout⟩ := hin.fails_at hf hla hka 59
    rw [List.take_append_of_le_length hka]
    exact ⟨t, by rw [hs.perform_split, if_neg h0]; exact ht, hout, .inl ⟨hleft, by omega⟩⟩
  · have hfirst : HalfAnswered s.cur args bs .a (firstHalf op args bs s) := fun h0 =>
      ha (by rw [if_neg h0] at hlen; omega) h0
    have hdraw (j : Nat) : (secondHalf op args bs s).draw j = s.draw (j + la.length) := by
      rw [hs.secondHalf_draw, hla]
    rw [List.length_append] at hk
    obtain ⟨n, hrun⟩ := hs.perform_afterHalfA hfirst
    obtain ⟨t, ht, hleft, hout⟩ := hs.secondHalf_inHalf.fails_at (k := k - la.length)
      ⟨fun j hj => by rw [hdraw]; exact hf.1 _ (by omega), by
        rw [hdraw, Nat.sub_add_cancel (not_lt.mp hka)]; exact hf.2⟩
      (by rw [hs.secondHalf_payload, secondHalf_cfg]) (by omega) n
    have h0 : halfCount bs (roundUp4 args.size) .b ≠ 0 := by
      intro h0
      rw [halfOut_length, if_pos h0] at hk
      omega
    refine ⟨t, by rw [hrun, hs.afterHalfA_eq, if_neg h0]; exact ht, ?_, .inr hleft⟩
    rw [hout, hs.secondHalf_out, hla, List.take_append, List.take_of_length_le (by omega : la.length ≤ k + 1),
      show k + 1 - la.length = k - la.length + 1 by omega, List.append_assoc]
    simp

end TransferCall

end Sys2Proof.Machine
end

section
/-! CERTIFICATE. What a transfer emits and moves (42_block_transfer.md rules R182 to R190): on any answers, and through the
window on the reference device, where a read returns what a write stored (70_reset_and_hazards.md rule R363). -/

namespace Sys2Proof.Machine

/-! ### Chip bytes that follow one another (R74) -/

theorem chipRead_add (m : Memory) (w : BitVec 24) (n k : Nat) :
    chipRead m w (n + k) = chipRead m w n ++ chipRead m (w + BitVec.ofNat 24 n) k := by
  simp [chipRead, List.range_add, BitVec.add_assoc]

theorem chipWrite_append (m : Memory) (w : BitVec 24) (xs ys : List Byte) :
    chipWrite m w (xs ++ ys) = chipWrite (chipWrite m w xs) (w + BitVec.ofNat 24 xs.length) ys := by
  induction xs generalizing m w with
  | nil => simp [chipWrite]
  | cons x xs ih =>
    simp only [List.cons_append, chipWrite, ih, List.length_cons]
    rw [window_succ]

/-- The window value of a cursor is counted on from the address's (R187). -/
theorem extract_cursor (a : Word) (n : Nat) :
    (a + BitVec.ofNat 32 n).extractLsb' 0 24 = a.extractLsb' 0 24 + BitVec.ofNat 24 n := by
  simpa using extract_add_ofNat a n 0

/-- Window positions less than `2^24` apart are different bytes. -/
theorem not_inWindow_before {w : BitVec 24} {n k j : Nat} (hj : j < n) (hn : n + k ≤ 2 ^ 24) :
    ¬ inWindow (w + BitVec.ofNat 24 n) k (w + BitVec.ofNat 24 j).toNat := by
  rintro ⟨i, hi, he⟩
  refine window_ne (w + BitVec.ofNat 24 j) (n + i - j) (by omega) (by omega) (he.trans ?_)
  simp only [BitVec.add_assoc, ← BitVec.ofNat_add]
  rw [show j + (n + i - j) = n + i by omega]

theorem windowLen_le (a : Word) : windowLen a ≤ 3 := by
  unfold windowLen; split <;> decide

/-- The reference device answers every window write with `OK`. -/
theorem okNext_of_reference {s : State} (h : ∀ k, s.draw k = .reference) (n : Nat) : OkNext s n := fun k _ => by
  rw [h k]; rfl

/-! ### What a half that succeeds moves -/

namespace InHalf
variable {q : Requester} {op : OpSel} {args : Args} {bs : Nat} {f : Half} {u : State}

/-- A write leaves the buffers (R189). -/
theorem halfRun_kept (h : InHalf q op args bs f u) (hw : opWrites op = true) : (halfRun q f u).buf = u.buf := by
  rw [h.halfRun_eq]
  split
  · rfl
  · simp [h.ready.halfState_eq ‹_›, hw]

/-- A half of a write whose transactions are answered `OK` succeeds. -/
theorem answered_write (h : InHalf q op args bs f u) (hw : opWrites op = true)
    (ho : OkNext u (windowLen args.addr + 1)) : HalfAnswered q args bs f u := fun h0 =>
  ⟨ho.mono (Nat.le_succ _), by
    rw [h.ready.halfOk_eq h0, blk_ok_write _ _ _ hw, commandReady_draw, h.operands, Nat.zero_add]
    exact ho _ (Nat.lt_succ_self _)⟩

/-- A half through the window whose transactions are answered `OK` succeeds, a read too: the reference device has every
byte there. -/
theorem answered_window (h : InHalf q op args bs f u) (hc : u.cfg.wf = true) (ha : args.addr ≠ 0)
    (ho : OkNext u (windowLen args.addr + 1)) : HalfAnswered q args bs f u := fun h0 =>
  ⟨ho.mono (Nat.le_succ _), by
    have hat := transferReq_atWindow u.cfg op args bs f hc ha
    rw [← commandReady_cfg q f u] at hat
    rw [h.ready.halfOk_eq h0, blk_ok_window _ hat, commandReady_draw, h.operands, Nat.zero_add]
    exact ho _ (Nat.lt_succ_self _)⟩

/-- A half of a write through the window stores the buffer's bytes in chip space from its cursor on (R74, R189). -/
theorem halfRun_stores (h : InHalf q op args bs f u) (hw : opWrites op = true) (hc : u.cfg.wf = true)
    (hf : u.dev.fn.wf = true) (ha : args.addr ≠ 0) (ho : OkNext u 4) : (halfRun q f u).dev.chip =
      chipWrite u.dev.chip (args.addr.extractLsb' 0 24 + BitVec.ofNat 24 (halfStart bs (roundUp4 args.size) f))
        (u.buf.readBytes (args.buf.base + halfStart bs (roundUp4 args.size) f)
          (halfBytes bs (roundUp4 args.size) f)) := by
  rw [h.halfRun_eq]
  split <;> rename_i h0
  · rw [halfBytes_eq_zero _ _ _ h0]
    rfl
  · have hat := transferReq_atWindow u.cfg op args bs f hc ha
    have hlast : ((commandReady q f u).draw 0).outcome = true := by
      rw [commandReady_draw, h.operands, windowLen, if_neg ha]
      exact ho 3 (by decide)
    rw [h.ready.halfState_eq h0, setBuf_dev, blk_window_write hw (by simpa using hat) hlast, commandReady_cfg,
      h.window_programmed hc hf ha (ho.mono (by decide)), extract_cursor, commandReady_chip, commandReady_buf,
      transferPayload, if_pos hw, halfPart_readBytes]

/-- A half of a read leaves chip space (R90). -/
theorem halfRun_chip_read (h : InHalf q op args bs f u) (hw : opWrites op = false) :
    (halfRun q f u).dev.chip = u.dev.chip := by
  rw [h.halfRun_eq]
  split
  · rfl
  · rw [h.ready.halfState_eq ‹_›, setBuf_dev, blk_dev]
    obtain e | ⟨-, e⟩ := blkAnswer_read_cases (commandReady q f u).cfg (commandReady q f u).free
        (commandReady q f u).dev (transferReq (commandReady q f u).cfg op args bs f) _ (commandReady q f u).nextDraw hw
      <;> rw [e, commandReady_chip]

/-- A half of a read leaves in the buffer, from its start on, what its block command brought back (R188). -/
theorem halfRun_fills (h : InHalf q op args bs f u) (hw : opWrites op = false) {xs : List Byte}
    (hlen : xs.length = halfBytes bs (roundUp4 args.size) f)
    (hx : halfCount bs (roundUp4 args.size) f ≠ 0 →
      ((commandReady q f u).blk (transferReq u.cfg op args bs f) []).1.bytes = xs) :
    (halfRun q f u).buf = u.buf.writeBytes (args.buf.base + halfStart bs (roundUp4 args.size) f) xs := by
  rw [h.halfRun_eq]
  split <;> rename_i h0
  · rw [halfBytes_eq_zero _ _ _ h0] at hlen
    rw [List.length_eq_zero_iff.mp hlen]
    rfl
  · have hpart : halfPart bs (roundUp4 args.size) (transferPayload op args u.buf) f = [] := by
      cases f <;> simp [transferPayload, hw, halfPart]
    rw [h.ready.halfState_eq h0, setBuf_buf, commandReady_cfg, commandReady_buf, hpart, hw, hx h0]
    rfl

/-- A half of a read whose data answer is listed: it succeeds. -/
theorem answered_listed (h : InHalf q op args bs f u) (hw : opWrites op = false) {xs : List Byte}
    (ho : OkNext u (windowLen args.addr))
    (hd : halfCount bs (roundUp4 args.size) f ≠ 0 → ∃ n, u.draw (windowLen args.addr) = .scripted true xs n) :
    HalfAnswered q args bs f u := fun h0 => by
  obtain ⟨n, hn⟩ := hd h0
  refine ⟨ho, ?_⟩
  rw [h.ready.halfOk_eq h0, blk_read_scripted (bs := xs) (l := n) _ _ _ hw
    (by rw [commandReady_draw, h.operands, Nat.zero_add, hn])]

/-- The bytes of a listed data answer are those the half leaves in the buffer. -/
theorem halfRun_fills_listed (h : InHalf q op args bs f u) (hw : opWrites op = false) {xs : List Byte}
    (hlen : xs.length = halfBytes bs (roundUp4 args.size) f)
    (hd : halfCount bs (roundUp4 args.size) f ≠ 0 → ∃ n, u.draw (windowLen args.addr) = .scripted true xs n) :
    (halfRun q f u).buf = u.buf.writeBytes (args.buf.base + halfStart bs (roundUp4 args.size) f) xs := by
  refine h.halfRun_fills hw hlen fun h0 => ?_
  obtain ⟨n, hn⟩ := hd h0
  rw [blk_read_scripted (bs := xs) (l := n) _ _ _ hw (by rw [commandReady_draw, h.operands, Nat.zero_add, hn])]
  exact padded_self _ _ _ (by rw [hlen, transferReq_bytes])

/-- On the reference device a half of a read through the window leaves the chip's bytes from its cursor on in the
buffer (R74, R90). -/
theorem halfRun_fills_chip (h : InHalf q op args bs f u) (hw : opWrites op = false) (hc : u.cfg.wf = true)
    (hf : u.dev.fn.wf = true) (ha : args.addr ≠ 0) (hn : ∀ k, u.draw k = .reference) :
    (halfRun q f u).buf = u.buf.writeBytes (args.buf.base + halfStart bs (roundUp4 args.size) f)
      (chipRead u.dev.chip (args.addr.extractLsb' 0 24 + BitVec.ofNat 24 (halfStart bs (roundUp4 args.size) f))
        (halfBytes bs (roundUp4 args.size) f)) := by
  have hat := transferReq_atWindow u.cfg op args bs f hc ha
  refine h.halfRun_fills hw (chipRead_length ..) fun _ => ?_
  rw [(blk_window_read hw (by simpa using hat) (by rw [commandReady_draw, hn])).1, commandReady_cfg,
    h.window_programmed hc hf ha (okNext_of_reference hn 3), extract_cursor, commandReady_chip, transferReq_bytes]

end InHalf

/-! ### What a transfer that succeeds moves -/

@[simp] theorem draw_finish (s : State) (q : Requester) (a : Answer) (k : Nat) : (s.finish q a).draw k = s.draw k := rfl

namespace TransferCall
variable {op : OpSel} {args : Args} {bs : Nat} {s : State}

/-- Phase (a) takes no more than four answers. -/
theorem secondHalf_okNext (hs : TransferCall op args bs s) {n : Nat} (ho : OkNext s (n + 4)) :
    OkNext (secondHalf op args bs s) n := fun k hk => by
  have hlen := halfOut_length s.cfg bs (roundUp4 args.size) .a args.addr (opWrites op) []
  have h3 := windowLen_le args.addr
  rw [hs.secondHalf_draw []]
  refine ho _ ?_
  rw [hlen]
  split <;> omega

/-- A write leaves the buffers (R189). -/
theorem transferred_kept (hs : TransferCall op args bs s) (hw : opWrites op = true) :
    (transferred op args bs s).buf = s.buf :=
  (hs.secondHalf_inHalf.halfRun_kept hw).trans (hs.firstHalf_inHalf.halfRun_kept hw)

/-- Phase (a) of a write through the window has stored its bytes in chip space from the address on. -/
theorem secondHalf_chip (hs : TransferCall op args bs s) (hw : opWrites op = true) (hc : s.cfg.wf = true)
    (hf : s.dev.fn.wf = true) (ha : args.addr ≠ 0) (ho : OkNext s 4) : (secondHalf op args bs s).dev.chip =
      chipWrite s.dev.chip (args.addr.extractLsb' 0 24)
        (s.buf.readBytes args.buf.base (halfBytes bs (roundUp4 args.size) .a)) := by
  simpa [halfStart] using hs.firstHalf_inHalf.halfRun_stores hw hc hf ha ho

/-- A write through the window has stored the buffer's bytes in chip space from the address on (R189). -/
theorem transferred_chip (hs : TransferCall op args bs s) (hw : opWrites op = true) (hc : s.cfg.wf = true)
    (hf : s.dev.fn.wf = true) (ha : args.addr ≠ 0) (ho : OkNext s 8) : (transferred op args bs s).dev.chip =
      chipWrite s.dev.chip (args.addr.extractLsb' 0 24) (s.buf.readBytes args.buf.base (roundUp4 args.size)) := by
  have hsplit : roundUp4 args.size = halfBytes bs (roundUp4 args.size) .a + halfBytes bs (roundUp4 args.size) .b :=
    (Nat.div_add_mod' _ bs).symm
  rw [transferred, hs.secondHalf_inHalf.halfRun_stores hw (by simpa using hc) (secondHalf_fnWf _ _ _ _ hf) ha
    (hs.secondHalf_okNext ho), hs.secondHalf_chip hw hc hf ha (ho.mono (by decide)), secondHalf_buf,
    hs.firstHalf_inHalf.halfRun_kept hw]
  conv_rhs => rw [hsplit, Memory.readBytes_add, chipWrite_append, Memory.readBytes_length]
  rfl

/-- A read has put the bytes of phase (a), then those of phase (b), into the buffer. -/
theorem transferred_filled {xs ys : List Byte} (hlen : xs.length = halfBytes bs (roundUp4 args.size) .a)
    (hx : (secondHalf op args bs s).buf = s.buf.writeBytes args.buf.base xs)
    (hy : (transferred op args bs s).buf = (secondHalf op args bs s).buf.writeBytes
      (args.buf.base + halfStart bs (roundUp4 args.size) .b) ys) :
    (transferred op args bs s).buf = s.buf.writeBytes args.buf.base (xs ++ ys) := by
  rw [hy, hx, Memory.writeBytes_append, hlen]
  rfl

/-- On the reference device a read through the window has put the chip's bytes from the address on into the buffer. -/
theorem transferred_filled_chip (hs : TransferCall op args bs s) (hw : opWrites op = false) (hc : s.cfg.wf = true)
    (hf : s.dev.fn.wf = true) (ha : args.addr ≠ 0) (hn : ∀ k, s.draw k = .reference) :
    (transferred op args bs s).buf = s.buf.writeBytes args.buf.base
      (chipRead s.dev.chip (args.addr.extractLsb' 0 24) (roundUp4 args.size)) := by
  have hsplit : roundUp4 args.size = halfBytes bs (roundUp4 args.size) .a + halfBytes bs (roundUp4 args.size) .b :=
    (Nat.div_add_mod' _ bs).symm
  have hin := hs.secondHalf_inHalf
  have hfirst := hs.firstHalf_inHalf.halfRun_fills_chip hw hc hf ha hn
  have hsecond := hin.halfRun_fills_chip hw (by simpa using hc) (secondHalf_fnWf _ _ _ _ hf) ha
    (fun k => (hs.secondHalf_draw [] k).trans (hn _))
  rw [secondHalf_dev, hs.firstHalf_inHalf.halfRun_chip_read hw] at hsecond
  conv_rhs => rw [hsplit, chipRead_add]
  exact transferred_filled (chipRead_length ..) (by simpa [halfStart] using hfirst) hsecond

/-! ### The four outcomes of a call -/

/-- A transfer whose transactions succeed: its commands and `OK`, the handle and the log as they were. -/
theorem ends (hs : TransferCall op args bs s) (ha : HalfAnswered s.cur args bs .a (firstHalf op args bs s))
    (hb : HalfAnswered s.cur args bs .b (secondHalf op args bs s)) :
    ∃ t, perform op args s = .next t ∧ t.idle s.cur = true ∧ t.h = s.h ∧ t.log = s.log ∧
      t.out = s.out ++ transferOut s.cfg args.addr (opWrites op) bs (roundUp4 args.size)
        (transferPayload op args s.buf) ++ [.response s.cur (.ok .unit)] ∧ t.buf = (transferred op args bs s).buf := by
  refine ⟨_, hs.completes ha hb, ?_, ?_, ?_, ?_, ?_⟩
  · simp
  · simp
  · simp
  · rw [State.done, finish_out, hs.transferred_out]
  · simp

/-- A write whose transactions are answered `OK` (R189). -/
theorem writes (hs : TransferCall op args bs s) (hw : opWrites op = true) (ho : OkNext s 8) :
    ∃ t, perform op args s = .next t ∧ t.idle s.cur = true ∧ t.h = s.h ∧ t.buf = s.buf ∧ t.log = s.log ∧
      t.out = s.out ++ transferOut s.cfg args.addr true bs (roundUp4 args.size)
        (s.buf.readBytes args.buf.base (roundUp4 args.size)) ++ [.response s.cur (.ok .unit)] := by
  have h3 := windowLen_le args.addr
  obtain ⟨t, ht, hidle, hh, hlog, hout, hbuf⟩ :=
    hs.ends (hs.firstHalf_inHalf.answered_write hw (ho.mono (by omega)))
      (hs.secondHalf_inHalf.answered_write hw (hs.secondHalf_okNext (ho.mono (by omega))))
  rw [hw, transferPayload, if_pos hw] at hout
  exact ⟨t, ht, hidle, hh, hbuf.trans (hs.transferred_kept hw), hlog, hout⟩

/-- A write whose transaction `k` is the first that fails; with a phase (a) that succeeded through the window its bytes
stay in chip space (R190). -/
theorem write_fails_at (hs : TransferCall op args bs s) (hw : opWrites op = true) {k : Nat} (hf : FailsAt s k)
    {l : List Output} (hl : transferOut s.cfg args.addr true bs (roundUp4 args.size)
      (s.buf.readBytes args.buf.base (roundUp4 args.size)) = l) (hk : k < l.length) :
    ∃ t, perform op args s = .next t ∧ t.idle s.cur = true ∧ t.h = s.h ∧ t.buf = s.buf ∧
      t.out = s.out ++ l.take (k + 1) ++ [.response s.cur (.fail .eTransport)] ∧
      (args.addr ≠ 0 → 4 ≤ k → roundUp4 args.size ≤ 2 ^ 24 → s.cfg.wf = true → s.dev.fn.wf = true →
        s.dev.chip.wf = true → ∀ j, j < halfBytes bs (roundUp4 args.size) .a →
          t.dev.chip.read (args.addr.extractLsb' 0 24 + BitVec.ofNat 24 j).toNat =
            s.buf.read (args.buf.base + j)) := by
  have h3 := windowLen_le args.addr
  have hfirst (h : windowLen args.addr < k) := hs.firstHalf_inHalf.answered_write hw (hf.1.mono h)
  obtain ⟨t, ht, hout, ⟨hleft, hka⟩ | hleft⟩ :=
    hs.fails_at hf (by rw [hw, transferPayload, if_pos hw]; exact hl) hk hfirst
  · exact ⟨t, ht, hleft.idle, hleft.h, hleft.kept hw, hout, fun _ hk4 => by omega⟩
  · refine ⟨t, ht, hleft.idle, by simpa using hleft.h, (hleft.kept hw).trans (hs.firstHalf_inHalf.halfRun_kept hw),
      hout, fun ha hk4 hsz hc hfn hchip j hj => ?_⟩
    have hfit := halfStart_add_halfBytes_le bs (roundUp4 args.size) .b
    have hkept := hleft.chip (by simpa using hc) (secondHalf_fnWf _ _ _ _ hfn) ha
      (args.addr.extractLsb' 0 24 + BitVec.ofNat 24 j).toNat
    rw [extract_cursor] at hkept
    rw [hkept (not_inWindow_before hj (hfit.trans hsz)), hs.secondHalf_chip hw hc hfn ha (hf.1.mono hk4),
      read_chipWrite_in _ _ _ hchip _ j (by simpa using hj)]
    · simp [Memory.readBytes]
    · rw [Memory.readBytes_length]
      exact (Nat.le_add_right _ _).trans (hfit.trans hsz)

/-- A read whose window writes are answered `OK` and whose data answers are listed (R188). -/
theorem reads (hs : TransferCall op args bs s) (hw : opWrites op = false) (ho : OkNext s 8) {xs ys : List Byte}
    (hxs : xs.length = halfBytes bs (roundUp4 args.size) .a) (hys : ys.length = halfBytes bs (roundUp4 args.size) .b)
    (hx : halfCount bs (roundUp4 args.size) .a ≠ 0 → ∃ n, s.draw (windowLen args.addr) = .scripted true xs n)
    (hy : halfCount bs (roundUp4 args.size) .b ≠ 0 →
      ∃ n, (secondHalf op args bs s).draw (windowLen args.addr) = .scripted true ys n) :
    ∃ t, perform op args s = .next t ∧ t.idle s.cur = true ∧ t.h = s.h ∧ t.log = s.log ∧
      t.out = s.out ++ transferOut s.cfg args.addr false bs (roundUp4 args.size) [] ++ [.response s.cur (.ok .unit)] ∧
      t.buf = s.buf.writeBytes args.buf.base (xs ++ ys) := by
  have h3 := windowLen_le args.addr
  have hfirst := hs.firstHalf_inHalf
  have hsecond := hs.secondHalf_inHalf
  obtain ⟨t, ht, hidle, hh, hlog, hout, hbuf⟩ := hs.ends (hfirst.answered_listed hw (ho.mono (by omega)) hx)
    (hsecond.answered_listed hw (hs.secondHalf_okNext (ho.mono (by omega))) hy)
  have hx' := hfirst.halfRun_fills_listed hw hxs hx
  have hy' := hsecond.halfRun_fills_listed hw hys hy
  rw [transferPayload, hw] at hout
  exact ⟨t, ht, hidle, hh, hlog, hout, hbuf.trans (transferred_filled hxs hx' hy')⟩

/-- A read whose transaction `k` is the first that fails; the bytes of a phase (a) that succeeded stay in the buffer
(R190). -/
theorem read_fails_at (hs : TransferCall op args bs s) (hw : opWrites op = false) {k : Nat} (hf : FailsAt s k)
    {l : List Output} (hl : transferOut s.cfg args.addr false bs (roundUp4 args.size) [] = l) (hk : k < l.length)
    {xs : List Byte} (hxs : xs.length = halfBytes bs (roundUp4 args.size) .a)
    (hx : windowLen args.addr < k → ∃ n, s.draw (windowLen args.addr) = .scripted true xs n) (hm : s.buf.wf = true) :
    ∃ t, perform op args s = .next t ∧ t.idle s.cur = true ∧ t.h = s.h ∧
      t.out = s.out ++ l.take (k + 1) ++ [.response s.cur (.fail .eTransport)] ∧
      (windowLen args.addr < k → ∀ i, i < halfBytes bs (roundUp4 args.size) .a →
        t.buf.read (args.buf.base + i) = xs.getD i 0) := by
  have hin := hs.firstHalf_inHalf
  have hfirst (h : windowLen args.addr < k) : HalfAnswered s.cur args bs .a (firstHalf op args bs s) :=
    hin.answered_listed hw (hf.1.mono h.le) fun _ => hx h
  obtain ⟨t, ht, hout, ⟨hleft, hka⟩ | hleft⟩ :=
    hs.fails_at hf (by rw [hw, transferPayload, hw]; exact hl) hk hfirst
  · exact ⟨t, ht, hleft.idle, hleft.h, hout, fun h => absurd h (not_lt.mpr hka)⟩
  · refine ⟨t, ht, hleft.idle, by simpa using hleft.h, hout, fun h i hi => ?_⟩
    have hfilled := hin.halfRun_fills_listed hw hxs fun _ => hx h
    rw [hleft.outside (args.buf.base + i) (.inl (Nat.add_lt_add_left hi _)), secondHalf_buf, hfilled, firstHalf_buf,
      halfStart, Nat.add_zero, Memory.read_writeBytes_in _ _ _ _ hm (hxs ▸ hi), List.getD_eq_getElem _ _ (hxs ▸ hi)]

/-- A write through the window on the reference device stores the buffer's bytes from the address on (R74, R189). -/
theorem stores (hs : TransferCall op args bs s) (hw : opWrites op = true) (hc : s.cfg.wf = true)
    (hf : s.dev.fn.wf = true) (ha : args.addr ≠ 0) (hn : ∀ k, s.draw k = .reference) :
    ∃ t, perform op args s = .next t ∧ t.idle s.cur = true ∧ t.h = s.h ∧ t.buf = s.buf ∧ (∀ k, t.draw k = .reference) ∧
      t.dev.fn.wf = true ∧ t.dev.chip =
        chipWrite s.dev.chip (args.addr.extractLsb' 0 24) (s.buf.readBytes args.buf.base (roundUp4 args.size)) := by
  have hok := okNext_of_reference hn
  have hsecond := hs.secondHalf_inHalf
  have hdraw (k : Nat) : (secondHalf op args bs s).draw k = .reference := (hs.secondHalf_draw [] k).trans (hn _)
  refine ⟨_, hs.completes (hs.firstHalf_inHalf.answered_write hw (hok _))
    (hsecond.answered_write hw (okNext_of_reference hdraw _)), ?_, ?_, ?_, fun k => ?_, ?_, ?_⟩
  · simp
  · simp
  · rw [State.done, finish_buf, hs.transferred_kept hw]
  · rw [State.done, draw_finish, transferred, hsecond.halfRun_draw [] k, hdraw]
  · rw [State.done, finish_dev]
    exact halfRun_fnWf _ _ _ (secondHalf_fnWf _ _ _ _ hf)
  · rw [State.done, finish_dev, hs.transferred_chip hw hc hf ha (hok 8)]

/-- A read through the window on the reference device brings back the chip's bytes from the address on (R74, R188). -/
theorem loads (hs : TransferCall op args bs s) (hw : opWrites op = false) (hc : s.cfg.wf = true)
    (hf : s.dev.fn.wf = true) (ha : args.addr ≠ 0) (hn : ∀ k, s.draw k = .reference) :
    ∃ t, perform op args s = .next t ∧ t.buf = s.buf.writeBytes args.buf.base
      (chipRead s.dev.chip (args.addr.extractLsb' 0 24) (roundUp4 args.size)) := by
  have hdraw (k : Nat) : (secondHalf op args bs s).draw k = .reference := (hs.secondHalf_draw [] k).trans (hn _)
  obtain ⟨t, ht, -, -, -, -, hbuf⟩ :=
    hs.ends (hs.firstHalf_inHalf.answered_window hc ha (okNext_of_reference hn _))
      (hs.secondHalf_inHalf.answered_window (by simpa using hc) ha (okNext_of_reference hdraw _))
  exact ⟨t, ht, hbuf.trans (hs.transferred_filled_chip hw hc hf ha hn)⟩

end TransferCall

/-! ### The obligations -/

/-- The counts of a split are in range. -/
theorem halfCount_le {bs sz m : Nat} (ha : sz / bs ≤ m) (hb : sz % bs ≤ m) (f : Half) : halfCount bs sz f ≤ m := by
  cases f
  · exact ha
  · exact hb

/-- Settles O26: each half sends its part of the buffer; where phase (b) fails, its bytes are other chip bytes than those
of phase (a). -/
theorem blockWriteTransactions : Obligations.BlockWriteTransactions := by
  rintro addr buf size bs sz l s hr hbs - rfl hlen hmax hrest hl
  have hs : TransferCall .blockWrite { Args.zero with addr, buf, size } bs s :=
    ⟨rfl, hr, hbs, hlen, halfCount_le hmax hrest⟩
  exact ⟨fun ho => hl ▸ hs.writes rfl ho, fun k hk hf => hs.write_fails_at rfl hf hl.symm hk⟩

/-- Settles O27: each half leaves its data answer in its part of the buffer; where phase (b) fails, the part of phase (a)
is outside what it fills. -/
theorem blockReadTransactions : Obligations.BlockReadTransactions := by
  rintro addr buf size bs sz d xs ys l s hr hbs - hm rfl hlen hmax hrest hl rfl hxs
  have hs : TransferCall .blockRead { Args.zero with addr, buf, size } bs s :=
    ⟨rfl, hr, hbs, hlen, halfCount_le hmax hrest⟩
  refine ⟨fun ho hys hx hy => ?_, fun k hk hf hx => ?_⟩
  · have hdraw (h0 : halfCount bs (roundUp4 size) .b ≠ 0) :
        ∃ n, (secondHalf .blockRead { Args.zero with addr, buf, size } bs s).draw (windowLen addr) =
          .scripted true ys n := by
      obtain ⟨n, hn⟩ := hy h0
      refine ⟨n, (hs.secondHalf_draw [] _).trans (Eq.trans (congrArg s.draw ?_) hn)⟩
      rw [halfOut_length]
      simp only [halfCount, windowLen]
      split_ifs <;> omega
    obtain ⟨t, ht, hidle, hh, hlog, hout, hbuf⟩ := hs.reads rfl ho hxs hys hx hdraw
    have hlen : (xs ++ ys).length = roundUp4 size := by
      rw [List.length_append, hxs, hys]
      exact Nat.div_add_mod' _ bs
    refine ⟨t, ht, hidle, hh, hlog, hl ▸ hout, fun i hi => ?_, exec_sameOutside (i := .blockRead addr buf size) ht⟩
    rw [hbuf, Memory.read_writeBytes_in _ _ _ _ hm (hlen ▸ hi), List.getD_eq_getElem _ _ (hlen ▸ hi)]
  · obtain ⟨t, ht, hidle, hh, hout, hkept⟩ := hs.read_fails_at rfl hf hl.symm hk hxs (fun h => (hx h).2) hm
    exact ⟨t, ht, hidle, hh, hout, hkept, exec_sameOutside (i := .blockRead addr buf size) ht⟩

/-- A block count is below 512 (R9). -/
theorem maxCount_lt {c : Cfg} (h : c.wf = true) : c.maxCount < 512 := by
  have hc : c.countOk = true := by
    simp only [Cfg.wf, Bool.and_eq_true] at h
    exact h.2
  simp only [Cfg.countOk, Bool.and_eq_true, decide_eq_true_eq] at hc
  exact hc.2

/-- Settles O28: the write leaves its bytes in chip space from the address on, and the read brings them back from
there. -/
theorem windowedReadBack : Obligations.WindowedReadBack := by
  intro addr b1 b2 size s hr hc hbs ha hn hf hchip hbuf h1 h2 hmax
  have hrest : roundUp4 size % 512 ≤ s.cfg.maxCount :=
    (Nat.le_of_lt_succ (Nat.mod_lt _ (by decide))).trans (maxCount_ge hc)
  have hw : TransferCall .blockWrite { Args.zero with addr, buf := b1, size } 512 s :=
    ⟨rfl, hr, hbs, h1, halfCount_le hmax hrest⟩
  obtain ⟨t, ht, hidle, hh, hkept, hdraw, hfn, hstored⟩ := hw.stores rfl hc hf ha (draw_of_nil hn)
  have hframe := perform_callFrame ht
  have hcfg := hframe.cfg
  have hread : TransferCall .blockRead { Args.zero with addr, buf := b2, size } 512 t :=
    ⟨rfl, ⟨hframe.cur ▸ hidle, hframe.busOwner.trans hr.2⟩, hh ▸ hbs, h2, hcfg ▸ halfCount_le hmax hrest⟩
  obtain ⟨u, hu, hfilled⟩ := hread.loads rfl (hcfg ▸ hc) hfn ha hdraw
  refine ⟨t, u, ht, hu, fun i hi => ?_⟩
  have hspace : roundUp4 size ≤ 2 ^ 24 := by
    have := maxCount_lt hc
    omega
  have hsent : i < (s.buf.readBytes b1.base (roundUp4 size)).length := by simpa using hi
  have hback : i < (chipRead t.dev.chip (addr.extractLsb' 0 24) (roundUp4 size)).length := by simpa using hi
  calc u.buf.read (b2.base + i)
      = (chipRead t.dev.chip (addr.extractLsb' 0 24) (roundUp4 size))[i] := by
        rw [hfilled]
        exact Memory.read_writeBytes_in _ _ _ _ (hkept ▸ hbuf) hback
    _ = t.dev.chip.read (addr.extractLsb' 0 24 + BitVec.ofNat 24 i).toNat := by simp [chipRead]
    _ = (s.buf.readBytes b1.base (roundUp4 size))[i] := by
        rw [hstored]
        exact read_chipWrite_in _ _ _ hchip (by simpa using hspace) i hsent
    _ = s.buf.read (b1.base + i) := by simp [Memory.readBytes]

end Sys2Proof.Machine
end

section
/-! SUPPORT. An operation that is a row of single-byte transactions (40_command_encoder.md rules R141 to R144,
43_interrupt_status.md): how it runs on any answers, to its answer or to the first transaction that fails. -/

namespace Sys2Proof.Machine

/-! ### Single-byte requests in a row (R89, R101) -/

/-- The command of a single-byte request on the BUS port. -/
def SbReq.output (r : SbReq) : Output := .bus ⟨.sb, r.word, none, []⟩

@[simp] theorem readReq_output (l : Loc8) : (readReq l).output = sbOut false l false 0 := rfl

@[simp] theorem writeReq_output (l : Loc8) (raw : Bool) (v : Byte) :
    (writeReq l raw v).output = sbOut true l raw v := rfl

/-- The device after single-byte requests that were all answered `OK`: it holds what the writes among them sent. -/
def stored (c : Cfg) : Device → List SbReq → Device
  | d, [] => d
  | d, r :: rs => stored c (if r.wr then d.writeSb c r.loc r.data else d) rs

theorem stored_append (c : Cfg) (d : Device) (rs rs' : List SbReq) :
    stored c d (rs ++ rs') = stored c (stored c d rs) rs' := by
  induction rs generalizing d with
  | nil => rfl
  | cons r rs ih => exact ih _

theorem stored_reads (c : Cfg) (d : Device) {rs : List SbReq} (h : ∀ r ∈ rs, r.wr = false) : stored c d rs = d := by
  induction rs with
  | nil => rfl
  | cons r rs ih =>
    simp only [List.forall_mem_cons] at h
    simpa [stored, h.1] using ih h.2

/-- Requests elsewhere than at an acknowledge register leave the status (R92). -/
theorem stored_same {c : Cfg} (d : Device) {rs : List SbReq} (h : ∀ r ∈ rs, r.loc ≠ c.intClrA ∧ r.loc ≠ c.intAckB) :
    SameStatus d (stored c d rs) := by
  induction rs generalizing d with
  | nil => exact .refl d
  | cons r rs ih =>
    simp only [List.forall_mem_cons] at h
    refine SameStatus.trans ?_ (ih _ h.2)
    split
    · exact writeSb_same d _ h.1.1 h.1.2
    · exact .refl d

theorem sb_dev_stored {s : State} (r : SbReq) (ho : (s.draw 0).outcome = true) :
    (s.sb r).2.dev = stored s.cfg s.dev [r] := by
  rw [sb_dev, nextDraw_eq_draw]
  cases hw : r.wr
  · simp [stored, hw, sbAnswer_read]
  · simp [stored, hw, sbAnswer_write _ _ _ _ _ hw ho]

/-- A request answered `FAIL` may have landed all the same (R89). -/
theorem sb_dev_cases (s : State) (r : SbReq) :
    (s.sb r).2.dev = s.dev ∨ (s.sb r).2.dev = stored s.cfg s.dev [r] := by
  rw [sb_dev]
  refine (sbAnswer_cases s.cfg s.free s.dev r s.nextDraw).imp id fun ⟨hw, h⟩ => ?_
  simp [stored, hw, h]

/-! ### Between two transactions, and at the end -/

/-- A state that differs from another in the requesters' contexts at most, as far as an operation's transactions can
tell. -/
structure SameButCtx (b s : State) : Prop where
  cfg : s.cfg = b.cfg
  h : s.h = b.h
  busOwner : s.busOwner = b.busOwner
  log : s.log = b.log
  dev : s.dev = b.dev
  buf : s.buf = b.buf
  out : s.out = b.out
  draws : s.draws = b.draws

theorem SameButCtx.refl (s : State) : SameButCtx s s := ⟨rfl, rfl, rfl, rfl, rfl, rfl, rfl, rfl⟩

theorem SameButCtx.setCtx {b s : State} (h : SameButCtx b s) (q : Requester) (c : Ctx) : SameButCtx b (s.setCtx q c) :=
  ⟨h.cfg, h.h, h.busOwner, h.log, h.dev, h.buf, h.out, h.draws⟩

theorem SameButCtx.goto {b s : State} (h : SameButCtx b s) (q : Requester) (p : Phase) : SameButCtx b (s.goto q p) :=
  h.setCtx q _

theorem SameButCtx.setAcc {b s : State} (h : SameButCtx b s) (q : Requester) (v : Word) : SameButCtx b (s.setAcc q v) :=
  h.setCtx q _

theorem sameButCtx_load (s : State) (q : Requester) (op : OpSel) (args : Args) : SameButCtx s (s.load q op args) :=
  (SameButCtx.refl s).setCtx q _

theorem SameButCtx.draw {b s : State} (h : SameButCtx b s) (k : Nat) : s.draw k = b.draw k := draw_of_eq h.draws k

/-- An operation of `q` has ended with an answer after the outputs `l` and nothing but the device, the log and the
contexts has changed since `b`. -/
structure Ended (q : Requester) (b : State) (l : List Output) (a : Answer) (t : State) : Prop where
  idle : t.idle q = true
  h : t.h = b.h
  buf : t.buf = b.buf
  out : t.out = b.out ++ l ++ [.response q a]

theorem SameButCtx.ended {b s : State} (h : SameButCtx b s) (q : Requester) (a : Answer) :
    Ended q b [] a (s.finish q a) :=
  ⟨idle_finish s q a, h.h, h.buf, by simp [h.out]⟩

theorem SameButCtx.failed {b s : State} (h : SameButCtx b s) (q : Requester) :
    Ended q b [] (.fail .eTransport) (s.raiseTransport q) :=
  ⟨idle_raiseTransport s q, h.h, h.buf, by simp [h.out]⟩

/-- A transaction answered `OK` and those after it, counted from before it. -/
theorem SameButCtx.stored_sb {b s : State} (h : SameButCtx b s) {r : SbReq} (ho : (s.draw 0).outcome = true)
    (rs : List SbReq) : stored (s.sb r).2.cfg (s.sb r).2.dev rs = stored b.cfg b.dev (r :: rs) := by
  rw [sb_dev_stored r ho, sb_cfg, ← stored_append, h.cfg, h.dev]
  rfl

/-- What ended after a transaction ended, counted from before it, after its command too. -/
theorem Ended.after_sb {q : Requester} {b s t : State} {r : SbReq} {l : List Output} {a : Answer}
    (same : SameButCtx b s) (h : Ended q (s.sb r).2 l a t) : Ended q b (r.output :: l) a t :=
  ⟨h.idle, h.h.trans same.h, h.buf.trans same.buf, by simp [h.out, same.out, SbReq.output]⟩

/-! ### The run of single-byte transactions (R28, R302) -/

/-- From `s`, which is `b` but for the contexts, requester `q` makes the transactions `rs` one phase after the other,
each of which ends the operation with a transport failure if it fails; after the last, or from `b` on if there is none,
it has answered `v` and logged `es`. -/
inductive SbRun (q : Requester) (v : Value) (es : List LogEvent) : List SbReq → State → State → Prop
  | ended {b t : State} (answered : Ended q b [] (.ok v) t) (log : t.log = b.log ++ es) (dev : t.dev = b.dev) :
    SbRun q v es [] b t
  | step {b s : State} {r : SbReq} {rs : List SbReq} {ok : Byte → State → State} (same : SameButCtx b s)
    (phase : (s.ctx q).phase ≠ .idle) (turn : phaseTurn q s = sbTurn r (fun t => t.raiseTransport q) ok s)
    (rest : SbRun q v es rs (s.sb r).2 (ok (s.sb r).1.byte (s.sb r).2)) : SbRun q v es (r :: rs) b s

section
variable {q : Requester} {v : Value} {es : List LogEvent} {rs : List SbReq} {b s : State}

theorem SbRun.finish (same : SameButCtx b s) : SbRun q v [] [] b (s.finish q (.ok v)) :=
  .ended (same.ended q _) (by simp [same.log]) same.dev

theorem SbRun.finish_logged (same : SameButCtx b s) (e : LogEvent) :
    SbRun q v [e] [] b ((s.addLog e).finish q (.ok v)) :=
  .ended ⟨idle_finish _ q _, same.h, same.buf, by simp [same.out]⟩ (by simp [same.log]) same.dev

/-- On answers `OK` every transaction is made and the operation answers its value. -/
theorem SbRun.completes (h : SbRun q v es rs b s) (hb : b.busOwner = none) (ho : OkNext b rs.length) {n : Nat}
    (hn : rs.length ≤ n) :
    ∃ t, runPhases n q s = .next t ∧ Ended q b (rs.map SbReq.output) (.ok v) t ∧ t.log = b.log ++ es ∧
      t.dev = stored b.cfg b.dev rs := by
  induction h generalizing n with
  | @ended b t answered log dev => exact ⟨t, runPhases_idle _ _ _ answered.idle, answered, log, dev⟩
  | @step b s r rs ok same phase turn rest ih =>
    obtain ⟨m, rfl⟩ := Nat.exists_eq_add_of_le' hn
    have hok : (s.draw 0).outcome = true := same.draw 0 ▸ ho 0 (Nat.succ_pos _)
    obtain ⟨t, ht, hend, hlog, hdev⟩ := ih (n := m + rs.length) (same.busOwner.trans hb)
      (fun k hk => by simpa [same.draw] using ho (k + 1) (Nat.succ_lt_succ hk)) (Nat.le_add_left _ _)
    refine ⟨t, ?_, hend.after_sb same, hlog.trans (by simp [same.log]), hdev.trans (same.stored_sb hok rs)⟩
    rw [List.length_cons, ← Nat.add_assoc, phase_moved phase (turn.trans (sbTurn_ok (same.busOwner.trans hb) hok))]
    exact ht

/-- The first transaction that fails ends the operation with `E_TRANSPORT`, with its command and those before it
emitted. What the transactions before it stored stays stored, and a failed write may have landed (R89, R304). -/
theorem SbRun.fails_at (h : SbRun q v es rs b s) (hb : b.busOwner = none) {k : Nat} (hk : k < rs.length)
    (hf : FailsAt b k) {n : Nat} (hn : rs.length ≤ n) :
    ∃ t, runPhases n q s = .next t ∧ Ended q b ((rs.map SbReq.output).take (k + 1)) (.fail .eTransport) t ∧
      (t.dev = stored b.cfg b.dev (rs.take k) ∨ t.dev = stored b.cfg b.dev (rs.take (k + 1))) := by
  obtain ⟨hok, hfail⟩ := hf
  induction h generalizing n k with
  | ended => cases hk
  | @step b s r rs ok same phase turn rest ih =>
    obtain ⟨m, rfl⟩ := Nat.exists_eq_add_of_le' hn
    have hfree := same.busOwner.trans hb
    rw [List.length_cons, ← Nat.add_assoc]
    cases k with
    | zero =>
      have hfail' : (s.draw 0).outcome = false := same.draw 0 ▸ hfail
      have hend := (SameButCtx.refl (s.sb r).2).failed q
      refine ⟨(s.sb r).2.raiseTransport q, ?_, hend.after_sb same, ?_⟩
      · rw [phase_moved phase (turn.trans (sbTurn_fail hfree hfail')), runPhases_idle _ _ _ hend.idle]
      · simpa [same.cfg, same.dev, stored] using sb_dev_cases s r
    | succ k =>
      have hok' : (s.draw 0).outcome = true := same.draw 0 ▸ hok 0 (Nat.succ_pos _)
      obtain ⟨t, ht, hend, hdev⟩ := ih (n := m + rs.length) hfree (Nat.lt_of_succ_lt_succ hk) (Nat.le_add_left _ _)
        (fun j hj => by simpa [same.draw] using hok (j + 1) (Nat.succ_lt_succ hj)) (by simpa [same.draw] using hfail)
      refine ⟨t, (phase_moved phase (turn.trans (sbTurn_ok hfree hok'))).trans ht, hend.after_sb same, ?_⟩
      rwa [same.stored_sb hok', same.stored_sb hok'] at hdev

/-- Whatever is answered, and whoever owns the bus, no command but those of the run is emitted. -/
theorem SbRun.emits_only (h : SbRun q v es rs b s) {n : Nat} {t : State} (ht : runPhases n q s = .next t) :
    ∃ l, t.out = b.out ++ l ∧ ∀ c, Output.bus c ∈ l → Output.bus c ∈ rs.map SbReq.output := by
  induction h generalizing n with
  | ended answered =>
    rw [runPhases_idle _ _ _ answered.idle] at ht
    cases ht
    exact ⟨_, by rw [answered.out, List.append_assoc], by simp⟩
  | @step b s r rs ok same phase turn rest ih =>
    have hidle : s.idle q = false := by simpa [idle_eq] using phase
    cases n with
    | zero => simp [runPhases, hidle] at ht
    | succ n =>
      by_cases hb : s.busOwner = none
      · cases hok : (s.draw 0).outcome with
        | true =>
          rw [phase_moved phase (turn.trans (sbTurn_ok hb hok))] at ht
          obtain ⟨l, hl, hmem⟩ := ih ht
          refine ⟨r.output :: l, by simp [hl, same.out, SbReq.output], fun c hc => ?_⟩
          exact (List.mem_cons.mp hc).elim (fun e => e ▸ List.mem_cons_self ..)
            fun hc => List.mem_cons_of_mem _ (hmem c hc)
        | false =>
          rw [phase_moved phase (turn.trans (sbTurn_fail hb hok)), runPhases_idle _ _ _ (idle_raiseTransport ..)] at ht
          cases ht
          refine ⟨[r.output, .response q (.fail .eTransport)], by simp [same.out, SbReq.output], fun c hc => ?_⟩
          have hc : Output.bus c = r.output := by simpa using hc
          exact hc ▸ List.mem_cons_self ..
      · rw [runPhases_held hidle (turn.trans (sbTurn_busy hb))] at ht
        cases ht
        exact ⟨[], by simp [same.out], by simp⟩

end

/-! ### A call that is such a run -/

/-- A call by the current requester goes on from its first phase with the transactions `rs`. -/
def SbCall (op : OpSel) (args : Args) (s : State) (v : Value) (es : List LogEvent) (rs : List SbReq) : Prop :=
  ∃ u, phaseTurn s.cur (s.load s.cur op args) = .moved u ∧ SbRun s.cur v es rs s u

/-- A call runs on from the state its first phase leaves. -/
theorem perform_from {op : OpSel} {args : Args} {s u : State} (hi : s.idle s.cur = true)
    (h : phaseTurn s.cur (s.load s.cur op args) = .moved u) : perform op args s = runPhases 63 s.cur u := by
  rw [perform_run hi, phase_moved (by simp) h]

section
variable {op : OpSel} {args : Args} {s : State} {v : Value} {es : List LogEvent} {rs : List SbReq}

theorem SbCall.completes (h : SbCall op args s v es rs) (hr : Ready s) (ho : OkNext s rs.length)
    (hn : rs.length ≤ 63) :
    ∃ t, perform op args s = .next t ∧ Ended s.cur s (rs.map SbReq.output) (.ok v) t ∧ t.log = s.log ++ es ∧
      t.dev = stored s.cfg s.dev rs := by
  obtain ⟨u, hu, hrun⟩ := h
  rw [perform_from hr.1 hu]
  exact hrun.completes hr.2 ho hn

theorem SbCall.fails_at (h : SbCall op args s v es rs) (hr : Ready s) (hn : rs.length ≤ 63) {k : Nat}
    (hk : k < rs.length) (hf : FailsAt s k) :
    ∃ t, perform op args s = .next t ∧ Ended s.cur s ((rs.map SbReq.output).take (k + 1)) (.fail .eTransport) t ∧
      (t.dev = stored s.cfg s.dev (rs.take k) ∨ t.dev = stored s.cfg s.dev (rs.take (k + 1))) := by
  obtain ⟨u, hu, hrun⟩ := h
  rw [perform_from hr.1 hu]
  exact hrun.fails_at hr.2 hk hf hn

/-- A call with no transaction to make ends whoever owns the bus. -/
theorem SbCall.ends (h : SbCall op args s v es []) (hi : s.idle s.cur = true) :
    ∃ t, perform op args s = .next t ∧ Ended s.cur s [] (.ok v) t ∧ t.log = s.log ++ es ∧ t.dev = s.dev := by
  obtain ⟨u, hu, ⟨hend, hlog, hdev⟩⟩ := h
  exact ⟨u, (perform_from hi hu).trans (runPhases_idle _ _ _ hend.idle), hend, hlog, hdev⟩

theorem SbCall.emits_only (h : SbCall op args s v es rs) (hi : s.idle s.cur = true) {t : State}
    (ht : perform op args s = .next t) :
    ∃ l, t.out = s.out ++ l ∧ ∀ c, Output.bus c ∈ l → Output.bus c ∈ rs.map SbReq.output := by
  obtain ⟨u, hu, hrun⟩ := h
  rw [perform_from hi hu] at ht
  exact hrun.emits_only ht

end

end Sys2Proof.Machine
end

section
/-! CERTIFICATE. `readPendingSize` and `readInterruptStatus` (43_interrupt_status.md rules R200 to R214): the reads of
each and the value put together from their answers; the requests an unknown variant refuses (R213, R225, R257). -/

namespace Sys2Proof.Machine

/-! ### The count and the flags of a status value (R33, R201, R206, R207, R210) -/

/-- The accumulator's low byte is the byte put into it. -/
@[simp] theorem extractLsb'_setWidth_byte (d : Byte) : (d.setWidth 32).extractLsb' 0 8 = d := by
  rw [← BitVec.setWidth_eq_extractLsb' (by decide), BitVec.setWidth_setWidth_of_le _ (by decide), BitVec.setWidth_eq]

theorem dmaCount_eq (lo hi : Byte) : dmaCount lo hi = hi ++ lo := by
  rw [BitVec.append_def, BitVec.shiftLeftZeroExtend_eq, BitVec.setWidth'_eq]
  rfl

/-- Sixteen bits above the two count bytes. -/
theorem count_or_shifted (f : BitVec 16) (hi lo : Byte) :
    (hi ++ lo).setWidth 32 ||| f.setWidth 32 <<< 16 = f ++ hi ++ lo := by
  rw [BitVec.append_assoc, BitVec.cast_eq, BitVec.append_def f, BitVec.shiftLeftZeroExtend_eq, BitVec.setWidth'_eq,
    BitVec.or_comm]

/-- A flag register under a mask of five bits has its five flags at most. -/
theorem masked_flags (d : Byte) (m : BitVec 5) :
    (d &&& m.setWidth 8).setWidth 32 = (0#11 ++ (d.setWidth 5 &&& m)).setWidth 32 := by
  apply BitVec.eq_of_getLsbD_eq
  intro i hi
  rw [BitVec.getLsbD_setWidth, BitVec.getLsbD_setWidth, BitVec.getLsbD_append]
  by_cases h : i < 5
  · simp [h, show i < 8 by omega]
  · simp [h, BitVec.getLsbD_of_ge m i (by omega)]

theorem statusGpio_eq (hi lo d : Byte) (m : BitVec 5) :
    statusGpio ((hi ++ lo).setWidth 32) d (m.setWidth 8) = 0#11 ++ (d.setWidth 5 &&& m) ++ hi ++ lo := by
  rw [statusGpio, masked_flags, count_or_shifted]

/-- Register bits 0, 2, 3, 4, 5 are flags 0 to 4, for each of the 256 bytes (R210). -/
theorem statusRegFlags_eq (d : Byte) :
    statusRegFlags d = (0#11 ++ BitVec.ofBool (d.getLsbD 5) ++ BitVec.ofBool (d.getLsbD 4) ++
      BitVec.ofBool (d.getLsbD 3) ++ BitVec.ofBool (d.getLsbD 2) ++ BitVec.ofBool (d.getLsbD 0)).setWidth 32 <<< 16 := by
  revert d
  decide

theorem statusReg_eq (hi lo d : Byte) :
    statusReg ((hi ++ lo).setWidth 32) d = 0#11 ++ BitVec.ofBool (d.getLsbD 5) ++ BitVec.ofBool (d.getLsbD 4) ++
      BitVec.ofBool (d.getLsbD 3) ++ BitVec.ofBool (d.getLsbD 2) ++ BitVec.ofBool (d.getLsbD 0) ++ hi ++ lo := by
  rw [statusReg, statusRegFlags_eq, count_or_shifted]

theorem hasUnexpected_iff {n : Nat} {w : Word} :
    hasUnexpected n w = true ↔ ∃ i, n ≤ i ∧ i ≤ 4 ∧ w.getLsbD (16 + i) = true := by
  simp only [hasUnexpected, List.any_eq_true, List.mem_range, Bool.and_eq_true, decide_eq_true_eq]
  exact exists_congr fun i => ⟨fun ⟨h5, hn, hw⟩ => ⟨hn, Nat.le_of_lt_succ h5, hw⟩,
    fun ⟨hn, h4, hw⟩ => ⟨Nat.lt_succ_of_le h4, hn, hw⟩⟩

/-! ### The answers to reads in a row (R88, R142) -/

theorem sb_readReq_reply (s : State) (l : Loc8) : (s.sb (readReq l)).1 = s.readAnswer 0 l := by
  rw [sb_reply_eq, nextDraw_eq_draw]
  rfl

section
variable (s : State) (k : Nat) (l : Loc8)

/-- A read leaves what the reads after it answer. -/
@[simp] theorem readAnswer_sb_read (l' : Loc8) : (s.sb (readReq l')).2.readAnswer k l = s.readAnswer (k + 1) l := by
  simp only [State.readAnswer, sb_cfg, sb_free, draw_sb, sb_read_dev s (readReq l') rfl]
  rw [Nat.add_right_comm, Nat.add_assoc]

@[simp] theorem readAnswer_goto (q : Requester) (p : Phase) : (s.goto q p).readAnswer k l = s.readAnswer k l := rfl
@[simp] theorem readAnswer_setAcc (q : Requester) (v : Word) : (s.setAcc q v).readAnswer k l = s.readAnswer k l := rfl
@[simp] theorem readAnswer_load (q : Requester) (op : OpSel) (args : Args) :
    (s.load q op args).readAnswer k l = s.readAnswer k l := rfl

end

/-! ### The two count reads (R201) -/

/-- The count of the next two answers, the low byte first. -/
def State.countAnswer (s : State) : BitVec 16 :=
  (s.readAnswer 1 s.cfg.dmaCntHi).byte ++ (s.readAnswer 0 s.cfg.dmaCntLo).byte

@[simp] theorem countAnswer_goto (s : State) (q : Requester) (p : Phase) : (s.goto q p).countAnswer = s.countAnswer :=
  rfl
@[simp] theorem countAnswer_load (s : State) (q : Requester) (op : OpSel) (args : Args) :
    (s.load q op args).countAnswer = s.countAnswer := rfl

/-- The state in which the high count byte is read: the low byte stands in the accumulator. -/
def lowRead (q : Requester) (s : State) : State :=
  ((s.sb (readReq s.cfg.dmaCntLo)).2.setAcc q ((s.readAnswer 0 s.cfg.dmaCntLo).byte.setWidth 32)).goto q .count1

/-- The state after the two count reads. -/
def countRead (q : Requester) (s : State) : State := ((lowRead q s).sb (readReq s.cfg.dmaCntHi)).2

/-- What follows the two count reads: `readPendingSize` answers the count, `readInterruptStatus` reads its flags. -/
def afterCount (q : Requester) (n : BitVec 16) (s : State) : State :=
  if (s.ctx q).op = .readPendingSize then s.done q (.count n) else (s.setAcc q (n.setWidth 32)).goto q .flags

section
variable {q : Requester} {s : State}

@[simp] theorem lowRead_ctx : (lowRead q s).ctx q =
    { s.ctx q with acc := (s.readAnswer 0 s.cfg.dmaCntLo).byte.setWidth 32, phase := .count1 } := by
  simp [lowRead]

@[simp] theorem lowRead_cfg : (lowRead q s).cfg = s.cfg := by simp [lowRead]
@[simp] theorem lowRead_h : (lowRead q s).h = s.h := by simp [lowRead]
@[simp] theorem countRead_cfg : (countRead q s).cfg = s.cfg := by simp [countRead]
@[simp] theorem countRead_h : (countRead q s).h = s.h := by simp [countRead]
@[simp] theorem countRead_ctx : (countRead q s).ctx q = (lowRead q s).ctx q := by simp [countRead]
@[simp] theorem countRead_readAnswer (k : Nat) (l : Loc8) :
    (countRead q s).readAnswer k l = s.readAnswer (k + 2) l := by
  simp [countRead, lowRead]

theorem phaseTurn_count0 (hp : (s.ctx q).phase = .count0) : phaseTurn q s = count0Turn q s := by
  simp only [phaseTurn, hp]

theorem phaseTurn_count1 (hp : (s.ctx q).phase = .count1) : phaseTurn q s = count1Turn q s := by
  simp only [phaseTurn, hp]

theorem phaseTurn_flags (hp : (s.ctx q).phase = .flags) : phaseTurn q s = flagsTurn q s := by
  simp only [phaseTurn, hp]

/-- From phase C0 on the two count bytes are read, and the operation goes on with their count. -/
theorem SbRun.count {v : Value} {es : List LogEvent} {rs : List SbReq} {b : State} (same : SameButCtx b s)
    (hp : (s.ctx q).phase = .count0)
    (rest : SbRun q v es rs (countRead q s) (afterCount q s.countAnswer (countRead q s))) :
    SbRun q v es (readReq s.cfg.dmaCntLo :: readReq s.cfg.dmaCntHi :: rs) b s := by
  refine .step same (by simp [hp]) (phaseTurn_count0 hp) ?_
  rw [sb_readReq_reply]
  refine .step (s := lowRead q s) (((SameButCtx.refl _).setAcc q _).goto q _) (by simp)
    (phaseTurn_count1 (by simp)) ?_
  have hhi : (lowRead q s).readAnswer 0 s.cfg.dmaCntHi = s.readAnswer 1 s.cfg.dmaCntHi := by simp [lowRead]
  rw [sb_readReq_reply, hhi, sb_ctx, lowRead_ctx]
  simpa [dmaCount_eq, afterCount, State.countAnswer, countRead] using rest

end

/-! ### The calls (R201, R205) -/

/-- The reads of an operation that begins with the count. -/
def countReads (c : Cfg) : List SbReq := [readReq c.dmaCntLo, readReq c.dmaCntHi]

theorem pendingSize_call (s : State) :
    SbCall .readPendingSize Args.zero s (.count s.countAnswer) [] (countReads s.cfg) := by
  refine ⟨(s.load s.cur .readPendingSize Args.zero).goto s.cur .count0, ?_, ?_⟩
  · simp [phaseTurn, startTurn, startPendingSize]
  refine .count ((sameButCtx_load ..).goto ..) (by simp) ?_
  rw [afterCount, if_pos (by simp)]
  exact .finish (.refl _)

/-- The state in which `readInterruptStatus` reads its flags. -/
def flagsReady (s : State) : State :=
  (countRead s.cur ((s.load s.cur .readInterruptStatus Args.zero).goto s.cur .count0)).setAcc s.cur
    (s.countAnswer.setWidth 32) |>.goto s.cur .flags

/-- `readInterruptStatus` reads the count, then the flag register its flags phase reads, and answers the status that
phase makes of it. -/
theorem interruptStatus_call {s : State} {l : Loc8} {w : Word} {es : List LogEvent} {done : Byte → State → State}
    (hknown : ¬ (s.h.gpioIrq = true ∧ s.h.variant = .unknown))
    (hturn : flagsTurn s.cur (flagsReady s) = sbTurn (readReq l) (fun t => t.raiseTransport s.cur) done (flagsReady s))
    (hdone : SbRun s.cur (.status w) es [] ((flagsReady s).sb (readReq l)).2
      (done (s.readAnswer 2 l).byte ((flagsReady s).sb (readReq l)).2)) :
    SbCall .readInterruptStatus Args.zero s (.status w) es (countReads s.cfg ++ [readReq l]) := by
  refine ⟨(s.load s.cur .readInterruptStatus Args.zero).goto s.cur .count0, ?_, ?_⟩
  · simp only [phaseTurn, ctx_load_same, startTurn, startInterruptStatus]
    exact if_neg fun h => hknown ((Bool.and_eq_true_iff.mp h).imp_right of_decide_eq_true)
  refine .count ((sameButCtx_load ..).goto ..) (by simp) ?_
  rw [afterCount, if_neg (by simp)]
  refine .step (((SameButCtx.refl _).setAcc ..).goto ..) (by simp) ((phaseTurn_flags (by simp)).trans hturn) ?_
  rw [sb_readReq_reply]
  simpa [flagsReady] using hdone

/-- The ending of a status read in GPIO mode with its flag register's byte (R206, R207). -/
def gpioDone (q : Requester) (m d : Byte) (t : State) : State :=
  (t.setAcc q (statusGpio (t.ctx q).acc d m)).done q (.status (statusGpio (t.ctx q).acc d m))

theorem flagsReady_acc (s : State) : ((flagsReady s).ctx s.cur).acc = s.countAnswer.setWidth 32 := by
  simp [flagsReady]

@[simp] theorem flagsReady_h (s : State) : (flagsReady s).h = s.h := by simp [flagsReady]
@[simp] theorem flagsReady_cfg (s : State) : (flagsReady s).cfg = s.cfg := by simp [flagsReady]

theorem gpioStatus_call {s : State} {l : Loc8} {m : BitVec 5} (hg : s.h.gpioIrq = true)
    (hm : gpioFlagReg s.cfg s.h.variant = some (l, m.setWidth 8)) :
    SbCall .readInterruptStatus Args.zero s
      (.status (0#11 ++ ((s.readAnswer 2 l).byte.setWidth 5 &&& m) ++ (s.readAnswer 1 s.cfg.dmaCntHi).byte ++
        (s.readAnswer 0 s.cfg.dmaCntLo).byte)) [] (countReads s.cfg ++ [readReq l]) := by
  refine interruptStatus_call (done := gpioDone s.cur (m.setWidth 8)) (fun h => by simp [h.2, gpioFlagReg] at hm) ?_ ?_
  · simp only [flagsTurn, flagsReady_h, flagsReady_cfg, hg, if_true, hm]
    rfl
  · simp only [gpioDone, sb_ctx, flagsReady_acc, State.countAnswer, statusGpio_eq]
    exact .finish ((SameButCtx.refl _).setAcc _ _)

/-- The event of a status with an unexpected flag (R212). -/
def unexpectedEvents (nint : Nat) (w : Word) (d : Byte) : List LogEvent :=
  if hasUnexpected nint w then [.unexpectedIrq w d] else []

theorem statusReg_call {s : State} (hg : s.h.gpioIrq = false) {d : Byte} (hd : d = (s.readAnswer 2 s.cfg.intStatus).byte)
    {w : Word} (hw : statusReg (s.countAnswer.setWidth 32) d = w) :
    SbCall .readInterruptStatus Args.zero s (.status w) (unexpectedEvents s.h.nint w d)
      (countReads s.cfg ++ [readReq s.cfg.intStatus]) := by
  refine interruptStatus_call (done := statusRegDone s.cur) (by simp [hg]) ?_ ?_
  · simp [flagsTurn, hg]
  · subst hw hd
    simp only [statusRegDone, sb_ctx, flagsReady_acc, sb_h, flagsReady_h, unexpectedEvents]
    split
    · exact .finish_logged ((SameButCtx.refl _).setAcc _ _) _
    · exact .finish ((SameButCtx.refl _).setAcc _ _)

/-! ### The obligations -/

/-- A call that only reads leaves the device, whichever of its reads fails. -/
theorem SbCall.reads {op : OpSel} {args : Args} {s : State} {v : Value} {es : List LogEvent} {rs : List SbReq}
    (h : SbCall op args s v es rs) (hw : ∀ r ∈ rs, r.wr = false) (hn : rs.length ≤ 63) (hr : Ready s) :
    (OkNext s rs.length →
      ∃ t, perform op args s = .next t ∧ Ended s.cur s (rs.map SbReq.output) (.ok v) t ∧ t.dev = s.dev ∧
        t.log = s.log ++ es) ∧
    ∀ k, k < rs.length → FailsAt s k →
      ∃ t, perform op args s = .next t ∧ t.idle s.cur = true ∧ t.h = s.h ∧ t.buf = s.buf ∧ t.dev = s.dev ∧
        t.out = s.out ++ (rs.map SbReq.output).take (k + 1) ++ [.response s.cur (.fail .eTransport)] := by
  refine ⟨fun ho => ?_, fun k hk hf => ?_⟩
  · obtain ⟨t, ht, hend, hlog, hdev⟩ := h.completes hr ho hn
    exact ⟨t, ht, hend, hdev.trans (stored_reads _ _ hw), hlog⟩
  · obtain ⟨t, ht, ⟨hidle, hh, hbuf, hout⟩, hdev⟩ := h.fails_at hr hn hk hf
    have hsame (j : Nat) : stored s.cfg s.dev (rs.take j) = s.dev :=
      stored_reads _ _ fun r hmem => hw r (List.mem_of_mem_take hmem)
    rw [hsame, hsame, or_self] at hdev
    exact ⟨t, ht, hidle, hh, hbuf, hdev, hout⟩

theorem countReads_read (c : Cfg) : ∀ r ∈ countReads c, r.wr = false := by simp [countReads, readReq]

theorem statusReads_read (c : Cfg) (l : Loc8) : ∀ r ∈ countReads c ++ [readReq l], r.wr = false := by
  simp [countReads, readReq]

/-- Settles O33: the two reads of the count, and the value their bytes make. -/
theorem pendingSizeIsTwoBytes : Obligations.PendingSizeIsTwoBytes := by
  rintro l s hr rfl
  obtain ⟨hok, hfail⟩ := (pendingSize_call s).reads (countReads_read s.cfg) (by simp [countReads]) hr
  refine ⟨fun ho => ?_, hfail⟩
  obtain ⟨t, ht, ⟨hidle, hh, hbuf, hout⟩, hdev, -⟩ := hok ho
  exact ⟨t, ht, hidle, hh, hbuf, hdev, hout⟩

/-- Settles O34: the count, then the variant's flag register under its mask. -/
theorem gpioInterruptStatus : Obligations.GpioInterruptStatus := by
  rintro loc m l s hr hg hv rfl
  have hm : gpioFlagReg s.cfg s.h.variant = some (loc, m.setWidth 8) := by
    obtain ⟨ha, rfl, rfl⟩ | ⟨hb, rfl, rfl⟩ := hv
    · rw [ha]; rfl
    · rw [hb]; rfl
  obtain ⟨hok, hfail⟩ := (gpioStatus_call hg hm).reads (statusReads_read s.cfg loc) (by simp [countReads]) hr
  refine ⟨fun ho => ?_, hfail⟩
  obtain ⟨t, ht, ⟨hidle, hh, hbuf, hout⟩, hdev, hlog⟩ := hok ho
  exact ⟨t, ht, hidle, hh, hbuf, hdev, by simpa using hlog, hout⟩

/-- Settles O35: the count, then the status register, whose flags are compared with the line count. -/
theorem statusRegisterInterruptStatus : Obligations.StatusRegisterInterruptStatus := by
  rintro d st l s hr hg hd hst rfl
  have hw : statusReg (s.countAnswer.setWidth 32) d = st := (statusReg_eq ..).trans hst.symm
  obtain ⟨hok, hfail⟩ :=
    (statusReg_call hg hd hw).reads (statusReads_read s.cfg s.cfg.intStatus) (by simp [countReads]) hr
  refine ⟨fun ho => ?_, hfail⟩
  obtain ⟨t, ht, ⟨hidle, hh, hbuf, hout⟩, hdev, hlog⟩ := hok ho
  refine ⟨t, ht, hidle, hh, hbuf, hdev, hout, fun hu => ?_, fun hu => ?_⟩
  · rwa [unexpectedEvents, if_pos (hasUnexpected_iff.mpr hu)] at hlog
  · rwa [unexpectedEvents, if_neg (mt hasUnexpected_iff.mp hu), List.append_nil] at hlog

/-! ### Requests an unknown variant refuses (R213, R225, R257) -/

/-- A call whose first phase refuses it changes nothing but the caller's context. -/
theorem perform_refused {op : OpSel} {args : Args} {s : State} {why : Refused} (hi : s.idle s.cur = true)
    (h : startTurn s.cur (s.load s.cur op args) = .moved ((s.load s.cur op args).refuse s.cur why)) :
    ∃ t, perform op args s = .next t ∧ t.idle s.cur = true ∧ t.h = s.h ∧ t.dev = s.dev ∧ t.buf = s.buf ∧
      t.log = s.log ∧ t.out = s.out ++ [.response s.cur (.refused why)] := by
  have hturn : phaseTurn s.cur (s.load s.cur op args) = .moved ((s.load s.cur op args).refuse s.cur why) := by
    simpa [phaseTurn] using h
  exact ⟨_, (perform_from hi hturn).trans (runPhases_idle _ _ _ (idle_finish ..)), by simp⟩

/-- Settles O36: each of the three refuses at its first phase. -/
theorem unknownVariantRefused : Obligations.UnknownVariantRefused := by
  rintro mask n i s hi hv (⟨rfl, hg⟩ | rfl | ⟨rfl, hn⟩)
  · exact perform_refused (op := .readInterruptStatus) hi (by simp [startTurn, startInterruptStatus, hg, hv])
  · exact perform_refused (op := .clearInterrupts) hi (by simp [startTurn, startClear, hv])
  · exact perform_refused (op := .syncInterrupts) hi (by simp [startTurn, startSync, syncBody, hv, not_lt.mpr hn])

end Sys2Proof.Machine
end

section
/-! CERTIFICATE. `clearInterrupts` (43_interrupt_status.md rules R215 to R225): the writes of each variant, none of them
of a value of 0, what they clear in the device (20_memory.md rule R92), and that there may be none. -/

namespace Sys2Proof.Machine

/-! ### The writes of `clearInterrupts` (R218 to R223) -/

/-- A plain write that is not issued if its value is 0 (R223). -/
def writeUnlessZero (l : Loc8) (v : Byte) : List SbReq := if v = 0 then [] else [writeReq l false v]

theorem writeUnlessZero_zero (l : Loc8) : writeUnlessZero l 0 = [] := if_pos rfl

theorem writeUnlessZero_of_ne {l : Loc8} {v : Byte} (h : v ≠ 0) : writeUnlessZero l v = [writeReq l false v] := if_neg h

theorem mem_writeUnlessZero {l : Loc8} {v : Byte} {r : SbReq} (h : r ∈ writeUnlessZero l v) :
    r = writeReq l false v ∧ v ≠ 0 := by
  unfold writeUnlessZero at h
  split at h
  · cases h
  · exact ⟨List.mem_singleton.mp h, ‹_›⟩

theorem writeUnlessZero_length (l : Loc8) (v : Byte) : (writeUnlessZero l v).length ≤ 1 := by
  unfold writeUnlessZero; split <;> simp

theorem writeUnlessZero_output (l : Loc8) (v : Byte) :
    (writeUnlessZero l v).map SbReq.output = if v = 0 then [] else [sbOut true l false v] := by
  unfold writeUnlessZero; split <;> rfl

/-- The acknowledge value of variant B: none in status-register mode (R220). -/
def ackValueB (c : Cfg) (gpio : Bool) (mask : Word) : Byte := byteIf gpio (ackB c mask)

/-- The writes of `clearInterrupts`, by the handle's variant (R219 to R221). -/
def clearWrites (c : Cfg) (h : Handle) (mask : Word) : List SbReq :=
  match h.variant with
  | .unknown => []
  | .a => writeUnlessZero c.intClrA (valueA c h.gpioIrq mask)
  | .b => writeUnlessZero c.intAckB (ackValueB c h.gpioIrq mask) ++ writeUnlessZero c.vmmCtlB (vmmB c mask)

/-- No write of `clearInterrupts` is of a value of 0 (R223). -/
theorem clearWrites_data {c : Cfg} {h : Handle} {mask : Word} {r : SbReq} (hr : r ∈ clearWrites c h mask) :
    ∃ l v, r = writeReq l false v ∧ v ≠ 0 := by
  unfold clearWrites at hr
  split at hr
  · cases hr
  · exact ⟨_, _, mem_writeUnlessZero hr⟩
  · exact (List.mem_append.mp hr).elim (fun hr => ⟨_, _, mem_writeUnlessZero hr⟩)
      fun hr => ⟨_, _, mem_writeUnlessZero hr⟩

@[simp] theorem byteIf_false (b : Byte) : byteIf false b = 0 := rfl

/-- The bits of a field that is 0. -/
theorem getLsbD_of_field_zero {w : Word} {lo n : Nat} (h : w.extractLsb' lo n = 0#n) {i : Nat} (hi : i < n) :
    w.getLsbD (lo + i) = false := by
  simpa [hi] using congrArg (fun x => x.getLsbD i) h

/-- With the mask's bits 7:0 clear, or bits 7:5 in status-register mode, there is nothing to write (R217, R223). -/
theorem clearWrites_nil {c : Cfg} {h : Handle} {mask : Word}
    (hm : mask.extractLsb' 0 8 = 0#8 ∨ h.gpioIrq = false ∧ mask.extractLsb' 5 3 = 0#3) : clearWrites c h mask = [] := by
  have hsel : maskSel0 mask = false ∧ maskSel1 mask = false ∧ maskEn mask = false := by
    obtain hm | ⟨-, hm⟩ := hm
    · exact ⟨getLsbD_of_field_zero hm (i := 5) (by decide), getLsbD_of_field_zero hm (i := 6) (by decide),
        getLsbD_of_field_zero hm (i := 7) (by decide)⟩
    · exact ⟨getLsbD_of_field_zero hm (i := 0) (by decide), getLsbD_of_field_zero hm (i := 1) (by decide),
        getLsbD_of_field_zero hm (i := 2) (by decide)⟩
  have hack (m : Byte) : byteIf h.gpioIrq (byteOf mask 0 &&& m) = 0 := by
    obtain hm | ⟨hg, -⟩ := hm
    · simp [byteIf, byteOf, hm]
    · simp [hg]
  obtain ⟨h0, h1, h2⟩ := hsel
  unfold clearWrites
  split
  · rfl
  · have hv : valueA c h.gpioIrq mask = 0 := by simp [valueA, hack, h0, h1, h2]
    rw [hv, writeUnlessZero_zero]
  · have ha : ackValueB c h.gpioIrq mask = 0 := hack c.ackMaskB
    have hv : vmmB c mask = 0 := by simp [vmmB, h0, h1, h2]
    rw [ha, hv, writeUnlessZero_zero, writeUnlessZero_zero, List.nil_append]

/-! ### The phases of `clearInterrupts` -/

section
variable {q : Requester} {b s : State}

@[simp] theorem clearValue_goto_setAcc (v : Byte) (p : Phase) :
    clearValue q ((s.setAcc q (v.setWidth 32)).goto q p) = v := by
  simp [clearValue]

/-- Phases A0 and B1 write the accumulator and end (R219, R221, R222). -/
theorem SbRun.clear_last {p : Phase} {l : Loc8} (same : SameButCtx b s)
    (hp : p = .clrA0 ∧ l = s.cfg.intClrA ∨ p = .clrB1 ∧ l = s.cfg.vmmCtlB) (v : Byte) :
    SbRun q .unit [] [writeReq l false v] b ((s.setAcc q (v.setWidth 32)).goto q p) := by
  refine .step (ok := fun _ t => t.done q .unit) ((same.setAcc ..).goto ..) ?_ ?_ (.finish (.refl _))
  · obtain ⟨rfl, -⟩ | ⟨rfl, -⟩ := hp <;> simp
  · obtain ⟨rfl, rfl⟩ | ⟨rfl, rfl⟩ := hp <;> simp [phaseTurn, clrA0Turn, clrB1Turn]

/-- What follows the variant-B acknowledge is the VMM write unless its value is 0 (R221, R223). -/
theorem SbRun.afterAckB (same : SameButCtx b s) :
    SbRun q .unit [] (writeUnlessZero s.cfg.vmmCtlB (vmmB s.cfg (s.ctx q).args.mask)) b (afterAckB q s) := by
  unfold Machine.afterAckB writeUnlessZero
  split
  · exact .finish same
  · exact .clear_last same (.inr ⟨rfl, rfl⟩) _

/-- Phase B0 writes the accumulator, then comes the VMM write (R220). -/
theorem SbRun.clrB0 (same : SameButCtx b s) (v : Byte) :
    SbRun q .unit [] (writeReq s.cfg.intAckB false v ::
      writeUnlessZero s.cfg.vmmCtlB (vmmB s.cfg (s.ctx q).args.mask)) b
      ((s.setAcc q (v.setWidth 32)).goto q .clrB0) := by
  refine .step (ok := fun _ t => Machine.afterAckB q t) ((same.setAcc ..).goto ..) (by simp)
    (by simp [phaseTurn, clrB0Turn]) ?_
  simpa using SbRun.afterAckB (q := q)
    (.refl ((((s.setAcc q (v.setWidth 32)).goto q .clrB0).sb (writeReq s.cfg.intAckB false v)).2))

/-- The first phase of `clearInterrupts` goes on with the writes of the variant. -/
theorem startClear_run (same : SameButCtx b s) (hv : s.h.variant ≠ .unknown) :
    ∃ u, startClear q s = .moved u ∧ SbRun q .unit [] (clearWrites s.cfg s.h (s.ctx q).args.mask) b u := by
  unfold startClear clearWrites
  cases hvar : s.h.variant with
  | unknown => exact absurd hvar hv
  | a =>
    dsimp only
    unfold writeUnlessZero
    split
    · exact ⟨_, rfl, .finish same⟩
    · exact ⟨_, rfl, .clear_last same (.inl ⟨rfl, rfl⟩) _⟩
  | b =>
    dsimp only
    by_cases hack : s.h.gpioIrq = true ∧ ackB s.cfg (s.ctx q).args.mask ≠ 0
    · rw [if_pos (by simpa using hack), ackValueB, byteIf, if_pos hack.1, writeUnlessZero_of_ne hack.2]
      exact ⟨_, rfl, .clrB0 same _⟩
    · have hzero : ackValueB s.cfg s.h.gpioIrq (s.ctx q).args.mask = 0 := by
        unfold ackValueB byteIf
        split
        · exact not_not.mp fun h => hack ⟨‹_›, h⟩
        · rfl
      rw [if_neg (by simpa using hack), hzero, writeUnlessZero_zero, List.nil_append]
      exact ⟨_, rfl, .afterAckB same⟩

end

/-- A call of `clearInterrupts` makes the writes of the variant. -/
theorem clear_call {s : State} (hv : s.h.variant ≠ .unknown) (mask : Word) :
    SbCall .clearInterrupts { Args.zero with mask := mask } s .unit [] (clearWrites s.cfg s.h mask) := by
  obtain ⟨u, hu, hrun⟩ := startClear_run (q := s.cur)
    (sameButCtx_load s s.cur .clearInterrupts { Args.zero with mask := mask }) hv
  exact ⟨u, by simpa [phaseTurn, startTurn] using hu, by simpa using hrun⟩

/-! ### What the writes clear (R92) -/

/-- The VMM write clears no flag (R221). -/
theorem stored_vmm_same {c : Cfg} (d : Device) (v : Byte) (ha : c.intClrA ≠ c.vmmCtlB) (hb : c.vmmCtlB ≠ c.intAckB) :
    SameStatus d (stored c d (writeUnlessZero c.vmmCtlB v)) :=
  stored_same d fun r hr => by
    rw [(mem_writeUnlessZero hr).1]
    exact ⟨ha.symm, hb⟩

/-! ### The obligations -/

/-- Settles O37: the one write, or none, and the device it leaves. -/
theorem clearInterruptsVariantA : Obligations.ClearInterruptsVariantA := by
  rintro mask v s hr hvar hv
  have hv' : valueA s.cfg s.h.gpioIrq mask = v := hv.symm
  have hcall : SbCall .clearInterrupts { Args.zero with mask := mask } s .unit [] (writeUnlessZero s.cfg.intClrA v) := by
    simpa [clearWrites, hvar, hv'] using clear_call (s := s) (by simp [hvar]) mask
  by_cases h0 : v = 0
  · rw [h0, writeUnlessZero_zero] at hcall
    obtain ⟨t, ht, ⟨hidle, hh, hbuf, hout⟩, hlog, hdev⟩ := hcall.ends hr.1
    exact ⟨t, ht, hidle, hh, hbuf, fun _ => ⟨hdev, by simpa using hlog, by simpa using hout⟩, fun h => absurd h0 h,
      fun h => absurd h0 h⟩
  · rw [writeUnlessZero_of_ne h0] at hcall
    cases ho : (s.draw 0).outcome with
    | true =>
      obtain ⟨t, ht, ⟨hidle, hh, hbuf, hout⟩, hlog, hdev⟩ :=
        hcall.completes hr ((okNext_succ s 0).mpr ⟨ho, nofun⟩) (by simp)
      exact ⟨t, ht, hidle, hh, hbuf, fun h => absurd h h0,
        fun _ _ => ⟨by simpa using hlog, by simpa using hout, fun hne => hdev ▸ writeSb_ackA s.dev v hne⟩, nofun⟩
    | false =>
      obtain ⟨t, ht, ⟨hidle, hh, hbuf, hout⟩, -⟩ := hcall.fails_at hr (by simp) (k := 0) (by simp) ⟨nofun, ho⟩
      exact ⟨t, ht, hidle, hh, hbuf, fun h => absurd h h0, nofun, fun _ _ => by simpa using hout⟩

/-- Settles O38: the two writes, each unless its value is 0, of which the acknowledge alone clears flags. -/
theorem clearInterruptsVariantB : Obligations.ClearInterruptsVariantB := by
  rintro mask v a l s hr hvar ha hv rfl
  have ha' : ackValueB s.cfg s.h.gpioIrq mask = a := ha.symm
  have hv' : vmmB s.cfg mask = v := hv.symm
  have hcall : SbCall .clearInterrupts { Args.zero with mask := mask } s .unit []
      (writeUnlessZero s.cfg.intAckB a ++ writeUnlessZero s.cfg.vmmCtlB v) := by
    simpa [clearWrites, hvar, ha', hv'] using clear_call (s := s) (by simp [hvar]) mask
  have hlen : (writeUnlessZero s.cfg.intAckB a ++ writeUnlessZero s.cfg.vmmCtlB v).length ≤ 2 := by
    rw [List.length_append]
    exact Nat.add_le_add (writeUnlessZero_length ..) (writeUnlessZero_length ..)
  rw [← writeUnlessZero_output, ← writeUnlessZero_output, ← List.map_append]
  refine ⟨fun ho => ?_, fun k hk hf => ?_⟩
  · obtain ⟨t, ht, ⟨hidle, hh, hbuf, hout⟩, hlog, hdev⟩ := hcall.completes hr (ho.mono hlen) (by omega)
    refine ⟨t, ht, hidle, hh, hbuf, by simpa using hlog, hout, fun hmem hne => ?_⟩
    simp only [List.mem_cons, List.not_mem_nil, or_false, not_or] at hmem
    rw [hdev, stored_append]
    refine ⟨fun h0 => ?_, fun h0 => ?_⟩
    · rw [h0, writeUnlessZero_zero]
      exact stored_vmm_same _ v hmem.2 hne
    · rw [writeUnlessZero_of_ne h0]
      exact (writeSb_ackB s.dev a hmem.1).same (stored_vmm_same _ v hmem.2 hne)
  · rw [List.length_map] at hk
    obtain ⟨t, ht, ⟨hidle, hh, hbuf, hout⟩, hdev⟩ := hcall.fails_at hr (by omega) hk hf
    refine ⟨t, ht, hidle, hh, hbuf, hout, ?_⟩
    rintro rfl hmem hne
    simp only [List.mem_cons, List.not_mem_nil, or_false, not_or] at hmem
    have hone := writeUnlessZero_length s.cfg.vmmCtlB v
    have h0 : a ≠ 0 := by
      rintro rfl
      rw [writeUnlessZero_zero, List.nil_append] at hk
      exact absurd hk (not_lt.mpr hone)
    have hack : Acknowledged s.dev a s.cfg.ackMaskB (stored s.cfg s.dev [writeReq s.cfg.intAckB false a]) :=
      writeSb_ackB s.dev a hmem.1
    simp only [writeUnlessZero_of_ne h0, List.singleton_append, List.take_succ_cons, List.take_zero,
      List.take_of_length_le hone] at hdev
    obtain hdev | hdev := hdev <;> rw [hdev]
    · exact hack
    · exact hack.same (stored_vmm_same _ v hmem.2 hne)

/-- Settles O39: such a mask makes every value 0, and no write that is issued has the value 0. -/
theorem clearNothingWritesNothing : Obligations.ClearNothingWritesNothing := by
  intro mask s hi hvar
  refine ⟨fun h => ?_, fun t ht => ?_⟩
  · have hcall := clear_call hvar mask
    rw [clearWrites_nil h] at hcall
    obtain ⟨t, ht, ⟨hidle, hh, -, hout⟩, -, hdev⟩ := hcall.ends hi
    exact ⟨t, ht, hidle, hh, hdev, by simpa using hout⟩
  · obtain ⟨l, hl, hmem⟩ := (clear_call hvar mask).emits_only hi ht
    refine ⟨l, hl, fun c hc => ?_⟩
    obtain ⟨r, hr, hout⟩ := List.mem_map.mp (hmem c hc)
    obtain ⟨loc, v, rfl, hv⟩ := clearWrites_data hr
    cases hout
    exact ne_of_eq_of_ne (fieldData_sbWord ..) hv

end Sys2Proof.Machine
end

section
/-! CERTIFICATE. The lifecycle operations that do not negotiate (44_lifecycle.md rules R246 to R248, R258), and the
refusal of every one that writes the handle while a negotiation runs (R260). -/

namespace Sys2Proof.Machine

/-! ### Operations that end with their first phase (R246, R248, R260) -/

/-- A call whose first phase ends the operation. -/
theorem perform_ends {op : OpSel} {args : Args} {s u : State} (hi : s.idle s.cur = true)
    (h : startTurn s.cur (s.load s.cur op args) = .moved u) (hu : u.idle s.cur = true) :
    perform op args s = .next u := by
  have hturn : phaseTurn s.cur (s.load s.cur op args) = .moved u := by simpa [phaseTurn] using h
  exact (perform_from hi hturn).trans (runPhases_idle _ _ _ hu)

/-- While a negotiation runs the five lifecycle operations refuse at their first phase (R260). -/
theorem startTurn_negotiating {op : OpSel} {args : Args} {s : State} (hl : s.h.life = .negotiating)
    (ho : op ∈ [OpSel.init, .deinit, .reset, .suspend, .resume]) :
    startTurn s.cur (s.load s.cur op args) = .moved ((s.load s.cur op args).refuse s.cur .negotiating) := by
  simp only [List.mem_cons, List.not_mem_nil, or_false] at ho
  obtain rfl | rfl | rfl | rfl | rfl := ho <;> simp only [startTurn, ctx_load_same]
  case inl => simp [startInit, beginNegotiation, hl]
  case inr.inl => simp [startDeinit, hl]
  case inr.inr.inl => simp [resetTurn, hl]
  case inr.inr.inr.inl => simp [startSuspend, hl]
  case inr.inr.inr.inr => simp [startResume, beginNegotiation, hl]

/-- Settles O47: each of the five is refused at its first phase. -/
theorem negotiationRefusesLifecycle : Obligations.NegotiationRefusesLifecycle := by
  intro r s hi hl i hmem
  have refused {op : OpSel} {args : Args} (ho : op ∈ [OpSel.init, .deinit, .reset, .suspend, .resume]) :=
    perform_refused (args := args) hi (startTurn_negotiating hl ho)
  simp only [List.mem_cons, List.not_mem_nil, or_false] at hmem
  obtain rfl | rfl | rfl | rfl | rfl := hmem
  · exact refused (op := .init) (by simp)
  · exact refused (op := .deinit) (by simp)
  · exact refused (op := .reset) (by simp)
  · exact refused (op := .suspend) (by simp)
  · exact refused (op := .resume) (by simp)

/-- Settles O44: the first phase clears the flag and the life state, or refuses. -/
theorem deinitClearsFlagOnly : Obligations.DeinitClearsFlagOnly := by
  intro s hi
  by_cases hl : s.h.life = .negotiating
  · obtain ⟨t, ht, hidle, hh, hdev, hbuf, hlog, hout⟩ :=
      perform_refused hi (startTurn_negotiating (op := .deinit) (args := Args.zero) hl (by simp))
    exact ⟨t, ht, hidle, hdev, hbuf, hlog, fun h => absurd hl h, fun _ => ⟨hh, hout⟩⟩
  · have hstart : startTurn s.cur (s.load s.cur .deinit Args.zero) =
        .moved (((s.load s.cur .deinit Args.zero).setH s.h.down).done s.cur .unit) := by
      simp [startTurn, startDeinit, hl]
    refine ⟨_, perform_ends hi hstart (idle_finish ..), idle_finish .., rfl, rfl, rfl, fun _ => ⟨rfl, ?_⟩,
      fun h => absurd h hl⟩
    simp

/-- Settles O46: the first phase answers the flag, which the invariant keeps cleared during a negotiation. -/
theorem isInitializedReturnsFlag : Obligations.IsInitializedReturnsFlag := by
  intro s hi
  have hstart : startTurn s.cur (s.load s.cur .isInitialized Args.zero) =
      .moved ((s.load s.cur .isInitialized Args.zero).done s.cur (.bool s.h.initialized)) := by
    simp [startTurn, startIsInitialized]
  refine ⟨_, perform_ends hi hstart (idle_finish ..), idle_finish .., rfl, rfl, rfl, rfl, by simp, fun hinv hl => ?_⟩
  have hflag : s.h.initialized = false := by
    cases hf : s.h.initialized with
    | false => rfl
    | true => exact absurd (hl.symm.trans (hinv.life.mp hf)) (by decide)
  simp [hflag]

/-! ### The raw write of `reset` (R247, R341) -/

/-- What `reset` leaves: one raw write, the flag and the life state cleared whatever its status, which is the answer. -/
structure WasReset (q : Requester) (s t : State) : Prop where
  idle : t.idle q = true
  h : t.h = wentDown s.h
  buf : t.buf = s.buf
  out : t.out = s.out ++ [sbOut true s.cfg.resetReg true s.cfg.resetVal,
    .response q (if (s.draw 0).outcome then .ok .unit else .fail .eTransport)]

/-- The reset phase, the bus free and no negotiation running. -/
theorem resetTurn_free {q : Requester} {s : State} (hb : s.busOwner = none) (hl : s.h.life ≠ .negotiating) :
    ∃ t, resetTurn q s = .moved t ∧ WasReset q s t := by
  rw [resetTurn, if_neg hl, sbTurn_free hb]
  refine ⟨_, rfl, ?_⟩
  cases hd : (s.draw 0).outcome with
  | true => exact ⟨idle_finish .., rfl, rfl, by simp [hd, sbOut, SbReq.word, writeReq]⟩
  | false => exact ⟨idle_raiseTransport .., rfl, rfl, by simp [hd, sbOut, SbReq.word, writeReq]⟩

/-- Settles O45: the first phase is the raw write. -/
theorem resetIsOneRawWrite : Obligations.ResetIsOneRawWrite := by
  intro s hr hl
  obtain ⟨t, hturn, hidle, hh, hbuf, hout⟩ :=
    resetTurn_free (q := s.cur) (s := s.load s.cur .reset Args.zero) hr.2 hl
  have hstart : startTurn s.cur (s.load s.cur .reset Args.zero) = .moved t := by simpa [startTurn] using hturn
  exact ⟨t, perform_ends hr.1 hstart hidle, hidle, hh, hbuf, hout⟩

/-- Settles O51: the handshakes in a first phase, then the phase of `reset`. -/
theorem suspendResetsDevice : Obligations.SuspendResetsDevice := by
  intro s hr hl
  have hstart : phaseTurn s.cur (s.load s.cur .suspend Args.zero) =
      .moved (((s.load s.cur .suspend Args.zero).emit .pmHandshakes).goto s.cur .resetWrite) := by
    simp [phaseTurn, startTurn, startSuspend, hl]
  obtain ⟨t, hturn, hidle, hh, hbuf, hout⟩ := resetTurn_free (q := s.cur)
    (s := ((s.load s.cur .suspend Args.zero).emit .pmHandshakes).goto s.cur .resetWrite) hr.2 hl
  refine ⟨t, ?_, hidle, hh, hbuf, hout.trans (List.append_assoc ..)⟩
  have hphase : phaseTurn s.cur (((s.load s.cur .suspend Args.zero).emit .pmHandshakes).goto s.cur .resetWrite) =
      .moved t := by simpa [phaseTurn] using hturn
  exact (perform_from hr.1 hstart).trans ((phase_moved (by simp) hphase).trans (runPhases_idle _ _ _ hidle))

end Sys2Proof.Machine
end

section
/-! CERTIFICATE. The allocation of interrupt lines to the bits of the two enable registers (44_lifecycle.md rules R254,
R255). -/

namespace Sys2Proof.Machine

theorem getLsbD_bit32 (i k : Nat) : (bit32 i).getLsbD k = decide (k < 32 ∧ k = i) := by
  simp only [bit32, BitVec.getLsbD_shiftLeft, BitVec.getLsbD_one]
  by_cases hk : k < 32 <;> by_cases hi : k < i <;> simp [hk, hi] <;> omega

/-- The bits of `n` lines from a base bit on are consecutive. -/
theorem getLsbD_lineBits (base n k : Nat) :
    (lineBits base n).getLsbD k = decide (k < 32 ∧ base ≤ k ∧ k < base + n) := by
  induction n with
  | zero => simp [lineBits]
  | succ n ih =>
    have hsucc : lineBits base (n + 1) = lineBits base n ||| bit32 (base + n) := by
      simp [lineBits, List.range_succ]
    rw [hsucc, BitVec.getLsbD_or, ih, getLsbD_bit32, ← Bool.decide_or]
    exact decide_eq_decide.mpr (by omega)

/-- Settles O50: both runs of bits lie inside the word, since the base bits leave room for five and three lines (R9). -/
theorem lineAllocation : Obligations.LineAllocation := by
  intro c n k hc
  have hlines : c.linesOk = true := by
    simp only [Cfg.wf, Bool.and_eq_true] at hc
    obtain ⟨⟨⟨-, hl⟩, -⟩, -⟩ := hc
    exact hl
  simp only [Cfg.linesOk, Bool.and_eq_true, decide_eq_true_eq] at hlines
  obtain ⟨⟨h1, h2⟩, -⟩ := hlines
  simp only [en1Bits, en2Bits, getLsbD_lineBits, Config.en1Lines, Config.en2Lines]
  exact ⟨decide_eq_decide.mpr (by omega), decide_eq_decide.mpr (by omega)⟩

end Sys2Proof.Machine
end

section
/-! SUPPORT. Part of an operation that is a row of transactions, single-byte commands and register accesses alike
(40_command_encoder.md, 41_address_window.md, 44_lifecycle.md): how it runs on any answers, to its end or to the first
transaction that fails. -/

namespace Sys2Proof.Machine

/-! ### What transactions leave (R88, R141, R146) -/

/-- Transactions with the commands `l` lead from `s` to `t`: each took an answer, and beside the outputs nothing but the
device and the contexts has changed, as far as the operation can tell. -/
structure Passed (l : List Output) (s t : State) : Prop where
  cfg : t.cfg = s.cfg
  h : t.h = s.h
  busOwner : t.busOwner = s.busOwner
  log : t.log = s.log
  buf : t.buf = s.buf
  out : t.out = s.out ++ l
  draw : ∀ k, t.draw k = s.draw (k + l.length)

theorem Passed.trans {l m : List Output} {s t u : State} (h : Passed l s t) (g : Passed m t u) : Passed (l ++ m) s u where
  cfg := g.cfg.trans h.cfg
  h := g.h.trans h.h
  busOwner := g.busOwner.trans h.busOwner
  log := g.log.trans h.log
  buf := g.buf.trans h.buf
  out := by rw [g.out, h.out, List.append_assoc]
  draw k := by rw [g.draw, h.draw, List.length_append, Nat.add_assoc, Nat.add_comm m.length]

/-- A state that differs in the contexts only is as good a start. -/
theorem SameButCtx.passed {b s : State} (h : SameButCtx b s) : Passed [] b s :=
  ⟨h.cfg, h.h, h.busOwner, h.log, h.buf, by simpa using h.out, h.draw⟩

theorem passed_refl (s : State) : Passed [] s s := (SameButCtx.refl s).passed

theorem passed_sb (s : State) (r : SbReq) : Passed [r.output] s (s.sb r).2 :=
  ⟨rfl, rfl, rfl, rfl, rfl, rfl, draw_sb s r⟩

/-- Answers that are `OK` before and after. -/
theorem Passed.okNext {l : List Output} {s t : State} (h : Passed l s t) {n : Nat} :
    OkNext s (l.length + n) ↔ OkNext s l.length ∧ OkNext t n := by
  refine ⟨fun ho => ⟨ho.mono (Nat.le_add_right ..), fun k hk => ?_⟩, fun ⟨ho, ht⟩ k hk => ?_⟩
  · rw [h.draw]
    exact ho _ (by omega)
  · by_cases hl : k < l.length
    · exact ho k hl
    · have := ht (k - l.length) (by omega)
      rwa [h.draw, Nat.sub_add_cancel (not_lt.mp hl)] at this

theorem okNext_zero (s : State) : OkNext s 0 := nofun

theorem okNext_one {s : State} : OkNext s 1 ↔ (s.draw 0).outcome = true :=
  (okNext_succ s 0).trans (and_iff_left nofun)

/-! ### A row of transactions (R28, R302) -/

/-- From `s`, which is `b` but for the contexts, requester `q` makes the transactions with the commands `l`, one a phase.
The first that fails ends the operation as `failed` says. If none does the operation stands, after the last, in a state
`s'` such that `P b' s'`, where `b'` is what the last transaction left. -/
inductive Row (q : Requester) (failed : State → State) (P : State → State → Prop) : List Output → State → State → Prop
  | arrived {b s : State} (h : P b s) : Row q failed P [] b s
  | sent {o : Output} {l : List Output} {b s t s' : State} (same : SameButCtx b s) (phase : (s.ctx q).phase ≠ .idle)
    (passed : Passed [o] s t)
    (turn : s.busOwner = none → phaseTurn q s = .moved (if (s.draw 0).outcome then s' else failed t))
    (rest : (s.draw 0).outcome = true → Row q failed P l t s') : Row q failed P (o :: l) b s

section
variable {q : Requester} {failed : State → State} {P Q : State → State → Prop} {l m : List Output} {b s : State}

/-- One row after another. -/
theorem Row.append (h : Row q failed P l b s)
    (next : ∀ b' s', P b' s' → Passed l b b' → OkNext b l.length → Row q failed Q m b' s') :
    Row q failed Q (l ++ m) b s := by
  induction h with
  | arrived h => exact next _ _ h (passed_refl _) (okNext_zero _)
  | @sent o l b s t s' same phase passed turn rest ih =>
    have hone := same.passed.trans passed
    refine .sent same phase passed turn fun ho => ih ho fun b' s' hP hpass hok => next b' s' hP (hone.trans hpass) ?_
    have hfirst : OkNext b 1 := okNext_one.mpr (same.draw 0 ▸ ho)
    rw [List.length_cons, Nat.add_comm]
    exact hone.okNext.mpr ⟨hfirst, hok⟩

/-- On answers `OK` every transaction of a row is made. -/
theorem Row.completes (h : Row q failed P l b s) (hb : b.busOwner = none) (ho : OkNext b l.length) :
    ∃ b' s', P b' s' ∧ Passed l b b' ∧ ∀ n, runPhases (n + l.length) q s = runPhases n q s' := by
  induction h with
  | @arrived b s h => exact ⟨b, s, h, passed_refl b, fun _ => rfl⟩
  | @sent o l b s t s' same phase passed turn rest ih =>
    have hone := same.passed.trans passed
    rw [List.length_cons, Nat.add_comm] at ho
    obtain ⟨hfirst, hrest⟩ := hone.okNext.mp ho
    have hok : (s.draw 0).outcome = true := same.draw 0 ▸ okNext_one.mp hfirst
    obtain ⟨b', u, hP, hpass, hrun⟩ := ih hok (hone.busOwner.trans hb) hrest
    refine ⟨b', u, hP, hone.trans hpass, fun n => ?_⟩
    have hturn := turn (same.busOwner.trans hb)
    rw [if_pos hok] at hturn
    rw [List.length_cons, ← Nat.add_assoc, phase_moved phase hturn]
    exact hrun n

/-- The first transaction of a row that fails ends the operation, with its command and those before it emitted. -/
theorem Row.fails_at (h : Row q failed P l b s) (hidle : ∀ t, (failed t).idle q = true) (hb : b.busOwner = none) {k : Nat}
    (hk : k < l.length) (hf : FailsAt b k) {n : Nat} (hn : l.length ≤ n) :
    ∃ t, runPhases n q s = .next (failed t) ∧ Passed (l.take (k + 1)) b t := by
  induction h generalizing k n with
  | arrived h => exact absurd hk (Nat.not_lt_zero _)
  | @sent o l b s t s' same phase passed turn rest ih =>
    obtain ⟨n, rfl⟩ := Nat.exists_eq_succ_of_ne_zero (Nat.ne_zero_of_lt hn)
    obtain ⟨hbefore, hfail⟩ := hf
    have hone := same.passed.trans passed
    have hturn := turn (same.busOwner.trans hb)
    cases k with
    | zero =>
      rw [if_neg (by simp [same.draw 0, hfail])] at hturn
      exact ⟨t, (phase_moved phase hturn).trans (runPhases_idle _ _ _ (hidle t)), hone⟩
    | succ k =>
      have hok : (s.draw 0).outcome = true := same.draw 0 ▸ hbefore 0 (Nat.succ_pos k)
      obtain ⟨u, hu, hpass⟩ := ih hok (hone.busOwner.trans hb) (Nat.lt_of_succ_lt_succ hk)
        ⟨fun j hj => by rw [hone.draw]; exact hbefore (j + 1) (Nat.succ_lt_succ hj), by rw [hone.draw]; exact hfail⟩
        (Nat.le_of_succ_le_succ hn)
      rw [if_pos hok] at hturn
      exact ⟨u, (phase_moved phase hturn).trans hu, hone.trans hpass⟩

/-- A single-byte transaction of a row. -/
theorem Row.sb {r : SbReq} {ok : Byte → State → State} (same : SameButCtx b s) (phase : (s.ctx q).phase ≠ .idle)
    (turn : phaseTurn q s = sbTurn r failed ok s)
    (rest : (s.draw 0).outcome = true → Row q failed P l (s.sb r).2 (ok (s.sb r).1.byte (s.sb r).2)) :
    Row q failed P (r.output :: l) b s :=
  .sent same phase (passed_sb s r) (fun hb => turn.trans (sbTurn_free hb)) rest

end

/-! ### A register access in a row (R165 to R171) -/

theorem passed_regAccess {q : Requester} {wr : Bool} {a w : Word} {st : RegStep} {s : State} (hc : s.cfg.wf = true) :
    Passed [regCommand s.cfg s.h.blockSize wr a w st] s (regAccess q wr a w st s).2 where
  cfg := by simp
  h := by simp
  busOwner := by simp
  log := by simp
  buf := by simp
  out := regAccess_out hc
  draw k := by
    match st with
    | .direct => rw [regAccess_direct_state]; simp
    | .win .data => rw [regAccess_data_state, executeBlock_windowData hc]; simp
    | .win .w0 => rw [regAccess_win_state _ _ _ _ _ (by decide)]; simp
    | .win .w1 => rw [regAccess_win_state _ _ _ _ _ (by decide)]; simp
    | .win .w2 => rw [regAccess_win_state _ _ _ _ _ (by decide)]; simp

theorem bytesToWord_wordBytes (w : Word) : bytesToWord (wordBytes w) = w := by
  apply BitVec.eq_of_getLsbD_eq
  intro i hi
  simp only [bytesToWord, wordBytes, List.getD_cons_zero, List.getD_cons_succ, BitVec.getLsbD_append,
    BitVec.getLsbD_extractLsb']
  by_cases h1 : i < 8
  · simp [h1]
  by_cases h2 : i - 8 < 8
  · simp [h1, h2, show 8 + (i - 8) = i by omega]
  by_cases h3 : i - 8 - 8 < 8
  · simp [h1, h2, h3, show 16 + (i - 8 - 8) = i by omega]
  · simp [h1, h2, h3, show 24 + (i - 8 - 8 - 8) = i by omega, show i - 8 - 8 - 8 < 8 by omega]

/-- A phase that is one transaction of a register access, by what the transaction comes to. -/
def accessNext (q : Requester) (more : RegStep → Phase) (failed : State → State) (value : Word → State → State)
    (t : State) : Access → State
  | .fail => failed t
  | .more r => t.goto q (more r)
  | .value v => value v t

theorem accessTurn_free {q : Requester} {wr : Bool} {a w : Word} {st : RegStep} {more : RegStep → Phase}
    {failed : State → State} {value : Word → State → State} {s : State} (hb : s.busOwner = none) :
    accessTurn q wr a w st more failed value s =
      .moved (accessNext q more failed value (regAccess q wr a w st s).2 (regAccess q wr a w st s).1) := by
  rw [accessTurn, withBus_free _ hb]
  generalize regAccess q wr a w st s = y
  obtain ⟨x, t⟩ := y
  cases x <;> rfl

/-- The phases of an access: the last ones, and the window writes from the last of them back (R161). -/
theorem RegStep.induct_access {motive : RegStep → Prop} (direct : motive .direct) (data : motive (.win .data))
    (window : ∀ y : WinStep, y ≠ .data → motive (.win y.next) → motive (.win y)) (st : RegStep) : motive st := by
  have h2 : motive (.win .w2) := window .w2 (by decide) data
  have h1 : motive (.win .w1) := window .w1 (by decide) h2
  match st with
  | .direct => exact direct
  | .win .w0 => exact window .w0 (by decide) h1
  | .win .w1 => exact h1
  | .win .w2 => exact h2
  | .win .data => exact data

/-- The value of a windowed read is the word of the four bytes that its data command, the last of the access, brings
back (R65, R166). -/
def ReadsWord (b : State) (v : Word) (st : RegStep) : Prop :=
  ∀ y bs n, st = .win y → b.draw (st.left - 1) = .scripted true bs n → bs.length = 4 → v = bytesToWord bs

/-- Where an access stands: `b` but for the contexts, and the context `x` but for phase and temporary. -/
structure Accessing (q : Requester) (more : RegStep → Phase) (x : Ctx) (st : RegStep) (b s : State) : Prop where
  same : SameButCtx b s
  ctx : ∃ tmp, s.ctx q = { x with phase := more st, tmp := tmp }

section
variable {q : Requester} {failed : State → State} {P : State → State → Prop} {l : List Output} {b s : State}
  {wr : Bool} {a w : Word} {more : RegStep → Phase} {value : Word → State → State} {x : Ctx} {st : RegStep}

/-- A phase of an access is one transaction of the row; the access goes on as it comes out. -/
theorem Row.access_phase (h : Accessing q more x st b s) (hm : ∀ r, more r ≠ .idle) (hc : b.cfg.wf = true)
    (turn : phaseTurn q s = accessTurn q wr a w st more failed value s)
    (rest : (s.draw 0).outcome = true → Row q failed P l (regAccess q wr a w st s).2
      (accessNext q more failed value (regAccess q wr a w st s).2 (regAccess q wr a w st s).1)) :
    Row q failed P (regCommand b.cfg b.h.blockSize wr a w st :: l) b s := by
  obtain ⟨same, tmp, hctx⟩ := h
  have hwf : s.cfg.wf = true := same.cfg ▸ hc
  rw [← same.cfg, ← same.h]
  refine .sent same (by simpa [hctx] using hm st) (passed_regAccess hwf) (fun hb => ?_) rest
  rw [turn, accessTurn_free hb]
  cases ho : (s.draw 0).outcome with
  | true => rfl
  | false => rw [regAccess_fails hwf ho]; rfl

/-- The last phase of an access ends with a value: a windowed read's is the word the answer's bytes make. -/
theorem regAccess_last_value (same : SameButCtx b s) (hc : b.cfg.wf = true) (hl : st = .direct ∨ st = .win .data)
    (ho : (s.draw 0).outcome = true) :
    ∃ v, (regAccess q wr a w st s).1 = .value v ∧ (wr = false → ReadsWord b v st) := by
  have hwf : s.cfg.wf = true := same.cfg ▸ hc
  obtain rfl | rfl := hl
  · exact ⟨_, regAccess_direct_value ho, fun _ _ _ _ hx => by cases hx⟩
  · refine ⟨_, regAccess_data_value hwf ho, ?_⟩
    rintro rfl y bs n - hd hlen
    rw [if_neg Bool.false_ne_true, blk_read_scripted _ _ _ rfl ((same.draw 0).trans hd)]
    exact congrArg bytesToWord (padded_self _ _ _ hlen)

/-- A phase of an access leaves its command, and the context but for the temporary. -/
theorem Accessing.after (h : Accessing q more x st b s) (hc : b.cfg.wf = true) :
    Passed [regCommand b.cfg b.h.blockSize wr a w st] b (regAccess q wr a w st s).2 ∧
      ∃ tmp, (regAccess q wr a w st s).2.ctx q = { x with phase := more st, tmp := tmp } := by
  obtain ⟨same, tmp, hctx⟩ := h
  obtain ⟨tmp', hafter⟩ := regAccess_ctx_same q wr a w st s
  refine ⟨?_, tmp', by rw [hafter, hctx]⟩
  simpa [same.cfg, same.h] using
    same.passed.trans (passed_regAccess (q := q) (wr := wr) (a := a) (w := w) (st := st) (same.cfg ▸ hc))

/-- The last transaction of an access, then what follows it. -/
theorem Row.access_last (hl : st = .direct ∨ st = .win .data) (h : Accessing q more x st b s)
    (hm : ∀ r, more r ≠ .idle) (hc : b.cfg.wf = true)
    (turn : phaseTurn q s = accessTurn q wr a w st more failed value s)
    (rest : ∀ t v r tmp, t.ctx q = { x with phase := more r, tmp := tmp } →
      Passed (regCommands b.cfg b.h.blockSize wr a w st) b t → OkNext b st.left → (wr = false → ReadsWord b v st) →
      Row q failed P l t (value v t)) :
    Row q failed P (regCommands b.cfg b.h.blockSize wr a w st ++ l) b s := by
  have hcommands : regCommands b.cfg b.h.blockSize wr a w st = [regCommand b.cfg b.h.blockSize wr a w st] ∧
      st.left = 1 := by
    obtain rfl | rfl := hl <;> exact ⟨rfl, rfl⟩
  obtain ⟨hpass, tmp, hctx⟩ := h.after (wr := wr) (a := a) (w := w) hc
  rw [hcommands.1] at rest ⊢
  rw [hcommands.2] at rest
  refine .access_phase h hm hc turn fun ho => ?_
  obtain ⟨v, hv, hread⟩ := regAccess_last_value (q := q) (wr := wr) (a := a) (w := w) h.same hc hl ho
  rw [hv]
  exact rest _ v st tmp hctx hpass (okNext_one.mpr (h.same.draw 0 ▸ ho)) hread

/-- A register access from a phase on, then what follows it. -/
theorem Row.access (h : Accessing q more x st b s) (hm : ∀ r, more r ≠ .idle) (hc : b.cfg.wf = true)
    (turn : ∀ u r tmp, u.ctx q = { x with phase := more r, tmp := tmp } → u.cfg = b.cfg → u.h = b.h →
      phaseTurn q u = accessTurn q wr a w r more failed value u)
    (rest : ∀ t v r tmp, t.ctx q = { x with phase := more r, tmp := tmp } →
      Passed (regCommands b.cfg b.h.blockSize wr a w st) b t → OkNext b st.left → (wr = false → ReadsWord b v st) →
      Row q failed P l t (value v t)) :
    Row q failed P (regCommands b.cfg b.h.blockSize wr a w st ++ l) b s := by
  obtain ⟨tmp, hctx⟩ := h.ctx
  have hturn := turn s st tmp hctx h.same.cfg h.same.h
  induction st using RegStep.induct_access generalizing b s tmp with
  | direct => exact .access_last (.inl rfl) h hm hc hturn rest
  | data => exact .access_last (.inr rfl) h hm hc hturn rest
  | window y hy ih =>
    obtain ⟨hpass, tmp', hctx'⟩ := h.after (wr := wr) (a := a) (w := w) hc
    rw [regCommands_win _ _ _ _ _ hy] at rest ⊢
    refine .access_phase h hm hc hturn fun ho => ?_
    rw [regAccess_window hy ho]
    have hleft : (RegStep.win y).left = 1 + (RegStep.win y.next).left := by
      cases y
      case data => exact absurd rfl hy
      all_goals rfl
    have hgoto : ((regAccess q wr a w (.win y) s).2.goto q (more (.win y.next))).ctx q =
        { x with phase := more (.win y.next), tmp := tmp' } := by rw [ctx_goto_same, hctx']
    have hrow := ih (b := (regAccess q wr a w (.win y) s).2) ⟨(SameButCtx.refl _).goto .., tmp', hgoto⟩ (hpass.cfg ▸ hc)
      (fun u r tmp hu hcfg hh => turn u r tmp hu (hcfg.trans hpass.cfg) (hh.trans hpass.h))
      (fun t v r tmp ht hrest hok hread => ?_) tmp' hgoto (turn _ _ _ hgoto hpass.cfg hpass.h)
    · rw [hpass.cfg, hpass.h] at hrow
      exact hrow
    refine rest t v r tmp ht ?_ ?_ ?_
    · rw [hpass.cfg, hpass.h] at hrest
      exact hpass.trans hrest
    · rw [hleft]
      exact hpass.okNext.mpr ⟨okNext_one.mpr (h.same.draw 0 ▸ ho), hok⟩
    · rintro hw _ bs n ⟨⟩ hd hlen
      have hpos := (RegStep.win y.next).left_pos
      refine hread hw y.next bs n rfl ?_ hlen
      rw [hpass.draw, ← hd, hleft]
      congr 1
      simp only [List.length_singleton]
      omega

end

end Sys2Proof.Machine
end

section
/-! SUPPORT. The negotiation of `init` and `resume` (44_lifecycle.md rules R232 to R245): its steps as a row of
transactions. -/

namespace Sys2Proof.Machine

/-! ### Where a negotiation stands (R232) -/

/-- A state with a negotiation begun: what phase N0 writes. -/
def begun (s : State) : State := s.setH { s.h with life := .negotiating, initialized := false }

/-- A requester negotiates at phase `p` of `op`; `r` says whether it skips the identification. -/
structure NegAt (q : Requester) (op : OpSel) (r : Bool) (p : Phase) (b s : State) : Prop where
  same : SameButCtx b s
  runs : (s.ctx q).op = op
  resume : (s.ctx q).args.resume = r
  phase : (s.ctx q).phase = p

/-- A requester polls the I/O-ready bit, `i` polls made. -/
structure PollAt (q : Requester) (op : OpSel) (r : Bool) (i : Nat) (b s : State) : Prop extends
    NegAt q op r .poll b s where
  made : (s.ctx q).poll = i

/-- A part of a negotiation: a transaction that fails ends it (R245). -/
abbrev NegRow (q : Requester) : (State → State → Prop) → List Output → State → State → Prop :=
  Row q fun t => t.failInitTransport q

/-- The calls that negotiate: `init`, with its operand, and `resume`, which skips the identification (R243, R259). -/
def Negotiates (op : OpSel) (args : Args) (r : Bool) : Prop := op = .init ∧ args.resume = r ∨ op = .resume ∧ r = true

/-- A call that negotiates goes on from phase N0 with its first write. -/
theorem perform_negotiates {op : OpSel} {args : Args} {r : Bool} {s : State} (ho : Negotiates op args r)
    (hi : s.idle s.cur = true) (hl : s.h.life ≠ .negotiating) :
    ∃ u, perform op args s = runPhases 63 s.cur u ∧ NegAt s.cur op r (.neg .winEn) (begun s) u := by
  have hstart : phaseTurn s.cur (s.load s.cur op args) = beginNegotiation s.cur r (s.load s.cur op args) := by
    obtain ⟨rfl, rfl⟩ | ⟨rfl, rfl⟩ := ho <;> simp [phaseTurn, startTurn, startInit, startResume]
  rw [beginNegotiation, if_neg (by simpa using hl)] at hstart
  exact ⟨_, perform_from hi hstart, ⟨⟨rfl, rfl, rfl, rfl, rfl, rfl, rfl, rfl⟩, by simp, by simp, by simp⟩⟩

/-! ### The writes (R233, R234, R235, R237, R238) -/

/-- The phase after a negotiation write (R232). -/
def negNext (c : Cfg) (r : Bool) : NegWrite → Phase
  | .winEn => .neg .f0Lo
  | .f0Lo => .neg .f0Hi
  | .f0Hi => .neg .ioEn
  | .ioEn => .poll
  | .f1Lo => .neg .f1Hi
  | .f1Hi => .neg .intEn
  | .intEn => if r then .identSkip else .ident (regFirst c c.chipIdReg)

section
variable {q : Requester} {op : OpSel} {r : Bool} {b s : State} {w : NegWrite} {i p : Nat}

theorem NegAt.afterNeg (h : NegAt q op r (.neg w) b s) : NegAt q op r (negNext b.cfg r w) b (afterNeg q w s) := by
  obtain ⟨same, hruns, hresume, -⟩ := h
  cases w
  case ioEn => exact ⟨(same.setCtx ..).goto .., by simpa [Machine.afterNeg], by simpa [Machine.afterNeg],
    by simp [Machine.afterNeg, negNext]⟩
  all_goals exact ⟨same.goto .., by simpa [Machine.afterNeg], by simpa [Machine.afterNeg],
    by simp [Machine.afterNeg, negNext, hresume, same.cfg]⟩

/-- A transaction leaves a negotiation where it was, counted from what the transaction left. -/
theorem NegAt.sb {p : Phase} (h : NegAt q op r p b s) (x : SbReq) : NegAt q op r p (s.sb x).2 (s.sb x).2 :=
  ⟨.refl _, h.runs, h.resume, h.phase⟩

/-- A negotiation write: the row that is its one transaction. -/
theorem negWrite_row {P : State → State → Prop} (h : NegAt q op r (.neg w) b s)
    (next : NegAt q op r (negNext b.cfg r w) (s.sb (negReq b.cfg w)).2 (Machine.afterNeg q w (s.sb (negReq b.cfg w)).2) →
      P (s.sb (negReq b.cfg w)).2 (Machine.afterNeg q w (s.sb (negReq b.cfg w)).2)) :
    NegRow q P [(negReq b.cfg w).output] b s := by
  refine .sb (ok := fun _ t => Machine.afterNeg q w t) h.same (by simp [h.phase]) ?_ fun _ => .arrived (next ?_)
  · simp only [phaseTurn, h.phase, negTurn, h.same.cfg]
  · simpa [h.same.cfg] using (h.sb (negReq b.cfg w)).afterNeg

/-- One write after another. -/
theorem negWrite_then {P : State → State → Prop} {l : List Output} (h : NegAt q op r (.neg w) b s)
    (next : ∀ b' s', b'.cfg = b.cfg → NegAt q op r (negNext b.cfg r w) b' s' → NegRow q P l b' s') :
    NegRow q P ((negReq b.cfg w).output :: l) b s :=
  (negWrite_row (P := NegAt q op r (negNext b.cfg r w)) h id).append
    fun b' s' hat hpass _ => next b' s' hpass.cfg hat

/-- The commands of steps 1 to 3 (R233 to R235). -/
def firstWrites (c : Cfg) : List Output :=
  [(negReq c .winEn).output, (negReq c .f0Lo).output, (negReq c .f0Hi).output, (negReq c .ioEn).output]

/-- The commands of steps 5 and 6 (R237, R238). -/
def lastWrites (c : Cfg) : List Output :=
  [(negReq c .f1Lo).output, (negReq c .f1Hi).output, (negReq c .intEn).output]

/-- The command of a poll (R236). -/
def pollCommand (c : Cfg) : Output := sbOut false c.ioRdyReg false 0

theorem negotiationOut_eq (c : Cfg) (n : Nat) :
    negotiationOut c n = firstWrites c ++ List.replicate n (pollCommand c) ++ lastWrites c := rfl

theorem firstWrites_row (h : NegAt q op r (.neg .winEn) b s) : NegRow q (PollAt q op r 0) (firstWrites b.cfg) b s := by
  refine negWrite_then h fun b1 s1 h1 hat => ?_
  rw [← h1]
  refine negWrite_then hat fun b2 s2 h2 hat => ?_
  rw [← h2]
  refine negWrite_then hat fun b3 s3 h3 hat => ?_
  rw [← h3]
  exact negWrite_row hat fun hat => ⟨hat, by simp [Machine.afterNeg]⟩

theorem lastWrites_row (h : NegAt q op r (.neg .f1Lo) b s) :
    NegRow q (NegAt q op r (negNext b.cfg r .intEn)) (lastWrites b.cfg) b s := by
  refine negWrite_then h fun b1 s1 h1 hat => ?_
  rw [← h1]
  refine negWrite_then hat fun b2 s2 h2 hat => ?_
  rw [← h2]
  exact negWrite_row hat id

/-! ### The polls (R236, R239) -/

/-- The byte of a read whose answer is listed. -/
theorem sb_byte_scripted (s : State) (l : Loc8) {x : Byte} {n : Nat} (h : s.draw 0 = .scripted true [x] n) :
    (s.sb (readReq l)).1.byte = x := by
  rw [sb_reply_eq, nextDraw_eq_draw, h]
  rfl

/-- What follows a poll that brought back `x`. -/
def afterPoll (q : Requester) (c : Cfg) (x : Byte) (t : State) : State :=
  if x &&& c.ioRdyMask = 0 then
    if Config.readyPolls ≤ (t.ctx q).poll + 1 then
      ((t.setCtx q { t.ctx q with poll := (t.ctx q).poll + 1 }).addLog .notReady).failInit q .eNotReady
    else t.setCtx q { t.ctx q with poll := (t.ctx q).poll + 1 }
  else (t.setCtx q { t.ctx q with poll := (t.ctx q).poll + 1 }).goto q (.neg .f1Lo)

/-- A poll whose answer, if it is `OK`, is listed. -/
theorem poll_row {P : State → State → Prop} (h : PollAt q op r i b s)
    (answer : OkNext b 1 → ∃ x n, b.draw 0 = .scripted true [x] n ∧
      ∀ t, PollAt q op r i t t → t.cfg = b.cfg → P t (afterPoll q b.cfg x t)) :
    NegRow q P [pollCommand b.cfg] b s := by
  refine .sb (r := readReq b.cfg.ioRdyReg) (ok := afterPoll q b.cfg) h.same (by simp [h.phase]) ?_ fun ho => .arrived ?_
  · simp only [phaseTurn, h.phase, pollTurn, h.same.cfg]
    rfl
  · obtain ⟨x, n, hd, hP⟩ := answer (okNext_one.mpr (h.same.draw 0 ▸ ho))
    rw [sb_byte_scripted _ _ ((h.same.draw 0).trans hd)]
    exact hP _ ⟨h.toNegAt.sb _, h.made⟩ h.same.cfg

/-- A poll with the bit not seen, and polls left. -/
theorem afterPoll_again {t : State} {x : Byte} (h : PollAt q op r i t t) (hi : i + 1 < 3) {c : Cfg}
    (hx : x &&& c.ioRdyMask = 0) : PollAt q op r (i + 1) t (afterPoll q c x t) := by
  obtain ⟨⟨same, hruns, hresume, hphase⟩, hmade⟩ := h
  rw [afterPoll, if_pos hx, if_neg (by rw [hmade]; exact not_le.mpr hi)]
  exact ⟨⟨same.setCtx .., by simpa, by simpa, by simpa⟩, by simpa⟩

/-- A poll with the bit seen. -/
theorem afterPoll_seen {t : State} {x : Byte} (h : PollAt q op r i t t) {c : Cfg} (hx : x &&& c.ioRdyMask ≠ 0) :
    NegAt q op r (.neg .f1Lo) t (afterPoll q c x t) := by
  obtain ⟨⟨same, hruns, hresume, -⟩, -⟩ := h
  rw [afterPoll, if_neg hx]
  exact ⟨(same.setCtx ..).goto .., by simpa, by simpa, by simp⟩

/-- The answers from number `i` on are those of `p + 1` polls of which the last sees the I/O-ready bit, as far as they and
those before them are `OK`. -/
def PollAnswers (b : State) (p i : Nat) : Prop :=
  ∀ j, j ≤ p → OkNext b (i + j + 1) →
    ∃ x n, b.draw (i + j) = .scripted true [x] n ∧ (x &&& b.cfg.ioRdyMask ≠ 0 ↔ j = p)

/-- The same after answers that were `OK`. -/
theorem PollAnswers.passed {l : List Output} {b' : State} (h : PollAnswers b p (l.length + i)) (hpass : Passed l b b')
    (ho : OkNext b l.length) : PollAnswers b' p i := by
  intro j hj hok
  rw [hpass.draw, hpass.cfg, Nat.add_comm, ← Nat.add_assoc]
  refine h j hj ?_
  rw [Nat.add_assoc, Nat.add_assoc, ← Nat.add_assoc i]
  exact hpass.okNext.mpr ⟨ho, hok⟩

/-- The same after the first poll. -/
theorem PollAnswers.later (h : PollAnswers b (p + 1) i) : PollAnswers b p (1 + i) := by
  intro j hj hok
  obtain ⟨x, n, hd, hx⟩ := h (j + 1) (by omega) (hok.mono (by omega))
  exact ⟨x, n, by rwa [show 1 + i + j = i + (j + 1) by omega], by rw [hx, Nat.add_right_cancel_iff]⟩

/-- The polls up to the one that sees the bit, at most three in all. -/
theorem polls_row (h : PollAt q op r i b s) (hi : i + p < 3) (ha : PollAnswers b p 0) :
    NegRow q (NegAt q op r (.neg .f1Lo)) (List.replicate (p + 1) (pollCommand b.cfg)) b s := by
  induction p generalizing i b s with
  | zero =>
    refine poll_row h fun ho => ?_
    obtain ⟨x, n, hd, hx⟩ := ha 0 le_rfl ho
    exact ⟨x, n, hd, fun t hat _ => afterPoll_seen hat (hx.mpr rfl)⟩
  | succ p ih =>
    have hfirst : NegRow q (PollAt q op r (i + 1)) [pollCommand b.cfg] b s := by
      refine poll_row h fun ho => ?_
      obtain ⟨x, n, hd, hx⟩ := ha 0 (Nat.zero_le _) ho
      exact ⟨x, n, hd, fun t hat _ => afterPoll_again hat (by omega) (not_not.mp (mt hx.mp (by omega)))⟩
    refine hfirst.append (m := List.replicate (p + 1) (pollCommand b.cfg)) fun b' s' hat hpass ho => ?_
    rw [← hpass.cfg]
    exact ih hat (by omega) (PollAnswers.passed (l := [pollCommand b.cfg]) ha.later hpass ho)

/-! ### Steps 1 to 6 (R232 to R238) -/

/-- Steps 1 to 6 of a negotiation that sees the I/O-ready bit at poll `p + 1`. -/
theorem negotiation_row (h : NegAt q op r (.neg .winEn) b s) (hp : p < 3) (ha : PollAnswers b p 4) :
    NegRow q (NegAt q op r (negNext b.cfg r .intEn)) (negotiationOut b.cfg (p + 1)) b s := by
  rw [negotiationOut_eq, List.append_assoc]
  refine (firstWrites_row h).append fun b1 s1 hat1 hpass1 ho1 => ?_
  rw [← hpass1.cfg]
  refine (polls_row hat1 (by omega) (PollAnswers.passed (i := 0) ha hpass1 ho1)).append fun b2 s2 hat2 hpass2 _ => ?_
  rw [← hpass2.cfg]
  exact lastWrites_row hat2

end

end Sys2Proof.Machine
end

section
/-! CERTIFICATE. The outcomes of a negotiation on given answers (44_lifecycle.md rules R236 to R245): identified or not,
the identification skipped, the I/O-ready bit not seen. -/

namespace Sys2Proof.Machine

/-! ### The identification (R240, R242) -/

/-- What follows the identifier: the commit, or the failure of an unknown chip. -/
def identified (q : Requester) (id : Word) (t : State) : State :=
  match classify t.cfg id with
  | .unknown => (t.addLog (.unsupportedChip id)).failInit q .eUnsupportedChip
  | v => commitInit q v t

theorem identTurn_eq (q : Requester) (st : RegStep) (s : State) :
    identTurn q st s = accessTurn q false s.cfg.chipIdReg 0 st .ident (fun t => t.failInitTransport q) (identified q) s :=
  rfl

/-- A requester has the chip's identifier: outside the direct range the word of the four bytes that came back. -/
def HasIdentifier (q : Requester) (op : OpSel) (b b' s' : State) : Prop :=
  ∃ id, s' = identified q id b' ∧ (b'.ctx q).op = op ∧ (inDirect b.cfg b.cfg.chipIdReg = false → ∀ bs n,
    b.draw 3 = .scripted true bs n → bs.length = 4 → id = bytesToWord bs)

section
variable {q : Requester} {op : OpSel} {args : Args} {r : Bool} {b s : State} {p : Nat}

theorem identification_row (h : NegAt q op r (.ident (regFirst b.cfg b.cfg.chipIdReg)) b s) (hc : b.cfg.wf = true) :
    NegRow q (HasIdentifier q op b) (readRegBus b.cfg b.h.blockSize b.cfg.chipIdReg) b s := by
  obtain ⟨same, hruns, -, hphase⟩ := h
  have hat : Accessing q .ident (s.ctx q) (regFirst b.cfg b.cfg.chipIdReg) b s :=
    ⟨same, (s.ctx q).tmp, by rw [← hphase]⟩
  rw [← regCommands_read _ _ _ 0, ← List.append_nil (regCommands ..)]
  refine .access (value := identified q) hat (by simp) hc (fun u g tmp hctx hcfg _ => ?_)
    fun t id g tmp hctx _ _ hread => .arrived ⟨id, rfl, by rw [hctx]; exact hruns, fun hd bs n hdraw hlen => ?_⟩
  · simp only [phaseTurn, hctx, identTurn_eq, hcfg]
  · rw [regFirst, if_neg (by simp [hd])] at hread
    exact hread rfl _ bs n rfl hdraw hlen

/-! ### A call that negotiates, up to its identification (R232) -/

/-- A call whose steps 1 to 6 are answered `OK`, the I/O-ready bit seen at poll `p + 1`. -/
theorem perform_negotiated (ho : Negotiates op args r) (hr : Ready s) (hl : s.h.life ≠ .negotiating) (hp : p < 3)
    (hok : OkNext s (p + 8)) (ha : PollAnswers s p 4) :
    ∃ b' u, NegAt s.cur op r (negNext s.cfg r .intEn) b' u ∧ Passed (negotiationOut s.cfg (p + 1)) (begun s) b' ∧
      ∃ n, 53 ≤ n ∧ perform op args s = runPhases n s.cur u := by
  obtain ⟨u, hperform, hat⟩ := perform_negotiates ho hr.1 hl
  obtain ⟨b', u', hat', hpass, hrun⟩ := (negotiation_row hat hp ha).completes hr.2 (by rw [negotiationOut_length]; exact hok)
  refine ⟨b', u', hat', hpass, 63 - (p + 8), by omega, ?_⟩
  rw [hperform, ← hrun (63 - (p + 8)), show 63 - (p + 8) + (negotiationOut (begun s).cfg (p + 1)).length = 63 by
    rw [negotiationOut_length]; omega]

/-- The answers of polls of which each is listed. -/
theorem pollAnswers_of_bytes {x : Nat → Byte} (hd : ∀ j, j ≤ p → s.draw (4 + j) = .scripted true [x j] 0)
    (hno : ∀ j, j < p → x j &&& s.cfg.ioRdyMask = 0) (hyes : x p &&& s.cfg.ioRdyMask ≠ 0) : PollAnswers s p 4 := by
  refine fun j hj _ => ⟨x j, 0, hd j hj, fun h => ?_, fun h => h ▸ hyes⟩
  exact hj.eq_or_lt.resolve_right fun hlt => h (hno j hlt)

/-! ### The end of `init` -/

/-- What a negotiation leaves that has ended with an answer after the outputs `l`: the handle `h`, the events `es`. -/
structure NegEnded (q : Requester) (s : State) (h : Handle) (es : List LogEvent) (l : List Output) (a : Answer)
    (t : State) : Prop where
  idle : t.idle q = true
  h : t.h = h
  buf : t.buf = s.buf
  log : t.log = s.log ++ es
  out : t.out = s.out ++ l ++ [.response q a]

variable {l : List Output} {b' : State} {v : Variant}

/-- `init` ends with the commit (R244). -/
theorem commitInit_ended {u : State} (hu : SameButCtx b' u) (hpass : Passed l (begun s) b') (ho : (u.ctx q).op = .init) :
    NegEnded q s { s.h with variant := v, blockSize := some 512, initialized := true, life := .ready } [] l (.ok .unit)
      (commitInit q v u) := by
  have hpass' := hpass.trans hu.passed
  rw [List.append_nil] at hpass'
  unfold commitInit
  rw [if_neg (by simp [ho])]
  refine ⟨idle_finish .., ?_, hpass'.buf, by simp [hpass'.log, begun], by simp [hpass'.out, begun]⟩
  simp [hpass'.h, begun, Config.blockSizeReq]

/-- A negotiation that fails after its transactions, with one event (R239, R243, R245). -/
theorem failInit_ended {u : State} {e : LogEvent} {c : Code} (hu : SameButCtx b' u) (hpass : Passed l (begun s) b') :
    NegEnded q s (negotiationFailed s.h) [e] l (.fail c) ((u.addLog e).failInit q c) := by
  have hpass' := hpass.trans hu.passed
  rw [List.append_nil] at hpass'
  refine ⟨idle_failInit .., ?_, hpass'.buf, by simp [hpass'.log, begun], by simp [hpass'.out, begun]⟩
  simp [hpass'.h, begun, negotiationFailed]

theorem classify_known {c : Cfg} {id : Word} (h : id &&& c.chipIdMask = c.chipIdPatA ∨ id &&& c.chipIdMask = c.chipIdPatB) :
    classify c id = if id &&& c.chipIdMask = c.chipIdPatA then .a else .b := by
  unfold classify
  split
  · rfl
  · rw [if_pos (h.resolve_left ‹_›)]

theorem classify_unknown {c : Cfg} {id : Word} (ha : id &&& c.chipIdMask ≠ c.chipIdPatA)
    (hb : id &&& c.chipIdMask ≠ c.chipIdPatB) : classify c id = .unknown := by
  rw [classify, if_neg ha, if_neg hb]

theorem identified_known {t : State} {id : Word} (hv : classify t.cfg id = v) (hk : v ≠ .unknown) :
    identified q id t = commitInit q v t := by
  unfold identified
  rw [hv]
  cases v
  · exact absurd rfl hk
  · rfl
  · rfl

theorem identified_unknown {t : State} {id : Word} (hv : classify t.cfg id = .unknown) :
    identified q id t = (t.addLog (.unsupportedChip id)).failInit q .eUnsupportedChip := by
  unfold identified
  rw [hv]

end

/-- What `init(false)` leaves whose transactions, the identifier's through the window too, are answered `OK`. -/
theorem perform_identified {p l : Nat} {bs : List Byte} {s : State} (hr : Ready s) (hc : s.cfg.wf = true)
    (hl : s.h.life ≠ .negotiating) (hdir : inDirect s.cfg s.cfg.chipIdReg = false) (hp : p < 3) (hok : OkNext s (p + 12))
    (ha : PollAnswers s p 4) (hdata : s.draw (p + 11) = .scripted true bs l) (hlen : bs.length = 4) :
    ∃ b' n, (b'.ctx s.cur).op = .init ∧
      Passed (negotiationOut s.cfg (p + 1) ++ readRegOut s.cfg s.h.blockSize s.cfg.chipIdReg) (begun s) b' ∧
      exec (.init false) s = runPhases n s.cur (identified s.cur (bytesToWord bs) b') := by
  obtain ⟨b1, u, hat, hpass, n, hn, hperform⟩ :=
    perform_negotiated (op := .init) (args := { Args.zero with resume := false }) (r := false) (.inl ⟨rfl, rfl⟩) hr hl
      hp (hok.mono (by omega)) ha
  have hdir' : inDirect b1.cfg b1.cfg.chipIdReg = false := hpass.cfg ▸ hdir
  have hphase : negNext s.cfg false .intEn = .ident (regFirst b1.cfg b1.cfg.chipIdReg) := by rw [hpass.cfg]; rfl
  have hlength : (negotiationOut s.cfg (p + 1)).length = p + 8 := negotiationOut_length ..
  have hok1 : OkNext b1 4 := (hpass.okNext.mp (by rw [hlength]; exact hok)).2
  have hrow := identification_row (hphase ▸ hat) (hpass.cfg ▸ hc : b1.cfg.wf = true)
  rw [readRegBus_windowed _ hdir'] at hrow
  obtain ⟨b2, _, ⟨id, rfl, hop, hread⟩, hpass2, hrun⟩ := hrow.completes (hpass.busOwner.trans hr.2) hok1
  obtain rfl : id = bytesToWord bs := hread hdir' bs l (by rw [hpass.draw, hlength, Nat.add_comm]; exact hdata) hlen
  refine ⟨b2, n - 4, hop, ?_, ?_⟩
  · rw [hpass.cfg, hpass.h] at hpass2
    exact hpass.trans hpass2
  · rw [← hrun (n - 4), readRegOut_length, Nat.sub_add_cancel (by omega)]
    exact hperform

/-- Settles O40: the two ways the identifier is classified after the transactions of steps 1 to 7. -/
theorem initIdentifiesChip : Obligations.InitIdentifiesChip := by
  intro p x d0 d1 d2 d3 l id s hr hc hl hdir hp hok hd hno hyes hdata hid
  have hok' : OkNext s (p + 12) := fun k hk => by
    obtain hlt | rfl := Nat.lt_succ_iff_lt_or_eq.mp hk
    · exact hok k hlt
    · rw [hdata]; rfl
  obtain ⟨b', n, hop, hpass, hexec⟩ :=
    perform_identified hr hc hl hdir hp hok' (pollAnswers_of_bytes hd hno hyes) hdata rfl
  obtain rfl : id = bytesToWord [d0, d1, d2, d3] := hid
  generalize bytesToWord [d0, d1, d2, d3] = id at hexec ⊢
  have hcfg : b'.cfg = s.cfg := hpass.cfg
  by_cases hk : id &&& s.cfg.chipIdMask = s.cfg.chipIdPatA ∨ id &&& s.cfg.chipIdMask = s.cfg.chipIdPatB
  · have hclass : classify b'.cfg id = _ := (congrArg (classify · id) hcfg).trans (classify_known hk)
    rw [identified_known hclass (by split <;> simp)] at hexec
    obtain ⟨hidle, hh, hbuf, hlog, hout⟩ := commitInit_ended (.refl b') hpass hop
    refine ⟨_, hexec.trans (runPhases_idle _ _ _ hidle), hidle, hbuf, fun _ => ⟨hh, by simpa using hlog, ?_⟩, ?_⟩
    · rw [hout, ← List.append_assoc s.out]
    · exact fun ha hb => absurd hk (not_or.mpr ⟨ha, hb⟩)
  · obtain ⟨ha, hb⟩ := not_or.mp hk
    rw [identified_unknown (hcfg ▸ classify_unknown ha hb)] at hexec
    obtain ⟨hidle, hh, hbuf, hlog, hout⟩ := failInit_ended (.refl b') hpass
    refine ⟨_, hexec.trans (runPhases_idle _ _ _ hidle), hidle, hbuf, fun h => absurd h hk, fun _ _ => ⟨hh, hlog, ?_⟩⟩
    rw [hout, ← List.append_assoc s.out]

/-! ### The identification skipped (R243) -/

/-- The step that skips the identification: the commit with the variant known before, or the failure. -/
theorem identSkip_turn {q : Requester} {op : OpSel} {r : Bool} {b u : State} (h : NegAt q op r .identSkip b u) :
    phaseTurn q u = .moved (if b.h.variant = .unknown then (u.addLog (.unsupportedChip 0)).failInit q .eUnsupportedChip
      else commitInit q b.h.variant u) := by
  simp only [phaseTurn, h.phase, identSkipTurn, ← h.same.h]
  cases u.h.variant <;> rfl

/-- A call that skips the identification, its steps 1 to 6 answered `OK`, runs on from that step. -/
theorem perform_skips {op : OpSel} {args : Args} {p : Nat} {s : State} (ho : Negotiates op args true) (hr : Ready s)
    (hl : s.h.life ≠ .negotiating) (hp : p < 3) (hok : OkNext s (p + 8)) (ha : PollAnswers s p 4) :
    ∃ b' u n, 52 ≤ n ∧ SameButCtx b' u ∧ (u.ctx s.cur).op = op ∧
      Passed (negotiationOut s.cfg (p + 1)) (begun s) b' ∧
      perform op args s = runPhases n s.cur
        (if s.h.variant = .unknown then (u.addLog (.unsupportedChip 0)).failInit s.cur .eUnsupportedChip
         else commitInit s.cur s.h.variant u) := by
  obtain ⟨b', u, hat, hpass, n, hn, hperform⟩ := perform_negotiated ho hr hl hp hok ha
  obtain ⟨n, rfl⟩ := Nat.exists_eq_succ_of_ne_zero (Nat.ne_zero_of_lt hn)
  have hskip := identSkip_turn (b := b') hat
  rw [hpass.h] at hskip
  exact ⟨b', u, n, by omega, hat.same, hat.runs, hpass,
    hperform.trans (phase_moved (by simp [hat.phase, negNext]) hskip)⟩

/-- Such a call fails where no variant is known (R243). -/
theorem perform_unknown {op : OpSel} {args : Args} {p : Nat} {s : State} (ho : Negotiates op args true) (hr : Ready s)
    (hl : s.h.life ≠ .negotiating) (hp : p < 3) (hok : OkNext s (p + 8)) (ha : PollAnswers s p 4)
    (hv : s.h.variant = .unknown) :
    ∃ t, perform op args s = .next t ∧ NegEnded s.cur s (negotiationFailed s.h) [.unsupportedChip 0]
      (negotiationOut s.cfg (p + 1)) (.fail .eUnsupportedChip) t := by
  obtain ⟨b', u, n, -, hsame, -, hpass, hperform⟩ := perform_skips ho hr hl hp hok ha
  rw [if_pos hv] at hperform
  have hended := failInit_ended (q := s.cur) (e := .unsupportedChip 0) (c := .eUnsupportedChip) hsame hpass
  exact ⟨_, hperform.trans (runPhases_idle _ _ _ hended.idle), hended⟩

/-- Settles O41: after the transactions of steps 1 to 6 the variant known before decides. -/
theorem initResumeSkipsIdentification : Obligations.InitResumeSkipsIdentification := by
  intro p x s hr hl hp hok hd hno hyes
  have hneg : Negotiates .init { Args.zero with resume := true } true := .inl ⟨rfl, rfl⟩
  have ha := pollAnswers_of_bytes hd hno hyes
  by_cases hv : s.h.variant = .unknown
  · obtain ⟨t, ht, hidle, hh, -, hlog, hout⟩ := perform_unknown hneg hr hl hp hok ha hv
    exact ⟨t, ht, hidle, fun h => absurd hv h, fun _ => ⟨hh, hlog, hout⟩⟩
  · obtain ⟨b', u, n, -, hsame, hop, hpass, hperform⟩ := perform_skips hneg hr hl hp hok ha
    rw [if_neg hv] at hperform
    obtain ⟨hidle, hh, -, -, hout⟩ := commitInit_ended hsame hpass hop
    exact ⟨_, hperform.trans (runPhases_idle _ _ _ hidle), hidle, fun _ => ⟨hh, hout⟩, fun h => absurd h hv⟩

/-! ### The I/O-ready bit not seen (R236, R239) -/

section
variable {q : Requester} {op : OpSel} {r : Bool} {b s : State} {i : Nat}

/-- A negotiation has failed for want of the I/O-ready bit. -/
def NotReady (q : Requester) (b t : State) : Prop :=
  ∃ u, SameButCtx b u ∧ t = (u.addLog .notReady).failInit q .eNotReady

/-- Polls none of which sees the bit, the third of them all the last. -/
theorem polls_notReady_row (h : PollAt q op r i b s) {m : Nat} (hi : i + m + 1 = 3)
    (hd : ∀ j, j ≤ m → ∃ x n, b.draw j = .scripted true [x] n ∧ x &&& b.cfg.ioRdyMask = 0) :
    NegRow q (NotReady q) (List.replicate (m + 1) (pollCommand b.cfg)) b s := by
  induction m generalizing i b s with
  | zero =>
    obtain ⟨x, n, hx, hno⟩ := hd 0 le_rfl
    refine poll_row h fun _ => ⟨x, n, hx, fun t hat _ => ?_⟩
    rw [afterPoll, if_pos hno, if_pos (by rw [hat.made]; exact hi.ge)]
    exact ⟨_, (SameButCtx.refl t).setCtx q _, rfl⟩
  | succ m ih =>
    obtain ⟨x, n, hx, hno⟩ := hd 0 (Nat.zero_le _)
    have hfirst : NegRow q (PollAt q op r (i + 1)) [pollCommand b.cfg] b s :=
      poll_row h fun _ => ⟨x, n, hx, fun t hat _ => afterPoll_again hat (by omega) hno⟩
    refine hfirst.append (m := List.replicate (m + 1) (pollCommand b.cfg)) fun b' s' hat hpass _ => ?_
    rw [← hpass.cfg]
    refine ih hat (by omega) fun j hj => ?_
    rw [hpass.draw, hpass.cfg]
    exact hd (j + 1) (Nat.succ_le_succ hj)

theorem negotiation_notReady_row (h : NegAt q op r (.neg .winEn) b s)
    (hd : ∀ j, j < 3 → ∃ x n, b.draw (4 + j) = .scripted true [x] n ∧ x &&& b.cfg.ioRdyMask = 0) :
    NegRow q (NotReady q) ((negotiationOut b.cfg 3).take 7) b s := by
  refine (firstWrites_row h).append (m := List.replicate 3 (pollCommand b.cfg)) fun b1 s1 hat hpass _ => ?_
  rw [← hpass.cfg]
  refine polls_notReady_row hat rfl fun j hj => ?_
  rw [hpass.draw, hpass.cfg, Nat.add_comm]
  exact hd j (Nat.lt_succ_of_le hj)

end

/-- Settles O42: the four writes and the three polls, of which the last ends the negotiation. -/
theorem initNotReadyAfterThreePolls : Obligations.InitNotReadyAfterThreePolls := by
  intro r x s hr hl hok hd i hi
  have hok7 : OkNext s 7 := fun k hk => by
    by_cases hlt : k < 4
    · exact hok k hlt
    · have hk' := (hd (k - 4) (by omega)).1
      rw [Nat.add_sub_cancel' (not_lt.mp hlt)] at hk'
      rw [hk']; rfl
  have ends {op : OpSel} {args : Args} {r : Bool} (ho : Negotiates op args r) :
      ∃ t, perform op args s = .next t ∧ t.idle s.cur = true ∧ t.log = s.log ++ [.notReady] ∧
        t.h = negotiationFailed s.h ∧
        t.out = s.out ++ (negotiationOut s.cfg 3).take 7 ++ [.response s.cur (.fail .eNotReady)] := by
    obtain ⟨u, hperform, hat⟩ := perform_negotiates ho hr.1 hl
    obtain ⟨b', _, ⟨v, hv, rfl⟩, hpass, hrun⟩ := (negotiation_notReady_row hat fun j hj =>
      ⟨x j, 0, (hd j hj).1, (hd j hj).2⟩).completes hr.2 hok7
    obtain ⟨hidle, hh, -, hlog, hout⟩ := failInit_ended hv hpass
    exact ⟨_, hperform.trans ((hrun 56).trans (runPhases_idle _ _ _ hidle)), hidle, hlog, hh, hout⟩
  simp only [List.mem_cons, List.not_mem_nil, or_false] at hi
  obtain rfl | rfl := hi
  · exact ends (op := .init) (.inl ⟨rfl, rfl⟩)
  · exact ends (op := .resume) (r := true) (.inr ⟨rfl, rfl⟩)

end Sys2Proof.Machine
end

section
/-! SUPPORT. The updates of `syncInterrupts` (44_lifecycle.md rules R249 to R256), called by itself or by `resume`: the
registers of its plan one after the other, as a row of transactions. -/

namespace Sys2Proof.Machine

/-! ### The plan, register by register (R249) -/

/-- The registers updated after one, in order (R249, R254). -/
def syncRest (gpio : Bool) (n : Nat) : RmwReg → List RmwReg
  | .misc => if gpio then [.pinmux, .en1] ++ (if 5 < n then [.en2] else []) else []
  | .pinmux => .en1 :: (if 5 < n then [.en2] else [])
  | .en1 => if 5 < n then [.en2] else []
  | .en2 => []

/-- A list of registers that is the end of a plan. -/
def PlanEnd (gpio : Bool) (n : Nat) (gs : List RmwReg) : Prop := ∀ g gs', gs = g :: gs' → gs' = syncRest gpio n g

theorem planEnd_nil (gpio : Bool) (n : Nat) : PlanEnd gpio n [] := nofun

theorem planEnd_cons (gpio : Bool) (n : Nat) (g : RmwReg) : PlanEnd gpio n (g :: syncRest gpio n g) := by
  rintro _ _ ⟨⟩
  rfl

theorem planEnd_rest (gpio : Bool) (n : Nat) (g : RmwReg) : PlanEnd gpio n (syncRest gpio n g) := by
  cases g with
  | misc =>
    cases gpio with
    | false => exact planEnd_nil _ _
    | true => exact planEnd_cons true n .pinmux
  | pinmux => exact planEnd_cons gpio n .en1
  | en1 =>
    simp only [syncRest]
    split
    · exact planEnd_cons gpio n .en2
    · exact planEnd_nil _ _
  | en2 => exact planEnd_nil _ _

/-- A plan is what comes after the power-sequencer register, with that register before it for variant B (R253). -/
theorem syncPlan_eq (s : State) (n : Nat) : syncPlan s n =
    if s.h.variant = .b then .misc :: syncRest s.h.gpioIrq n .misc else syncRest s.h.gpioIrq n .misc := by
  unfold syncPlan
  split <;> rfl

theorem planEnd_plan (s : State) (n : Nat) : PlanEnd s.h.gpioIrq n (syncPlan s n) := by
  rw [syncPlan_eq]
  split
  · exact planEnd_cons _ _ _
  · exact planEnd_rest _ _ _

/-- A plan does not begin with an enable register. -/
theorem syncPlan_head (s : State) (n : Nat) :
    (syncPlan s n).head? ≠ some .en1 ∧ (syncPlan s n).head? ≠ some .en2 := by
  by_cases hb : s.h.variant = .b <;> cases hg : s.h.gpioIrq <;> simp [syncPlan, hb, hg]

theorem syncPlan_length_le (s : State) (n : Nat) : (syncPlan s n).length ≤ 4 := by
  unfold syncPlan
  repeat' split
  all_goals simp

/-- The commands that update registers, the first of which is number `i` of its plan (R252). -/
def updateCommands (c : Cfg) (bs : Option Nat) (n : Nat) (v : Nat → Word) (i : Nat) (gs : List RmwReg) : List Output :=
  (gs.zipIdx i).flatMap fun p =>
    readRegOut c bs (rmwAddr c p.1) ++ writeRegOut c bs (rmwAddr c p.1) (syncValue c n (v p.2) p.1)

theorem syncOut_eq (s : State) (n : Nat) (v : Nat → Word) :
    syncOut s n v = updateCommands s.cfg s.h.blockSize n v 0 (syncPlan s n) := rfl

theorem updateCommands_length (c : Cfg) (bs : Option Nat) (n : Nat) (v : Nat → Word) (i : Nat) (gs : List RmwReg) :
    (updateCommands c bs n v i gs).length = 8 * gs.length := by
  induction gs generalizing i with
  | nil => rfl
  | cons g gs ih =>
    have hcons : updateCommands c bs n v i (g :: gs) =
        readRegOut c bs (rmwAddr c g) ++ writeRegOut c bs (rmwAddr c g) (syncValue c n (v i) g) ++
          updateCommands c bs n v (i + 1) gs := rfl
    rw [hcons]
    simp only [List.length_append, readRegOut_length, writeRegOut_length, ih, List.length_cons]
    omega

theorem syncOut_length_le (s : State) (n : Nat) (v : Nat → Word) : (syncOut s n v).length ≤ 32 := by
  have := syncPlan_length_le s n
  rw [syncOut_eq, updateCommands_length]
  omega

/-! ### The update of one register (R252 to R255) -/

/-- A requester updates registers for `n` lines, `gs` still to come: with the first enable register next all of the lines
are left to allocate, with the second those above five (R255). -/
structure UpdateAt (q : Requester) (op : OpSel) (n : Nat) (gs : List RmwReg) (b s : State) : Prop where
  same : SameButCtx b s
  runs : (s.ctx q).op = op
  lines : (s.ctx q).args.n = n
  en1 : gs.head? = some .en1 → (s.ctx q).rem = n
  en2 : gs.head? = some .en2 → (s.ctx q).rem = n - 5

/-- An operation goes on with the registers still to update, or ends. -/
def syncGo (q : Requester) (s : State) : List RmwReg → State
  | [] => syncDone q s
  | g :: _ => beginRmw q g s

/-- The updates go on with a list of registers. -/
def Updates (q : Requester) (op : OpSel) (n : Nat) (gs : List RmwReg) (b s' : State) : Prop :=
  ∃ s, UpdateAt q op n gs b s ∧ s' = syncGo q s gs

/-- An update that fails ends the operation (R256). -/
abbrev SyncRow (q : Requester) : (State → State → Prop) → List Output → State → State → Prop :=
  Row q fun t => t.raiseTransport q

section
variable {q : Requester} {op : OpSel} {n : Nat} {b s : State} {g : RmwReg} {gs : List RmwReg}

/-- The value an update writes is the one read with the register's bits changed (R252 to R255). -/
theorem update_value (c : Cfg) {x : Ctx} (h1 : g = .en1 → x.rem = n) (h2 : g = .en2 → x.rem = n - 5) (v : Word) :
    (v &&& ~~~(rmwClear c g)) ||| rmwSet c x.rem g = syncValue c n v g := by
  have hkeep : v &&& ~~~(0#32) = v := by rw [BitVec.not_zero, BitVec.and_allOnes]
  cases g with
  | misc => exact BitVec.or_zero
  | pinmux => exact congrArg (· ||| bit32 c.pinmuxIrqBit) hkeep
  | en1 => rw [h1 rfl]; exact congrArg (· ||| en1Bits c n) hkeep
  | en2 => rw [h2 rfl]; exact congrArg (· ||| en2Bits c (n - 5)) hkeep

/-- After the update of a register come the registers after it. -/
theorem afterRmw_updates (h : UpdateAt q op n (g :: syncRest b.h.gpioIrq n g) b s) :
    Updates q op n (syncRest b.h.gpioIrq n g) b (afterRmw q g s) := by
  obtain ⟨same, hruns, hlines, hen1, -⟩ := h
  cases g with
  | misc =>
    refine ⟨s, ⟨same, hruns, hlines, ?_, ?_⟩, ?_⟩
    · cases b.h.gpioIrq <;> simp [syncRest]
    · cases b.h.gpioIrq <;> simp [syncRest]
    · rw [afterRmw, same.h]
      cases b.h.gpioIrq <;> simp [syncRest, syncGo]
  | pinmux =>
    exact ⟨_, ⟨same.setCtx q { s.ctx q with rem := (s.ctx q).args.n }, by simpa, by simpa,
      fun _ => by simpa, by simp [syncRest]⟩, rfl⟩
  | en1 =>
    have hrem : (s.ctx q).rem = n := hen1 rfl
    refine ⟨s.setCtx q { s.ctx q with rem := n - 5 }, ⟨same.setCtx .., by simpa, by simpa, ?_, by simp⟩, ?_⟩
    · by_cases hn : 5 < n <;> simp [syncRest, hn]
    · have hrest : n - min n Config.en1Lines = n - 5 := by simp only [Config.en1Lines]; omega
      simp only [afterRmw, hrem, hrest]
      by_cases hn : 5 < n
      · rw [if_neg (by omega)]; simp [syncRest, hn, syncGo]
      · rw [if_pos (by omega)]; simp [syncRest, hn, syncGo]
  | en2 =>
    exact ⟨_, ⟨same.setCtx q { s.ctx q with rem := _ }, by simpa, by simpa, by simp [syncRest], by simp [syncRest]⟩, rfl⟩

/-- The write half of an update (R252), with the value in the accumulator. -/
theorem updateWrite_row {w : Word} (h : UpdateAt q op n (g :: syncRest b.h.gpioIrq n g) b s) (hc : b.cfg.wf = true)
    (hd : inDirect b.cfg (rmwAddr b.cfg g) = false) (ha : (s.ctx q).acc = w)
    (hp : (s.ctx q).phase = .rmw g .write (regFirst b.cfg (rmwAddr b.cfg g))) :
    SyncRow q (Updates q op n (syncRest b.h.gpioIrq n g)) (writeRegOut b.cfg b.h.blockSize (rmwAddr b.cfg g) w) b s := by
  obtain ⟨same, hruns, hlines, hen1, hen2⟩ := h
  have hat : Accessing q (.rmw g .write) (s.ctx q) (regFirst b.cfg (rmwAddr b.cfg g)) b s :=
    ⟨same, (s.ctx q).tmp, by rw [← hp]⟩
  rw [← writeRegBus_windowed _ _ hd, ← regCommands_write, ← List.append_nil (regCommands ..)]
  refine .access (value := fun _ t => afterRmw q g t) hat (by simp) hc (fun u r tmp hctx hcfg _ => ?_)
    fun t _ r tmp hctx hpass _ _ => .arrived ?_
  · simp only [phaseTurn, hctx, rmwTurn, hcfg, ha]
  · rw [← hpass.h]
    refine afterRmw_updates ⟨.refl t, ?_, ?_, ?_, ?_⟩ <;> rw [hctx]
    exacts [hruns, hlines, fun h => hen1 h, fun h => hen2 h]

/-- The read and the write of one register, which reads `v` if the answers before and of its data command are `OK`. -/
theorem update_row (h : UpdateAt q op n (g :: syncRest b.h.gpioIrq n g) b s) (hc : b.cfg.wf = true)
    (hd : inDirect b.cfg (rmwAddr b.cfg g) = false) {v : Word}
    (hv : OkNext b 4 → ∃ m, b.draw 3 = .scripted true (wordBytes v) m) :
    SyncRow q (Updates q op n (syncRest b.h.gpioIrq n g))
      (readRegOut b.cfg b.h.blockSize (rmwAddr b.cfg g) ++
        writeRegOut b.cfg b.h.blockSize (rmwAddr b.cfg g) (syncValue b.cfg n v g)) b (beginRmw q g s) := by
  obtain ⟨same, hruns, hlines, hen1, hen2⟩ := h
  have hat : Accessing q (.rmw g .read) (s.ctx q) (regFirst b.cfg (rmwAddr b.cfg g)) b (beginRmw q g s) :=
    ⟨same.goto .., (s.ctx q).tmp, by rw [beginRmw, ctx_goto_same, same.cfg]⟩
  rw [← readRegBus_windowed _ hd, ← regCommands_read _ _ _ 0]
  refine .access (value := fun x t => (t.setAcc q ((x &&& ~~~(rmwClear b.cfg g)) ||| rmwSet b.cfg (s.ctx q).rem g)).goto q
      (.rmw g .write (regFirst b.cfg (rmwAddr b.cfg g)))) hat (by simp) hc (fun u r tmp hctx hcfg _ => ?_)
    fun t x r tmp hctx hpass hok hread => ?_
  · simp only [phaseTurn, hctx, rmwTurn, hcfg]
  · rw [regFirst, if_neg (by simp [hd])] at hok hread
    obtain ⟨m, hdraw⟩ := hv hok
    have hx : x = v := (hread rfl _ _ m rfl hdraw rfl).trans (bytesToWord_wordBytes v)
    rw [hx, update_value _ (fun h => hen1 (by rw [h]; rfl)) (fun h => hen2 (by rw [h]; rfl)), ← hpass.h, ← hpass.cfg]
    refine updateWrite_row ⟨((SameButCtx.refl t).setAcc ..).goto .., ?_, ?_, ?_, ?_⟩ (hpass.cfg ▸ hc) (hpass.cfg ▸ hd)
      (by simp) (by simp) <;> rw [ctx_goto_same, ctx_setAcc_same, hctx]
    exacts [hruns, hlines, fun h => hen1 h, fun h => hen2 h]

/-! ### The updates of a plan (R249, R256) -/

/-- The registers `gs` read the words `v i`, `v (i + 1)`, … as far as the answers before and of each data command are
`OK`. -/
def UpdateAnswers (v : Nat → Word) (i : Nat) (gs : List RmwReg) (b : State) : Prop :=
  ∀ j, j < gs.length → OkNext b (8 * j + 4) → ∃ m, b.draw (8 * j + 3) = .scripted true (wordBytes (v (i + j))) m

theorem UpdateAnswers.passed {v : Nat → Word} {i : Nat} {l : List Output} {b' : State}
    (h : UpdateAnswers v i (g :: gs) b) (hpass : Passed l b b') (hl : l.length = 8) (ho : OkNext b l.length) :
    UpdateAnswers v (i + 1) gs b' := by
  intro j hj hok
  rw [hpass.draw, hl, Nat.add_assoc i, Nat.add_comm 1, show 8 * j + 3 + 8 = 8 * (j + 1) + 3 by omega]
  refine h (j + 1) (Nat.succ_lt_succ hj) ?_
  rw [show 8 * (j + 1) + 4 = l.length + (8 * j + 4) by omega]
  exact hpass.okNext.mpr ⟨ho, hok⟩

/-- The updates of the registers that end a plan. -/
theorem updates_row {v : Nat → Word} {i : Nat} (h : UpdateAt q op n gs b s) (hgs : PlanEnd b.h.gpioIrq n gs)
    (hc : b.cfg.wf = true) (hd : syncWindowed b.cfg) (hv : UpdateAnswers v i gs b) :
    SyncRow q (Updates q op n []) (updateCommands b.cfg b.h.blockSize n v i gs) b (syncGo q s gs) := by
  induction gs generalizing i b s with
  | nil => exact .arrived ⟨s, h, rfl⟩
  | cons g gs ih =>
    obtain rfl : gs = syncRest b.h.gpioIrq n g := hgs g gs rfl
    refine (update_row h hc (hd g) (hv 0 (Nat.succ_pos _))).append fun b' s' hat hpass ho => ?_
    obtain ⟨u, hu, rfl⟩ := hat
    have hrow := ih hu (by rw [hpass.h]; exact planEnd_rest _ _ _) (hpass.cfg ▸ hc) (hpass.cfg ▸ hd)
      (hv.passed hpass rfl ho)
    rwa [hpass.cfg, hpass.h] at hrow

/-! ### `syncInterrupts` from its check on (R249 to R251) -/

/-- A state with the line count written (R251). -/
def withLines (s : State) (n : Nat) : State := s.setH { s.h with nint := n }

/-- With an allowed line count and a known variant the updates of the plan begin. -/
theorem syncBody_updates (same : SameButCtx b s) (ho : (s.ctx q).op = op) (hn : n ≤ b.cfg.maxIntLines)
    (hv : b.h.variant ≠ .unknown) : Updates q op n (syncPlan b n) (withLines b n) (syncBody q n s) := by
  refine ⟨(withLines s n).setCtx q { s.ctx q with args := { (s.ctx q).args with n := n } }, ⟨?_, by simpa, by simp, ?_, ?_⟩,
    ?_⟩
  · exact ⟨same.cfg, by simp [withLines, same.h], same.busOwner, same.log, same.dev, same.buf, same.out, same.draws⟩
  · exact fun h => absurd h (syncPlan_head b n).1
  · exact fun h => absurd h (syncPlan_head b n).2
  · rw [syncBody, same.cfg, same.h, if_neg (not_lt.mpr hn), if_neg hv]
    by_cases hb : b.h.variant = .b <;> cases hg : b.h.gpioIrq <;> simp [syncPlan, syncGo, hb, hg, withLines, same.h]

/-- The whole of the updates, from the state the check leaves. -/
theorem sync_row {v : Nat → Word} (same : SameButCtx b s) (ho : (s.ctx q).op = op) (hn : n ≤ b.cfg.maxIntLines)
    (hk : b.h.variant ≠ .unknown) (hc : b.cfg.wf = true) (hd : syncWindowed b.cfg)
    (hv : UpdateAnswers v 0 (syncPlan b n) b) :
    SyncRow q (Updates q op n []) (syncOut b n v) (withLines b n) (syncBody q n s) := by
  obtain ⟨u, hu, hbody⟩ := syncBody_updates (q := q) same ho hn hk
  rw [hbody]
  exact updates_row hu (planEnd_plan b n) hc hd hv

end

end Sys2Proof.Machine
end

section
/-! CERTIFICATE. `syncInterrupts`, and `resume` with its negotiation and its `syncInterrupts` (44_lifecycle.md rules R249
to R257, R259): to the end, and to the first transaction that fails. -/

namespace Sys2Proof.Machine

/-! ### Answers up to the first that fails -/

theorem FailsAt.le_of_okNext {s : State} {k n : Nat} (hf : FailsAt s k) (ho : OkNext s n) : n ≤ k := by
  by_contra hlt
  exact Bool.noConfusion ((ho k (not_le.mp hlt)).symm.trans hf.2)

/-- The registers' words, known of the data commands before the first transaction that fails. -/
theorem updateAnswers_of_fails {s : State} {v : Nat → Word} {gs : List RmwReg} {k : Nat} (hf : FailsAt s k)
    (hv : ∀ j, 8 * j + 3 < k → s.draw (8 * j + 3) = .scripted true (wordBytes (v j)) 0) : UpdateAnswers v 0 gs s := by
  intro j _ ho
  rw [Nat.zero_add]
  exact ⟨0, hv j (hf.le_of_okNext ho)⟩

/-- The same of every data command of a plan. -/
theorem updateAnswers_of_plan {s : State} {v : Nat → Word} {gs : List RmwReg}
    (hv : ∀ j, j < gs.length → s.draw (8 * j + 3) = .scripted true (wordBytes (v j)) 0) : UpdateAnswers v 0 gs s := by
  intro j hj _
  rw [Nat.zero_add]
  exact ⟨0, hv j hj⟩

/-- The polls' answers, of which those are known that come before answer `k`. -/
theorem pollAnswers_of_ready {s : State} {p k : Nat} (h : ReadyAtPoll s p k)
    (hk : ∀ j, j ≤ p → OkNext s (4 + j + 1) → 4 + j < k) : PollAnswers s p 4 :=
  fun j hj ho => h.2 j hj (hk j hj ho)

theorem FailsAt.pollAnswers {s : State} {p k : Nat} (hf : FailsAt s k) (h : ReadyAtPoll s p k) : PollAnswers s p 4 :=
  pollAnswers_of_ready h fun _ _ ho => hf.le_of_okNext ho

/-! ### The end of the updates (R249, R259) -/

/-- The outputs with which an operation ends after its updates: `resume` makes its handshakes (R259). -/
def syncEnd (q : Requester) (op : OpSel) : List Output :=
  if op = .resume then [.pmHandshakes, .response q (.ok .unit)] else [.response q (.ok .unit)]

/-- What an operation leaves whose transactions are over: the outputs `l` added. -/
structure RowEnded (q : Requester) (b : State) (l : List Output) (t : State) : Prop where
  idle : t.idle q = true
  h : t.h = b.h
  buf : t.buf = b.buf
  log : t.log = b.log
  out : t.out = b.out ++ l

theorem Passed.rowEnded {q : Requester} {l m : List Output} {s b t : State} (h : Passed l s b) (g : RowEnded q b m t) :
    RowEnded q s (l ++ m) t :=
  ⟨g.idle, g.h.trans h.h, g.buf.trans h.buf, g.log.trans h.log, by rw [g.out, h.out, List.append_assoc]⟩

theorem updates_ended {q : Requester} {op : OpSel} {n : Nat} {b t : State} (h : Updates q op n [] b t) :
    RowEnded q b (syncEnd q op) t := by
  obtain ⟨u, hu, rfl⟩ := h
  unfold syncGo syncDone syncEnd
  rw [hu.runs]
  split
  · exact ⟨idle_finish .., hu.same.h, hu.same.buf, hu.same.log, by simp [hu.same.out]⟩
  · exact ⟨idle_finish .., hu.same.h, hu.same.buf, hu.same.log, by simp [hu.same.out]⟩

/-! ### A run from the check on -/

section
variable {q : Requester} {op : OpSel} {n m k : Nat} {b s : State} {v : Nat → Word}

/-- On answers `OK` the updates of the plan are made and the operation ends. -/
theorem syncBody_completes (hrow : SyncRow q (Updates q op n []) (syncOut b n v) (withLines b n) (syncBody q n s))
    (hb : b.busOwner = none) (ho : OkNext b (syncOut b n v).length) (hm : 32 ≤ m) :
    ∃ t, runPhases m q (syncBody q n s) = .next t ∧
      RowEnded q (withLines b n) (syncOut b n v ++ syncEnd q op) t := by
  obtain ⟨b', t, hend, hpass, hrun⟩ := hrow.completes hb ho
  have hended := updates_ended hend
  have hlen := syncOut_length_le b n v
  refine ⟨t, ?_, hpass.rowEnded hended⟩
  have := hrun (m - (syncOut b n v).length)
  rw [Nat.sub_add_cancel (hlen.trans hm)] at this
  exact this.trans (runPhases_idle _ _ _ hended.idle)

/-- The first transaction of the updates that fails ends the operation (R256). -/
theorem syncBody_fails (hrow : SyncRow q (Updates q op n []) (syncOut b n v) (withLines b n) (syncBody q n s))
    (hb : b.busOwner = none) (hk : k < (syncOut b n v).length) (hf : FailsAt b k) (hm : 32 ≤ m) :
    ∃ t, runPhases m q (syncBody q n s) = .next t ∧ t.idle q = true ∧ t.h = (withLines b n).h ∧ t.buf = b.buf ∧
      t.out = b.out ++ (syncOut b n v).take (k + 1) ++ [.response q (.fail .eTransport)] := by
  obtain ⟨t, ht, hpass⟩ := hrow.fails_at (idle_raiseTransport · q) hb hk hf ((syncOut_length_le b n v).trans hm)
  exact ⟨_, ht, idle_raiseTransport .., hpass.h, hpass.buf, by simp [hpass.out, withLines]⟩

end

/-- Settles O49: the updates of the plan as a row of transactions. -/
theorem syncInterruptsUpdates : Obligations.SyncInterruptsUpdates := by
  intro n v s hr hc hk hn hd
  have hstart : phaseTurn s.cur (s.load s.cur .syncInterrupts { Args.zero with n := n }) =
      .moved (syncBody s.cur n (s.load s.cur .syncInterrupts { Args.zero with n := n })) := by
    simp [phaseTurn, startTurn, startSync]
  have hperform := perform_from hr.1 hstart
  have hrow (ha : UpdateAnswers v 0 (syncPlan s n) s) := sync_row (q := s.cur) (op := .syncInterrupts) (v := v)
    (sameButCtx_load s s.cur .syncInterrupts { Args.zero with n := n }) (by simp) hn hk hc hd ha
  refine ⟨fun ho hv => ?_, fun k hlt hf hv => ?_⟩
  · obtain ⟨t, ht, hidle, hh, hbuf, hlog, hout⟩ := syncBody_completes (m := 63) (hrow (updateAnswers_of_plan hv)) hr.2
      (ho.mono (syncOut_length_le s n v)) (by omega)
    exact ⟨t, hperform.trans ht, hidle, hh, hbuf, hlog, hout.trans (List.append_assoc ..).symm⟩
  · obtain ⟨t, ht, hend⟩ := syncBody_fails (m := 63) (hrow (updateAnswers_of_fails hf hv)) hr.2 hlt hf (by omega)
    exact ⟨t, hperform.trans ht, hend⟩

/-! ### `resume` up to its `syncInterrupts` (R243, R244, R259) -/

/-- The handle does not count for what transactions leave, if both states have it. -/
theorem Passed.setH {l : List Output} {s t : State} (h : Passed l s t) (k : Handle) : Passed l (s.setH k) (t.setH k) :=
  ⟨h.cfg, rfl, h.busOwner, h.log, h.buf, h.out, h.draw⟩

/-- A `resume` of `s` whose negotiation has seen the I/O-ready bit at poll `p + 1` and has been committed stands in `u`,
which is `b` but for the contexts. -/
structure Resumed (s : State) (p : Nat) (b u : State) : Prop where
  same : SameButCtx b u
  runs : (u.ctx s.cur).op = .resume
  passed : Passed (negotiationOut s.cfg (p + 1)) (s.setH (negotiated s.h)) b

/-- A `resume` whose negotiation succeeds goes on with its `syncInterrupts` for the line count kept. -/
theorem perform_resumed {p : Nat} {s : State} (hr : Ready s) (hl : s.h.life ≠ .negotiating) (hp : p < 3)
    (hok : OkNext s (p + 8)) (ha : PollAnswers s p 4) (hv : s.h.variant ≠ .unknown) :
    ∃ b u n, 32 ≤ n ∧ Resumed s p b u ∧ exec .resume s = runPhases n s.cur (syncBody s.cur s.h.nint u) := by
  obtain ⟨b', u, n, hn, hsame, hop, hpass, hperform⟩ :=
    perform_skips (op := .resume) (args := Args.zero) (.inr ⟨rfl, rfl⟩) hr hl hp hok ha
  obtain ⟨n, rfl⟩ := Nat.exists_eq_succ_of_ne_zero (Nat.ne_zero_of_lt hn)
  have hh : u.h = (begun s).h := hsame.h.trans hpass.h
  have hcommit : commitInit s.cur s.h.variant u = (u.setH (negotiated s.h)).goto s.cur .syncStart := by
    rw [commitInit, if_pos hop, hh]
    rfl
  have hsync : phaseTurn s.cur ((u.setH (negotiated s.h)).goto s.cur .syncStart) =
      .moved (syncBody s.cur s.h.nint ((u.setH (negotiated s.h)).goto s.cur .syncStart)) := by
    simp [phaseTurn, syncStartTurn]
  rw [if_neg hv, hcommit, phase_moved (by simp) hsync] at hperform
  refine ⟨b'.setH (negotiated s.h), _, n, by omega, ⟨?_, by simp [hop], hpass.setH _⟩, hperform⟩
  obtain ⟨hcfg, -, hbus, hlog, hdev, hbuf, hout, hdraws⟩ := hsame
  exact ⟨hcfg, rfl, hbus, hlog, hdev, hbuf, hout, hdraws⟩

theorem syncOut_congr {s t : State} (hc : t.cfg = s.cfg) (hh : t.h = s.h) (n : Nat) (v : Nat → Word) :
    syncOut t n v = syncOut s n v := by
  simp only [syncOut_eq, syncPlan, hc, hh]

section
variable {s b u : State} {p k : Nat} {v : Nat → Word}

/-- The updates of a `resume` are those of its handle once negotiated. -/
theorem Resumed.syncOut (h : Resumed s p b u) :
    syncOut b s.h.nint v = Machine.syncOut { s with h := negotiated s.h } s.h.nint v :=
  syncOut_congr (s := { s with h := negotiated s.h }) h.passed.cfg h.passed.h _ _

theorem Resumed.plan (h : Resumed s p b u) : syncPlan b s.h.nint = syncPlan s s.h.nint := by
  simp only [syncPlan, h.passed.h, setH_h, negotiated_variant, negotiated_gpioIrq]

/-- The answers after the negotiation's. -/
theorem Resumed.draw (h : Resumed s p b u) (k : Nat) : b.draw k = s.draw (p + 8 + k) := by
  rw [h.passed.draw, negotiationOut_length, Nat.add_comm]
  rfl

theorem Resumed.okNext (h : Resumed s p b u) {n : Nat} (ho : OkNext s (p + 8 + n)) : OkNext b n := fun k hk => by
  rw [h.draw]
  exact ho _ (by omega)

theorem Resumed.failsAt (h : Resumed s p b u) (hf : FailsAt s (p + 8 + k)) : FailsAt b k :=
  ⟨h.okNext hf.1, by rw [h.draw]; exact hf.2⟩

theorem Resumed.row (h : Resumed s p b u) (hc : s.cfg.wf = true) (hv : s.h.variant ≠ .unknown)
    (hn : s.h.nint ≤ s.cfg.maxIntLines) (hd : syncWindowed s.cfg) (ha : UpdateAnswers v 0 (syncPlan b s.h.nint) b) :
    SyncRow s.cur (Updates s.cur .resume s.h.nint []) (Machine.syncOut b s.h.nint v) (withLines b s.h.nint)
      (syncBody s.cur s.h.nint u) :=
  sync_row h.same h.runs (h.passed.cfg ▸ hn) (by rw [h.passed.h]; exact hv) (h.passed.cfg ▸ hc) (h.passed.cfg ▸ hd) ha

/-- The line count kept is written again: nothing changes. -/
theorem Resumed.withLines_h (h : Resumed s p b u) : (withLines b s.h.nint).h = negotiated s.h := by
  rw [withLines, setH_h, h.passed.h]
  rfl

end

/-! ### A negotiation with a transaction that fails (R245) -/

/-- The first transaction of a negotiation that fails ends it. -/
theorem perform_negotiation_fails {op : OpSel} {args : Args} {P : State → State → Prop} {l : List Output} {s u : State}
    {k : Nat} (hr : Ready s) (hrun : perform op args s = runPhases 63 s.cur u) (hrow : NegRow s.cur P l (begun s) u)
    (hlen : l.length ≤ 63) (hk : k < l.length) (hf : FailsAt s k) :
    ∃ t, perform op args s = .next t ∧ t.idle s.cur = true ∧ t.h = negotiationFailed s.h ∧ t.buf = s.buf ∧
      t.out = s.out ++ l.take (k + 1) ++ [.response s.cur (.fail .eTransport)] := by
  obtain ⟨t, ht, hpass⟩ := hrow.fails_at (idle_failInitTransport · s.cur) hr.2 hk hf hlen
  refine ⟨_, hrun.trans ht, idle_failInitTransport .., ?_, hpass.buf, by simp [hpass.out, begun]⟩
  simp [hpass.h, begun, negotiationFailed]

/-- Settles O52: the negotiation's row, the step that skips the identification, and the updates' row. -/
theorem resumeRestoresConfiguration : Obligations.ResumeRestoresConfiguration := by
  rintro p v l s hr hc hl rfl
  refine ⟨fun hv hn hd hready => ?_, fun hv hready hok => ?_, fun k hk hready hf => ?_⟩
  · have ha : PollAnswers s p 4 := pollAnswers_of_ready hready fun j hj _ => by omega
    refine ⟨fun hok hva => ?_, fun k hk hf hva => ?_⟩
    · obtain ⟨b, u, n, h32, hres, hexec⟩ := perform_resumed hr hl hready.1 (hok.mono (by omega)) ha hv
      have hrow := hres.row hc hv hn hd (updateAnswers_of_plan (v := v) fun j hj => by
        rw [hres.draw, show p + 8 + (8 * j + 3) = p + 8 * j + 11 by omega]
        exact hva j (hres.plan ▸ hj))
      obtain ⟨t, ht, hidle, hh, hbuf, hlog, hout⟩ := syncBody_completes hrow (hres.passed.busOwner.trans hr.2)
        ((hres.okNext (n := 32) hok).mono (syncOut_length_le ..)) h32
      refine ⟨t, hexec.trans ht, hidle, hh.trans hres.withLines_h, hbuf.trans hres.passed.buf,
        hlog.trans hres.passed.log, ?_⟩
      rw [hout, hres.syncOut]
      simp [withLines, hres.passed.out, syncEnd]
    · obtain ⟨b, u, n, h32, hres, hexec⟩ := perform_resumed hr hl hready.1 (hf.1.mono (by omega)) ha hv
      have hrow := hres.row hc hv hn hd (updateAnswers_of_fails (v := v) (hres.failsAt hf) fun j hj => by
        rw [hres.draw, show p + 8 + (8 * j + 3) = p + 8 * j + 11 by omega]
        exact hva j hj)
      obtain ⟨t, ht, hidle, hh, hbuf, hout⟩ := syncBody_fails hrow (hres.passed.busOwner.trans hr.2)
        (hres.syncOut ▸ hk) (hres.failsAt hf) h32
      refine ⟨t, hexec.trans ht, hidle, hh.trans hres.withLines_h, hbuf.trans hres.passed.buf, ?_⟩
      rw [hout, hres.syncOut, hres.passed.out]
      rfl
  · have ha : PollAnswers s p 4 := pollAnswers_of_ready hready fun j hj _ => by omega
    obtain ⟨t, ht, hidle, hh, hbuf, hlog, hout⟩ :=
      perform_unknown (op := .resume) (args := Args.zero) (.inr ⟨rfl, rfl⟩) hr hl hready.1 hok ha hv
    exact ⟨t, ht, hidle, hh, hbuf, hlog, hout⟩
  · obtain ⟨u, hperform, hat⟩ :=
      perform_negotiates (op := .resume) (args := Args.zero) (.inr ⟨rfl, rfl⟩) hr.1 hl
    have hp := hready.1
    have hlength : (negotiationOut s.cfg (p + 1)).length = p + 8 := negotiationOut_length ..
    exact perform_negotiation_fails hr hperform (negotiation_row hat hp (hf.pollAnswers hready))
      (hlength.trans_le (by omega)) (hk.trans_eq hlength.symm) hf

end Sys2Proof.Machine
end

section
/-! CERTIFICATE. Whatever is answered, `init` and `resume` end, ready or failed (44_lifecycle.md rules R231, R243 to R245,
R259, R302, R307). -/

namespace Sys2Proof.Machine

/-! ### Runs that end (R28) -/

/-- A run whose every phase moves, and keeps `P`, ends with `P`. -/
theorem runPhases_ends {P : State → Prop} {q : Requester} {op : OpSel} {args : Args}
    (moves : ∀ u, P u → Inside q op args u → ∃ u', phaseTurn q u = .moved u' ∧ P u') {n : Nat} {u : State} (hu : P u)
    (hin : Inside q op args u) (hn : (u.ctx q).left ≤ n) :
    ∃ t, runPhases n q u = .next t ∧ t.idle q = true ∧ P t := by
  induction n generalizing u with
  | zero => exact absurd hn (not_le.mpr (Ctx.left_pos hin.not_idle))
  | succ n ih =>
    obtain ⟨u', hturn, hu'⟩ := moves u hu hin
    rw [phase_moved hin.not_idle hturn]
    obtain hidle | hgoes := phaseTurn_went hturn hin.opHasPhase
    · exact ⟨u', runPhases_idle _ _ _ hidle, hidle, hu'⟩
    · exact ih hu' (hin.goes hgoes) (Nat.le_of_lt_succ (lt_of_lt_of_le hgoes.left hn))

/-! ### Where a negotiating operation stands -/

/-- The last output is an answer to the requester. -/
def AnsweredLast (q : Requester) (a : Answer) (t : State) : Prop := t.out.getLast? = some (.response q a)

/-- How a negotiating operation of `s` ends: with `OK`, the handle committed with a known variant; with a failure of the
negotiation; or, committed, with one of the updates. -/
inductive NegotiationEnd (q : Requester) (op : OpSel) (s t : State) : Prop
  | committed (v : Variant) (hv : v ≠ .unknown) (kept : op = .resume → v = s.h.variant)
    (answer : AnsweredLast q (.ok .unit) t) (h : t.h = { negotiated s.h with variant := v })
  | failed (c : Code) (hc : c ∈ [Code.eTransport, .eNotReady, .eUnsupportedChip])
    (answer : AnsweredLast q (.fail c) t) (h : t.h = negotiationFailed s.h)
  | syncFailed (ho : op = .resume) (c : Code)
    (hc : c = .eTransport ∨ c = .eTooManyLines ∧ s.cfg.maxIntLines < s.h.nint) (hv : s.h.variant ≠ .unknown)
    (answer : AnsweredLast q (.fail c) t) (h : t.h = negotiated s.h)

/-- The handle of a negotiating operation by its phase. -/
def NegotiationPhase (q : Requester) (op : OpSel) (s u : State) : Prop :=
  match (u.ctx q).phase with
  | .idle => NegotiationEnd q op s u
  | .start => u.h = s.h
  | .neg _ => u.h = (begun s).h ∧ (op = .resume → (u.ctx q).args.resume = true)
  | .poll => u.h = (begun s).h ∧ (op = .resume → (u.ctx q).args.resume = true)
  | .ident _ => u.h = (begun s).h ∧ op = .init
  | .identSkip => u.h = (begun s).h
  | .syncStart => op = .resume ∧ s.h.variant ≠ .unknown ∧ u.h = negotiated s.h
  | .rmw _ _ _ => op = .resume ∧ s.h.variant ≠ .unknown ∧ u.h = negotiated s.h
  | _ => True

/-- A negotiating operation of `s` stands somewhere in its run, the bus free. -/
structure NegotiationAt (q : Requester) (op : OpSel) (s u : State) : Prop where
  cfg : u.cfg = s.cfg
  bus : u.busOwner = none
  at_phase : NegotiationPhase q op s u

section
variable {q : Requester} {op : OpSel} {s t u : State}

theorem negotiationPhase_idle (hi : t.idle q = true) (h : NegotiationEnd q op s t) : NegotiationPhase q op s t := by
  have hp : (t.ctx q).phase = .idle := eq_of_beq hi
  simpa only [NegotiationPhase, hp] using h

/-! ### The ends -/

theorem negotiationPhase_failInit {c : Code} (hc : c ∈ [Code.eTransport, .eNotReady, .eUnsupportedChip])
    (h : t.h = (begun s).h) : NegotiationPhase q op s (t.failInit q c) :=
  negotiationPhase_idle (idle_failInit ..) (.failed c hc (by simp [AnsweredLast])
    (by simp [h, begun, negotiationFailed]))

theorem negotiationPhase_failInitTransport (h : t.h = (begun s).h) :
    NegotiationPhase q op s (t.failInitTransport q) :=
  negotiationPhase_failInit (by simp) h

theorem negotiationPhase_raiseTransport (ho : op = .resume) (hv : s.h.variant ≠ .unknown) (h : t.h = negotiated s.h) :
    NegotiationPhase q op s (t.raiseTransport q) :=
  negotiationPhase_idle (idle_raiseTransport ..) (.syncFailed ho _ (.inl rfl) hv (by simp [AnsweredLast]) h)

/-- The commit ends `init` and leads `resume` to its `syncInterrupts`, its variant kept (R244, R259). -/
theorem negotiationPhase_commitInit {v : Variant} (hruns : (t.ctx q).op = op) (hv : v ≠ .unknown)
    (hkept : op = .resume → v = s.h.variant) (h : t.h = (begun s).h) : NegotiationPhase q op s (commitInit q v t) := by
  have hh : { t.h with variant := v, blockSize := some Config.blockSizeReq, initialized := true, life := .ready } =
      { negotiated s.h with variant := v } := by rw [h]; rfl
  rw [commitInit, hruns, hh]
  split
  · rename_i hop
    have hvar := hkept hop
    subst hvar
    simp only [NegotiationPhase, ctx_goto_same]
    exact ⟨hop, hv, rfl⟩
  · exact negotiationPhase_idle (idle_finish ..) (.committed v hv hkept (by simp [AnsweredLast]) rfl)

theorem negotiationPhase_syncDone (hv : s.h.variant ≠ .unknown) (h : t.h = negotiated s.h) :
    NegotiationPhase q op s (syncDone q t) := by
  have hend (w : State) (hw : w.h = negotiated s.h) : NegotiationPhase q op s (w.done q .unit) :=
    negotiationPhase_idle (idle_finish ..) (.committed _ hv (fun _ => rfl) (by simp [AnsweredLast]) hw)
  unfold syncDone
  split
  · exact hend _ h
  · exact hend _ h

/-! ### The phases of the negotiation (R232 to R243) -/

theorem negotiationPhase_afterNeg {w : NegWrite} (ho : op = .init ∨ op = .resume) (h : t.h = (begun s).h)
    (hr : op = .resume → (t.ctx q).args.resume = true) : NegotiationPhase q op s (afterNeg q w t) := by
  cases w
  case intEn =>
    by_cases hres : (t.ctx q).args.resume = true
    · rw [afterNeg, if_pos hres]
      simp only [NegotiationPhase, ctx_goto_same]
      exact h
    · rw [afterNeg, if_neg hres]
      simp only [NegotiationPhase, ctx_goto_same]
      exact ⟨h, ho.resolve_right (mt hr hres)⟩
  all_goals
    simp only [afterNeg, NegotiationPhase, ctx_goto_same, ctx_setCtx_same]
    exact ⟨h, hr⟩

theorem negotiationPhase_afterPoll {c : Cfg} {x : Byte} (h : t.h = (begun s).h) (hp : (t.ctx q).phase = .poll)
    (hr : op = .resume → (t.ctx q).args.resume = true) : NegotiationPhase q op s (afterPoll q c x t) := by
  unfold afterPoll
  repeat' split
  · exact negotiationPhase_failInit (by simp) h
  · simp only [NegotiationPhase, ctx_setCtx_same, hp]
    exact ⟨h, hr⟩
  · simp only [NegotiationPhase, ctx_goto_same, ctx_setCtx_same]
    exact ⟨h, hr⟩

theorem negotiationPhase_identified {id : Word} (hruns : (t.ctx q).op = op) (hop : op = .init) (h : t.h = (begun s).h) :
    NegotiationPhase q op s (identified q id t) := by
  by_cases hv : classify t.cfg id = .unknown
  · rw [identified_unknown hv]
    exact negotiationPhase_failInit (by simp) h
  · rw [identified_known rfl hv]
    exact negotiationPhase_commitInit hruns hv (fun e => by rw [hop] at e; cases e) h

/-! ### The phases of the updates (R249 to R256) -/

theorem negotiationPhase_rmw {g : RmwReg} {f : RmwHalf} {st : RegStep} (ho : op = .resume)
    (hv : s.h.variant ≠ .unknown) (h : t.h = negotiated s.h) : NegotiationPhase q op s (t.goto q (.rmw g f st)) := by
  simp only [NegotiationPhase, ctx_goto_same]
  exact ⟨ho, hv, h⟩

theorem negotiationPhase_afterRmw {g : RmwReg} (ho : op = .resume) (hv : s.h.variant ≠ .unknown)
    (h : t.h = negotiated s.h) : NegotiationPhase q op s (afterRmw q g t) := by
  cases g <;> simp only [afterRmw] <;> (try split)
  case misc.isTrue | pinmux | en1.isFalse => exact negotiationPhase_rmw ho hv h
  all_goals exact negotiationPhase_syncDone hv h

theorem negotiationPhase_syncBody (ho : op = .resume) (hv : s.h.variant ≠ .unknown) (h : t.h = negotiated s.h)
    (hc : t.cfg = s.cfg) : NegotiationPhase q op s (syncBody q s.h.nint t) := by
  have hh : { t.h with nint := s.h.nint } = negotiated s.h := by rw [h]; rfl
  have hvar : t.h.variant ≠ .unknown := by rw [h]; exact hv
  rw [syncBody, hh, if_neg hvar]
  dsimp only
  repeat' split
  · rename_i hmax
    exact negotiationPhase_idle (idle_finish ..)
      (.syncFailed ho _ (.inr ⟨rfl, hc ▸ hmax⟩) hv (by simp [AnsweredLast]) h)
  · exact negotiationPhase_rmw ho hv rfl
  · exact negotiationPhase_rmw ho hv rfl
  · exact negotiationPhase_syncDone hv rfl

/-! ### Every phase moves -/

/-- Phase N0, no other negotiation running. -/
theorem negotiation_starts (ho : op = .init ∨ op = .resume) (hl : s.h.life ≠ .negotiating) (hruns : (u.ctx q).op = op)
    (h : u.h = s.h) : ∃ u', startTurn q u = .moved u' ∧ NegotiationPhase q op s u' := by
  have hlife : ¬ u.h.life = .negotiating := h ▸ hl
  have hbegin (r : Bool) (hr : op = .resume → r = true) :
      ∃ u', beginNegotiation q r u = .moved u' ∧ NegotiationPhase q op s u' := by
    refine ⟨_, if_neg hlife, ?_⟩
    simp only [NegotiationPhase, ctx_setCtx_same]
    exact ⟨by rw [h]; rfl, hr⟩
  unfold startTurn
  rw [hruns]
  obtain rfl | rfl := ho
  · exact hbegin _ nofun
  · exact hbegin true fun _ => rfl

/-- A single-byte transaction of a negotiation (R232, R236). -/
theorem negotiation_sb {r : SbReq} {ok : Byte → State → State} (hb : u.busOwner = none) (h : u.h = (begun s).h)
    (hok : ∀ x, NegotiationPhase q op s (ok x (u.sb r).2)) :
    ∃ u', sbTurn r (fun t => t.failInitTransport q) ok u = .moved u' ∧ NegotiationPhase q op s u' := by
  refine ⟨_, sbTurn_free hb, ?_⟩
  split
  · exact hok _
  · exact negotiationPhase_failInitTransport h

/-- A transaction of a register access: it fails, goes on or ends with a value. -/
theorem negotiation_access {wr : Bool} {a w : Word} {st : RegStep} {more : RegStep → Phase} {failed : State → State}
    {value : Word → State → State} (hb : u.busOwner = none)
    (next : ∀ t, t.h = u.h → t.cfg = u.cfg → (t.ctx q).op = (u.ctx q).op → NegotiationPhase q op s (failed t) ∧
      (∀ r, NegotiationPhase q op s (t.goto q (more r))) ∧ ∀ v, NegotiationPhase q op s (value v t)) :
    ∃ u', accessTurn q wr a w st more failed value u = .moved u' ∧ NegotiationPhase q op s u' := by
  obtain ⟨hfail, hmore, hvalue⟩ := next (regAccess q wr a w st u).2 (by simp) (by simp)
    (regAccess_ctx_fields q wr a w st u).1
  refine ⟨_, accessTurn_free hb, ?_⟩
  cases (regAccess q wr a w st u).1 with
  | fail => exact hfail
  | more r => exact hmore r
  | value v => exact hvalue v

/-- The step that skips the identification (R243). -/
theorem negotiation_identSkip (hruns : (u.ctx q).op = op) (h : u.h = (begun s).h) :
    ∃ u', identSkipTurn q u = .moved u' ∧ NegotiationPhase q op s u' := by
  have hvar : u.h.variant = s.h.variant := by rw [h]; rfl
  unfold identSkipTurn
  rw [hvar]
  cases hv : s.h.variant with
  | unknown => exact ⟨_, rfl, negotiationPhase_failInit (by simp) h⟩
  | a => exact ⟨_, rfl, negotiationPhase_commitInit hruns (by simp) (fun _ => hv.symm) h⟩
  | b => exact ⟨_, rfl, negotiationPhase_commitInit hruns (by simp) (fun _ => hv.symm) h⟩

/-- A transaction of an update (R252). -/
theorem negotiation_rmw {g : RmwReg} {f : RmwHalf} {st : RegStep} (hb : u.busOwner = none) (ho : op = .resume)
    (hv : s.h.variant ≠ .unknown) (h : u.h = negotiated s.h) :
    ∃ u', rmwTurn q g f st u = .moved u' ∧ NegotiationPhase q op s u' := by
  cases f with
  | read =>
    exact negotiation_access hb fun t ht _ _ => ⟨negotiationPhase_raiseTransport ho hv (ht.trans h),
      fun _ => negotiationPhase_rmw ho hv (ht.trans h), fun _ => negotiationPhase_rmw ho hv (ht.trans h)⟩
  | write =>
    exact negotiation_access hb fun t ht _ _ => ⟨negotiationPhase_raiseTransport ho hv (ht.trans h),
      fun _ => negotiationPhase_rmw ho hv (ht.trans h), fun _ => negotiationPhase_afterRmw ho hv (ht.trans h)⟩

/-- A phase of a negotiating operation moves, the bus free, and leaves the handle as its phase after has it. -/
theorem negotiation_moves {args : Args} (ho : op = .init ∨ op = .resume) (hl : s.h.life ≠ .negotiating)
    (h : NegotiationAt q op s u) (hin : Inside q op args u) :
    ∃ u', phaseTurn q u = .moved u' ∧ NegotiationPhase q op s u' := by
  obtain ⟨hcfg, hb, hat⟩ := h
  have hruns := hin.runs
  have hphase := hin.phase
  unfold NegotiationPhase at hat
  cases hp : (u.ctx q).phase <;> simp only [hp] at hat hphase <;> simp only [phaseTurn, hp]
  case start => exact negotiation_starts ho hl hruns hat
  case neg w =>
    obtain ⟨hh, hr⟩ := hat
    exact negotiation_sb hb hh fun _ => negotiationPhase_afterNeg ho hh hr
  case poll =>
    obtain ⟨hh, hr⟩ := hat
    exact negotiation_sb (ok := afterPoll q u.cfg) hb hh fun _ => negotiationPhase_afterPoll hh hp hr
  case ident st =>
    obtain ⟨hh, hop⟩ := hat
    refine negotiation_access (value := identified q) hb fun t ht _ hctx =>
      ⟨negotiationPhase_failInitTransport (ht.trans hh), fun r => ?_,
        fun v => negotiationPhase_identified (hctx.trans hruns) hop (ht.trans hh)⟩
    simp only [NegotiationPhase, ctx_goto_same]
    exact ⟨ht.trans hh, hop⟩
  case identSkip => exact negotiation_identSkip hruns hat
  case syncStart =>
    obtain ⟨hop, hv, hh⟩ := hat
    have hnint : u.h.nint = s.h.nint := by rw [hh]; rfl
    exact ⟨_, rfl, hnint ▸ negotiationPhase_syncBody hop hv hh hcfg⟩
  case rmw g f st =>
    obtain ⟨hop, hv, hh⟩ := hat
    exact negotiation_rmw hb hop hv hh
  all_goals
    obtain rfl | rfl := ho <;> cases hphase

end

/-- A call that negotiates ends, whatever is answered. -/
theorem perform_negotiation_ends {op : OpSel} {args : Args} {s : State} (ho : op = .init ∨ op = .resume) (hr : Ready s)
    (hl : s.h.life ≠ .negotiating) :
    ∃ t, perform op args s = .next t ∧ t.idle s.cur = true ∧ NegotiationEnd s.cur op s t := by
  have hstart : NegotiationPhase s.cur op s (s.load s.cur op args) := by
    simp only [NegotiationPhase, ctx_load_same]
    rfl
  obtain ⟨t, ht, hidle, -, -, hend⟩ := runPhases_ends (P := NegotiationAt s.cur op s) (n := 64) (u := s.load s.cur op args)
    (fun u hu hin => by
      obtain ⟨u', hturn, hu'⟩ := negotiation_moves ho hl hu hin
      have hframe := phaseTurn_frame hturn
      exact ⟨u', hturn, hframe.cfg.trans hu.cfg, hframe.busOwner.trans hu.bus, hu'⟩)
    ⟨rfl, hr.2, hstart⟩ (inside_load s.cur op args s) (by simp [Ctx.left])
  have hphase : (t.ctx s.cur).phase = .idle := eq_of_beq hidle
  simp only [NegotiationPhase, hphase] at hend
  exact ⟨t, (perform_run hr.1).trans ht, hidle, hend⟩

/-! ### The first transaction of `init` that fails (R245, R302) -/

/-- The transactions of an `init`: steps 1 to 6, and the identifier's unless it is skipped. -/
theorem init_row {r : Bool} {p : Nat} {s u : State} (h : NegAt s.cur .init r (.neg .winEn) (begun s) u)
    (hc : s.cfg.wf = true) (hp : p < 3) (ha : PollAnswers s p 4) :
    NegRow s.cur (fun _ _ => True)
      (negotiationOut s.cfg (p + 1) ++ if r then [] else readRegBus s.cfg s.h.blockSize s.cfg.chipIdReg) (begun s) u := by
  refine (negotiation_row h hp ha).append fun b' s' hat hpass _ => ?_
  cases r with
  | true => exact .arrived trivial
  | false =>
    have hrow := identification_row (by rw [hpass.cfg]; exact hat) (hpass.cfg ▸ hc : b'.cfg.wf = true)
    rw [hpass.cfg, hpass.h] at hrow
    rw [← List.append_nil (ite ..)]
    exact hrow.append fun _ _ _ _ _ => .arrived trivial

theorem readRegBus_length_le (c : Cfg) (bs : Option Nat) (a : Word) : (readRegBus c bs a).length ≤ 4 := by
  unfold readRegBus
  split
  · exact Nat.le_of_ble_eq_true rfl
  · exact (readRegOut_length ..).le

/-- Settles O43: every phase of the two calls moves until they end, and a transaction of `init` that fails ends its row. -/
theorem initEndsReadyOrFailed : Obligations.InitEndsReadyOrFailed := by
  intro r s hr hl
  refine ⟨?_, ?_, ?_⟩
  · obtain ⟨t, ht, hidle, hend⟩ :=
      perform_negotiation_ends (args := { Args.zero with resume := r }) (.inl rfl) hr hl
    refine ⟨t, ht, hidle, ?_⟩
    cases hend with
    | committed v hv kept answer hh =>
      rw [hh]
      exact .inl ⟨answer, rfl, rfl, hv, rfl⟩
    | failed c hc answer hh => exact .inr ⟨⟨c, hc, answer⟩, hh⟩
    | syncFailed ho => cases ho
  · obtain ⟨t, ht, hidle, hend⟩ := perform_negotiation_ends (args := Args.zero) (.inr rfl) hr hl
    refine ⟨t, ht, hidle, ?_⟩
    cases hend with
    | committed v hv kept answer hh =>
      obtain rfl := kept rfl
      exact .inl ⟨answer, hv, hh⟩
    | failed c hc answer hh => exact .inr (.inl ⟨⟨c, hc, answer⟩, hh⟩)
    | syncFailed ho c hc hv answer hh => exact .inr (.inr ⟨⟨c, hc, answer⟩, hv, hh⟩)
  · rintro p k l hc rfl hk hf hready
    obtain ⟨u, hperform, hat⟩ :=
      perform_negotiates (op := .init) (args := { Args.zero with resume := r }) (.inl ⟨rfl, rfl⟩) hr.1 hl
    have hp := hready.1
    have hlen : (negotiationOut s.cfg (p + 1) ++
        if r then [] else readRegBus s.cfg s.h.blockSize s.cfg.chipIdReg).length ≤ 63 := by
      have := readRegBus_length_le s.cfg s.h.blockSize s.cfg.chipIdReg
      rw [List.length_append, negotiationOut_length]
      split
      · simp only [List.length_nil]; omega
      · omega
    exact perform_negotiation_fails hr hperform (init_row hat hc hp (hf.pollAnswers hready)) hlen hk hf

end Sys2Proof.Machine
end

section
/-! SUPPORT. What one step of the machine can do, said once: the entry is taken off the agenda, and what it comes to is one
of these (00_scope.md rule R16, 10_state.md rule R40). -/

namespace Sys2Proof.Machine

/-- What an agenda entry can do to a state that it leads from to a next one. -/
inductive EntryStep (s : State) : State → Prop
  /-- The entry is passed over: its agent has no step, or no handle exists (log 11). -/
  | passed : EntryStep s s
  /-- An instruction is run for a requester; a bus command of another agent leaves the current one (R155, R350). -/
  | ran {i : Instr} (q : Requester) {t : State} (h : exec i (s.setCur q) = .next t) : EntryStep s t
  /-- A packet that arrived on the wrong port is answered with the mark (R111e). -/
  | refused (q : Requester) : EntryStep s (refusePort s q)
  | accepted {q : Requester} (op : OpSel) (args : Args) (h : canCall s q = true) :
    EntryStep s ((s.setCur q).load q op args)
  | advanced {q : Requester} {t : State} (h : phaseTurn q s = .moved t) : EntryStep s t
  | waited {q : Requester} {t : State} (h : phaseTurn q s = .held t) : EntryStep s t
  | irq {t : State} (h : irqTurn s = .moved t) : EntryStep s t
  | dispatchDone (hi : s.irq = .dispatched) (hh : s.idle .handler = true) : EntryStep s (s.setIrq .drained)
  | claimed : EntryStep s (outsideClaim s)
  | released : EntryStep s (outsideRelease s)
  | poked (p : Poke) : EntryStep s (s.setDev (s.dev.poke p))
  | filled (i : Nat) (v : Byte) : EntryStep s (s.setBuf (s.buf.write i v))
  | attached (dev : Nat) (h : s.attached = false) : EntryStep s (attachHandle s dev)
  | detached (h : quiet s = true) : EntryStep s { s with attached := false }

/-- The end of the dispatch: it goes on, or the handler is inside an operation or no dispatch runs (R281). -/
theorem dispatchDone_eq (s : State) : dispatchDone s =
    if s.irq = .dispatched ∧ s.idle .handler = true then .moved (s.setIrq .drained) else .held s := by
  simp [dispatchDone]

theorem acceptOutcome_entryStep {s t : State} {q : Requester} {p : Packet} (h : acceptOutcome s q p = .next t) :
    EntryStep s t := by
  unfold acceptOutcome at h
  repeat' split at h
  all_goals cases h
  · exact .accepted _ _ ‹_›
  · exact .passed
  · exact .refused q
  · exact .passed

/-- An entry that runs an instruction runs it for some requester; one that leads to a next state itself does one of the
things named. -/
theorem eventTask_entryStep (s : State) (e : Event) :
    (∀ i u, eventTask s e = .run i u → ∃ q, u = s.setCur q) ∧
      ∀ t, eventTask s e = .done (.next t) → EntryStep s t := by
  cases e <;> refine ⟨fun i u h => ?_, fun t h => ?_⟩ <;> simp only [eventTask] at h
  case deliver.refine_1 q p =>
    unfold deliverTask at h
    repeat' split at h
    all_goals cases h
    exact ⟨q, rfl⟩
  case deliver.refine_2 q p =>
    unfold deliverTask at h
    repeat' split at h
    all_goals cases h
    · exact .refused q
    · exact .passed
    · exact .passed
  case command.refine_1 p =>
    unfold commandTask at h
    repeat' split at h
    all_goals cases h
    exact ⟨s.cur, rfl⟩
  case command.refine_2 p =>
    unfold commandTask at h
    repeat' split at h
    all_goals cases h
    all_goals exact .passed
  case accept.refine_2 q p =>
    split at h
    · exact acceptOutcome_entryStep (Task.done.inj h)
    · cases h; exact .passed
  case advance.refine_2 q =>
    split at h
    · obtain ht | ht := outcome_next (Task.done.inj h)
      · exact .advanced ht
      · exact .waited ht
    · cases h; exact .passed
  case irq.refine_2 =>
    split at h
    · obtain ht | ht := outcome_next (Task.done.inj h)
      · exact .irq ht
      · obtain rfl := irqTurn_held ht
        exact .passed
    · cases h; exact .passed
  case dispatchDone.refine_2 =>
    rw [dispatchDone_eq] at h
    repeat' split at h
    all_goals cases h
    · rename_i hd
      exact .dispatchDone hd.1 hd.2
    · exact .passed
    · exact .passed
  case claim.refine_2 => cases h; split; exacts [.claimed, .passed]
  case release.refine_2 => cases h; split; exacts [.released, .passed]
  case poke.refine_2 p => cases h; exact .poked p
  case fill.refine_2 i v => cases h; exact .filled i v
  case attach.refine_2 dev =>
    cases h
    split
    · exact .passed
    · exact .attached dev (by simpa using ‹¬ s.attached = true›)
  case detach.refine_2 =>
    repeat' split at h
    all_goals cases h
    · exact .detached ‹_›
    · exact .passed
  all_goals cases h

/-- What a step that leads to a next state has done. -/
theorem step_entryStep {s t : State} (h : step s = .next t) : ∃ rest, EntryStep { s with agenda := rest } t := by
  cases hc : s.cfg.wf with
  | false => rw [step_malformed hc] at h; cases h
  | true =>
    cases ha : s.agenda with
    | nil =>
      rw [step_nil hc ha] at h
      cases h
      exact ⟨s.agenda, .passed⟩
    | cons e rest =>
      refine ⟨rest, ?_⟩
      obtain ⟨hrun, hdone⟩ := eventTask_entryStep { s with agenda := rest } e
      cases hk : eventTask { s with agenda := rest } e with
      | run i u =>
        obtain ⟨q, rfl⟩ := hrun i u hk
        exact .ran q (step_run hc ha hk ▸ h)
      | done o =>
        rw [step_done hc ha hk] at h
        exact hdone t (h ▸ hk)

end Sys2Proof.Machine
end

section
/-! CERTIFICATE. `enableInterrupts` and `disableInterrupts` (45_interrupt_delivery_lock.md rules R272, R273, R284 to
R287). -/

namespace Sys2Proof.Machine

/-- The answer to a registration call, by its outcome (R272, R284). -/
def registrationAnswer (ok : Bool) : Answer := if ok then .ok .unit else .fail .eTransport

/-- What a call of the two operations leaves that made its registration call: nothing at the device, the buffers or the
waiters, the call on the IRQ port, and its answer. -/
structure Registered (q : Requester) (call : Output) (s t : State) : Prop where
  idle : t.idle q = true
  dev : t.dev = s.dev
  buf : t.buf = s.buf
  waiters : t.waiters = s.waiters
  out : t.out = s.out ++ [call, .response q (registrationAnswer (s.draw 0).outcome)]

/-- The registration, the bus free (R272). -/
theorem registerTurn_free {q : Requester} {s : State} (hb : s.busOwner = none) :
    ∃ t, registerTurn q s = .moved t ∧ Registered q .irqRegister s t ∧
      t.h = { s.h with cbRegistered := s.h.cbRegistered || (s.draw 0).outcome } := by
  rw [registerTurn, withBus_free _ hb, nextDraw_eq_draw]
  refine ⟨_, rfl, ?_⟩
  cases ho : (s.draw 0).outcome with
  | true => exact ⟨⟨idle_finish .., rfl, rfl, rfl, by simp [registrationAnswer, ho]⟩, by simp⟩
  | false => exact ⟨⟨idle_raiseTransport .., rfl, rfl, rfl, by simp [registrationAnswer, ho]⟩, by simp⟩

/-- Settles O53: the first phase frees the lock, the second registers. -/
theorem enableFreesLockAndRegisters : Obligations.EnableFreesLockAndRegisters := by
  rintro s ⟨hi, hb⟩
  have hstart : phaseTurn s.cur (s.load s.cur .enableInterrupts Args.zero) =
      .moved (((s.load s.cur .enableInterrupts Args.zero).setLock .free).goto s.cur .registerCb) := by
    simp [phaseTurn, startTurn, startEnable]
  obtain ⟨t, hreg, hend, hh⟩ := registerTurn_free (q := s.cur)
    (s := ((s.load s.cur .enableInterrupts Args.zero).setLock .free).goto s.cur .registerCb) hb
  refine ⟨t, ?_, hend.idle, hh, hend.dev, hend.buf, hend.waiters, hend.out⟩
  exact (perform_from hi hstart).trans
    ((phase_moved (by simp) (by simpa [phaseTurn] using hreg)).trans (runPhases_idle _ _ _ hend.idle))

/-- The unregistration, the bus free: its outcome is kept for the phase that follows (R284). -/
theorem unregisterTurn_free {q : Requester} {s : State} (hb : s.busOwner = none) :
    ∃ t, unregisterTurn q s = .moved t ∧
      (t.ctx q).phase = .lockFree ∧ decide ((t.ctx q).res = .ok) = (s.draw 0).outcome ∧
      t.h = { s.h with cbRegistered := s.h.cbRegistered && !(s.draw 0).outcome } ∧
      t.dev = s.dev ∧ t.buf = s.buf ∧ t.waiters = s.waiters ∧ t.out = s.out ++ [.irqUnregister] := by
  rw [unregisterTurn, withBus_free _ hb, nextDraw_eq_draw]
  refine ⟨_, rfl, ?_⟩
  cases (s.draw 0).outcome with
  | true => exact ⟨by simp, by simp, by simp, rfl, rfl, rfl, rfl⟩
  | false => exact ⟨by simp, by simp, by simp, rfl, rfl, rfl, rfl⟩

/-- The last phase frees the lock and answers by the outcome kept (R284, R286). -/
theorem lockFreeTurn_ends (q : Requester) (s : State) :
    ∃ t, lockFreeTurn q s = .moved t ∧ t.idle q = true ∧ t.h = { s.h with lock := .free } ∧
      t.dev = s.dev ∧ t.buf = s.buf ∧ t.waiters = s.waiters ∧
      t.out = s.out ++ [.response q (registrationAnswer (decide ((s.ctx q).res = .ok)))] := by
  refine ⟨_, rfl, ?_⟩
  by_cases hr : (s.ctx q).res = .ok
  · simp only [hr, if_true]
    exact ⟨idle_finish .., rfl, rfl, rfl, rfl, rfl⟩
  · simp only [hr, if_false]
    exact ⟨idle_raiseTransport .., rfl, rfl, rfl, rfl, rfl⟩

/-- Settles O54: the wait is passed, the unregistration and the freeing of the lock follow. -/
theorem disableUnregistersAndFrees : Obligations.DisableUnregistersAndFrees := by
  rintro s ⟨hi, hb⟩ hl hw
  have hstart : phaseTurn s.cur (s.load s.cur .disableInterrupts Args.zero) =
      .moved (((s.load s.cur .disableInterrupts Args.zero).setLock .disabled).goto s.cur .unregisterCb) := by
    simp [phaseTurn, startTurn, startDisable, hl, hw]
  obtain ⟨u, hunreg, hphase, hres, hhu, hdevu, hbufu, hwaitu, houtu⟩ := unregisterTurn_free (q := s.cur)
    (s := ((s.load s.cur .disableInterrupts Args.zero).setLock .disabled).goto s.cur .unregisterCb) hb
  obtain ⟨t, hfree, hidle, hht, hdevt, hbuft, hwaitt, houtt⟩ := lockFreeTurn_ends s.cur u
  have hout : t.out = s.out ++
      [.irqUnregister, .response s.cur (registrationAnswer (s.draw 0).outcome)] := by
    rw [houtt, houtu, hres, List.append_assoc]
    rfl
  refine ⟨t, ?_, hidle, hht.trans (by rw [hhu]; rfl), hdevt.trans hdevu, hbuft.trans hbufu, hwaitt.trans hwaitu, hout⟩
  calc exec .disableInterrupts s
      = runPhases 63 s.cur _ := perform_from hi hstart
    _ = runPhases 62 s.cur u := phase_moved (by simp) (by simpa [phaseTurn] using hunreg)
    _ = runPhases 61 s.cur t := phase_moved (by simp [hphase]) (by simpa [phaseTurn, hphase] using hfree)
    _ = .next t := runPhases_idle _ _ _ hidle

/-- A `disableInterrupts` during a dispatch joins the waiters at its first phase (R285). -/
theorem perform_disable_inFlight {args : Args} {s : State} (hi : s.idle s.cur = true) (hl : s.h.lock = .irqInFlight) :
    perform .disableInterrupts args s = .next (joinWaiters s.cur (s.load s.cur .disableInterrupts args)) := by
  have hheld : phaseTurn s.cur (s.load s.cur .disableInterrupts args) =
      .held (joinWaiters s.cur (s.load s.cur .disableInterrupts args)) := by
    simp [phaseTurn, startTurn, startDisable, hl]
  exact (perform_run hi).trans (runPhases_held (n := 63) (by simp [idle_eq]) hheld)

/-- Settles O55: the operation is held at its first phase. -/
theorem disableWaitsForDispatch : Obligations.DisableWaitsForDispatch := by
  intro s hi hl
  refine ⟨_, perform_disable_inFlight hi hl, ?_, ?_, rfl, rfl, rfl, fun r hr => ?_⟩
  · simp [idle_eq, joinWaiters]
  · exact (joinWaiters_mem ..).mpr (.inl rfl)
  · rw [joinWaiters_mem]
    exact or_iff_right hr

end Sys2Proof.Machine
end

section
/-! CERTIFICATE. No step takes the lock from `irq_in_flight` to `disabled` (45_interrupt_delivery_lock.md rules R271, R284,
R285). It holds of every state, also of one whose contexts are at phases their operations do not have. -/

namespace Sys2Proof.Machine

/-! ### What a phase writes of the lock (R271) -/

theorem sbTurn_lock {r : SbReq} {failed : State → State} {ok : Byte → State → State} {s s' : State}
    (h : sbTurn r failed ok s = .moved s') (hf : ∀ t, (failed t).h.lock = t.h.lock)
    (hk : ∀ d t, (ok d t).h.lock = t.h.lock) : s'.h.lock = s.h.lock := by
  obtain ⟨-, rfl | ⟨d, rfl⟩⟩ := sbTurn_moved h
  · exact hf _
  · exact hk d _

theorem accessTurn_lock {q : Requester} {wr : Bool} {a w : Word} {st : RegStep} {more : RegStep → Phase}
    {failed : State → State} {value : Word → State → State} {s s' : State}
    (h : accessTurn q wr a w st more failed value s = .moved s') (hf : ∀ t, (failed t).h.lock = t.h.lock)
    (hk : ∀ v t, (value v t).h.lock = t.h.lock) : s'.h.lock = s.h.lock := by
  have hreg : (regAccess q wr a w st s).2.h.lock = s.h.lock := by simp
  obtain ⟨-, rfl | ⟨r, -, rfl⟩ | ⟨v, rfl⟩⟩ := accessTurn_moved h
  · exact (hf _).trans hreg
  · exact hreg
  · exact (hk v _).trans hreg

theorem blkTurn_lock {q : Requester} {f : Half} {w : WinStep} {s s' : State} (h : blkTurn q f w s = .moved s') :
    s'.h.lock = s.h.lock := by
  unfold blkTurn at h
  split at h
  · rw [halfCommand_eq] at h
    obtain ⟨rfl, -⟩ := withBusFor_moved h
    split <;> simp
  · obtain ⟨-, h⟩ := withBus_moved h
    cases h
    split <;> simp [winWrite]

theorem resetTurn_lock {q : Requester} {s s' : State} (h : resetTurn q s = .moved s') : s'.h.lock = s.h.lock :=
  ((resetTurn_handleStep h (op := .reset) (.inr (.inl rfl))).kept.lock nofun nofun).1

theorem commitInit_lock (q : Requester) (v : Variant) (s : State) : (commitInit q v s).h.lock = s.h.lock := by
  rw [commitInit_h]

theorem syncBody_lock (q : Requester) (n : Nat) (s : State) : (syncBody q n s).h.lock = s.h.lock :=
  ((syncBody_handleStep (q := q) (n := n) (s := s) (op := .resume) (.inr rfl)).kept.lock nofun nofun).1

/-- The lock after a first phase: as it was, or freed by `enableInterrupts`, or disabled by a `disableInterrupts` that found
no dispatch in flight. -/
theorem startTurn_lock {q : Requester} {s s' : State} (h : phaseTurn q s = .moved s') (hs : (s.ctx q).phase = .start) :
    s'.h.lock = s.h.lock ∨ s'.h.lock = .free ∨
      (s.ctx q).op = .disableInterrupts ∧ s.h.lock ≠ .irqInFlight ∧ s'.h.lock = .disabled := by
  by_cases hd : (s.ctx q).op = .disableInterrupts
  · simp only [phaseTurn, hs, startTurn, hd, startDisable] at h
    split at h <;> cases h
    rename_i hn
    exact .inr (.inr ⟨hd, fun hl => hn (by simp [hl]), rfl⟩)
  · by_cases he : (s.ctx q).op = .enableInterrupts
    · simp only [phaseTurn, hs, startTurn, he] at h
      cases h
      exact .inr (.inl rfl)
    · exact .inl ((phaseTurn_handleStep h (by simp [hs])).kept.lock he hd).1

/-- The lock after a phase that moves: only the first phase of a `disableInterrupts` disables it, and not while a dispatch is
in flight (R285). -/
theorem phaseTurn_lock {q : Requester} {s s' : State} (h : phaseTurn q s = .moved s') :
    s'.h.lock = s.h.lock ∨ s'.h.lock = .free ∨
      (s.ctx q).op = .disableInterrupts ∧ s.h.lock ≠ .irqInFlight ∧ s'.h.lock = .disabled := by
  by_cases hs : (s.ctx q).phase = .start
  · exact startTurn_lock h hs
  unfold phaseTurn at h
  split at h
  case h_1 => cases h
  case h_2 hs' => exact absurd hs' hs
  case h_20 => cases h; exact .inr (.inl (by split <;> rfl))
  all_goals refine .inl ?_
  case h_3 => exact accessTurn_lock h (by simp) (by simp)
  case h_4 => exact blkTurn_lock h
  case h_5 | h_8 | h_9 | h_10 | h_11 => exact sbTurn_lock h (by simp) (by simp)
  case h_6 => exact sbTurn_lock h (by simp) fun _ t => by dsimp only; split <;> rfl
  case h_7 =>
    unfold flagsTurn at h
    repeat' split at h
    · exact sbTurn_lock h (by simp) (by simp)
    · cases h; rfl
    · exact sbTurn_lock h (by simp) (by simp)
  case h_12 =>
    refine sbTurn_lock h (by simp) fun _ t => ?_
    dsimp only
    repeat' split
    all_goals rfl
  case h_13 =>
    refine accessTurn_lock h (by simp) fun _ t => ?_
    split
    · rfl
    · exact commitInit_lock ..
  case h_14 =>
    unfold identSkipTurn at h
    split at h <;> cases h
    · rfl
    · exact commitInit_lock ..
  case h_15 => exact resetTurn_lock h
  case h_16 => cases h; exact syncBody_lock ..
  case h_17 => unfold rmwTurn at h; dsimp only at h; split at h <;> exact accessTurn_lock h (by simp) (by simp)
  case h_18 =>
    obtain ⟨-, h⟩ := withBus_moved h
    cases h
    split <;> rfl
  case h_19 =>
    obtain ⟨-, h⟩ := withBus_moved h
    cases h
    rw [setCtx_h]
    split <;> rfl

/-! ### The obligation -/

/-- A call made while a dispatch is in flight does not leave the lock disabled: a `disableInterrupts` waits, and no other
operation disables it. -/
theorem perform_inFlight {op : OpSel} {args : Args} {s t : State} (hl : s.h.lock = .irqInFlight)
    (h : perform op args s = .next t) : t.h.lock ≠ .disabled := by
  have hne : s.h.lock ≠ .disabled := by rw [hl]; nofun
  by_cases ho : op = .disableInterrupts
  · subst ho
    cases hi : s.idle s.cur with
    | false => rw [perform_busy hi] at h; cases h; exact hne
    | true => rw [perform_disable_inFlight hi hl] at h; cases h; exact hne
  · refine perform_inside (P := fun u => u.h.lock ≠ .disabled) (fun u u' hu hin ht => ?_) (fun u u' hu _ ht => ?_)
      hne hne h
    · obtain e | e | ⟨hd, -⟩ := phaseTurn_lock ht
      · rwa [e]
      · rw [e]; nofun
      · exact absurd (hin.runs.symm.trans hd) ho
    · rwa [phaseTurn_held_h ht]

theorem exec_inFlight {i : Instr} {s t : State} (hl : s.h.lock = .irqInFlight) (h : exec i s = .next t) :
    t.h.lock ≠ .disabled := by
  obtain ⟨op, args, -, -, e⟩ | ⟨-, hk⟩ := exec_kinds i s
  · exact perform_inFlight hl (e ▸ h)
  · rw [command_h hk h, hl]; nofun

/-- The delivery agent never disables the lock (R276, R280). -/
theorem irqTurn_inFlight {s t : State} (hl : s.h.lock = .irqInFlight) (h : irqTurn s = .moved t) :
    t.h.lock ≠ .disabled := by
  have hne : s.h.lock ≠ .disabled := by rw [hl]; nofun
  obtain ⟨-, -, -, -, rfl⟩ | ⟨-, -, rfl⟩ | ⟨-, -, rfl⟩ | ⟨-, -, rfl⟩ | ⟨-, -, rfl⟩ | ⟨-, rfl⟩ := irqTurn_moved h
  case inr.inr.inl | inr.inr.inr.inr.inr => nofun
  all_goals exact hne

/-- Of all an entry can do, only a phase of an operation could disable the lock. -/
theorem EntryStep.inFlight {s t : State} (he : EntryStep s t) (hl : s.h.lock = .irqInFlight) : t.h.lock ≠ .disabled := by
  have hne : s.h.lock ≠ .disabled := by rw [hl]; nofun
  cases he with
  | ran q h => exact exec_inFlight (s := s.setCur q) hl h
  | advanced h =>
    obtain e | e | ⟨-, hn, -⟩ := phaseTurn_lock h
    · rwa [e]
    · rw [e]; nofun
    · exact absurd hl hn
  | waited h => rwa [phaseTurn_held_h h]
  | irq h => exact irqTurn_inFlight hl h
  | claimed => rwa [outsideClaim_eq]
  | released => rwa [outsideRelease_eq]
  | attached dev => nofun
  | passed | refused | accepted | dispatchDone | poked | filled | detached => exact hne

/-- Settles O56: an entry is taken off the agenda, and none disables a lock in flight. -/
theorem inFlightNeverBecomesDisabled : Obligations.InFlightNeverBecomesDisabled := by
  intro s t hl h
  obtain ⟨rest, he⟩ := step_entryStep h
  exact he.inFlight hl

end Sys2Proof.Machine
end

section
/-! CERTIFICATE. The delivery agent's callback as steps of the machine (45_interrupt_delivery_lock.md rules R274 to R281,
60_exceptions.md rules R313, R314). -/

namespace Sys2Proof.Machine

/-! ### The delivery agent's turn, by its part of the callback -/

section
variable {s : State}

/-- `IRQ.ENTER` (R275). -/
theorem irqTurn_enter (hi : s.irq = .idle) (hc : s.h.cbRegistered = true) (hl : s.dev.line = true)
    (hb : s.busOwner = none) : irqTurn s = .moved { s with irq := .entered, busOwner := some .irq } := by
  simp only [irqTurn, hi, irqEnter, hc, hl, Bool.and_self, if_true]
  exact withBus_free _ hb

/-- The agent waits for the callback, the line and the bus (R275). -/
theorem irqTurn_enter_held (hi : s.irq = .idle)
    (hn : ¬ (s.h.cbRegistered = true ∧ s.dev.line = true ∧ s.busOwner = none)) : irqTurn s = .held s := by
  simp only [irqTurn, hi, irqEnter, Bool.and_eq_true]
  split
  · rename_i hcl
    exact withBus_busy _ fun hb => hn ⟨hcl.1, hcl.2, hb⟩
  · rfl

/-- `IRQ.GATE` with the lock disabled: the interrupt is spurious (R276). -/
theorem irqTurn_gate_disabled (hi : s.irq = .entered) (hl : s.h.lock = .disabled) : irqTurn s = .moved
    { s with irq := .idle, busOwner := none, log := s.log ++ [.spuriousIrq] } := by
  simp only [irqTurn, hi, irqGate, hl, if_true]
  rfl

/-- `IRQ.GATE` with the lock free (R276). -/
theorem irqTurn_gate_free (hi : s.irq = .entered) (hl : s.h.lock = .free) : irqTurn s = .moved
    { s with irq := .gated, h := { s.h with lock := .irqInFlight } } := by
  simp only [irqTurn, hi, irqGate, hl, reduceCtorEq, if_false]
  rfl

/-- `IRQ.RELEASE` (R278). -/
theorem irqTurn_release (hi : s.irq = .gated) (hl : s.h.lock = .irqInFlight) : irqTurn s = .moved
    { s with irq := .dispatched, busOwner := none, out := s.out ++ [.dispatchCall] } := by
  simp only [irqTurn, hi, irqRelease, hl, if_true]
  rfl

/-- A lock freed before the release leaves the agent without a step (log 17). -/
theorem irqTurn_release_held (hi : s.irq = .gated) (hl : s.h.lock ≠ .irqInFlight) : irqTurn s = .held s := by
  simp only [irqTurn, hi, irqRelease, hl, if_false]

/-- While the dispatch runs the agent has no step (R281). -/
theorem irqTurn_dispatched (hi : s.irq = .dispatched) : irqTurn s = .held s := by
  simp only [irqTurn, hi]

/-- `IRQ.RECLAIM` (R279). -/
theorem irqTurn_reclaim (hi : s.irq = .drained) (hb : s.busOwner = none) :
    irqTurn s = .moved { s with irq := .reclaimed, busOwner := some .irq } := by
  simp only [irqTurn, hi]
  exact withBus_free _ hb

/-- The agent waits for the bus (R279). -/
theorem irqTurn_reclaim_held (hi : s.irq = .drained) (hb : s.busOwner ≠ none) : irqTurn s = .held s := by
  simp only [irqTurn, hi]
  exact withBus_busy _ hb

/-- `IRQ.EXIT` (R280). -/
theorem irqTurn_exit (hi : s.irq = .reclaimed) : irqTurn s = .moved
    { s with irq := .idle, busOwner := none, waiters := [], h := { s.h with lock := .free } } := by
  simp only [irqTurn, hi]
  rfl

end

/-! ### The steps of the callback -/

section
variable {s t : State} {rest : List Event}

/-- The delivery agent's next step is at the head of the agenda. -/
structure IrqNext (s : State) (rest : List Event) : Prop where
  wf : s.cfg.wf = true
  attached : s.attached = true
  agenda : s.agenda = .irq :: rest

theorem IrqNext.step_eq (h : IrqNext s rest) : step s = (irqTurn { s with agenda := rest }).outcome := by
  obtain ⟨-, hirq, -⟩ := step_agents (rest := rest) h.wf h.attached
  exact hirq h.agenda

theorem IrqNext.step_moved (h : IrqNext s rest) (ht : irqTurn { s with agenda := rest } = .moved t) :
    step s = .next t := by
  rw [h.step_eq, ht]; rfl

theorem IrqNext.step_held (h : IrqNext s rest) (ht : irqTurn { s with agenda := rest } = .held t) :
    step s = .next t := by
  rw [h.step_eq, ht]; rfl

/-- `DISPATCH.done` of a handler inside no operation (R281). -/
theorem step_dispatchDone (hw : s.cfg.wf = true) (ha : s.attached = true) (hg : s.agenda = .dispatchDone :: rest)
    (hi : s.irq = .dispatched) (hh : s.idle .handler = true) :
    step s = .next { s with agenda := rest, irq := .drained } := by
  obtain ⟨-, -, hdone⟩ := step_agents (rest := rest) hw ha
  rw [hdone hg, dispatchDone_eq, if_pos ⟨hi, hh⟩]
  rfl

/-- It waits for a handler inside an operation (log 27). -/
theorem step_dispatchDone_held (hw : s.cfg.wf = true) (ha : s.attached = true)
    (hg : s.agenda = .dispatchDone :: rest) (hh : s.idle .handler = false) :
    step s = .next { s with agenda := rest } := by
  obtain ⟨-, -, hdone⟩ := step_agents (rest := rest) hw ha
  have hbusy : ({ s with agenda := rest } : State).idle .handler = false := hh
  rw [hdone hg, dispatchDone_eq, if_neg (by simp [hbusy])]
  rfl

end

/-! ### The obligations -/

/-- Settles O57: the entry, and the gate and the release that follow it. -/
theorem interruptIsDelivered : Obligations.InterruptIsDelivered := by
  intro s rest hw ha hi
  refine ⟨fun hg => ⟨fun hn => ?_, fun hc hl hb => ?_⟩, fun hc hl hb => ⟨fun hg hk => ?_, fun hg hk => ?_⟩⟩
  · exact IrqNext.step_held ⟨hw, ha, hg⟩ (irqTurn_enter_held hi hn)
  · exact IrqNext.step_moved ⟨hw, ha, hg⟩ (irqTurn_enter hi hc hl hb)
  · rw [hb]
    exact Eq.trans (core_run_succ 2 (IrqNext.step_moved ⟨hw, ha, hg⟩ (irqTurn_enter hi hc hl hb)))
      (Eq.trans (core_run_succ 1 (IrqNext.step_moved ⟨hw, ha, rfl⟩ (irqTurn_gate_free rfl hk)))
        (core_run_succ 0 (IrqNext.step_moved ⟨hw, ha, rfl⟩ (irqTurn_release rfl rfl))))
  · rw [hb, hi]
    exact Eq.trans (core_run_succ 1 (IrqNext.step_moved ⟨hw, ha, hg⟩ (irqTurn_enter hi hc hl hb)))
      (core_run_succ 0 (IrqNext.step_moved ⟨hw, ha, rfl⟩ (irqTurn_gate_disabled rfl hk)))

/-- Settles O58: each clause is the agent's turn at its part of the callback. -/
theorem deliveryConditions : Obligations.DeliveryConditions := by
  intro s rest hw ha hg
  have h : IrqNext s rest := ⟨hw, ha, hg⟩
  refine ⟨fun hi hl => ?_, fun hi hl => ?_, fun hi hl => ?_, fun hi hl => ?_, fun hi => ?_, fun hi hb => ?_,
    fun hi hb => ?_⟩
  · exact h.step_moved (irqTurn_gate_disabled hi hl)
  · exact h.step_moved (irqTurn_gate_free hi hl)
  · exact h.step_moved (irqTurn_release hi hl)
  · exact h.step_held (irqTurn_release_held hi hl)
  · exact h.step_held (irqTurn_dispatched hi)
  · exact h.step_moved (irqTurn_reclaim hi hb)
  · exact h.step_held (irqTurn_reclaim_held hi hb)

/-- Settles O59: the end of the dispatch, the re-claim and the exit. -/
theorem interruptReturns : Obligations.InterruptReturns := by
  intro s rest hw ha hi
  refine ⟨fun hh hb hg => ?_, fun hh hg => step_dispatchDone hw ha hg hi hh,
    fun hh hg => step_dispatchDone_held hw ha hg hh⟩
  rw [hb]
  exact Eq.trans (core_run_succ 2 (step_dispatchDone hw ha hg hi hh))
    (Eq.trans (core_run_succ 1 (IrqNext.step_moved ⟨hw, ha, rfl⟩ (irqTurn_reclaim rfl hb)))
      (core_run_succ 0 (IrqNext.step_moved ⟨hw, ha, rfl⟩ (irqTurn_exit rfl))))

end Sys2Proof.Machine
end

section
/-! CERTIFICATE. A handler that disables interrupts waits for its own dispatch (45_interrupt_delivery_lock.md rules R281,
R285, R357). -/

namespace Sys2Proof.Machine

theorem SelfDisabled.handler_busy {s : State} (h : SelfDisabled s) : s.idle .handler = false := by
  obtain ⟨-, -, -, hphase, -⟩ := h
  simp [idle_eq, hphase]

/-- A call by another requester leaves the handler waiting. -/
theorem SelfDisabled.of_callFrame {q : Requester} {d : Prop} {s t : State} (h : SelfDisabled s) (hq : q ≠ .handler)
    (hf : CallFrame q d s t) : SelfDisabled t := by
  obtain ⟨hattached, hirq, hop, hphase, hwaits⟩ := h
  have hctx := hf.others .handler hq.symm
  exact ⟨hf.attached.trans hattached, hf.irq.trans hirq, hctx ▸ hop, hctx ▸ hphase,
    (hf.waits .handler hq.symm).mpr hwaits⟩

/-- A waiter more does not end the wait. -/
theorem SelfDisabled.joinWaiters {s : State} (h : SelfDisabled s) (q : Requester) :
    SelfDisabled (joinWaiters q s) := by
  obtain ⟨hattached, hirq, hop, hphase, hwaits⟩ := h
  exact ⟨hattached, hirq, hop, hphase, (joinWaiters_mem ..).mpr (.inr hwaits)⟩

/-- The handler's own phase is the wait, which only its leaving the waiters could end (log 18). -/
theorem SelfDisabled.handler_held {s : State} (h : SelfDisabled s) :
    phaseTurn .handler s = .held (Machine.joinWaiters .handler s) := by
  obtain ⟨-, -, hop, hphase, hwaits⟩ := h
  simp [phaseTurn, hphase, startTurn, hop, startDisable, hwaits]

/-- An instruction leaves the handler waiting: the handler is inside its operation and calls none. -/
theorem SelfDisabled.exec {i : Instr} {s t : State} (h : SelfDisabled s) (ht : exec i s = .next t) :
    SelfDisabled t := by
  obtain ⟨op, args, -, -, e⟩ | ⟨-, ⟨r, e⟩ | ⟨r, side, e⟩⟩ := exec_kinds i s
  · have hperform := e ▸ ht
    by_cases hq : s.cur = .handler
    · rw [perform_busy (hq ▸ h.handler_busy)] at hperform
      cases hperform
      exact h
    · exact h.of_callFrame hq (perform_callFrame hperform)
  · obtain rfl | ⟨-, rfl⟩ := sbCommand_next (e ▸ ht) <;> exact h
  · obtain rfl | rfl | ⟨-, rfl⟩ := blkCommand_next (e ▸ ht) <;> exact h

/-- No entry ends the wait: the handler's phase is held, the dispatch cannot end with the handler inside an operation, the
delivery agent waits for the dispatch, and nothing else reaches the handler. -/
theorem SelfDisabled.entryStep {s t : State} (h : SelfDisabled s) (he : EntryStep s t) : SelfDisabled t := by
  obtain ⟨hattached, hirq, -⟩ := id h
  cases he with
  | ran q hexec => exact SelfDisabled.exec (s := s.setCur q) h hexec
  | @accepted q op args hcall =>
    have hq : q ≠ .handler := by
      rintro rfl
      exact absurd (canCall_idle hcall) (by simp [h.handler_busy])
    exact SelfDisabled.of_callFrame (s := s.setCur q) h hq (((frame_load ..).mpr (.refl ..)).callFrame False)
  | @advanced q _ hturn =>
    by_cases hq : q = .handler
    · subst hq
      rw [h.handler_held] at hturn
      cases hturn
    · exact h.of_callFrame hq ((phaseTurn_frame hturn).callFrame False)
  | @waited q _ hturn =>
    obtain rfl | ⟨-, -, rfl⟩ := phaseTurn_held hturn
    · exact h
    · exact h.joinWaiters q
  | irq hturn =>
    rw [irqTurn_dispatched hirq] at hturn
    cases hturn
  | dispatchDone _ hidle => exact absurd hidle (by simp [h.handler_busy])
  | claimed => rw [outsideClaim_eq]; exact h
  | released => rw [outsideRelease_eq]; exact h
  | attached dev hdetached => exact absurd (hattached.symm.trans hdetached) nofun
  | detached hquiet =>
    obtain ⟨-, -, hidle⟩ := (quiet_iff s).mp hquiet
    exact absurd (hirq.symm.trans hidle) nofun
  | passed | refused | poked | filled => exact h

/-- Settles O60: an entry is taken off the agenda, and none ends the wait. -/
theorem handlerSelfDisableIsStuck : Obligations.HandlerSelfDisableIsStuck := by
  intro s t hs h
  obtain ⟨rest, he⟩ := step_entryStep h
  exact SelfDisabled.entryStep (s := { s with agenda := rest }) hs he

end Sys2Proof.Machine
end

section
/-! CERTIFICATE. A line count above the configured maximum (60_exceptions.md rule R305, 44_lifecycle.md rule R250): rejected
before the variant is looked at, the count written or the bus asked for. -/

namespace Sys2Proof.Machine

/-- Above the maximum the body of `syncInterrupts` is its first check: it logs the count and raises the code (R250). -/
theorem syncBody_tooManyLines {q : Requester} {n : Nat} {s : State} (hn : s.cfg.maxIntLines < n) :
    syncBody q n s = (s.addLog (.tooManyLines n)).raise q .eTooManyLines := if_pos hn

/-- Settles O48: the operation ends with its first phase, whose only updates are the event and the answer. -/
theorem tooManyLinesRejected : Obligations.TooManyLinesRejected := by
  intro n s hi hn
  have hstart : startTurn s.cur (s.load s.cur .syncInterrupts { Args.zero with n := n }) =
      .moved (((s.load s.cur .syncInterrupts { Args.zero with n := n }).addLog (.tooManyLines n)).raise s.cur
        .eTooManyLines) := by
    simp only [startTurn, startSync, ctx_load_same]
    exact congrArg Turn.moved (syncBody_tooManyLines hn)
  refine ⟨_, perform_ends hi hstart (idle_finish ..), idle_finish .., rfl, rfl, rfl, ?_⟩
  simp

end Sys2Proof.Machine
end
